-- ==== Sys2Proof/Word.lean ====
section
/-! DEFINITION. The characters and words of the 480's wires and records (spec 11: multi-byte fields most significant byte first). -/

namespace Sys2Proof

/-- One character of a wire or of a stored record. -/
abbrev Byte := BitVec 8

/-- A two-character field: a chainage, a thrust, a CRC-16. -/
abbrev Word16 := BitVec 16

end Sys2Proof
end

