-- ==== Sys2Proof/Syntax.lean ====
section
/-! DEFINITION. The commands of the 480: one constructor for every row of spec/opcode_table.json, in the table's order.
A PCP request carries the port it arrives on, its TAG and its operand characters as sent (R188). -/

namespace Sys2Proof

/-- The four command ports (R149): CP-A, CP-B, CP-W, CP-E. -/
inductive PortId where
  | a | b | w | e
  deriving DecidableEq, Repr

/-- The rate strap of the command ports and the detection line, sampled at cold start (spec 00, pins page). -/
inductive LineRate where
  | r19200 | r57600
  deriving DecidableEq, Repr

/-- A damaged PCP request frame: its characters from LEN to the last CRC character, and the facts of the outside world that a request found
inside them depends on: the levels of KEY-W and KEY-E (CLAIM, READ_PORTS) and whether an NV write reads back as written (LOCK_READBACK). -/
structure DamagedFrame where
  chars : List Byte
  keyW : Bool
  keyE : Bool
  compares : Bool
  deriving DecidableEq, Repr

/-- The commands. Operands of a row that are not on a wire (what was being sent at a break, whether an NV comparison passed, the
key levels) are the facts of the outside world the event depends on (logs 5, 6, 7, 9). -/
inductive Instr where
  /-- COLD_START (R185): power applied, with the level of the rate strap. -/
  | coldStart (strap : LineRate)
  /-- WARM_RESET (R185). -/
  | warmReset
  /-- PORT_BREAK (R155): `sending` is what the transmitter had begun to send: nothing, the response in hand (0), or the refusal of the
  i-th waiting tag (i, from 1). -/
  | portBreak (port : PortId) (sending : Option Nat)
  /-- PORT_SILENCE_EXPIRY (R154). -/
  | portSilenceExpiry (port : PortId)
  /-- PCP_FRAME_BAD_CRC (R150). -/
  | pcpFrameBadCrc (port : PortId) (frame : DamagedFrame)
  /-- REFUSED_PORT_BUSY_FRAME (R152). -/
  | refusedPortBusyFrame (port : PortId) (tag : Byte)
  /-- UNKNOWN_REQUEST (R151). -/
  | unknownRequest (port : PortId) (tag code : Byte) (ops : List Byte)
  /-- RESPONSE_SENT (R153). -/
  | responseSent (port : PortId)
  /-- READ_INCIDENTS (R16). -/
  | readIncidents (port : PortId) (tag : Byte) (ops : List Byte)
  /-- READ_DETECTION (R21). -/
  | readDetection (port : PortId) (tag : Byte) (ops : List Byte)
  /-- READ_PLANS (R32). -/
  | readPlans (port : PortId) (tag : Byte) (ops : List Byte)
  /-- READ_ENGINE (R71). -/
  | readEngine (port : PortId) (tag : Byte) (ops : List Byte)
  /-- READ_TRAINS (R60). -/
  | readTrains (port : PortId) (tag : Byte) (ops : List Byte)
  /-- READ_BANKS (R97). -/
  | readBanks (port : PortId) (tag : Byte) (ops : List Byte)
  /-- READ_STARTS (R109). -/
  | readStarts (port : PortId) (tag : Byte) (ops : List Byte)
  /-- READ_VELOCITY (R127). -/
  | readVelocity (port : PortId) (tag : Byte) (ops : List Byte)
  /-- READ_FIELD (R148). -/
  | readField (port : PortId) (tag : Byte) (ops : List Byte)
  /-- READ_PORTS (R164), with the levels of KEY-W and KEY-E when it is taken. -/
  | readPorts (port : PortId) (tag : Byte) (ops : List Byte) (keyW keyE : Bool)
  /-- READ_LIBRARY (R186). -/
  | readLibrary (port : PortId) (tag : Byte) (ops : List Byte)
  /-- READ_SLOT (R186). -/
  | readSlot (port : PortId) (tag : Byte) (ops : List Byte)
  /-- LODGE (R3). -/
  | lodge (port : PortId) (tag : Byte) (ops : List Byte)
  /-- CONFIRM (R10). -/
  | confirm (port : PortId) (tag : Byte) (ops : List Byte)
  /-- SET_EVACUATION (R11). -/
  | setEvacuation (port : PortId) (tag : Byte) (ops : List Byte)
  /-- LINK_TRAIN (R12). -/
  | linkTrain (port : PortId) (tag : Byte) (ops : List Byte)
  /-- CLEAR (R13). -/
  | clear (port : PortId) (tag : Byte) (ops : List Byte)
  /-- DETECTION_FRAME_DISCARDED (R17, R197): the characters from TYPE on. -/
  | detectionFrameDiscarded (chars : List Byte)
  /-- STATUS (R18). -/
  | status
  /-- HOTSPOT (R20): zone start, zone end, temperature class as sent. -/
  | hotspot (zoneStart zoneEnd : Word16) (tempClass : Byte)
  /-- LINE_FAULT (R18): the break chainage as sent. -/
  | lineFault (chainage : Word16)
  /-- LINE_OK (R18). -/
  | lineOk
  /-- DETECTION_SILENCE_EXPIRY (R19). -/
  | detectionSilenceExpiry
  /-- SELECT_PLAN (R26). -/
  | selectPlan (port : PortId) (tag : Byte) (ops : List Byte)
  /-- REVERT_PLAN (R28). -/
  | revertPlan (port : PortId) (tag : Byte) (ops : List Byte)
  /-- SWAP_PLAN (R29). -/
  | swapPlan (port : PortId) (tag : Byte) (ops : List Byte)
  /-- SET_DIRECTION (R51). -/
  | setDirection (port : PortId) (tag : Byte) (ops : List Byte)
  /-- RESUME (R47). -/
  | resume (port : PortId) (tag : Byte) (ops : List Byte)
  /-- SET_TRAIN (R59). -/
  | setTrain (port : PortId) (tag : Byte) (ops : List Byte)
  /-- REMOVE_TRAIN (R60). -/
  | removeTrain (port : PortId) (tag : Byte) (ops : List Byte)
  /-- SET_FORCING (R91). -/
  | setForcing (port : PortId) (tag : Byte) (ops : List Byte)
  /-- RELEASE_BANK (R90). -/
  | releaseBank (port : PortId) (tag : Byte) (ops : List Byte)
  /-- COAST_TIMER_EXPIRY (R79), of one bank. -/
  | coastTimerExpiry (bank : Nat)
  /-- START_TIMER_EXPIRY (R83), of one bank. -/
  | startTimerExpiry (bank : Nat)
  /-- DRIVE_REPORT (R81): the reply frame's ADDR and two status characters (R194). -/
  | driveReport (addr hi lo : Byte)
  /-- START_GRANT (R103). -/
  | startGrant
  /-- LINE_DECISION (R137). -/
  | lineDecision
  /-- FIELD_REQUEST_SENT (R129). -/
  | fieldRequestSent
  /-- FIELD_REPLY_DISCARDED (R129, R195): the characters received from the failed frame's first on. -/
  | fieldReplyDiscarded (chars : List Byte)
  /-- REPLY_WINDOW_EXPIRY (R132). -/
  | replyWindowExpiry
  /-- STATION_READING (R111): the reply frame's ADDR and two status characters (R194). -/
  | stationReading (addr hi lo : Byte)
  /-- DWELL_EXPIRY (R120). -/
  | dwellExpiry
  /-- SET_TARGET (R118). -/
  | setTarget (port : PortId) (tag : Byte) (ops : List Byte)
  /-- ENUMERATE (R140). -/
  | enumerate (port : PortId) (tag : Byte) (ops : List Byte)
  /-- CLEAR_ADDRESSES_SILENCE_EXPIRY (R141). -/
  | clearAddressesSilenceExpiry
  /-- IDENTIFY_REPLY (R142): the reply frame's ADDR and two status characters (R194). -/
  | identifyReply (addr hi lo : Byte)
  /-- ASSIGN_REPLY (R142): the reply frame's ADDR and two status characters (R194). -/
  | assignReply (addr hi lo : Byte)
  /-- CLAIM (R158), with the level of the claimant's own key input when it is taken (R159). -/
  | claim (port : PortId) (tag : Byte) (ops : List Byte) (key : Bool)
  /-- YIELD (R160). -/
  | yield (port : PortId) (tag : Byte) (ops : List Byte)
  /-- READ_NOTICES (R170). -/
  | readNotices (port : PortId) (tag : Byte) (ops : List Byte)
  /-- ACK_NOTICES (R171). -/
  | ackNotices (port : PortId) (tag : Byte) (ops : List Byte)
  /-- SET_NOTICE_MASK (R172). -/
  | setNoticeMask (port : PortId) (tag : Byte) (ops : List Byte)
  /-- OPEN_EDIT (R176). -/
  | openEdit (port : PortId) (tag : Byte) (ops : List Byte)
  /-- WRITE_SITE_PART (R177). -/
  | writeSitePart (port : PortId) (tag : Byte) (ops : List Byte)
  /-- LOCK_READBACK (R177): `compares` is whether the NV write read back as written. -/
  | lockReadback (port : PortId) (tag : Byte) (ops : List Byte) (compares : Bool)
  /-- ERASE_SLOT (R179). -/
  | eraseSlot (port : PortId) (tag : Byte) (ops : List Byte)
  /-- WRITE_PART (R179). -/
  | writePart (port : PortId) (tag : Byte) (ops : List Byte)
  /-- SEAL_SLOT (R180). -/
  | sealSlot (port : PortId) (tag : Byte) (ops : List Byte)
  /-- ERASE_LIBRARY (R181). -/
  | eraseLibrary (port : PortId) (tag : Byte) (ops : List Byte)
  /-- CLOSE_EDIT (R182). -/
  | closeEdit (port : PortId) (tag : Byte) (ops : List Byte)
  /-- ERASE_SLOT_DONE (R179): `compares` is whether the NV work read back as written (R178). -/
  | eraseSlotDone (compares : Bool)
  /-- WRITE_PART_DONE (R179). -/
  | writePartDone (compares : Bool)
  /-- SEAL_SLOT_DONE (R180). -/
  | sealSlotDone (compares : Bool)
  /-- ERASE_LIBRARY_DONE (R181): the slot 1 to 16 whose comparison failed, 17 for the clear of the lock, or none. -/
  | eraseLibraryDone (failed : Option Nat)
  /-- CLOSE_EDIT_WRITE_DONE (R183). -/
  | closeEditWriteDone (compares : Bool)
  /-- UPTIME_TICK (R202). -/
  | uptimeTick
  /-- PCP_LEN_INVALID (R150): the LEN character received. -/
  | pcpLenInvalid (port : PortId) (len : Byte)
  deriving DecidableEq, Repr

end Sys2Proof
end

