-- ==== Sys2Proof/Decode.lean ====
section
/-! DEFINITION. The table gives none of the commands bits: no word spells a command. -/

namespace Sys2Proof

/-- The command a word spells by the table's bits: none, since every row of the table has no fields. -/
def decodeTableWord (_nbits _w : Nat) : Option Instr := none

end Sys2Proof
end

