-- ==== Sys2Proof/Machine/State.lean ====
section
/-! DEFINITION. The state of the 480: every block's registers, tables and queues as plain data, the queue of waiting commands, and
the machine right after reset. Names are the spec's; the rule that names a field stands beside it. -/

namespace Sys2Proof.Machine

open Sys2Proof

/-! ### Directions, timers, codes -/

/-- An air direction (spec 00): WEST is toward lower chainage, EAST toward higher. -/
inductive Dir where
  | west | east
  deriving DecidableEq, Repr

/-- A bank's own direction, FWD or REV (R72). -/
inductive Spin where
  | fwd | rev
  deriving DecidableEq, Repr

/-- A bank's present direction (R73). -/
inductive Turn where
  | fwd | rev | unknown
  deriving DecidableEq, Repr

/-- A timer of whole seconds (R192): stopped, seconds remaining, or run out. -/
inductive Timer where
  | stopped
  | running (left : Nat)
  | expired
  deriving DecidableEq, Repr

/-- The completion codes of R191. -/
inductive Completion where
  | done | accepted | refusedAuthority | refusedState | refusedRange | refusedFull | refusedBusy
  | refusedPortBusy | refusedLocked | refusedUnknown | refusedFormat
  deriving DecidableEq, Repr

/-! ### Incidents and detection (01) -/

/-- The class of an incident record (R1). -/
inductive IncidentClass where
  | suspected | confirmed
  deriving DecidableEq, Repr

/-- A reporter (R1). -/
inductive Source where
  | port (p : PortId)
  | detection
  deriving DecidableEq, Repr

/-- A closed stretch of the bore, in chainages (R2). -/
structure Zone where
  lo : Nat
  hi : Nat
  deriving DecidableEq, Repr

/-- One incident record (R1); its index is its place in the table. -/
structure Incident where
  cls : IncidentClass
  zone : Zone
  sources : List Source
  firstReport : Nat
  lastUpdate : Nat
  train : Option Nat
  evacuation : Option Dir
  deriving DecidableEq, Repr

/-- The Incident Register (R1, R14): four entries, and the governing index. -/
structure IncidentRegister where
  table : List (Option Incident)
  governing : Option Nat
  deriving DecidableEq, Repr

/-- The detection line's condition (R17). -/
inductive LineCondition where
  | ok | fault | silent
  deriving DecidableEq, Repr

/-- The Detection Line Receiver (R17). -/
structure Detection where
  condition : LineCondition
  silence : Timer
  breakAt : Option Nat
  refix : Bool
  deriving DecidableEq, Repr

/-! ### Plans and the matcher (02) -/

/-- The Plan Selector (R24, R25): the stack's head is position 1. -/
structure PlanSelector where
  active : Option Nat
  stack : List Nat
  deriving DecidableEq, Repr

/-- The Segment Matcher (R33), with the line condition (R37) and the row identity (R41) last handed on. `flags` lists the segments whose
raw flag is set, in index order. -/
structure Matcher where
  workF : Option Nat
  governing : Option Nat
  flags : List Nat
  matched : Option Nat
  frozen : Bool
  condition : LineCondition
  handed : Option (Nat × Nat)
  deriving DecidableEq, Repr

/-! ### The Response Engine (03) -/

/-- The reason of HOLD (R43). -/
inductive HoldReason where
  | multiFire | directionBlocked | noPlan
  deriving DecidableEq, Repr

/-- The engine state, with its reason in HOLD (R43). -/
inductive EngineState where
  | unconfigured | startup | quiet | alert | active
  | hold (r : HoldReason)
  | resetHold
  deriving DecidableEq, Repr

/-- The latch (R43): a committed direction and the incident index it belongs to. -/
structure Latch where
  dir : Dir
  index : Nat
  deriving DecidableEq, Repr

/-- A demand for one bank (R43). -/
inductive Demand where
  | off
  | run (d : Spin)
  deriving DecidableEq, Repr

/-- One occupancy record (R58); its slot is its place in the list. -/
structure Train where
  number : Nat
  head : Nat
  tail : Nat
  moving : Bool
  deriving DecidableEq, Repr

/-- The Response Engine (R43): `kept` is the stage count kept through HOLD(MULTI_FIRE) (R54), `confirmed` the count of CONFIRMED entries at
the last evaluation (R53), `snapshot` the HOLD snapshot by bank number (R66). -/
structure Engine where
  state : EngineState
  latch : Option Latch
  stage : Option Nat
  kept : Option Nat
  confirmed : Nat
  heat : List Zone
  trains : List (Option Train)
  snapshot : Option (List (Nat × Demand))
  deriving DecidableEq, Repr

/-! ### Banks and the arbiter (04, 05) -/

/-- The ten states of a bank record (R74). -/
inductive BankState where
  | unassigned | verify | off
  | queued (d : Spin)
  | starting (d : Spin)
  | running (d : Spin)
  | stopping (x : Turn)
  | lockedOut | unreachable | atLocal
  deriving DecidableEq, Repr

/-- The forcing of a bank (R73). -/
inductive Forcing where
  | auto | off | fwd | rev
  deriving DecidableEq, Repr

/-- The stop cause (R74). -/
inductive StopCause where
  | commanded | fault | found
  deriving DecidableEq, Repr

/-- The fault reasons of R88. -/
inductive FaultReason where
  | startTimeout | tripped | uncommandedDecel | uncommandedStop | wrongDirection | uncommandedRun
  deriving DecidableEq, Repr

/-- A drive report (R130). -/
inductive Report where
  | stopped
  | accel (d : Spin)
  | run (d : Spin)
  | decel
  | tripped (code : Nat)
  | atLocal
  deriving DecidableEq, Repr

/-- One bank record (R72, R73). The missed-reply count and the present direction are views (log 21). -/
structure Bank where
  number : Nat
  chainage : Nat
  fans : Nat
  thrustPerFan : Nat
  forward : Dir
  address : Nat
  state : BankState
  forcing : Forcing
  demand : Demand
  failures : Nat
  lockoutPending : Bool
  stopCause : Option StopCause
  coast : Timer
  start : Timer
  heatInhibited : Bool
  latest : Option Report
  lastFault : Option FaultReason
  deriving DecidableEq, Repr

/-- The kind of a start queue entry (R99). -/
inductive QueueKind where
  | start | resume
  deriving DecidableEq, Repr

/-- One start queue entry (R99): `cls` is 0 for a forced bank, 1 for the engine's (R100). -/
structure QueueEntry where
  bank : Nat
  cls : Nat
  kind : QueueKind
  deriving DecidableEq, Repr

/-- The Start Arbiter (R98, R99): slots 1 to S in order, the queue in join order. -/
structure Arbiter where
  slots : List (Option Nat)
  queue : List QueueEntry
  deriving DecidableEq, Repr

/-! ### The Velocity Loop (06) -/

/-- The quality of a station reading (R110). -/
inductive Quality where
  | good | suspect | fault
  deriving DecidableEq, Repr

/-- A station reading (R110). -/
structure Reading where
  velocity : Int
  quality : Quality
  at_ : Nat
  deriving DecidableEq, Repr

/-- One station record (R110). Assigned and reachable are views of the unit table (R128). -/
structure Station where
  number : Nat
  chainage : Nat
  weight : Nat
  address : Nat
  reading : Option Reading
  polled : Bool
  used : Bool
  deriving DecidableEq, Repr

/-- The target of ACTIVE (R117). -/
structure Target where
  value : Nat
  unclamped : Nat
  fromHeld : Bool
  deriving DecidableEq, Repr

/-- The flags of the limit record (R125). -/
inductive LimitFlag where
  | clamped | stageLimit | saturated
  deriving DecidableEq, Repr

/-- The limit record (R125). -/
structure LimitRecord where
  clamped : Bool
  stageLimit : Bool
  saturated : Bool
  deriving DecidableEq, Repr

/-- The Velocity Loop. `estimate` is none while INVALID (R115). -/
structure Velocity where
  stations : List Station
  rounds : Nat
  estimate : Option Int
  projected : Option Int
  target : Option Target
  held : Option Nat
  thrust : Option Int
  dwell : Timer
  limits : LimitRecord
  deriving DecidableEq, Repr

/-! ### The field line (07) -/

/-- The kind of a field unit (R128). -/
inductive UnitKind where
  | drive | station
  deriving DecidableEq, Repr

/-- One described position of the unit table (R128); its address is its place in the list, from 1. -/
structure FieldUnit where
  kind : UnitKind
  number : Nat
  assigned : Bool
  reachable : Bool
  missed : Nat
  deriving DecidableEq, Repr

/-- A command for a drive (R133). -/
inductive DriveCommand where
  | run (d : Spin)
  | stop
  deriving DecidableEq, Repr

/-- A command queue entry (R133). -/
structure CommandEntry where
  address : Nat
  command : DriveCommand
  deriving DecidableEq, Repr

/-- A PFP request (R130). -/
inductive FieldRequest where
  | poll (address : Nat)
  | command (address : Nat) (c : DriveCommand)
  | identify
  | assign (n : Nat)
  | clearAddresses
  deriving DecidableEq, Repr

/-- Where the line stands (R129, R141). -/
inductive LinePhase where
  | idle
  | sending (r : FieldRequest)
  | window (r : FieldRequest)
  | silence
  deriving DecidableEq, Repr

/-- The enumeration (R141): `waiting` is accepted with an exchange still in progress, `running n` assigns position n. -/
inductive Enumeration where
  | idle | waiting
  | running (n : Nat)
  deriving DecidableEq, Repr

/-- The Field Line Controller (R128, R133, R137, R138, R141). -/
structure FieldLine where
  units : List FieldUnit
  queue : List CommandEntry
  inRow : Nat
  rota : Option Nat
  phase : LinePhase
  enumeration : Enumeration
  daisyOut : Bool
  deriving DecidableEq, Repr

/-! ### The library (10) -/

/-- A site record as stored (R174): nine parts and their CRC-16. -/
structure SiteStore where
  parts : List (List Byte)
  crc : Word16
  deriving DecidableEq, Repr

/-- The NV site record: a stored record, or one left unusable by a write that failed its comparison (R183). -/
inductive NvSite where
  | stored (r : SiteStore)
  | unusable
  deriving DecidableEq, Repr

/-- The state of a plan slot (R174). -/
inductive SlotState where
  | erased | written | sealed | invalid
  deriving DecidableEq, Repr

/-- One plan slot (R174): part k is present when its written mark is set; the CRC is read while SEALED only. -/
structure PlanSlot where
  state : SlotState
  parts : List (Option (List Byte))
  crc : Word16
  deriving DecidableEq, Repr

/-- The kinds of long operation (R175). -/
inductive OperationKind where
  | none | eraseSlot | writePart | sealSlot | eraseLibrary | closeEdit | enumerate
  deriving DecidableEq, Repr

/-- The operation marker's content (R174): kind and target. -/
structure Marker where
  kind : OperationKind
  slot : Nat
  part : Nat
  deriving DecidableEq, Repr

/-- A violation (R180, R182): part and field, and the slot for step 5 of R182. -/
structure Violation where
  slot : Option Nat
  part : Nat
  field : Nat
  deriving DecidableEq, Repr

/-- The result of a long operation (R178, R143). -/
inductive OperationResult where
  | none | done | violation | nvFault | longChain | shortChain | kindMismatch
  deriving DecidableEq, Repr

/-- The operation in flight (R175): its subject is two characters (`subjA`, `subjB`); WRITE_PART holds the content, SEAL_SLOT the outcome of
its checks, taken with the request (R180). -/
structure InFlight where
  kind : OperationKind
  subjA : Nat
  subjB : Nat
  initiator : PortId
  content : List Byte
  sealOutcome : Option Violation
  deriving DecidableEq, Repr

/-- The operation record (R175, and the OPERATION_DONE layout of 11). -/
structure OperationRecord where
  kind : OperationKind
  subjA : Nat
  subjB : Nat
  result : OperationResult
  detailA : Nat
  detailB : Nat
  initiator : Option PortId
  at_ : Nat
  deriving DecidableEq, Repr

/-- The library mode (R175). -/
inductive LibraryMode where
  | service | edit | closing
  deriving DecidableEq, Repr

/-- The last abort cause (R175). -/
inductive AbortCause where
  | none | incident | token
  deriving DecidableEq, Repr

/-- What the NV library keeps (R174). -/
structure NvLibrary where
  site : NvSite
  slots : List PlanSlot
  lock : Bool
  marker : Option Marker
  deriving DecidableEq, Repr

/-- The Library Controller (R174, R175). `siteCut`: the last start-up check took the NV site record as invalid because its write was cut (R185, step
1), and none has been written since. -/
structure Library where
  nv : NvLibrary
  mode : LibraryMode
  opener : Option PortId
  staged : Option (List (List Byte))
  inFlight : Option InFlight
  record : OperationRecord
  abortCause : AbortCause
  inUse : Option SiteStore
  siteCut : Bool
  deriving DecidableEq, Repr

/-! ### Ports and notices (08, 09) -/

/-- The cause of a token change (R162). -/
inductive TokenCause where
  | claimed | seized | yielded | lapsed | broken
  deriving DecidableEq, Repr

/-- The cause of an INCIDENT_UPDATED (R6, R9 to R13). -/
inductive UpdateCause where
  | zone | cls | source | details
  | merged (freed : Nat)
  | cleared
  deriving DecidableEq, Repr

/-- The subject of a DIRECTION_ADVISORY (R52). -/
inductive Advisory where
  | occupied | evacuation
  deriving DecidableEq, Repr

/-- A notice: its kind with its subject (R165). A temperature class of 0 is a port report's (spec 11, notice subjects). -/
inductive Notice where
  | incidentAdded (index : Nat) (source : Source) (temp : Nat)
  | incidentUpdated (index : Nat) (cause : UpdateCause) (temp : Nat)
  | incidentRefused (source : Source)
  | governingChanged (index : Option Nat)
  | engineState (st : EngineState)
  | directionCommitted (d : Dir)
  | directionAdvisory (a : Advisory)
  | segmentEntered (segment : Nat)
  | detectionFault (c : LineCondition) (breakAt : Option Nat)
  | bankFault (bank : Nat) (reason : FaultReason) (trip : Nat)
  | bankLockedOut (bank : Nat)
  | unitUnreachable (address : Nat) (kind : UnitKind) (number : Nat)
  | velocityLimit (f : LimitFlag)
  | estimateInvalid (valid : Bool)
  | tokenChanged (holder : Option PortId) (cause : TokenCause)
  | stackDropped (slot : Nat)
  | operationDone (kind : OperationKind) (subjA subjB : Nat) (result : OperationResult) (detailA detailB : Nat)
  deriving DecidableEq, Repr

/-- A notice set entry (R166). -/
structure NoticeEntry where
  notice : Notice
  at_ : Nat
  count : Nat
  deriving DecidableEq, Repr

/-- The receive state of a port (R149). -/
inductive ReceiveState where
  | hunting | receiving
  deriving DecidableEq, Repr

/-- The service state of a port (R149). -/
inductive ServiceState where
  | idle | busy
  deriving DecidableEq, Repr

/-- A PCP response (R189): the result's characters without continuation characters, or none. -/
structure Response where
  tag : Byte
  completion : Completion
  result : Option (List Byte)
  deriving DecidableEq, Repr

/-- One command port: the Port Interface's state (R149), the response in hand (R153), and the Notice Unit's set and mask for it (R166). -/
structure Port where
  receive : ReceiveState
  service : ServiceState
  response : Option Response
  waiting : List Byte
  present : Bool
  silence : Timer
  notices : List NoticeEntry
  mask : List Nat
  deriving DecidableEq, Repr

/-- The four ports. -/
structure Ports where
  a : Port
  b : Port
  w : Port
  e : Port
  deriving DecidableEq, Repr

/-- The key inputs as last sampled (R159, R164). -/
structure Keys where
  west : Bool
  east : Bool
  deriving DecidableEq, Repr

/-! ### The whole state -/

/-- The state of the 480. `freeIx` counts the free values drawn (log 8); `pending` is the queue of waiting commands, first in first out. -/
structure State where
  uptime : Nat
  strap : LineRate
  keys : Keys
  ports : Ports
  token : Option PortId
  det : Detection
  inc : IncidentRegister
  plans : PlanSelector
  mat : Matcher
  lib : Library
  eng : Engine
  banks : List Bank
  arb : Arbiter
  vel : Velocity
  fl : FieldLine
  freeIx : Nat
  pending : List Instr
  deriving DecidableEq, Repr

/-- The reasons a step could stop with a fault: none. The spec names no event that stops the 480: bad frames are discarded, requests that
cannot be taken are answered, NV failures are results (R17, R129, R150, R151, R178). -/
inductive Fault where
  deriving DecidableEq, Repr

/-- The reasons for which a command has no meaning. -/
inductive Refusal where
  /-- Raised by exec for a command that has no meaning yet, by the mnemonic of its row; safe. -/
  | notModelled (mnemonic : String)
  deriving DecidableEq, Repr

/-! ### Reset -/

/-- A port after cold start and after warm reset (R149, R166). -/
def Port.afterReset : Port where
  receive := .hunting
  service := .idle
  response := none
  waiting := []
  present := false
  silence := .stopped
  notices := []
  mask := []

/-- An erased plan slot (R174). -/
def PlanSlot.blank : PlanSlot where
  state := .erased
  parts := List.replicate 33 none
  crc := 0

/-- The lengths of the nine parts of a site record (R200). -/
def siteLengths : List Nat := [25, 56, 56, 56, 56, 56, 56, 32, 112]

/-- A library that has never been written (R174): sixteen ERASED slots, a clear lock, and a site record that fails validation; its content is
505 zero characters (DESIGN CHOICE, log 4). -/
def NvLibrary.neverWritten : NvLibrary where
  site := .stored { parts := siteLengths.map (fun n => List.replicate n 0), crc := 0 }
  slots := List.replicate 16 PlanSlot.blank
  lock := false
  marker := none

/-- The operation record of kind NONE (R175). -/
def OperationRecord.blank : OperationRecord where
  kind := .none
  subjA := 0
  subjB := 0
  result := .none
  detailA := 0
  detailB := 0
  initiator := none
  at_ := 0

/-- The limit record with every flag clear (R125). -/
def LimitRecord.allClear : LimitRecord where
  clamped := false
  stageLimit := false
  saturated := false

/-- The 480 right after the first cold start of a part whose library has never been written (R174, R185): the start-up check has found the
site record invalid, the engine is UNCONFIGURED (R43), every table built from the site record is empty. -/
def State.reset : State where
  uptime := 0
  strap := .r19200
  keys := { west := false, east := false }
  ports := { a := .afterReset, b := .afterReset, w := .afterReset, e := .afterReset }
  token := none
  det := { condition := .silent, silence := .stopped, breakAt := none, refix := false }
  inc := { table := [none, none, none, none], governing := none }
  plans := { active := none, stack := [] }
  mat :=
    { workF := none, governing := none, flags := [], matched := none, frozen := false, condition := .silent, handed := none }
  lib :=
    { nv := .neverWritten, mode := .service, opener := none, staged := none, inFlight := none, record := .blank,
      abortCause := .none, inUse := none, siteCut := false }
  eng :=
    { state := .unconfigured, latch := none, stage := none, kept := none, confirmed := 0, heat := [],
      trains := List.replicate 8 none, snapshot := none }
  banks := []
  arb := { slots := [], queue := [] }
  vel :=
    { stations := [], rounds := 0, estimate := none, projected := none, target := none, held := none, thrust := none,
      dwell := .stopped, limits := .allClear }
  fl := { units := [], queue := [], inRow := 0, rota := none, phase := .idle, enumeration := .idle, daisyOut := false }
  freeIx := 0
  pending := []

end Sys2Proof.Machine
end

