-- ==== Sys2Proof/Machine/Bytes.lean ====
section
/-! DEFINITION. Fields in strings of characters: reading them (most significant byte first, spec 11) and writing them (R189, R192). -/

namespace Sys2Proof.Machine

open Sys2Proof

/-- The character at offset `i`, as a number; 0 beyond the end. -/
def getU8 (l : List Byte) (i : Nat) : Nat := (l.getD i 0).toNat

/-- The two-character field at offset `i`. -/
def getU16 (l : List Byte) (i : Nat) : Nat := getU8 l i * 256 + getU8 l (i + 1)

/-- The three-character field at offset `i` (kind sets, R192). -/
def getU24 (l : List Byte) (i : Nat) : Nat := getU16 l i * 256 + getU8 l (i + 2)

/-- The two-character field at offset `i` read in two's complement (velocities, R192). -/
def getI16 (l : List Byte) (i : Nat) : Int :=
  let n := getU16 l i
  if n < 32768 then (n : Int) else (n : Int) - 65536

/-- `len` characters from offset `i`. -/
def slice (l : List Byte) (i len : Nat) : List Byte := (l.drop i).take len

/-- `l` cut or filled with zero characters to `n` of them. -/
def fitTo (n : Nat) (l : List Byte) : List Byte := l.take n ++ List.replicate (n - l.length) 0

/-- One character holding `n`. -/
def byteOf (n : Nat) : Byte := BitVec.ofNat 8 n

/-- A number in one character. -/
def u8 (n : Nat) : List Byte := [byteOf n]

/-- A number in two characters. -/
def u16 (n : Nat) : List Byte := [byteOf (n / 256), byteOf n]

/-- A number in three characters. -/
def u24 (n : Nat) : List Byte := byteOf (n / 65536) :: u16 n

/-- A number in four characters (uptimes, R192). -/
def u32 (n : Nat) : List Byte := u16 (n / 65536) ++ u16 n

/-- A signed number in two characters, two's complement (R192). -/
def i16 (v : Int) : List Byte := u16 (v % 65536).toNat

/-- One character, all ones when absent (R189). -/
def optU8 (o : Option Nat) : List Byte := u8 (o.getD 0xFF)

/-- Two characters, all ones when absent (R189). -/
def optU16 (o : Option Nat) : List Byte := u16 (o.getD 0xFFFF)

/-- A velocity, 0x8000 when absent or INVALID (R192). -/
def optVelocity (o : Option Int) : List Byte :=
  match o with
  | none => u16 0x8000
  | some v => i16 v

/-- A flag: yes 1, no 0 (R192). -/
def flag (b : Bool) : List Byte := u8 (if b then 1 else 0)

/-- A list of records: a count character and the records (R189). -/
def counted {α : Type} (enc : α → List Byte) (l : List α) : List Byte := u8 l.length ++ l.flatMap enc

/-! ### The codes of R192 -/

def Dir.code : Dir → Nat
  | .west => 1
  | .east => 2

def Dir.ofCode : Nat → Option Dir
  | 1 => some .west
  | 2 => some .east
  | _ => none

/-- An evacuation side: 0 absent, 1 WEST, 2 EAST; none when the code is not one of the three. -/
def evacuationOfCode : Nat → Option (Option Dir)
  | 0 => some none
  | 1 => some (some .west)
  | 2 => some (some .east)
  | _ => none

def evacuationCode (o : Option Dir) : Nat := (o.map Dir.code).getD 0

def IncidentClass.code : IncidentClass → Nat
  | .suspected => 1
  | .confirmed => 2

def IncidentClass.ofCode : Nat → Option IncidentClass
  | 1 => some .suspected
  | 2 => some .confirmed
  | _ => none

end Sys2Proof.Machine

namespace Sys2Proof

def PortId.code : PortId → Nat
  | .a => 1
  | .b => 2
  | .w => 3
  | .e => 4

def PortId.ofCode : Nat → Option PortId
  | 1 => some .a
  | 2 => some .b
  | 3 => some .w
  | 4 => some .e
  | _ => none

/-- The class of a port is CENTRE for CP-A and CP-B, PORTAL for CP-W and CP-E (R149). -/
def PortId.isPortal : PortId → Bool
  | .a => false
  | .b => false
  | .w => true
  | .e => true

end Sys2Proof

namespace Sys2Proof.Machine

open Sys2Proof

/-- A port or none: 0 none (R192). -/
def optPortCode (o : Option PortId) : Nat := (o.map PortId.code).getD 0

def Source.code : Source → Nat
  | .port p => p.code
  | .detection => 5

def Forcing.code : Forcing → Nat
  | .auto => 0
  | .off => 1
  | .fwd => 2
  | .rev => 3

def Forcing.ofCode : Nat → Option Forcing
  | 0 => some .auto
  | 1 => some .off
  | 2 => some .fwd
  | 3 => some .rev
  | _ => none

def Spin.code : Spin → Nat
  | .fwd => 1
  | .rev => 2

def Turn.code : Turn → Nat
  | .fwd => 1
  | .rev => 2
  | .unknown => 3

/-- A demand: 0 OFF, 1 FWD, 2 REV (R192 gives the directions; OFF is log 12). -/
def Demand.code : Demand → Nat
  | .off => 0
  | .run d => d.code

def HoldReason.code : HoldReason → Nat
  | .multiFire => 1
  | .directionBlocked => 2
  | .noPlan => 3

def EngineState.code : EngineState → Nat
  | .unconfigured => 0
  | .startup => 1
  | .quiet => 2
  | .alert => 3
  | .active => 4
  | .hold _ => 5
  | .resetHold => 6

def EngineState.reasonCode : EngineState → Nat
  | .hold r => r.code
  | _ => 0

def LineCondition.code : LineCondition → Nat
  | .ok => 1
  | .fault => 2
  | .silent => 3

def BankState.code : BankState → Nat
  | .unassigned => 0
  | .verify => 1
  | .off => 2
  | .queued _ => 3
  | .starting _ => 4
  | .running _ => 5
  | .stopping _ => 6
  | .lockedOut => 7
  | .unreachable => 8
  | .atLocal => 9

/-- The report codes of spec 11.3. -/
def Report.code : Report → Nat
  | .stopped => 1
  | .accel .fwd => 2
  | .accel .rev => 3
  | .run .fwd => 4
  | .run .rev => 5
  | .decel => 6
  | .tripped _ => 7
  | .atLocal => 8

/-- A drive reply's status characters read as a report (R195); none for a code outside 1 to 8. -/
def Report.ofStatus (hi lo : Byte) : Option Report :=
  match hi.toNat with
  | 1 => some .stopped
  | 2 => some (.accel .fwd)
  | 3 => some (.accel .rev)
  | 4 => some (.run .fwd)
  | 5 => some (.run .rev)
  | 6 => some .decel
  | 7 => some (.tripped lo.toNat)
  | 8 => some .atLocal
  | _ => none

def StopCause.code : StopCause → Nat
  | .commanded => 1
  | .fault => 2
  | .found => 3

def FaultReason.code : FaultReason → Nat
  | .startTimeout => 1
  | .tripped => 2
  | .uncommandedDecel => 3
  | .uncommandedStop => 4
  | .wrongDirection => 5
  | .uncommandedRun => 6

def Quality.code : Quality → Nat
  | .good => 1
  | .suspect => 2
  | .fault => 3

def LibraryMode.code : LibraryMode → Nat
  | .service => 1
  | .edit => 2
  | .closing => 3

def SlotState.code : SlotState → Nat
  | .erased => 1
  | .written => 2
  | .sealed => 3
  | .invalid => 4

def AbortCause.code : AbortCause → Nat
  | .none => 0
  | .incident => 1
  | .token => 2

def OperationKind.code : OperationKind → Nat
  | .none => 0
  | .eraseSlot => 1
  | .writePart => 2
  | .sealSlot => 3
  | .eraseLibrary => 4
  | .closeEdit => 5
  | .enumerate => 6

def OperationResult.code : OperationResult → Nat
  | .none => 0
  | .done => 1
  | .violation => 2
  | .nvFault => 3
  | .longChain => 4
  | .shortChain => 5
  | .kindMismatch => 6

def UnitKind.code : UnitKind → Nat
  | .drive => 1
  | .station => 2

def UnitKind.ofCode : Nat → Option UnitKind
  | 1 => some .drive
  | 2 => some .station
  | _ => none

def Completion.code : Completion → Nat
  | .done => 0x00
  | .accepted => 0x01
  | .refusedAuthority => 0x10
  | .refusedState => 0x11
  | .refusedRange => 0x12
  | .refusedFull => 0x14
  | .refusedBusy => 0x15
  | .refusedPortBusy => 0x16
  | .refusedLocked => 0x17
  | .refusedUnknown => 0x18
  | .refusedFormat => 0x19

/-- A timer: seconds left, 0xFFFE expired, 0xFFFF stopped (R192). -/
def Timer.bytes : Timer → List Byte
  | .stopped => u16 0xFFFF
  | .running n => u16 n
  | .expired => u16 0xFFFE

/-- A station reply's status characters read as a velocity and a quality (R195, R111): twelve bits of velocity in two's complement, two bits of
quality; a quality of 3, or a velocity beyond −2,000 to +2,000, is quality FAULT with the velocity as sent. -/
def readingOfStatus (hi lo : Byte) : Int × Quality :=
  let n := hi.toNat * 256 + lo.toNat
  let raw := n % 4096
  let v : Int := if raw < 2048 then (raw : Int) else (raw : Int) - 4096
  let q : Quality :=
    match n / 16384 with
    | 0 => .good
    | 1 => .suspect
    | _ => .fault
  (v, if v < -2000 ∨ 2000 < v then .fault else q)

/-! ### Kind sets (R192, R193) -/

/-- The kinds 1 to 17 (R165). -/
def allKinds : List Nat := [1, 2, 3, 4, 5, 6, 7, 8, 9, 10, 11, 12, 13, 14, 15, 16, 17]

/-- Kind k is named when bit k − 1 of the 24-bit value is 1 (R192). -/
def kindsOfSet (v : Nat) : List Nat := allKinds.filter (fun k => v.testBit (k - 1))

/-- The 24-bit value naming the given kinds. -/
def setOfKinds (ks : List Nat) : Nat := (allKinds.filter (fun k => ks.contains k)).foldl (fun v k => v + 2 ^ (k - 1)) 0

/-! ### Notices on the wire (spec 11, notice subjects) -/

/-- The kind number of a notice (R165). -/
def Notice.kind : Notice → Nat
  | .incidentAdded .. => 1
  | .incidentUpdated .. => 2
  | .incidentRefused .. => 3
  | .governingChanged .. => 4
  | .engineState .. => 5
  | .directionCommitted .. => 6
  | .directionAdvisory .. => 7
  | .segmentEntered .. => 8
  | .detectionFault .. => 9
  | .bankFault .. => 10
  | .bankLockedOut .. => 11
  | .unitUnreachable .. => 12
  | .velocityLimit .. => 13
  | .estimateInvalid .. => 14
  | .tokenChanged .. => 15
  | .stackDropped .. => 16
  | .operationDone .. => 17

def UpdateCause.code : UpdateCause → Nat
  | .zone => 1
  | .cls => 2
  | .source => 3
  | .details => 4
  | .merged _ => 5
  | .cleared => 6

def UpdateCause.freed : UpdateCause → Option Nat
  | .merged h => some h
  | _ => none

def Advisory.code : Advisory → Nat
  | .occupied => 1
  | .evacuation => 2

def LimitFlag.code : LimitFlag → Nat
  | .clamped => 1
  | .stageLimit => 2
  | .saturated => 3

def TokenCause.code : TokenCause → Nat
  | .claimed => 1
  | .seized => 2
  | .yielded => 3
  | .lapsed => 4
  | .broken => 5

/-- The subject's fields of a notice, before they are filled up with 0 to six characters. An absent field carries its absent value (R189, R193): an
absent break chainage is 0xFFFF, also where the new condition is OK and the subject names none (log 35). -/
def Notice.fields : Notice → List Byte
  | .incidentAdded ix src temp => u8 ix ++ u8 src.code ++ u8 temp
  | .incidentUpdated ix cause temp => u8 ix ++ u8 cause.code ++ optU8 cause.freed ++ u8 temp
  | .incidentRefused src => u8 src.code
  | .governingChanged ix => optU8 ix
  | .engineState st => u8 st.code ++ u8 st.reasonCode
  | .directionCommitted d => u8 d.code
  | .directionAdvisory a => u8 a.code
  | .segmentEntered k => u8 k
  | .detectionFault c b => u8 c.code ++ flag b.isSome ++ optU16 b
  | .bankFault n r t => u8 n ++ u8 r.code ++ u8 t
  | .bankLockedOut n => u8 n
  | .unitUnreachable a k n => u8 a ++ u8 k.code ++ u8 n
  | .velocityLimit f => u8 f.code
  | .estimateInvalid v => u8 (if v then 1 else 2)
  | .tokenChanged h c => u8 (optPortCode h) ++ u8 c.code
  | .stackDropped n => u8 n
  | .operationDone k a b r d1 d2 => u8 k.code ++ u8 a ++ u8 b ++ u8 r.code ++ u8 d1 ++ u8 d2

/-- The six characters of a notice's subject. -/
def Notice.subject (n : Notice) : List Byte := fitTo 6 n.fields

/-- A notice entry of a READ_NOTICES result: kind, subject, uptime, occurrence count. -/
def NoticeEntry.bytes (e : NoticeEntry) : List Byte := u8 e.notice.kind ++ e.notice.subject ++ u32 e.at_ ++ u8 e.count

end Sys2Proof.Machine
end

