-- ==== Sys2Proof/Machine/Crc.lean ====
section
/-! DEFINITION. The two CRCs (R201) and the frames that carry them: PCP responses (R189), PFP requests (R194), and the tests of a received
PCP, PFP and detection frame (R150, R195, R197). -/

namespace Sys2Proof.Machine

open Sys2Proof

/-- One shift of the CRC-16 register: polynomial 0x1021, most significant bit first (R201). -/
def crc16Bit (c : Word16) : Word16 := if c.getLsbD 15 then (c <<< 1) ^^^ 0x1021 else c <<< 1

/-- The CRC-16 register after one character. -/
def crc16Byte (c : Word16) (b : Byte) : Word16 :=
  crc16Bit (crc16Bit (crc16Bit (crc16Bit (crc16Bit (crc16Bit (crc16Bit (crc16Bit (c ^^^ (b.setWidth 16 <<< 8)))))))))

/-- The CRC-16 of a string: initial value 0xFFFF, no reflection, no final inversion (R201). -/
def crc16 (l : List Byte) : Word16 := l.foldl crc16Byte 0xFFFF

/-- One shift of the CRC-8 register: polynomial 0x07 (R201). -/
def crc8Bit (c : Byte) : Byte := if c.getLsbD 7 then (c <<< 1) ^^^ 0x07 else c <<< 1

/-- The CRC-8 register after one character. -/
def crc8Byte (c b : Byte) : Byte :=
  crc8Bit (crc8Bit (crc8Bit (crc8Bit (crc8Bit (crc8Bit (crc8Bit (crc8Bit (c ^^^ b))))))))

/-- The CRC-8 of a string: initial value 0 (R201). -/
def crc8 (l : List Byte) : Byte := l.foldl crc8Byte 0

/-- A result cut into pieces of at most 247 characters (R189); `fuel` bounds the number of pieces. -/
def pieces : Nat → List Byte → List (List Byte)
  | 0, _ => []
  | fuel + 1, l => if l.length ≤ 247 then [l] else l.take 247 :: pieces fuel (l.drop 247)

/-- One PCP response frame: SYNC, LEN, TAG, COMPLETION, the characters given, CRC-16 high byte first (R189). -/
def pcpFrame (tag : Byte) (c : Completion) (body : List Byte) : List Byte :=
  let covered := u8 (body.length + 2) ++ tag :: byteOf c.code :: body
  0x5A :: covered ++ u16 (crc16 covered).toNat

/-- Each piece with its continuation character, the number of frames still to follow (R189). -/
def continued : List (List Byte) → List (List Byte)
  | [] => []
  | p :: ps => (byteOf ps.length :: p) :: continued ps

/-- The frames of a response, in the order they are sent (R189). -/
def Response.frames (r : Response) : List (List Byte) :=
  match r.result with
  | none => [pcpFrame r.tag r.completion []]
  | some l => (continued (pieces (l.length + 1) l)).map (pcpFrame r.tag r.completion)

/-- The response that refuses a frame taken while the port was BUSY (R152). -/
def portBusyResponse (tag : Byte) : Response where
  tag := tag
  completion := .refusedPortBusy
  result := none

/-- Everything a BUSY port's transmitter sends before it is IDLE again: the response in hand, then one refusal for each tag waiting, in
arrival order (R153). -/
def Port.outgoing (q : Port) : List (List Byte) :=
  (q.response.toList ++ q.waiting.map portBusyResponse).flatMap Response.frames

/-- The characters of a PFP request (R194, R195). -/
def FieldRequest.frame (r : FieldRequest) : List Byte :=
  let covered : List Byte :=
    match r with
    | .poll a => [byteOf a, 0x01]
    | .command a (.run d) => [byteOf a, 0x02, byteOf d.code]
    | .command a .stop => [byteOf a, 0x03]
    | .identify => [0, 0x10]
    | .assign n => [0, 0x11, byteOf n]
    | .clearAddresses => [0, 0x1F]
  0xC3 :: covered ++ [crc8 covered]

/-- A PCP request frame, from LEN to the last CRC character, is complete: LEN is 2 to 250 and LEN + 2 characters follow it (R150). -/
def pcpComplete (l : List Byte) : Bool :=
  let len := getU8 l 0
  2 ≤ len && len ≤ 250 && l.length == len + 3

/-- The CRC-16 of a complete PCP request frame is correct (R150, R188). -/
def pcpCrcOk (l : List Byte) : Bool :=
  let body := l.take (l.length - 2)
  u16 (crc16 body).toNat == l.drop (l.length - 2)

/-- The payload length of a detection frame's TYPE; none for an unknown TYPE (R196). -/
def detectionPayload : Nat → Option Nat
  | 0x01 => some 0
  | 0x02 => some 5
  | 0x03 => some 2
  | 0x04 => some 0
  | _ => none

/-- A detection frame, from TYPE to its CRC-8, is complete with a correct CRC: its TYPE is known, its payload has the TYPE's length (R17, R197). -/
def detectionCrcOk (l : List Byte) : Bool :=
  match detectionPayload (getU8 l 0) with
  | none => false
  | some n => l.length == n + 2 && [crc8 (l.take (n + 1))] == l.drop (n + 1)

/-- A detection frame is valid (R17): it is complete with a correct CRC, and a HOTSPOT's temperature class is 1 to 3. -/
def detectionFrameOk (l : List Byte) : Bool :=
  detectionCrcOk l && (getU8 l 0 != 0x02 || (1 ≤ getU8 l 5 && getU8 l 5 ≤ 3))

/-- A PFP reply frame, from its ADDR to its CRC-8, has a correct CRC (R195, R201). -/
def replyCrcOk (l : List Byte) : Bool := l.length == 4 && [crc8 (l.take 3)] == l.drop 3

end Sys2Proof.Machine
end

