-- ==== Sys2Proof/Machine/Site.lean ====
section
/-! DEFINITION. The content of the library: the site record's parameters and entries (R200), plan headers and rows (R198, R199), and the
validations of SEAL_SLOT (R180) and CLOSE_EDIT (R182). -/

namespace Sys2Proof.Machine

open Sys2Proof

/-! ### The site record (R200) -/

/-- Part `p` of a site record. -/
def sitePart (r : List (List Byte)) (p : Nat) : List Byte := r.getD p []

/-- L, the tunnel length in m. -/
def siteL (r : List (List Byte)) : Nat := getU16 (sitePart r 0) 0
/-- The coast time in s. -/
def siteCoast (r : List (List Byte)) : Nat := getU16 (sitePart r 0) 2
/-- The start timeout in s. -/
def siteStartTimeout (r : List (List Byte)) : Nat := getU8 (sitePart r 0) 4
/-- The dwell time in s. -/
def siteDwell (r : List (List Byte)) : Nat := getU16 (sitePart r 0) 5
/-- h, the velocity hysteresis in cm/s. -/
def siteVelocityHysteresis (r : List (List Byte)) : Nat := getU8 (sitePart r 0) 7
/-- The target floor in cm/s. -/
def siteFloor (r : List (List Byte)) : Nat := getU16 (sitePart r 0) 8
/-- The target ceiling in cm/s. -/
def siteCeiling (r : List (List Byte)) : Nat := getU16 (sitePart r 0) 10
/-- H, the segment hysteresis in m. -/
def siteSegmentHysteresis (r : List (List Byte)) : Nat := getU8 (sitePart r 0) 12
/-- U, the upstream distance in m. -/
def siteU (r : List (List Byte)) : Nat := getU16 (sitePart r 0) 13
/-- D, the downstream distance in m. -/
def siteD (r : List (List Byte)) : Nat := getU16 (sitePart r 0) 15
/-- M, the merge distance in m. -/
def siteM (r : List (List Byte)) : Nat := getU16 (sitePart r 0) 17
/-- S, the number of start slots. -/
def siteS (r : List (List Byte)) : Nat := getU8 (sitePart r 0) 19
/-- The port silence limit in s. -/
def siteSilence (r : List (List Byte)) : Nat := getU8 (sitePart r 0) 20
/-- The default plan slot, 0 for none. -/
def siteDefaultSlot (r : List (List Byte)) : Nat := getU8 (sitePart r 0) 21
/-- The bank count. -/
def siteBankCount (r : List (List Byte)) : Nat := getU8 (sitePart r 0) 22
/-- The station count. -/
def siteStationCount (r : List (List Byte)) : Nat := getU8 (sitePart r 0) 23
/-- The chain length. -/
def siteChainLength (r : List (List Byte)) : Nat := getU8 (sitePart r 0) 24

/-- A bank entry as stored. -/
structure BankEntry where
  number : Nat
  chainage : Nat
  fans : Nat
  thrustPerFan : Nat
  forward : Nat
  deriving DecidableEq, Repr

/-- Bank entry `i`, counted from 0: eight to a part from part 1 on, seven characters each. -/
def bankEntry (r : List (List Byte)) (i : Nat) : BankEntry :=
  let p := sitePart r (1 + i / 8)
  let o := i % 8 * 7
  { number := getU8 p o, chainage := getU16 p (o + 1), fans := getU8 p (o + 3), thrustPerFan := getU16 p (o + 4),
    forward := getU8 p (o + 6) }

/-- A station entry as stored. -/
structure StationEntry where
  number : Nat
  chainage : Nat
  weight : Nat
  deriving DecidableEq, Repr

/-- Station entry `i`, counted from 0: part 7, four characters each. -/
def stationEntry (r : List (List Byte)) (i : Nat) : StationEntry :=
  let p := sitePart r 7
  { number := getU8 p (i * 4), chainage := getU16 p (i * 4 + 1), weight := getU8 p (i * 4 + 3) }

/-- A chain list entry as stored: kind code and number. -/
structure ChainEntry where
  kind : Nat
  number : Nat
  deriving DecidableEq, Repr

/-- Chain list entry `i`, counted from 0: part 8, two characters each. -/
def chainEntry (r : List (List Byte)) (i : Nat) : ChainEntry :=
  let p := sitePart r 8
  { kind := getU8 p (i * 2), number := getU8 p (i * 2 + 1) }

/-- The listed banks' entries: the first bank-count ones of the 48 that parts 1 to 6 hold, also in a staged record whose count is above 48
(R200). -/
def siteBanks (r : List (List Byte)) : List BankEntry := (List.range (min (siteBankCount r) 48)).map (bankEntry r)

/-- The listed stations' entries. -/
def siteStations (r : List (List Byte)) : List StationEntry := (List.range (siteStationCount r)).map (stationEntry r)

/-- The chain list. -/
def siteChain (r : List (List Byte)) : List ChainEntry := (List.range (siteChainLength r)).map (chainEntry r)

/-- The site record lists bank `n`. No site lists bank 0, also not a staged record whose entry has not been written yet (R199). -/
def siteListsBank (r : List (List Byte)) (n : Nat) : Bool := n != 0 && (siteBanks r).any (fun b => b.number == n)

/-- The unit address of a kind and number: the position, from 1, of its entry in the chain list (R72, R110, R200). -/
def chainPosition (r : List (List Byte)) (kind : UnitKind) (n : Nat) : Nat :=
  (siteChain r).findIdx (fun c => c.kind == kind.code && c.number == n) + 1

/-- A staged record with the defaults of R176 in part 0 and 0 in every other character. -/
def blankSiteRecord : List (List Byte) :=
  (u16 0 ++ u16 120 ++ u8 25 ++ u16 90 ++ u8 20 ++ u16 250 ++ u16 500 ++ u8 30 ++ u16 100 ++ u16 600 ++ u16 200 ++ u8 2 ++
      u8 10 ++ u8 0 ++ u8 0 ++ u8 0 ++ u8 0) ::
    (siteLengths.drop 1).map (fun n => List.replicate n 0)

/-- The CRC-16 over the nine parts in order (R174). -/
def siteCrc (r : List (List Byte)) : Word16 := crc16 r.flatten

/-! ### Validation of the site record (R182, steps 1 to 4) -/

/-- No violation when the condition holds, the given one otherwise. -/
def require (ok : Bool) (part field : Nat) : Option Violation :=
  if ok then none else some { slot := none, part := part, field := field }

/-- The first violation of a list of checks, in order. -/
def firstViolation (l : List (Option Violation)) : Option Violation := l.findSome? id

/-- `lo ≤ n ≤ hi`. -/
def within (lo n hi : Nat) : Bool := decide (lo ≤ n) && decide (n ≤ hi)

/-- Step 1: part 0, in the order R182 lists its fields. -/
def checkPart0 (r : List (List Byte)) : Option Violation :=
  firstViolation
    [ require (within 1000 (siteL r) 65000) 0 1,
      require (within 30 (siteCoast r) 600) 0 2,
      require (within 5 (siteStartTimeout r) 60) 0 3,
      require (within 20 (siteDwell r) 600) 0 4,
      require (within 5 (siteVelocityHysteresis r) 100) 0 5,
      require (within 100 (siteFloor r) 400) 0 6,
      require (within 200 (siteCeiling r) 800) 0 7,
      require (decide (siteFloor r ≤ siteCeiling r)) 0 7,
      require (within 0 (siteSegmentHysteresis r) 200) 0 8,
      require (within 0 (siteU r) 500) 0 9,
      require (within 0 (siteD r) 2000) 0 10,
      require (within 50 (siteM r) 1000) 0 11,
      require (within 1 (siteS r) 4) 0 12,
      require (within 2 (siteSilence r) 60) 0 13,
      require (within 0 (siteDefaultSlot r) 16) 0 14,
      require (within 0 (siteBankCount r) 48) 0 15,
      require (within 0 (siteStationCount r) 8) 0 16,
      require (siteChainLength r == siteBankCount r + siteStationCount r) 0 17 ]

/-- Step 2 for bank entry `i`: number, chainage, fan count, thrust per fan, forward orientation. -/
def checkBankEntry (r : List (List Byte)) (i : Nat) : Option Violation :=
  let b := bankEntry r i
  let p := 1 + i / 8
  let f := i % 8 * 5
  firstViolation
    [ require (within 1 b.number 48 && !((List.range i).any (fun j => (bankEntry r j).number == b.number))) p (f + 1),
      require (decide (b.chainage ≤ siteL r)) p (f + 2),
      require (within 1 b.fans 4) p (f + 3),
      require (within 10 b.thrustPerFan 300) p (f + 4),
      require (within 1 b.forward 2) p (f + 5) ]

/-- Step 3 for station entry `i`. -/
def checkStationEntry (r : List (List Byte)) (i : Nat) : Option Violation :=
  let t := stationEntry r i
  let f := i * 3
  firstViolation
    [ require (within 1 t.number 8 && !((List.range i).any (fun j => (stationEntry r j).number == t.number))) 7 (f + 1),
      require (decide (t.chainage ≤ siteL r)) 7 (f + 2),
      require (within 0 t.weight 15) 7 (f + 3) ]

/-- Step 4 for chain list entry `i`: DRIVE of a listed bank or STATION of a listed station, and no earlier entry names the same unit. As the
chain length is the sum of the two counts, each listed unit then appears exactly once. -/
def checkChainEntry (r : List (List Byte)) (i : Nat) : Option Violation :=
  let c := chainEntry r i
  let listed :=
    match UnitKind.ofCode c.kind with
    | some .drive => siteListsBank r c.number
    | some .station => (siteStations r).any (fun t => t.number == c.number)
    | none => false
  require (listed && !((List.range i).any (fun j => chainEntry r j == c))) 8 (i + 1)

/-- Steps 1 to 4 of R182, which the start-up check makes too (R185): the first violation. -/
def siteViolation (r : List (List Byte)) : Option Violation :=
  firstViolation
    ([checkPart0 r] ++ (List.range (siteBankCount r)).map (checkBankEntry r) ++
      (List.range (siteStationCount r)).map (checkStationEntry r) ++ (List.range (siteChainLength r)).map (checkChainEntry r))

/-! ### Plan parts (R198, R199) -/

/-- Part `k` of a slot, when written. -/
def PlanSlot.part (p : PlanSlot) (k : Nat) : Option (List Byte) := (p.parts.getD k none)

/-- The segment count in part 0 (R22); 0 when part 0 is not written. -/
def PlanSlot.segmentCount (p : PlanSlot) : Nat := getU8 ((p.part 0).getD []) 8

/-- The name in part 0 (R22). -/
def PlanSlot.name (p : PlanSlot) : List Byte := slice ((p.part 0).getD []) 0 8

/-- The notice option in part 0 is ANY_CHANGE (R22, R40). -/
def PlanSlot.anyChange (p : PlanSlot) : Bool := getU8 ((p.part 0).getD []) 9 == 2

/-- A plan row as the engine reads it (R23). -/
structure Row where
  start : Nat
  stop : Nat
  preferred : Dir
  alternate : Bool
  base : Nat
  target : Nat
  ceiling : Nat
  west : List Nat
  east : List Nat
  inhibit : List Nat
  deriving DecidableEq, Repr

/-- The characters of a part that hold its row: from offset 10 in part 0, from 0 in the others (R198). -/
def rowBytes (k : Nat) (part : List Byte) : List Byte := if k = 0 then part.drop 10 else part

/-- A list of a row: its length character and the bank numbers after it (R199). -/
def rowList (l : List Byte) (lengthAt at_ : Nat) : List Nat := (slice l at_ (getU8 l lengthAt)).map BitVec.toNat

/-- The fields of a row (R198). -/
def Row.ofBytes (l : List Byte) : Row where
  start := getU16 l 0
  stop := getU16 l 2
  preferred := if getU8 l 4 = 1 then .west else .east
  alternate := getU8 l 5 == 1
  base := getU8 l 6
  target := getU16 l 7
  ceiling := getU16 l 9
  west := rowList l 11 12
  east := rowList l 36 37
  inhibit := rowList l 61 62

/-- Row `k` of a plan: 0 the default row, 1 to n the segment rows (R22). -/
def PlanSlot.row (p : PlanSlot) (k : Nat) : Row := Row.ofBytes (rowBytes k ((p.part k).getD []))

/-- The run order of a row for an air direction (R67). -/
def Row.order (r : Row) : Dir → List Nat
  | .west => r.west
  | .east => r.east

/-- Parts 0 to n, in order (R174). -/
def PlanSlot.sealedBytes (p : PlanSlot) : List Byte :=
  (List.range (p.segmentCount + 1)).flatMap (fun k => (p.part k).getD [])

/-! ### The checks of SEAL_SLOT (R180) -/

/-- No member of the list stands in it twice. -/
def noRepeats : List Nat → Bool
  | [] => true
  | x :: xs => !xs.contains x && noRepeats xs

/-- A list of a row holds no number twice, names only listed banks, and is followed by 0 up to its size (R180). -/
def listOk (listed : Nat → Bool) (l : List Byte) (lengthAt at_ size : Nat) : Bool :=
  let ns := rowList l lengthAt at_
  noRepeats ns && ns.all listed && (slice l (at_ + getU8 l lengthAt) (size - getU8 l lengthAt)).all (fun b => b == 0)

/-- Step 3 of R180 for part `k`: the header's option (part 0), then the row's fields in field order, the base stage against the lengths
of the two run orders at the base stage's own place (log 14). -/
def checkPlanPart (listed : Nat → Bool) (k : Nat) (part : List Byte) : Option Violation :=
  let l := rowBytes k part
  firstViolation
    [ require (k != 0 || within 1 (getU8 part 9) 2) k 3,
      require (within 1 (getU8 l 4) 2) k 6,
      require (within 0 (getU8 l 5) 1) k 7,
      require (within 1 (getU8 l 6) 24) k 8,
      require (decide (getU8 l 6 ≤ getU8 l 11) && decide (getU8 l 6 ≤ getU8 l 36)) k 8,
      require (within 100 (getU16 l 7) 800) k 9,
      require (within 0 (getU16 l 9) 32767) k 10,
      require (within 1 (getU8 l 11) 24) k 11,
      require (listOk listed l 11 12 24) k 12,
      require (within 1 (getU8 l 36) 24) k 13,
      require (listOk listed l 36 37 24) k 14,
      require (within 0 (getU8 l 61) 8) k 15,
      require (listOk listed l 61 62 8) k 16 ]

/-- The checks of SEAL_SLOT in their order (R180), against the staged record and, when present, the record in use. -/
def sealViolation (p : PlanSlot) (staged : List (List Byte)) (inUse : Option (List (List Byte))) : Option Violation :=
  let n := p.segmentCount
  let listed := fun b => siteListsBank staged b && (inUse.all (fun r => siteListsBank r b))
  firstViolation
    ([ require (p.part 0).isSome 0 0, require (decide (n ≤ 32)) 0 2 ] ++
      (List.range 33).map (fun k => if k = 0 then none else require ((p.part k).isSome == decide (k ≤ n)) k 0) ++
      (List.range (n + 1)).map (fun k => checkPlanPart listed k ((p.part k).getD [])))

/-- Step 5 of R182 for one slot: every bank of its run orders and inhibit lists is listed in the staged record. -/
def checkSealedSlot (staged : List (List Byte)) (number : Nat) (p : PlanSlot) : Option Violation :=
  if p.state = .sealed then
    let at_ := fun k f => some { slot := some number, part := k, field := f : Violation }
    (List.range (p.segmentCount + 1)).findSome? (fun k =>
      let row := p.row k
      if !row.west.all (siteListsBank staged) then at_ k 12
      else if !row.east.all (siteListsBank staged) then at_ k 14
      else if !row.inhibit.all (siteListsBank staged) then at_ k 16
      else none)
  else none

/-- The validation of CLOSE_EDIT (R182): the staged record, then the SEALED slots in ascending order. -/
def closeViolation (staged : List (List Byte)) (slots : List PlanSlot) : Option Violation :=
  match siteViolation staged with
  | some v => some v
  | none => (slots.zipIdx 1).findSome? (fun sn => checkSealedSlot staged sn.2 sn.1)

end Sys2Proof.Machine
end

