-- ==== Sys2Proof/Machine/Ops.lean ====
section
/-! DEFINITION. The named operations over the state's tables: ports, notices, timers, the command queue, the start arbiter, banks, and
the taking of a PCP request. -/

namespace Sys2Proof.Machine

open Sys2Proof

/-- What a command answers. -/
abbrev Result := Host.Outcome State Fault Refusal

/-! ### Ports -/

def Ports.get (p : Ports) : PortId → Port
  | .a => p.a
  | .b => p.b
  | .w => p.w
  | .e => p.e

def Ports.set (p : Ports) (i : PortId) (q : Port) : Ports :=
  match i with
  | .a => { p with a := q }
  | .b => { p with b := q }
  | .w => { p with w := q }
  | .e => { p with e := q }

def Ports.map (p : Ports) (f : Port → Port) : Ports := { a := f p.a, b := f p.b, w := f p.w, e := f p.e }

def State.port (s : State) (i : PortId) : Port := s.ports.get i

def State.setPort (s : State) (i : PortId) (q : Port) : State := { s with ports := s.ports.set i q }

/-! ### Notices (R166 to R168) -/

/-- A notice entered in a set kept in kind order: a new entry of count 1, or the entry of its kind with the new subject and time and a count
one higher, held at 255 (R167). -/
def enterNotice (n : Notice) (now : Nat) : List NoticeEntry → List NoticeEntry
  | [] => [{ notice := n, at_ := now, count := 1 }]
  | e :: es =>
    if n.kind < e.notice.kind then { notice := n, at_ := now, count := 1 } :: e :: es
    else if n.kind = e.notice.kind then { notice := n, at_ := now, count := min (e.count + 1) 255 } :: es
    else e :: enterNotice n now es

/-- A notice offered to one port: lost when its kind is masked there (R167). -/
def Port.offer (q : Port) (n : Notice) (now : Nat) : Port :=
  if q.mask.contains n.kind then q else { q with notices := enterNotice n now q.notices }

/-- A notice raised: offered to each of the four ports (R167). -/
def State.raise (s : State) (n : Notice) : State := { s with ports := s.ports.map (fun q => q.offer n s.uptime) }

/-- Notices raised in order. -/
def State.raiseAll (s : State) (ns : List Notice) : State := ns.foldl State.raise s

/-- A notice offered to one port alone: OPERATION_DONE, to the initiator (R168). -/
def State.raiseTo (s : State) (i : PortId) (n : Notice) : State := s.setPort i ((s.port i).offer n s.uptime)

/-! ### Timers (R202, log 3) -/

/-- One second of a timer that runs. -/
def Timer.tick : Timer → Timer
  | .running n => .running (n - 1)
  | t => t

def Timer.isRunning : Timer → Bool
  | .running _ => true
  | _ => false

/-! ### The site record in use -/

/-- The parts of the site record in use; none of them while it is absent. -/
def State.site (s : State) : List (List Byte) :=
  match s.lib.inUse with
  | some r => r.parts
  | none => []

/-- The port silence limit in use: 10 s while the engine is UNCONFIGURED, that is, no site record is in use (R154). -/
def State.silenceLimit (s : State) : Nat :=
  match s.lib.inUse with
  | some r => siteSilence r.parts
  | none => 10

/-- Plan slot `n`. -/
def State.slot (s : State) (n : Nat) : PlanSlot := s.lib.nv.slots.getD (n - 1) .blank

/-- The NV library with slot `n` replaced. -/
def NvLibrary.setSlot (v : NvLibrary) (n : Nat) (p : PlanSlot) : NvLibrary := { v with slots := v.slots.set (n - 1) p }

/-! ### The token holder's authority, and the taking of a request (R151, R152, R156) -/

/-- The authority levels of R156. -/
inductive Level where
  | read | operate | command
  deriving DecidableEq, Repr

/-- An owning block's answer: completion and result. -/
structure Answer where
  completion : Completion
  result : Option (List Byte)
  deriving DecidableEq, Repr

/-- DONE with a result. -/
def done (l : List Byte) : Answer := { completion := .done, result := some l }

/-- DONE without a result. -/
def doneBare : Answer := { completion := .done, result := none }

/-- ACCEPTED. -/
def accepted : Answer := { completion := .accepted, result := none }

/-- A completion without a result. -/
def refuse (c : Completion) : Answer := { completion := c, result := none }

/-- A valid frame has arrived: the receiver hunts again, the port is present and its silence timer restarts (R150, R154). -/
def State.heard (s : State) (i : PortId) : State :=
  s.setPort i { s.port i with receive := .hunting, present := true, silence := .running s.silenceLimit }

/-- The tag of a frame taken while the port was BUSY, at the end of the refusals waiting; nothing when four already wait (R152). -/
def Port.addWaiting (q : Port) (tag : Byte) : Port :=
  if q.waiting.length < 4 then { q with waiting := q.waiting ++ [tag] } else q

/-- The response in hand (R151, R153). -/
def State.respond (s : State) (i : PortId) (tag : Byte) (a : Answer) : State :=
  s.setPort i { s.port i with response := some { tag := tag, completion := a.completion, result := a.result } }

/-- The checks of R151 that come before the owning block's, and then the owning block's work. -/
def State.taken (s : State) (i : PortId) (level : Level) (formatOk : Bool) (body : State → State × Answer) : State × Answer :=
  if !formatOk then (s, refuse .refusedFormat)
  else if level = .command ∧ s.token ≠ some i then (s, refuse .refusedAuthority)
  else body s

/-- A valid request frame on port `i` (R150 to R153): refused with REFUSED_PORT_BUSY at a BUSY port, otherwise taken; the response is formed
after the owning block's work. -/
def State.request (s : State) (i : PortId) (tag : Byte) (level : Level) (formatOk : Bool) (body : State → State × Answer) : State :=
  let s1 := s.heard i
  if (s1.port i).service = .busy then s1.setPort i ((s1.port i).addWaiting tag)
  else
    let r := (s1.setPort i { s1.port i with service := .busy }).taken i level formatOk body
    r.1.respond i tag r.2

/-- A request that only reads. -/
def State.readRequest (s : State) (i : PortId) (tag : Byte) (formatOk : Bool) (answer : State → Answer) : State :=
  s.request i tag .read formatOk (fun t => (t, answer t))

/-! ### The command queue (R133) -/

/-- A command joins at the tail, or replaces the command waiting for its address in place. -/
def enqueueCommand (c : CommandEntry) : List CommandEntry → List CommandEntry
  | [] => [c]
  | e :: es => if e.address = c.address then c :: es else e :: enqueueCommand c es

def FieldLine.enqueue (f : FieldLine) (c : CommandEntry) : FieldLine := { f with queue := enqueueCommand c f.queue }

/-- A command for the address waits in the queue (R81, R131). -/
def FieldLine.commandWaits (f : FieldLine) (address : Nat) : Bool := f.queue.any (fun c => c.address == address)

/-- The unit at a described position. -/
def FieldLine.unit (f : FieldLine) (address : Nat) : Option FieldUnit := if address = 0 then none else f.units[address - 1]?

/-- The unit table with the unit at an address changed. -/
def FieldLine.setUnit (f : FieldLine) (address : Nat) (u : FieldUnit) : FieldLine := { f with units := f.units.set (address - 1) u }

/-- The unit that carries a kind and number. -/
def FieldLine.unitOf (f : FieldLine) (k : UnitKind) (n : Nat) : Option FieldUnit :=
  f.units.find? (fun u => decide (u.kind = k) && u.number == n)

/-! ### The start arbiter (R99 to R104) -/

/-- Bank `n` stands in the start queue. -/
def Arbiter.queued (a : Arbiter) (n : Nat) : Bool := a.queue.any (fun q => q.bank == n)

/-- A join at the last place (R101). -/
def Arbiter.join (a : Arbiter) (n cls : Nat) (k : QueueKind) : Arbiter :=
  if a.queued n then a else { a with queue := a.queue ++ [{ bank := n, cls := cls, kind := k }] }

/-- A leave (R102). -/
def Arbiter.leave (a : Arbiter) (n : Nat) : Arbiter := { a with queue := a.queue.filter (fun q => q.bank != n) }

/-- A release (R104). -/
def Arbiter.release (a : Arbiter) (n : Nat) : Arbiter :=
  { a with slots := a.slots.map (fun o => if o = some n then none else o) }

/-- A queued resume whose coast has ended becomes an ordinary start in its place (R79). -/
def Arbiter.becomeStart (a : Arbiter) (n : Nat) : Arbiter :=
  { a with queue := a.queue.map (fun q => if q.bank = n then { q with kind := .start } else q) }

/-- A change of class in place (R100). -/
def Arbiter.setClass (a : Arbiter) (n cls : Nat) : Arbiter :=
  { a with queue := a.queue.map (fun q => if q.bank = n then { q with cls := cls } else q) }

/-- The grant order: class 0 in join order, then class 1 in join order (R99). -/
def Arbiter.grantOrder (a : Arbiter) : List QueueEntry :=
  a.queue.filter (fun q => q.cls == 0) ++ a.queue.filter (fun q => q.cls != 0)

/-- The place in grant order from 1; 0 when the bank is not queued. -/
def Arbiter.position (a : Arbiter) (n : Nat) : Nat :=
  if a.queued n then a.grantOrder.findIdx (fun q => q.bank == n) + 1 else 0

/-- The lowest free slot, from 0. -/
def Arbiter.freeSlot (a : Arbiter) : Option Nat := a.slots.findIdx? Option.isNone

/-- The class a bank queues under: 0 when forced to run, 1 otherwise (R100). -/
def Forcing.queueClass : Forcing → Nat
  | .fwd => 0
  | .rev => 0
  | _ => 1

/-! ### Banks -/

/-- The record of bank `n`. -/
def State.bank (s : State) (n : Nat) : Option Bank := s.banks.find? (fun b => b.number == n)

/-- The bank table with one record replaced, by its number. -/
def setBank (b : Bank) (l : List Bank) : List Bank := l.map (fun c => if c.number = b.number then b else c)

/-- The bank thrust (R72). -/
def Bank.thrust (b : Bank) : Nat := b.fans * b.thrustPerFan

def Dir.opposite : Dir → Dir
  | .west => .east
  | .east => .west

def Spin.opposite : Spin → Spin
  | .fwd => .rev
  | .rev => .fwd

/-- The air direction a bank's direction gives (R72). -/
def Bank.air (b : Bank) : Spin → Dir
  | .fwd => b.forward
  | .rev => b.forward.opposite

/-- The direction that pushes air the given way (R67). -/
def Bank.spinFor (b : Bank) (d : Dir) : Spin := if b.forward = d then .fwd else .rev

def Spin.turn : Spin → Turn
  | .fwd => .fwd
  | .rev => .rev

def Turn.spin : Turn → Option Spin
  | .fwd => some .fwd
  | .rev => some .rev
  | .unknown => none

/-- The present direction of a state (R74). -/
def BankState.direction : BankState → Turn
  | .queued d => d.turn
  | .starting d => d.turn
  | .running d => d.turn
  | .stopping x => x
  | _ => .fwd

/-- The four states that bar a bank from eligibility (R63). -/
def BankState.excluded : BankState → Bool
  | .lockedOut => true
  | .unreachable => true
  | .atLocal => true
  | .unassigned => true
  | _ => false

/-- The direction of a STARTING or RUNNING bank, which the committed thrust counts (R119). -/
def BankState.driven : BankState → Option Spin
  | .starting d => some d
  | .running d => some d
  | _ => none

/-! ### Incidents -/

/-- The record at an index. -/
def State.incident (s : State) (i : Nat) : Option Incident := s.inc.table.getD i none

/-- The governing record. -/
def State.governingRecord (s : State) : Option Incident :=
  match s.inc.governing with
  | some i => s.incident i
  | none => none

/-- The fire position (R1). -/
def Zone.fire (z : Zone) : Nat := (z.lo + z.hi) / 2

/-- The number of CONFIRMED entries. -/
def State.confirmedCount (s : State) : Nat :=
  (s.inc.table.filter (fun o => o.any (fun r => decide (r.cls = .confirmed)))).length

/-- The incident table is empty. -/
def State.tableEmpty (s : State) : Bool := s.inc.table.all Option.isNone

/-! ### The matched row (R41) -/

/-- The matched row's identity: active slot and segment. -/
def State.rowId (s : State) : Option (Nat × Nat) :=
  match s.plans.active, s.mat.matched with
  | some n, some k => some (n, k)
  | _, _ => none

/-- The matched row. -/
def State.row (s : State) : Option Row := s.rowId.map (fun id => (s.slot id.1).row id.2)

end Sys2Proof.Machine
end

