-- ==== Sys2Proof/Machine/Operands.lean ====
section
/-! DEFINITION. Operands of the PCP requests: the request codes and the format test (R188, R190), and the decoding of operand fields that
R193 has the owning rules check. -/

namespace Sys2Proof.Machine

open Sys2Proof

/-- The request codes (R190). -/
def requestCodes : List Nat :=
  [0x01, 0x02, 0x03, 0x04, 0x05, 0x06, 0x07, 0x08, 0x09, 0x0A, 0x0B, 0x0C, 0x10, 0x11, 0x12, 0x13, 0x14, 0x20, 0x21, 0x22] ++
    [0x30, 0x31, 0x32, 0x33, 0x40, 0x41, 0x42, 0x50, 0x60, 0x61, 0x62, 0x63, 0x64, 0x70, 0x71, 0x72, 0x73, 0x74, 0x75, 0x76, 0x77]

/-- The operand length is the one given. -/
def lengthIs (ops : List Byte) (n : Nat) : Bool := ops.length == n

/-- The operand length is one of two. -/
def lengthEither (ops : List Byte) (n m : Nat) : Bool := ops.length == n || ops.length == m

/-- The format test of WRITE_PART: 82 when the part operand is 0, 72 otherwise; a frame too short to hold the operand fails (R188). -/
def writePartFormat (ops : List Byte) : Bool :=
  decide (2 ≤ ops.length) && ops.length == (if getU8 ops 1 = 0 then 82 else 72)

/-- The format test of WRITE_SITE_PART: 1 plus the length of the part named; a part above 8 fixes no length (R188). -/
def writeSitePartFormat (ops : List Byte) : Bool :=
  decide (1 ≤ ops.length) && (decide (8 < getU8 ops 0) || ops.length == 1 + siteLengths.getD (getU8 ops 0) 0)

/-- An optional one-character operand. -/
def optionalOperand (ops : List Byte) : Option Nat :=
  match ops with
  | [] => none
  | b :: _ => some b.toNat

/-- A train number of 1 to 9999 (R192). -/
def trainOk (n : Nat) : Bool := decide (1 ≤ n) && decide (n ≤ 9999)

/-- An optional train: 0 absent (R192); none when the number is neither absent nor 1 to 9999. -/
def optionalTrain (n : Nat) : Option (Option Nat) := if n = 0 then some none else if trainOk n then some (some n) else none

/-- The motion: 1 STOPPED, 2 MOVING (R192); the answer is whether it moves. -/
def movingOfCode : Nat → Option Bool
  | 1 => some false
  | 2 => some true
  | _ => none

/-- A kind set names no kind above 17 (R193). -/
def kindSetOk (v : Nat) : Bool := decide (v < 2 ^ 17)

/-- A slot number of 1 to 16. -/
def slotOk (n : Nat) : Bool := decide (1 ≤ n) && decide (n ≤ 16)

end Sys2Proof.Machine
end

