-- ==== Sys2Proof/Machine/Frames.lean ====
section
/-! DEFINITION. Frames as the 480 receives them: the request a CODE names (R188, R190), the detection frame a TYPE names (R196), the layout of
the received frames, and the hunt of each receiver for a frame inside a string of characters (R150, R195, R197). -/

namespace Sys2Proof.Machine

open Sys2Proof

/-! ### PCP requests -/

/-- The level of a port's own key input; a CENTRE port has none (R159). -/
def ownKey (i : PortId) (keyW keyE : Bool) : Bool :=
  match i with
  | .w => keyW
  | .e => keyE
  | _ => false

/-- The request a CODE names (R190), with the operands as sent; every other CODE is an unknown request (R151). The key levels and the outcome
of the NV comparison are those that CLAIM, READ_PORTS and LOCK_READBACK depend on (logs 5, 7). -/
def requestOf (i : PortId) (tag code : Byte) (ops : List Byte) (keyW keyE compares : Bool) : Instr :=
  match code.toNat with
  | 0x01 => .readIncidents i tag ops
  | 0x02 => .readDetection i tag ops
  | 0x03 => .readPlans i tag ops
  | 0x04 => .readEngine i tag ops
  | 0x05 => .readTrains i tag ops
  | 0x06 => .readBanks i tag ops
  | 0x07 => .readStarts i tag ops
  | 0x08 => .readVelocity i tag ops
  | 0x09 => .readField i tag ops
  | 0x0A => .readPorts i tag ops keyW keyE
  | 0x0B => .readLibrary i tag ops
  | 0x0C => .readSlot i tag ops
  | 0x10 => .lodge i tag ops
  | 0x11 => .confirm i tag ops
  | 0x12 => .setEvacuation i tag ops
  | 0x13 => .linkTrain i tag ops
  | 0x14 => .clear i tag ops
  | 0x20 => .selectPlan i tag ops
  | 0x21 => .revertPlan i tag ops
  | 0x22 => .swapPlan i tag ops
  | 0x30 => .setTrain i tag ops
  | 0x31 => .removeTrain i tag ops
  | 0x32 => .setDirection i tag ops
  | 0x33 => .resume i tag ops
  | 0x40 => .setForcing i tag ops
  | 0x41 => .releaseBank i tag ops
  | 0x42 => .setTarget i tag ops
  | 0x50 => .enumerate i tag ops
  | 0x60 => .claim i tag ops (ownKey i keyW keyE)
  | 0x61 => .yield i tag ops
  | 0x62 => .readNotices i tag ops
  | 0x63 => .ackNotices i tag ops
  | 0x64 => .setNoticeMask i tag ops
  | 0x70 => .openEdit i tag ops
  | 0x71 => .closeEdit i tag ops
  | 0x72 => .eraseSlot i tag ops
  | 0x73 => .writePart i tag ops
  | 0x74 => .writeSitePart i tag ops
  | 0x75 => .sealSlot i tag ops
  | 0x76 => .lockReadback i tag ops compares
  | 0x77 => .eraseLibrary i tag ops
  | _ => .unknownRequest i tag code ops

/-- A PCP request frame from LEN to its CRC-16 (R188). -/
def requestFrame (tag code : Byte) (ops : List Byte) : List Byte :=
  let covered := byteOf (ops.length + 2) :: tag :: code :: ops
  covered ++ u16 (crc16 covered).toNat

/-- The request that a complete frame, from LEN to its CRC-16, carries: TAG, CODE and the LEN − 2 operand characters (R188). -/
def requestIn (i : PortId) (keyW keyE compares : Bool) (f : List Byte) : Instr :=
  requestOf i (f.getD 1 0) (f.getD 2 0) (slice f 3 (getU8 f 0 - 2)) keyW keyE compares

/-- A port's receiver hunting in a string of characters for SYNC 0xA5, the first `skip` of them already taken (R150): the valid frames it
completes, each from LEN to its CRC-16, and its receive state at the end of the string. A LEN that cannot begin a frame is left behind; after a
frame whose CRC is incorrect the hunt goes on from the character after its SYNC, after a valid frame from the character after its CRC. -/
def pcpHunt : Nat → List Byte → List (List Byte) × ReceiveState
  | _, [] => ([], .hunting)
  | skip + 1, _ :: l => pcpHunt skip l
  | 0, c :: l =>
    if c ≠ 0xA5 then pcpHunt 0 l
    else if l.isEmpty then ([], .receiving)
    else if getU8 l 0 < 2 ∨ 250 < getU8 l 0 then pcpHunt 1 l
    else if l.length < getU8 l 0 + 3 then ([], .receiving)
    else if pcpCrcOk (l.take (getU8 l 0 + 3)) then
      (l.take (getU8 l 0 + 3) :: (pcpHunt (getU8 l 0 + 3) l).1, (pcpHunt (getU8 l 0 + 3) l).2)
    else pcpHunt 0 l

/-! ### Detection frames -/

/-- The two-character field at an offset, as sent. -/
def wordAt (l : List Byte) (i : Nat) : Word16 := BitVec.ofNat 16 (getU16 l i)

/-- The detection frame from TYPE to its CRC-8 (R196). -/
def detectionFrame (type : Byte) (payload : List Byte) : List Byte := type :: payload ++ [crc8 (type :: payload)]

/-- The frame a TYPE names, with its payload fields (R196). -/
def detectionIn (f : List Byte) : Option Instr :=
  match getU8 f 0 with
  | 0x01 => some .status
  | 0x02 => some (.hotspot (wordAt f 1) (wordAt f 3) (f.getD 5 0))
  | 0x03 => some (.lineFault (wordAt f 1))
  | 0x04 => some .lineOk
  | _ => none

/-- The Detection Line Receiver hunting in a string of characters for SYNC 0x96, the first `skip` of them already taken (R197): the valid frames it
completes. After a frame discarded for its TYPE or its CRC the hunt goes on from the character after its SYNC; a frame discarded for a field is
taken whole. -/
def detectionHunt : Nat → List Byte → List Instr
  | _, [] => []
  | skip + 1, _ :: l => detectionHunt skip l
  | 0, c :: l =>
    if c ≠ 0x96 then detectionHunt 0 l
    else
      match detectionPayload (getU8 l 0) with
      | none => detectionHunt 0 l
      | some n =>
        if l.length < n + 2 then []
        else if !detectionCrcOk (l.take (n + 2)) then detectionHunt 0 l
        else if detectionFrameOk (l.take (n + 2)) then (detectionIn (l.take (n + 2))).toList ++ detectionHunt (n + 2) l
        else detectionHunt (n + 2) l

/-! ### PFP replies -/

/-- A reply on the field line: its ADDR and its two status characters. -/
structure FieldReply where
  addr : Byte
  hi : Byte
  lo : Byte
  deriving DecidableEq, Repr

/-- The characters of a PFP reply: SYNC 0x3C, ADDR, the two status characters, and the CRC-8 over ADDR and status (R194, R201). -/
def FieldReply.frame (r : FieldReply) : List Byte := [0x3C, r.addr, r.hi, r.lo, crc8 [r.addr, r.hi, r.lo]]

/-- The field line's receiver hunting in a string of characters for SYNC 0x3C, the first `skip` of them already taken (R195): the replies whose
CRC-8 is correct. After a frame whose CRC fails the hunt goes on from the character after its SYNC. -/
def replyHunt : Nat → List Byte → List FieldReply
  | _, [] => []
  | skip + 1, _ :: l => replyHunt skip l
  | 0, c :: l =>
    if c ≠ 0x3C then replyHunt 0 l
    else if l.length < 4 then []
    else if replyCrcOk (l.take 4) then { addr := l.getD 0 0, hi := l.getD 1 0, lo := l.getD 2 0 } :: replyHunt 4 l
    else replyHunt 0 l

end Sys2Proof.Machine
end

