-- ==== Sys2Proof/Config.lean ====
section
/-! DEFINITION. What the spec leaves open: free values, opaque constants that nothing can evaluate: values, each applied to a
counter of State that advances at every use (log 8), and one choice between two rules that differ (log 13). -/

namespace Sys2Proof

/-- The content of the NV site record after a CLOSE_EDIT write cut by a reset: its nine parts and its stored CRC.
R185 takes the record as invalid at that reset and says nothing of what the cut write left behind. Free value, log 8. -/
opaque Config.cutSiteRecord : Nat → List (List Byte) × BitVec 16

/-- Content and written mark of part `k` of a slot whose erase or write failed its comparison or was cut by a reset: R174 calls
the content of an INVALID slot "not to be trusted" and gives no value. Free value, log 8. -/
opaque Config.untrustedPart : Nat → Nat → Option (List Byte)

/-- How far a cut ERASE_LIBRARY had come: the slot its operation marker names (taken modulo 16, plus 1). R181 moves the marker
with the erase, R185 reads it, no rule says when it moves. Free value, log 8. -/
opaque Config.cutEraseSlot : Nat → Nat

/-- The readback lock after the clear at the end of ERASE_LIBRARY failed its comparison (R178, R181 give none). Free value, log 8. -/
opaque Config.failedClearLock : Nat → Bool

/-- Which of two rules a part follows where they give an abort of EDIT different default plans: the site record in use (R184) when true, the NV site
record (R30) when false. Neither rule sets the other aside. Free choice, log 13. -/
opaque Config.abortReadsInUse : Bool

end Sys2Proof
end

