-- ==== Sys2Proof/Machine/Flags.lean ====
section
/-! DEFINITION. Flags: the limit record (R125), the heat-inhibited flags (R62), and the output lines that follow the state (R169, spec 07). -/

namespace Sys2Proof.Machine

open Sys2Proof

def LimitRecord.get (l : LimitRecord) : LimitFlag → Bool
  | .clamped => l.clamped
  | .stageLimit => l.stageLimit
  | .saturated => l.saturated

def LimitRecord.setFlag (l : LimitRecord) : LimitFlag → LimitRecord
  | .clamped => { l with clamped := true }
  | .stageLimit => { l with stageLimit := true }
  | .saturated => { l with saturated := true }

/-- A flag of the limit record set: VELOCITY_LIMIT is raised on a change from clear to set only (R125). -/
def State.setLimit (s : State) (f : LimitFlag) : State :=
  if s.vel.limits.get f then s
  else { s with vel := { s.vel with limits := s.vel.limits.setFlag f } }.raise (.velocityLimit f)

/-- A chainage lies in the heat zone, ends included (R61). -/
def inHeat (zone : List Zone) (c : Nat) : Bool := zone.any (fun z => decide (z.lo ≤ c) && decide (c ≤ z.hi))

/-- The heat-inhibited flag of every bank set to whether the bank lies in the zone (R62). -/
def flagHeat (zone : List Zone) (l : List Bank) : List Bank := l.map (fun b => { b with heatInhibited := inHeat zone b.chainage })

/-- A port's attention line (R169). -/
def Port.attention (q : Port) : Bool := !q.notices.isEmpty

/-- FL_DE: driven while a request is being sent (spec 07, 7.2). -/
def FieldLine.driveEnable (f : FieldLine) : Bool :=
  match f.phase with
  | .sending _ => true
  | _ => false

end Sys2Proof.Machine
end

