-- ==== Sys2Proof/Machine/Matcher.lean ====
section
/-! DEFINITION. The Segment Matcher: raw flags, ordinary evaluation, fresh match, freeze and re-fix, and the hand-on of the matched row
(R33 to R41). -/

namespace Sys2Proof.Machine

open Sys2Proof

/-- The segments of a plan whose raw flag is set for a fire position, in index order (R34). -/
def rawFlags (p : PlanSlot) (f : Nat) : List Nat :=
  (List.range' 1 p.segmentCount).filter (fun k => decide ((p.row k).start ≤ f) && decide (f ≤ (p.row k).stop))

/-- The fresh match on the working F (R36), with its SEGMENT_ENTERED under ANY_CHANGE (R40); no match without a plan or a governing incident
(R33). -/
def State.freshMatch (s : State) : State :=
  match s.plans.active, s.mat.governing, s.mat.workF with
  | some n, some _, some f =>
    let fl := rawFlags (s.slot n) f
    let k := fl.headD 0
    let t := { s with mat := { s.mat with flags := fl, matched := some k } }
    if (s.slot n).anyChange then t.raise (.segmentEntered k) else t
  | _, _, _ => { s with mat := { s.mat with flags := [], matched := none } }

/-- The fire position lies in the widened range of a segment row (R35). -/
def insideWidened (r : Row) (h f : Nat) : Bool := decide (r.start ≤ f + h) && decide (f ≤ r.stop + h)

/-- The match of an ordinary evaluation: the segment held while the position lies in its widened range, otherwise the lowest flagged one or the
default row (R35). -/
def State.evaluatedMatch (s : State) (p : PlanSlot) (f : Nat) : Option Nat :=
  match s.mat.matched with
  | some k =>
    if k ≠ 0 ∧ insideWidened (p.row k) (siteSegmentHysteresis s.site) f = true then some k else some ((rawFlags p f).headD 0)
  | none => some ((rawFlags p f).headD 0)

/-- The ordinary evaluation on a new fire position (R35); a changed match raises SEGMENT_ENTERED under either option (R40). -/
def State.ordinaryEvaluation (s : State) (f : Nat) : State :=
  match s.plans.active with
  | none => { s with mat := { s.mat with workF := some f, flags := [], matched := none } }
  | some n =>
    let m := s.evaluatedMatch (s.slot n) f
    let t := { s with mat := { s.mat with workF := some f, flags := rawFlags (s.slot n) f, matched := m } }
    if m = s.mat.matched then t else t.raise (.segmentEntered (m.getD 0))

/-- The governing record's sources hold DETECTION. -/
def State.governingDetected (s : State) : Bool := s.governingRecord.any (fun r => r.sources.contains .detection)

/-- The freeze is entered when the governing record rests on detection and the line is not OK (R37, R39). -/
def State.settleFreeze (s : State) : State :=
  if s.governingDetected ∧ s.mat.condition ≠ .ok then { s with mat := { s.mat with frozen := true } } else s

/-- The matcher takes the governing record from the Incident Register: `detNew` when DETECTION has newly joined its sources, `zoneChanged` when
its zone changed (R33, R35, R37, R38, R39). -/
def State.matcherTakesIncident (s : State) (detNew zoneChanged : Bool) : State :=
  match s.inc.governing, s.governingRecord with
  | some i, some r =>
    if s.mat.governing ≠ some i then
      ({ s with mat := { s.mat with governing := some i, workF := some r.zone.fire, frozen := false } }.freshMatch).settleFreeze
    else if s.mat.frozen then s
    else if detNew ∧ s.mat.condition ≠ .ok then { s with mat := { s.mat with frozen := true } }
    else if zoneChanged then s.ordinaryEvaluation r.zone.fire
    else s
  | _, _ => { s with mat := { s.mat with workF := none, governing := none, flags := [], matched := none, frozen := false } }

/-- The matcher takes a line condition: the freeze is entered on a change from OK under a governing record that lists DETECTION (R37). -/
def State.matcherTakesCondition (s : State) (c : LineCondition) : State :=
  let t := { s with mat := { s.mat with condition := c } }
  if s.mat.condition = .ok then t.settleFreeze else t

/-- The matcher takes a re-fix: the freeze ends and a fresh match is made on the governing record's current F (R39). -/
def State.matcherTakesRefix (s : State) : State :=
  match s.governingRecord with
  | some r => ({ s with mat := { s.mat with workF := some r.zone.fire, frozen := false } }.freshMatch).settleFreeze
  | none => s

/-- The matched row handed on: its identity is noted (R41). -/
def State.handRow (s : State) : State := { s with mat := { s.mat with handed := s.rowId } }

/-- The row about to be handed on is a row change (R41). -/
def State.rowChanged (s : State) : Bool := decide (s.mat.handed ≠ s.rowId)

end Sys2Proof.Machine
end

