-- ==== Sys2Proof/Machine/Banks.lean ====
section
/-! DEFINITION. The Bank Sequencer's work on one bank record (R75 to R94), as a change of the record with what it tells its neighbours, and
the carrying out of that change in the order of R96; the committed thrust it moves (R119). -/

namespace Sys2Proof.Machine

open Sys2Proof

/-- What the sequencer tells the Start Arbiter (R96, step 3). -/
inductive ArbiterWord where
  | join (k : QueueKind)
  | leave
  | release
  | becomeStart
  deriving DecidableEq, Repr

/-- The outcome of one event for one bank: the record, a command for its drive, words to the arbiter, and notices (R96). -/
structure BankOut where
  bank : Bank
  command : Option DriveCommand
  words : List ArbiterWord
  notices : List Notice
  deriving DecidableEq, Repr

/-- No effect beyond the record. -/
def BankOut.only (b : Bank) : BankOut := { bank := b, command := none, words := [], notices := [] }

/-- What the sequencer reads beside the record: the coast time and start timeout of the site record, whether the engine lets demands be acted
on (R75), and whether the bank stands in the start queue. -/
structure BankContext where
  coast : Nat
  startTimeout : Nat
  live : Bool
  queued : Bool
  deriving DecidableEq, Repr

/-- The record in STOPPING with its coast started (R77, R82 to R87). -/
def Bank.stopping (b : Bank) (x : Turn) (c : StopCause) (coast : Nat) : Bank :=
  { b with state := .stopping x, stopCause := some c, coast := .running coast, start := .stopped }

/-- The effects of a fault on the record (R88, steps 1, 2 and 4). -/
def Bank.faulted (b : Bank) (r : FaultReason) : Bank :=
  { b with
    lastFault := some r
    failures := min (b.failures + 1) 2
    lockoutPending := b.lockoutPending || decide (1 ≤ b.failures) }

/-- The BANK_FAULT of a fault (R88, step 3). -/
def Bank.faultNotice (b : Bank) (r : FaultReason) (trip : Nat) : Notice := .bankFault b.number r trip

/-- A demand acted on in the states that act on demands (R76 to R78). -/
def actOnDemand (x : BankContext) (b : Bank) : BankOut :=
  match b.state, b.demand with
  | .off, .run d => { BankOut.only { b with state := .queued d } with words := [.join .start] }
  | .queued _, .off => { BankOut.only { b with state := .off } with words := [.leave] }
  | .queued _, .run d => .only { b with state := .queued d }
  | .starting d, m =>
    if m = .run d then .only b
    else { BankOut.only (b.stopping d.turn .commanded x.coast) with command := some .stop, words := [.release] }
  | .running d, m =>
    if m = .run d then .only b
    else { BankOut.only (b.stopping d.turn .commanded x.coast) with command := some .stop }
  | .stopping y, .run d =>
    if y = d.turn then
      if b.stopCause = some .commanded ∧ b.lockoutPending = false ∧ x.queued = false then
        { BankOut.only b with words := [.join .resume] }
      else .only b
    else { BankOut.only b with words := [.leave] }
  | .stopping _, .off => { BankOut.only b with words := [.leave] }
  | _, _ => .only b

/-- A bank that has just entered OFF, or RUNNING from VERIFY, acts at once on the demand it holds (R75). -/
def BankOut.thenAct (o : BankOut) (x : BankContext) : BankOut :=
  if x.live then
    let o2 := actOnDemand { x with queued := false } o.bank
    { bank := o2.bank, command := o2.command.or o.command, words := o.words ++ o2.words, notices := o.notices ++ o2.notices }
  else o

/-- LOCKED_OUT is entered (R89). -/
def Bank.lockOut (b : Bank) : BankOut :=
  { BankOut.only { b with state := .lockedOut, lockoutPending := false, stopCause := none, coast := .stopped } with
    words := [.leave], notices := [.bankLockedOut b.number] }

/-- A report that counts as at rest (R79). -/
def Report.atRest : Report → Bool
  | .stopped => true
  | .tripped _ => true
  | _ => false

/-- The test that ends STOPPING, and what follows it (R79). -/
def endStopping (x : BankContext) (b : Bank) : BankOut :=
  match b.state with
  | .stopping _ =>
    if b.coast = .expired ∧ b.latest.any Report.atRest = true then
      let c := { b with stopCause := none, coast := .stopped }
      if b.lockoutPending then c.lockOut
      else
        match b.demand with
        | .run d =>
          { BankOut.only { c with state := .queued d } with words := [if x.queued then .becomeStart else .join .start] }
        | .off => BankOut.thenAct { BankOut.only { c with state := .off } with words := [.leave] } x
    else .only b
  | _ => .only b

/-- A bank taken out of its run, queue or slot by the field: UNREACHABLE, LOCAL, VERIFY or UNASSIGNED (R92 to R94). -/
def Bank.withdraw (b : Bank) (st : BankState) : BankOut :=
  { BankOut.only
      { b with
        state := st
        stopCause := none
        coast := .stopped
        start := .stopped
        lockoutPending := b.lockoutPending || decide (b.state = .lockedOut) } with
    words := [.leave, .release] }

/-- A fault that puts the bank in STOPPING. -/
def faultStop (x : BankContext) (b : Bank) (y : Turn) (r : FaultReason) (trip : Nat) (c : Option DriveCommand)
    (words : List ArbiterWord) : BankOut where
  bank := (b.faulted r).stopping y .fault x.coast
  command := c
  words := words
  notices := [b.faultNotice r trip]

/-- Reconciliation in STARTING (R82). -/
def reconcileStarting (x : BankContext) (b : Bank) (d : Spin) : Report → BankOut
  | .run y =>
    if y = d then { BankOut.only { b with state := .running d, start := .stopped } with words := [.release] }
    else faultStop x b d.turn .wrongDirection 0 (some .stop) [.release]
  | .accel y => if y = d then .only b else faultStop x b d.turn .wrongDirection 0 (some .stop) [.release]
  | .stopped => { BankOut.only b with command := some (.run d) }
  | .tripped t => faultStop x b d.turn .tripped t none [.release]
  | .decel => faultStop x b d.turn .uncommandedDecel 0 (some .stop) [.release]
  | .atLocal => .only b

/-- Reconciliation in RUNNING (R84). -/
def reconcileRunning (x : BankContext) (b : Bank) (d : Spin) : Report → BankOut
  | .run y => if y = d then .only b else faultStop x b .unknown .wrongDirection 0 (some .stop) []
  | .accel y => if y = d then .only b else faultStop x b .unknown .wrongDirection 0 (some .stop) []
  | .stopped => faultStop x b d.turn .uncommandedStop 0 (some .stop) []
  | .tripped t => faultStop x b d.turn .tripped t none []
  | .decel => faultStop x b d.turn .uncommandedDecel 0 (some .stop) []
  | .atLocal => .only b

/-- Reconciliation in OFF and QUEUED (R85). -/
def reconcileIdle (x : BankContext) (b : Bank) : Report → BankOut
  | .stopped => .only b
  | .decel => { BankOut.only (b.stopping .unknown .found x.coast) with words := [.leave] }
  | .tripped t => faultStop x b .unknown .tripped t none [.leave]
  | .run _ => faultStop x b .unknown .uncommandedRun 0 (some .stop) [.leave]
  | .accel _ => faultStop x b .unknown .uncommandedRun 0 (some .stop) [.leave]
  | .atLocal => .only b

/-- Reconciliation in STOPPING (R86); the test of R79 follows it. -/
def reconcileStopping (x : BankContext) (b : Bank) : Report → BankOut
  | .run _ => faultStop x b .unknown .uncommandedRun 0 (some .stop) [.leave]
  | .accel _ => faultStop x b .unknown .uncommandedRun 0 (some .stop) [.leave]
  | _ => endStopping x b

/-- A running report in LOCKED_OUT: steps 1 and 3 of R88 and STOP (R86). -/
def lockedOutRuns (b : Bank) : BankOut where
  bank := { b with lastFault := some .uncommandedRun }
  command := some .stop
  words := []
  notices := [b.faultNotice .uncommandedRun 0]

/-- Reconciliation in LOCKED_OUT (R86). -/
def reconcileLockedOut (b : Bank) : Report → BankOut
  | .run _ => lockedOutRuns b
  | .accel _ => lockedOutRuns b
  | _ => .only b

/-- A bank found turning in VERIFY: RUNNING(x), or stopped at once under a pending lockout (R87). -/
def verifyRuns (x : BankContext) (b : Bank) (d : Spin) : BankOut :=
  if b.lockoutPending then { BankOut.only (b.stopping d.turn .fault x.coast) with command := some .stop }
  else BankOut.thenAct (.only { b with state := .running d }) x

/-- The mapping of the first report in VERIFY (R87). -/
def reconcileVerify (x : BankContext) (b : Bank) : Report → BankOut
  | .stopped => if b.lockoutPending then b.lockOut else BankOut.thenAct (.only { b with state := .off }) x
  | .accel d => verifyRuns x b d
  | .run d => verifyRuns x b d
  | .decel => .only (b.stopping .unknown .found x.coast)
  | .tripped t => faultStop x b .unknown .tripped t none []
  | .atLocal => .only b

/-- Reconciliation by state (R82 to R87). -/
def reconcile (x : BankContext) (b : Bank) (r : Report) : BankOut :=
  match b.state with
  | .starting d => reconcileStarting x b d r
  | .running d => reconcileRunning x b d r
  | .off => reconcileIdle x b r
  | .queued _ => reconcileIdle x b r
  | .stopping _ => reconcileStopping x b r
  | .lockedOut => reconcileLockedOut b r
  | .verify => reconcileVerify x b r
  | _ => .only b

/-- A drive report received (R81): recorded, and then LOCAL (R92), the end of UNREACHABLE or LOCAL (R93, R92), recorded alone while a command
waits (with the test of R79), or reconciled. -/
def takeReport (x : BankContext) (b0 : Bank) (r : Report) (waits : Bool) : BankOut :=
  let b := { b0 with latest := some r }
  if r = .atLocal then (if b.state = .atLocal then .only b else b.withdraw .atLocal)
  else if b.state = .unreachable ∨ b.state = .atLocal then .only { b with state := .verify }
  else if waits then endStopping x b
  else reconcile x b r

/-- The start timer's expiry (R83). -/
def startTimeout (x : BankContext) (b : Bank) : BankOut :=
  match b.state with
  | .starting d => faultStop x b d.turn .startTimeout 0 (some .stop) [.release]
  | _ => .only b

/-- The coast timer's expiry (R79). -/
def coastExpires (x : BankContext) (b : Bank) : BankOut := endStopping x { b with coast := .expired }

/-- A grant (R80): the slot and the entry are the arbiter's own work (R103). -/
def granted (x : BankContext) (b : Bank) : BankOut :=
  match b.state with
  | .queued d =>
    { BankOut.only { b with state := .starting d, start := .running x.startTimeout } with command := some (.run d) }
  | .stopping y =>
    match y.spin with
    | some d =>
      { BankOut.only { b with state := .starting d, stopCause := none, coast := .stopped, start := .running x.startTimeout } with
        command := some (.run d) }
    | none => .only b
  | _ => .only b

/-- The third miss (R93). -/
def unreachable (b : Bank) : BankOut :=
  if b.state = .unassigned ∨ b.state = .unreachable then .only b
  else { b.withdraw .unreachable with notices := [.unitUnreachable b.address .drive b.number] }

/-- RELEASE_BANK (R90). -/
def released (x : BankContext) (b : Bank) : BankOut :=
  BankOut.thenAct (.only { b with state := .off, failures := 0, lockoutPending := false }) x

/-! ### The committed thrust (R119) -/

/-- The signed thrust of one bank for a latched direction. -/
def Bank.signedThrust (b : Bank) (d : Dir) : Int :=
  match b.state.driven with
  | some y => if b.air y = d then (b.thrust : Int) else -(b.thrust : Int)
  | none => 0

/-- The committed thrust in full. -/
def thrustSum (l : List Bank) (d : Dir) : Int := (l.map (fun b => b.signedThrust d)).foldl (· + ·) 0

/-- A sum bounded at ±32,767. -/
def bounded (v : Int) : Int := max (-32767) (min 32767 v)

/-- The committed thrust formed again: absent without a latch; a bound sets SATURATED. -/
def State.formThrust (s : State) : State :=
  match s.eng.latch with
  | none => { s with vel := { s.vel with thrust := none } }
  | some c =>
    let v := thrustSum s.banks c.dir
    let t := { s with vel := { s.vel with thrust := some (bounded v) } }
    if bounded v = v then t else t.setLimit .saturated

/-! ### Carrying out (R96) -/

/-- The engine state lets demands be computed and acted on (R45, R64). -/
def EngineState.live : EngineState → Bool
  | .unconfigured => false
  | .startup => false
  | _ => true

/-- What the sequencer reads for a bank. -/
def State.bankContext (s : State) (n : Nat) : BankContext where
  coast := siteCoast s.site
  startTimeout := siteStartTimeout s.site
  live := s.eng.state.live
  queued := s.arb.queued n

/-- One word to the arbiter for a bank. -/
def Arbiter.tell (b : Bank) (a : Arbiter) : ArbiterWord → Arbiter
  | .join k => a.join b.number b.forcing.queueClass k
  | .leave => a.leave b.number
  | .release => a.release b.number
  | .becomeStart => a.becomeStart b.number

/-- The outcome of an event carried out: the record, the command, the arbiter, the notices, and the committed thrust when the state has changed
(R96, R119). The engine is told by the event itself. -/
def State.commitBank (s : State) (o : BankOut) : State :=
  let fl :=
    match o.command with
    | some c => s.fl.enqueue { address := o.bank.address, command := c }
    | none => s.fl
  let t :=
    { s with banks := setBank o.bank s.banks, fl := fl, arb := o.words.foldl (Arbiter.tell o.bank) s.arb }.raiseAll o.notices
  if (s.bank o.bank.number).any (fun b => decide (b.state = o.bank.state)) then t else t.formThrust

/-- A demand handed to bank `n`: written, and acted on when the engine lets it (R75). -/
def State.handDemand (s : State) (n : Nat) (m : Demand) : State :=
  match s.bank n with
  | none => s
  | some b =>
    let c := { b with demand := m }
    s.commitBank (if s.eng.state.live then actOnDemand (s.bankContext n) c else .only c)

end Sys2Proof.Machine
end

