-- ==== Sys2Proof/Machine/Engine.lean ====
section
/-! DEFINITION. The Response Engine: heat zone, eligibility, demands, commit attempt, evaluation, and what it does on each hand-off (R43 to
R70), with the target and dwell of the Velocity Loop that its transitions move (R117, R118, R120). -/

namespace Sys2Proof.Machine

open Sys2Proof

/-! ### The target and the dwell (R117, R120) -/

/-- A target raised to the floor and lowered to the ceiling. -/
def clampTarget (site : List (List Byte)) (v : Nat) : Nat := min (max v (siteFloor site)) (siteCeiling site)

/-- The target formed again (R117); a clamp that changes it sets CLAMPED (R125). -/
def State.formTarget (s : State) : State :=
  match s.eng.state, s.row with
  | .active, some r =>
    let u := s.vel.held.getD r.target
    let v := clampTarget s.site u
    let t := { s with vel := { s.vel with target := some { value := v, unclamped := u, fromHeld := s.vel.held.isSome } } }
    if v = u then t else t.setLimit .clamped
  | _, _ => s

/-- The dwell timer started from the dwell time (R120). -/
def State.startDwell (s : State) : State := { s with vel := { s.vel with dwell := .running (siteDwell s.site) } }

/-! ### The heat zone (R61, R62) -/

/-- A stretch around a zone, clamped to [0, L]. -/
def stretch (len west east : Nat) (z : Zone) : Zone := { lo := min (z.lo - west) len, hi := min (z.hi + east) len }

/-- An interval inserted by its lower bound. -/
def insertZone (z : Zone) : List Zone → List Zone
  | [] => [z]
  | y :: ys => if z.lo ≤ y.lo then z :: y :: ys else y :: insertZone z ys

/-- An interval joined with the intervals of a separated list that it reaches, one after another. -/
def mergeInto (z : Zone) : List Zone → List Zone
  | [] => [z]
  | y :: ys => if y.lo ≤ z.hi then mergeInto { lo := min z.lo y.lo, hi := max z.hi y.hi } ys else z :: y :: ys

/-- Intervals in order, those that share a chainage held as one (log 22). -/
def mergeZones : List Zone → List Zone
  | [] => []
  | z :: zs => mergeInto z (mergeZones zs)

/-- The zones of the CONFIRMED entries, with their indices. -/
def confirmedZones (table : List (Option Incident)) : List (Nat × Zone) :=
  table.zipIdx.filterMap (fun oi =>
    match oi.1 with
    | some r => if r.cls = .confirmed then some (oi.2, r.zone) else none
    | none => none)

/-- The intervals of the heat zone before they are joined (R61). -/
def heatStretches (site : List (List Byte)) (e : Engine) (table : List (Option Incident)) : List Zone :=
  let len := siteL site
  let u := siteU site
  let d := siteD site
  match e.state, e.latch with
  | .active, some c =>
    let own :=
      match table.getD c.index none with
      | some r => [if c.dir = .east then stretch len u d r.zone else stretch len d u r.zone]
      | none => []
    own ++ ((confirmedZones table).filter (fun iz => iz.1 != c.index)).map (fun iz => stretch len d d iz.2)
  | .hold _, _ => (confirmedZones table).map (fun iz => stretch len d d iz.2)
  | _, _ => []

/-- The heat zone (R61). -/
def heatZone (site : List (List Byte)) (e : Engine) (table : List (Option Incident)) : List Zone :=
  mergeZones ((heatStretches site e table).foldr insertZone [])

/-- The heat zone recomputed, and the heat-inhibited flags set from it (R62). -/
def State.refreshHeat (s : State) : State :=
  let z := heatZone s.site s.eng s.inc.table
  { s with eng := { s.eng with heat := z }, banks := flagHeat z s.banks }

/-! ### Eligibility and demand (R63 to R68) -/

/-- A bank is eligible under a row (R63). -/
def Bank.eligible (b : Bank) (r : Row) : Bool :=
  decide (b.forcing = .auto) && !b.heatInhibited && !r.inhibit.contains b.number && !b.state.excluded

/-- The eligible banks of the latched direction's run order, in order. -/
def State.eligibleOrder (s : State) : List Bank :=
  match s.eng.state, s.eng.latch, s.row with
  | .active, some c, some r => (r.order c.dir).filterMap (fun n => (s.bank n).filter (fun b => b.eligible r))
  | _, _, _ => []

/-- The taken list (R67); empty outside ACTIVE (log 40). -/
def State.takenList (s : State) : List Bank := s.eligibleOrder.take (s.eng.stage.getD 0)

/-- The shortfall (R67); 0 while the stage count is absent (log 40). -/
def State.shortfall (s : State) : Nat := s.eng.stage.getD 0 - s.takenList.length

/-- The hold demand of ALERT and RESET_HOLD (R65). -/
def Bank.holdDemand (b : Bank) (queued : Bool) : Demand :=
  match b.state with
  | .running d => .run d
  | .starting d => .run d
  | .queued d => .run d
  | .stopping y =>
    match y.spin with
    | some d => if queued then .run d else .off
    | none => .off
  | _ => .off

/-- The demand of a forced bank (R64). -/
def Bank.forcedDemand (b : Bank) : Demand :=
  if b.heatInhibited then .off
  else
    match b.forcing with
    | .fwd => .run .fwd
    | .rev => .run .rev
    | _ => .off

/-- The snapshot demand of a bank (R66); OFF for a bank that the snapshot does not hold, one that a CLOSE_EDIT in HOLD has newly listed (log
37). -/
def snapshotDemand (snap : Option (List (Nat × Demand))) (n : Nat) : Demand :=
  match (snap.getD []).find? (fun p => p.1 == n) with
  | some p => p.2
  | none => .off

/-- The demand of a bank, by the precedence table of R68, for a taken list of bank numbers. -/
def State.demandOf (s : State) (taken : List Nat) (b : Bank) : Demand :=
  if b.forcing ≠ .auto then b.forcedDemand
  else
    match s.eng.state with
    | .active =>
      match s.eng.latch with
      | some c => if taken.contains b.number then .run (b.spinFor c.dir) else .off
      | none => .off
    | .hold _ => if b.heatInhibited || b.state.excluded then .off else snapshotDemand s.eng.snapshot b.number
    | .alert => b.holdDemand (s.arb.queued b.number)
    | .resetHold => b.holdDemand (s.arb.queued b.number)
    | _ => .off

/-- Every bank's demand, in the order in which R69 hands them: forced banks by number, taken banks in run order, all others by number. -/
def State.demandList (s : State) : List (Nat × Demand) :=
  let taken := s.takenList
  let ns := taken.map Bank.number
  let forced := s.banks.filter (fun b => decide (b.forcing ≠ .auto))
  let others := s.banks.filter (fun b => decide (b.forcing = .auto) && !ns.contains b.number)
  (forced ++ taken ++ others).map (fun b => (b.number, s.demandOf ns b))

/-- One demand of a recomputation handed: all of them at a first or a rebuilt table, otherwise those that differ from the one last handed (R69). -/
def State.handOne (every : Bool) (s : State) (p : Nat × Demand) : State :=
  if every || (s.bank p.1).any (fun b => decide (b.demand ≠ p.2)) then s.handDemand p.1 p.2 else s

/-- The demands recomputed and handed (R69). -/
def State.handDemands (s : State) (every : Bool) : State := s.demandList.foldl (State.handOne every) s

/-- The engine's end of a hand-off: heat zone, flags, demands (R62, R69). Nothing in STARTUP and UNCONFIGURED (R45, R64). -/
def State.finish (s : State) : State := if s.eng.state.live then s.refreshHeat.handDemands false else s

/-- The same with every demand handed whether or not it differs (R45, R95). -/
def State.finishAll (s : State) : State := if s.eng.state.live then s.refreshHeat.handDemands true else s

/-! ### Entering the states (R43, R57, R66) -/

/-- A change of state or reason raises ENGINE_STATE (R43). -/
def State.setEngine (s : State) (st : EngineState) : State :=
  if s.eng.state = st then s else { s with eng := { s.eng with state := st } }.raise (.engineState st)

/-- The latch dropped, with the kept stage count and the committed thrust that stand on it (R50, R54, R119). -/
def State.dropLatch (s : State) : State :=
  { s with eng := { s.eng with latch := none, kept := none }, vel := { s.vel with thrust := none } }

/-- What ends with ACTIVE: stage count, target, held value, P, dwell (R57, R70, R116 to R118, R120). -/
def State.endActive (s : State) : State :=
  { s with
    eng := { s.eng with stage := none }
    vel := { s.vel with target := none, held := none, projected := none, dwell := .stopped } }

/-- Failure counts return to 0 with lockout-pending cleared (R57, R88). -/
def clearFailures (l : List Bank) : List Bank := l.map (fun b => { b with failures := 0, lockoutPending := false })

/-- Entry to QUIET (R57). -/
def State.enterQuiet (s : State) : State :=
  let t := s.dropLatch.endActive
  { t with
    eng := { t.eng with snapshot := none, heat := [] }
    banks := clearFailures t.banks
    vel := { t.vel with limits := .allClear } }.setEngine .quiet

/-- Entry to ALERT (R50, R57, R66). -/
def State.enterAlert (s : State) : State :=
  let t := s.dropLatch.endActive
  { t with eng := { t.eng with snapshot := none } }.setEngine .alert

def EngineState.isHold : EngineState → Bool
  | .hold _ => true
  | _ => false

/-- HOLD with a reason: the snapshot is taken on entry from any other state, and kept on a change of reason (R66). -/
def State.enterHold (s : State) (r : HoldReason) : State :=
  let t :=
    if s.eng.state.isHold then s
    else { s with eng := { s.eng with snapshot := some (s.banks.map (fun (b : Bank) => (b.number, b.demand))) } }.endActive
  t.setEngine (.hold r)

/-! ### Committing (R48, R49, R52) -/

/-- A train blocks a direction for an incident's zone, unless it is the incident's linked train (R49). -/
def trainBlocks (len : Nat) (r : Incident) (d : Dir) (t : Train) : Bool :=
  decide (r.train ≠ some t.number) &&
    match d with
    | .east => decide (r.zone.hi < max t.head t.tail) && decide (r.zone.hi < len)
    | .west => decide (min t.head t.tail < r.zone.lo)

/-- A direction is blocked for an incident (R49). -/
def State.blocked (s : State) (r : Incident) (d : Dir) : Bool :=
  s.eng.trains.any (fun o => o.any (trainBlocks (siteL s.site) r d))

/-- The direction a commit takes for a record under a row; none when neither is usable (R48, steps 3 to 6). -/
def State.commitDir (s : State) (r : Incident) (row : Row) : Option Dir :=
  match r.evacuation with
  | some side => if s.blocked r side.opposite then none else some side.opposite
  | none =>
    if !s.blocked r row.preferred then some row.preferred
    else if row.alternate && !s.blocked r row.preferred.opposite then some row.preferred.opposite
    else none

/-- Step 7 of R48, and the same effects of SET_DIRECTION (R51): latch, stage count, dwell, ACTIVE, target, thrust, DIRECTION_COMMITTED. -/
def State.latchDirection (s : State) (d : Dir) (index : Nat) (row : Row) : State :=
  let t :=
    { s with
      eng := { s.eng with latch := some { dir := d, index := index }, stage := some row.base, kept := none, snapshot := none }
      vel := { s.vel with held := none } }
  (((t.setEngine .active).raise (.directionCommitted d)).startDwell.formTarget).formThrust

/-- The commit attempt (R48). A latch held before has been dropped by the rule that calls it. -/
def State.commitAttempt (s : State) : State :=
  if 2 ≤ s.confirmedCount then s.enterHold .multiFire
  else if s.plans.active = none then s.enterHold .noPlan
  else
    let t := s.freshMatch.handRow
    match t.inc.governing, t.governingRecord, t.row with
    | some i, some r, some row =>
      match t.commitDir r row with
      | some d => t.latchDirection d i row
      | none => t.enterHold .directionBlocked
    | _, _, _ => t

/-- The advisories of R52, in ACTIVE. -/
def State.advise (s : State) : State :=
  match s.eng.state, s.eng.latch with
  | .active, some c =>
    match s.incident c.index with
    | some r =>
      let t := if s.blocked r c.dir then s.raise (.directionAdvisory .occupied) else s
      if r.evacuation = some c.dir then t.raise (.directionAdvisory .evacuation) else t
    | none => s
  | _, _ => s

/-! ### The stage count and the row (R54, R70) -/

/-- A row change in ACTIVE: the greater of the present count and the new base stage, capped at 24; a changed count restarts the dwell; the target
is formed again (R70, R117, R120). -/
def State.rowChange (s : State) : State :=
  match s.eng.state, s.row with
  | .active, some r =>
    let n := min 24 (max (s.eng.stage.getD 0) r.base)
    let t := if s.eng.stage = some n then s else { s with eng := { s.eng with stage := some n } }.startDwell
    t.formTarget
  | _, _ => s

/-- The return from HOLD(MULTI_FIRE) with the latch kept (R54). -/
def State.returnActive (s : State) : State :=
  let base := (s.row.map Row.base).getD 1
  let t :=
    { s with eng := { s.eng with stage := some (min 24 (max (s.eng.kept.getD 0) base)), kept := none, snapshot := none } }
  ((t.setEngine .active).startDwell.formTarget).formThrust

/-! ### Evaluation (R46, R47, R53 to R56) -/

/-- The latched incident has been cleared. -/
def State.latchedCleared (s : State) : Bool := s.eng.latch.any (fun c => (s.incident c.index).isNone)

/-- The latch belongs to the one CONFIRMED entry. -/
def State.latchGoverns (s : State) : Bool := s.eng.latch.any (fun c => decide (s.inc.governing = some c.index))

/-- The table evaluated with at least one entry, `n` of them CONFIRMED; `rerun` when an event of R55 has come with it, `rose` when the count has
risen since the last evaluation. -/
def State.evaluateFull (s : State) (n : Nat) (rerun rose : Bool) : State :=
  match s.eng.state with
  | .quiet => if n = 0 then s.enterAlert else s.commitAttempt
  | .resetHold => if n = 0 then s.enterAlert else s.commitAttempt
  | .alert => if n = 0 then s else s.commitAttempt
  | .active =>
    if s.latchedCleared then (if n = 0 then s.enterAlert else s.dropLatch.commitAttempt)
    else if rose ∧ 2 ≤ n then { s with eng := { s.eng with kept := s.eng.stage } }.enterHold .multiFire
    else s
  | .hold .multiFire =>
    if n = 0 then s.enterAlert
    else if n = 1 then (if s.latchGoverns then s.returnActive else s.dropLatch.commitAttempt)
    else if s.latchedCleared then s.dropLatch
    else s
  | .hold .directionBlocked => if n = 0 then s.enterAlert else if rerun ∨ 2 ≤ n then s.commitAttempt else s
  | .hold .noPlan => if n = 0 then s.enterAlert else if 2 ≤ n then s.enterHold .multiFire else s
  | _ => s

/-- The table evaluated (R46, R47, R53 to R56); not in STARTUP and UNCONFIGURED (R45, R44). -/
def State.evaluate (s : State) (rerun : Bool) : State :=
  if s.eng.state.live then
    let n := s.confirmedCount
    let t := { s with eng := { s.eng with confirmed := n } }
    if s.tableEmpty then
      (if s.eng.state = .quiet ∨ s.eng.state = .resetHold then t else t.enterQuiet)
    else t.evaluateFull n rerun (decide (s.eng.confirmed < n))
  else s

/-! ### Hand-offs -/

/-- The re-run of R55. -/
def State.rerunBlocked (s : State) : State := if s.eng.state = .hold .directionBlocked then s.commitAttempt else s

/-- The governing record handed to the engine with the row the matcher handed on (R15, R41, R46): evaluation, then a row change. -/
def State.engineTakesIncident (s : State) (rerun rowMoved : Bool) : State :=
  let t := s.evaluate rerun
  (if rowMoved then t.rowChange else t).finish

/-- A row handed on after a re-fix (R39, R41, R55). -/
def State.engineTakesRow (s : State) (rowMoved : Bool) : State :=
  let t := s.rerunBlocked
  (if rowMoved then t.rowChange else t).finish

/-- A plan change (R31, R53, R55, R56). -/
def State.engineTakesPlan (s : State) (rowMoved : Bool) : State :=
  let t :=
    match s.eng.state with
    | .hold .noPlan => if s.plans.active.isSome then s.commitAttempt else s
    | .hold .directionBlocked => s.commitAttempt
    | _ => s
  (if rowMoved then t.rowChange else t).finish

/-- An evacuation or link change of record `i` (R52, R55). -/
def State.engineTakesDetails (s : State) (i : Nat) : State :=
  let t := if s.eng.latch.any (fun c => c.index == i) then s.advise else s
  (if s.inc.governing = some i then t.rerunBlocked else t).finish

/-- An occupancy change (R60): advisories in ACTIVE (R52), the re-run in HOLD(DIRECTION_BLOCKED) (R55). -/
def State.engineTakesOccupancy (s : State) : State := s.advise.rerunBlocked.finish

/-- A bank is RUNNING or STOPPING (R45). -/
def BankState.foundTurning : BankState → Bool
  | .running _ => true
  | .stopping _ => true
  | _ => false

/-- The computed demands written without being acted on, before the evaluation that ends STARTUP (log 15). -/
def State.writeDemands (s : State) : State :=
  let ds := s.demandList
  { s with banks := s.banks.map (fun b => { b with demand := snapshotDemand (some ds) b.number }) }

/-- The end of STARTUP (R45): RESET_HOLD or QUIET, the evaluation of a non-empty table, and the first demands. -/
def State.leaveStartup (s : State) : State :=
  let t := if s.banks.any (fun b => b.state.foundTurning) then s.setEngine .resetHold else s.enterQuiet
  let u := t.writeDemands
  (if u.tableEmpty then u else u.evaluate true).finishAll

/-- The engine is told of bank states (R96, step 5): the end of STARTUP when no bank is in VERIFY (R45), otherwise the demands. -/
def State.engineTakesBanks (s : State) : State :=
  match s.eng.state with
  | .startup => if s.banks.any (fun b => decide (b.state = .verify)) then s else s.leaveStartup
  | _ => s.finish

/-! ### The plan change (R31) -/

/-- The active reference set; a plan change is handed to the matcher and then to the engine (R31). -/
def State.setActive (s : State) (p : Option Nat) : State :=
  if s.plans.active = p then s
  else
    let t := { s with plans := { s.plans with active := p } }.freshMatch
    t.handRow.engineTakesPlan t.rowChanged

end Sys2Proof.Machine
end

