-- ==== Sys2Proof/Machine/Library.lean ====
section
/-! DEFINITION. The Library Controller: the running tables built from a site record (R72, R98, R110, R128), the default plan (R24, R30), the
abort of EDIT (R184), the token's effect on it (R162), the ends of long operations (R178 to R183), and the start-up check (R185). -/

namespace Sys2Proof.Machine

open Sys2Proof

/-! ### The running tables -/

/-- A fresh bank record (R72, R73). -/
def freshBank (r : List (List Byte)) (e : BankEntry) : Bank where
  number := e.number
  chainage := e.chainage
  fans := e.fans
  thrustPerFan := e.thrustPerFan
  forward := if e.forward = 1 then .west else .east
  address := chainPosition r .drive e.number
  state := .verify
  forcing := .auto
  demand := .off
  failures := 0
  lockoutPending := false
  stopCause := none
  coast := .stopped
  start := .stopped
  heatInhibited := false
  latest := none
  lastFault := none

/-- The bank table of a site record, in bank-number order (R72). -/
def buildBanks (r : List (List Byte)) : List Bank :=
  (List.range' 1 48).filterMap (fun n => ((siteBanks r).find? (fun e => e.number == n)).map (freshBank r))

/-- A fresh station record (R110). -/
def freshStation (r : List (List Byte)) (e : StationEntry) : Station where
  number := e.number
  chainage := e.chainage
  weight := e.weight
  address := chainPosition r .station e.number
  reading := none
  polled := false
  used := false

/-- The station table of a site record, in station-number order (R110). -/
def buildStations (r : List (List Byte)) : List Station :=
  (List.range' 1 8).filterMap (fun n => ((siteStations r).find? (fun e => e.number == n)).map (freshStation r))

/-- A described position: assigned, reachable, no missed reply (R128). -/
def freshUnit (c : ChainEntry) : FieldUnit where
  kind := if c.kind = 1 then .drive else .station
  number := c.number
  assigned := true
  reachable := true
  missed := 0

/-- The unit table of a site record (R128). -/
def buildUnits (r : List (List Byte)) : List FieldUnit := (siteChain r).map freshUnit

/-- All start slots free (R98). -/
def buildSlots (r : List (List Byte)) : List (Option Nat) := List.replicate (siteS r) none

/-- The running tables rebuilt from the site record just written, and the engine told (R183, R95, R108, R113, R128, R135, R137, R138). -/
def State.rebuild (s : State) : State :=
  let r := s.site
  ({ s with
      fl := { s.fl with units := buildUnits r, queue := [], inRow := 0, rota := none }
      arb := { slots := buildSlots r, queue := [] }
      banks := buildBanks r
      vel := { s.vel with stations := buildStations r } }.formThrust).finishAll

/-! ### The default plan (R24, R30) -/

/-- A slot number that names a SEALED slot. -/
def NvLibrary.sealedSlot (v : NvLibrary) (n : Nat) : Bool :=
  slotOk n && decide ((v.slots.getD (n - 1) .blank).state = .sealed)

/-- The default plan slot of a record, when it is SEALED. -/
def NvLibrary.defaultOf (v : NvLibrary) (r : Option SiteStore) : Option Nat :=
  match r with
  | some t => if v.sealedSlot (siteDefaultSlot t.parts) then some (siteDefaultSlot t.parts) else none
  | none => none

/-- The NV site record that passes the start-up check (R185 step 3, R201): its CRC and its validation; none for one that a cut write left, and for
an unusable one. -/
def checkedSite (v : NvLibrary) (cut : Bool) : Option SiteStore :=
  match v.site with
  | .stored r => if !cut && decide (siteCrc r.parts = r.crc) && (siteViolation r.parts).isNone then some r else none
  | .unusable => none

/-- The active reference set, with an empty stack. -/
def State.installPlan (s : State) (p : Option Nat) : State := { s with plans := { s.plans with stack := [] } }.setActive p

/-- The default of a site record installed (R30); the stack is empty. -/
def State.installDefault (s : State) (r : Option SiteStore) : State := s.installPlan (s.lib.nv.defaultOf r)

/-- The record whose default an abort of EDIT installs. R30 names the NV site record, which gives none when it is invalid or was taken as invalid (R24,
R185), and R184 the record in use; the two differ only after a CLOSE_EDIT that ended DONE in UNCONFIGURED, and which one a part then reads is left
open (log 13). While the NV record is unusable both read the record in use (R183). -/
def State.abortRecord (s : State) : Option SiteStore :=
  match s.lib.nv.site with
  | .stored _ => if Config.abortReadsInUse then s.lib.inUse else checkedSite s.lib.nv s.lib.siteCut
  | .unusable => s.lib.inUse

/-- The default that an abort of EDIT installs (R30, R184). -/
def State.abortDefault (s : State) : Option Nat := s.lib.nv.defaultOf s.abortRecord

/-! ### Abort of EDIT, and the token (R184, R162) -/

/-- EDIT aborted, when EDIT is open (R184). -/
def State.abortEdit (s : State) (c : AbortCause) : State :=
  if s.lib.mode = .edit then
    if s.lib.inFlight.isNone then
      { s with lib := { s.lib with staged := none, opener := none, abortCause := c, mode := .service } }.installPlan s.abortDefault
    else { s with lib := { s.lib with staged := none, opener := none, abortCause := c, mode := .closing } }
  else s

/-- A change of holder handed on: recorded, TOKEN_CHANGED, and the library told (R162). -/
def State.changeToken (s : State) (holder : Option PortId) (c : TokenCause) : State :=
  let t := { s with token := holder }.raise (.tokenChanged holder c)
  if t.lib.mode = .edit ∧ t.lib.opener ≠ holder then t.abortEdit .token else t

/-- The token lapses when its holder is the given port (R161). -/
def State.lapseToken (s : State) (i : PortId) (c : TokenCause) : State :=
  if s.token = some i then s.changeToken none c else s

/-! ### Long operations (R178) -/

/-- A long library operation starts: the operation in flight and the operation marker (R178). -/
def State.startOperation (s : State) (o : InFlight) : State :=
  { s with
    lib := { s.lib with
      inFlight := some o
      nv := { s.lib.nv with marker := some { kind := o.kind, slot := o.subjA, part := o.subjB } } } }

/-- The operation record written, the operation in flight none, OPERATION_DONE to the initiator (R178 steps 3 and 4; R144 step 6). -/
def State.recordOperation (s : State) (k : OperationKind) (a b : Nat) (r : OperationResult) (d1 d2 : Nat) (i : PortId) : State :=
  { s with
    lib := { s.lib with
      inFlight := none
      record :=
        { kind := k, subjA := a, subjB := b, result := r, detailA := d1, detailB := d2, initiator := some i, at_ := s.uptime } } }.raiseTo
    i (.operationDone k a b r d1 d2)

/-- The operation marker cleared (R178, step 2). -/
def State.clearMarker (s : State) : State := { s with lib := { s.lib with nv := { s.lib.nv with marker := none } } }

/-- The end of a slot operation whose effect has been taken (R178, steps 2 to 5). -/
def State.endOperation (s : State) (o : InFlight) (a : Nat) (r : OperationResult) (d1 d2 : Nat) : State :=
  let t := s.clearMarker.recordOperation o.kind a o.subjB r d1 d2 o.initiator
  if t.lib.mode = .closing then
    { t with lib := { t.lib with mode := .service } }.installPlan t.abortDefault
  else t

/-- A slot changed in NV. -/
def State.setSlot (s : State) (n : Nat) (p : PlanSlot) : State := { s with lib := { s.lib with nv := s.lib.nv.setSlot n p } }

/-- What an erase or a write that failed or was cut leaves in a slot: INVALID, with free values in the parts it worked on (R174, log 8). -/
def PlanSlot.damaged (p : PlanSlot) (k : OperationKind) (part ix : Nat) : PlanSlot :=
  match k with
  | .writePart => { p with state := .invalid, parts := p.parts.set part (Config.untrustedPart ix part) }
  | .sealSlot => { p with state := .invalid }
  | _ => { p with state := .invalid, parts := (List.range 33).map (Config.untrustedPart ix) }

/-- A slot damaged, with the next free value. -/
def State.damageSlot (s : State) (k : OperationKind) (n part : Nat) : State :=
  { s.setSlot n ((s.slot n).damaged k part s.freeIx) with freeIx := s.freeIx + 1 }

/-- A part written (R179). -/
def PlanSlot.write (p : PlanSlot) (k : Nat) (content : List Byte) : PlanSlot :=
  { p with state := .written, parts := p.parts.set k (some content) }

/-- A slot sealed: the CRC over parts 0 to n stored (R180). -/
def PlanSlot.seal (p : PlanSlot) : PlanSlot := { p with state := .sealed, crc := crc16 p.sealedBytes }

/-- The first `n` slots erased (R181). -/
def eraseFirst (n : Nat) (l : List PlanSlot) : List PlanSlot := List.replicate (min n l.length) .blank ++ l.drop n

/-- The end of ERASE_SLOT (R179, R178). -/
def State.endErase (s : State) (o : InFlight) (compares : Bool) : State :=
  if compares then (s.setSlot o.subjA .blank).endOperation o o.subjA .done 0 0
  else (s.damageSlot .eraseSlot o.subjA 0).endOperation o o.subjA .nvFault 0 0

/-- The end of WRITE_PART (R179, R178). -/
def State.endWrite (s : State) (o : InFlight) (compares : Bool) : State :=
  if compares then (s.setSlot o.subjA ((s.slot o.subjA).write o.subjB o.content)).endOperation o o.subjA .done 0 0
  else (s.damageSlot .writePart o.subjA o.subjB).endOperation o o.subjA .nvFault 0 0

/-- The end of SEAL_SLOT: a VIOLATION found with the request leaves the slot WRITTEN; the CRC of a sealed slot is the result's detail (R180,
spec 11). -/
def State.endSeal (s : State) (o : InFlight) (compares : Bool) : State :=
  match o.sealOutcome with
  | some v => s.endOperation o o.subjA .violation v.part v.field
  | none =>
    if compares then
      let p := (s.slot o.subjA).seal
      (s.setSlot o.subjA p).endOperation o o.subjA .done (p.crc.toNat / 256) (p.crc.toNat % 256)
    else (s.damageSlot .sealSlot o.subjA 0).endOperation o o.subjA .nvFault 0 0

/-- The end of ERASE_LIBRARY: whole, failed at a slot, or failed at the clear of the lock (R181, log 8), whose subject is 0
(log 42). -/
def State.endEraseLibrary (s : State) (o : InFlight) (failed : Option Nat) : State :=
  let v := s.lib.nv
  match failed with
  | none => { s with lib := { s.lib with nv := { v with slots := eraseFirst 16 v.slots, lock := false } } }.endOperation o 0 .done 0 0
  | some n =>
    if slotOk n then
      ({ s with lib := { s.lib with nv := { v with slots := eraseFirst (n - 1) v.slots } } }.damageSlot .eraseLibrary n 0).endOperation
        o n .nvFault 0 0
    else
      { s with
        lib := { s.lib with nv := { v with slots := eraseFirst 16 v.slots, lock := Config.failedClearLock s.freeIx } }
        freeIx := s.freeIx + 1 }.endOperation o 0 .nvFault 0 0

/-- The end of the CLOSE_EDIT write (R183). -/
def State.endClose (s : State) (o : InFlight) (compares : Bool) : State :=
  let parts := s.lib.staged.getD []
  let store : SiteStore := { parts := parts, crc := siteCrc parts }
  if compares then
    let t :=
      { s with
        lib := { s.lib with
          nv := { s.lib.nv with site := .stored store, marker := none }
          staged := none
          inUse := if s.eng.state = EngineState.unconfigured then s.lib.inUse else some store
          siteCut := false } }
    let u := if s.eng.state = EngineState.unconfigured then t else t.rebuild
    ({ u with lib := { u.lib with mode := .service } }.installDefault (some store)).recordOperation
      .closeEdit 0 0 .done 0 0 o.initiator
  else
    ({ s with
        lib := { s.lib with
          nv := { s.lib.nv with site := .unusable, marker := none }
          staged := none
          mode := .service } }.installDefault s.lib.inUse).recordOperation .closeEdit 0 0 .nvFault 0 0 o.initiator

/-- An operation of the given kind is in flight. -/
def State.inFlightOf (s : State) (k : OperationKind) : Option InFlight := s.lib.inFlight.filter (fun o => decide (o.kind = k))

/-! ### The start-up check (R185) -/

/-- Step 1: what the operation marker shows cut. -/
def cutOperation (v : NvLibrary) (ix : Nat) : NvLibrary × Nat :=
  match v.marker with
  | none => (v, ix)
  | some m =>
    let w : NvLibrary := { v with marker := none }
    match m.kind with
    | .closeEdit =>
      let c := Config.cutSiteRecord ix
      ({ w with site := .stored { parts := c.1, crc := c.2 } }, ix + 1)
    | .eraseLibrary =>
      let n := Config.cutEraseSlot ix % 16 + 1
      let x : NvLibrary := { w with slots := eraseFirst (n - 1) w.slots }
      (x.setSlot n ((x.slots.getD (n - 1) .blank).damaged .eraseLibrary 0 (ix + 1)), ix + 2)
    | k => (w.setSlot m.slot ((w.slots.getD (m.slot - 1) .blank).damaged k m.part ix), ix + 1)

/-- Step 2: a SEALED slot whose CRC differs becomes INVALID. -/
def PlanSlot.checkSeal (p : PlanSlot) : PlanSlot :=
  if p.state = .sealed ∧ crc16 p.sealedBytes ≠ p.crc then { p with state := .invalid } else p

/-- The marker names a CLOSE_EDIT write. -/
def NvLibrary.closeCut (v : NvLibrary) : Bool := v.marker.any (fun m => decide (m.kind = .closeEdit))

/-- The state after cold start or warm reset, from what is kept: the NV library, the straps and key levels, the free-value counter and the
waiting commands (R185 and the reset values of every block). Over a record that lists no bank the engine leaves STARTUP at once (R45), after the
notice sets have been emptied, so each set then holds an ENGINE_STATE (log 39). -/
def State.boot (s : State) (strap : LineRate) : State :=
  let cut := cutOperation s.lib.nv s.freeIx
  let nv : NvLibrary := { cut.1 with slots := cut.1.slots.map PlanSlot.checkSeal }
  let site := checkedSite nv s.lib.nv.closeCut
  let t :=
    { State.reset with
      strap := strap, keys := s.keys, freeIx := cut.2, pending := s.pending
      lib := { State.reset.lib with nv := nv, inUse := site, siteCut := s.lib.nv.closeCut } }
  match site with
  | none => t
  | some r =>
    { t with
      eng := { t.eng with state := .startup }
      plans := { active := nv.defaultOf (some r), stack := [] }
      banks := buildBanks r.parts
      arb := { slots := buildSlots r.parts, queue := [] }
      vel := { t.vel with stations := buildStations r.parts }
      fl := { t.fl with units := buildUnits r.parts } }.engineTakesBanks

end Sys2Proof.Machine
end

