-- ==== Sys2Proof/Machine/Rounds.lean ====
section
/-! DEFINITION. The Velocity Loop's stations, rounds, estimate and staging (R111 to R116, R121 to R125). -/

namespace Sys2Proof.Machine

open Sys2Proof

/-- A station is assigned and reachable, as the unit table holds it (R110, R128). -/
def State.stationReachable (s : State) (n : Nat) : Bool := (s.fl.unitOf .station n).any FieldUnit.reachable

def State.stationAssigned (s : State) (n : Nat) : Bool := (s.fl.unitOf .station n).any FieldUnit.assigned

/-- A station is used at a round completion (R114). -/
def State.stationUsed (s : State) (t : Station) : Bool :=
  t.reading.any (fun r => decide (r.quality = .good)) && decide (0 < t.weight) && s.stationReachable t.number &&
    !inHeat s.eng.heat t.chainage

/-- A station's velocity; 0 without a reading. -/
def Station.velocity (t : Station) : Int :=
  match t.reading with
  | some r => r.velocity
  | none => 0

/-- The weighted mean of the used stations, truncated toward zero; none without a used station (R114). -/
def estimateOf (used : List Station) : Option Int :=
  if used.isEmpty then none
  else
    some (Int.tdiv ((used.map (fun t => (t.weight : Int) * t.velocity)).foldl (· + ·) 0)
      ((used.map (fun t => (t.weight : Int))).foldl (· + ·) 0))

/-- P: the estimate taken positive in the committed direction, in ACTIVE (R116). -/
def State.projectedFrom (s : State) (e : Option Int) : Option Int :=
  match s.eng.state, s.eng.latch with
  | .active, some c => e.map (fun v => if c.dir = .east then v else -v)
  | _, _ => none

/-- The estimate formed, the used fields, its validity with ESTIMATE_INVALID on a change, and P (R114 to R116). -/
def State.formEstimate (s : State) : State :=
  let e := estimateOf (s.vel.stations.filter s.stationUsed)
  let t :=
    { s with
      vel := { s.vel with
        rounds := s.vel.rounds + 1
        estimate := e
        stations := s.vel.stations.map (fun (t : Station) => { t with used := s.stationUsed t })
        projected := s.projectedFrom e } }
  if e.isSome = s.vel.estimate.isSome then t else t.raise (.estimateInvalid e.isSome)

/-- A stage change made by the engine, with the dwell restarted and the demands recomputed (R70, R120). -/
def State.setStage (s : State) (n : Nat) : State := ({ s with eng := { s.eng with stage := some n } }.startDwell).finish

/-- The next bank (R123). -/
def State.nextBank (s : State) : Option Bank := (s.eligibleOrder.drop (s.eng.stage.getD 0)).head?

/-- The stage-up test passes (R123). -/
def State.stageUpPasses (s : State) (r : Row) : Bool :=
  match s.nextBank with
  | some b => r.ceiling == 0 || decide ((s.vel.thrust.getD 0) + (b.thrust : Int) ≤ (r.ceiling : Int))
  | none => false

/-- Staging on P, the target, the row and the stage count (R121, R123, R124). -/
def State.stageOn (s : State) (p : Int) (target : Nat) (r : Row) (n : Nat) : State :=
  let h := siteVelocityHysteresis s.site
  if p < (target : Int) - (h : Int) then
    if s.stageUpPasses r then (if n < 24 then s.setStage (n + 1) else s) else s.setLimit .stageLimit
  else if (target : Int) + (h : Int) < p ∧ r.base < n then s.setStage (n - 1)
  else s

/-- Staging at a round completion, when the engine is ACTIVE, the estimate VALID and the dwell expired (R122). -/
def State.evaluateStaging (s : State) : State :=
  match s.vel.projected, s.vel.target, s.row, s.eng.stage with
  | some p, some g, some r, some n => if s.eng.state = .active ∧ s.vel.dwell = .expired then s.stageOn p g.value r n else s
  | _, _, _, _ => s

/-- Every polled mark clear (R112, R113). -/
def State.clearMarks (s : State) : State :=
  { s with vel := { s.vel with stations := s.vel.stations.map (fun (t : Station) => { t with polled := false }) } }

/-- Every reachable station holds a set mark (R112). -/
def State.roundComplete (s : State) : Bool := s.vel.stations.all (fun t => t.polled || !s.stationReachable t.number)

/-- The round completed when it can be (R112). -/
def State.completeRound (s : State) : State := if s.roundComplete then s.formEstimate.evaluateStaging.clearMarks else s

/-- A POLL exchange with station `n` has ended: a reading for a reply, the mark in either case, then the test of the round (R111, R112). -/
def State.stationPolled (s : State) (n : Nat) (reading : Option Reading) : State :=
  { s with
    vel := { s.vel with
      stations := s.vel.stations.map (fun (t : Station) =>
        if t.number = n then { t with polled := true, reading := reading.or t.reading } else t) } }.completeRound

end Sys2Proof.Machine
end

