-- ==== Sys2Proof/Machine/Field.lean ====
section
/-! DEFINITION. The Field Line Controller: exchanges (R129 to R132, R195), line decisions (R134, R137, R138), and enumeration (R141 to R144). -/

namespace Sys2Proof.Machine

open Sys2Proof

/-- The line put into a phase. -/
def State.setPhase (s : State) (p : LinePhase) : State := { s with fl := { s.fl with phase := p } }

/-- A request begins to be sent. -/
def State.send (s : State) (r : FieldRequest) : State := s.setPhase (.sending r)

/-! ### Line decisions (R134, R137, R138) -/

/-- The check at take-out (R134). -/
def State.commandStands (s : State) (c : CommandEntry) : Bool :=
  match s.fl.unit c.address with
  | none => false
  | some u =>
    match c.command with
    | .stop => u.assigned
    | .run d =>
      decide (u.kind = .drive) && (s.bank u.number).any (fun b => decide (b.state = .starting d) && !b.heatInhibited)

/-- The first entry that passes the check, and the entries left behind it; the ones before it are discarded (R134). -/
def takeOut (ok : CommandEntry → Bool) : List CommandEntry → Option (CommandEntry × List CommandEntry)
  | [] => none
  | e :: es => if ok e then some (e, es) else takeOut ok es

/-- The assigned addresses, ascending. -/
def FieldLine.assignedAddresses (f : FieldLine) : List Nat :=
  (f.units.zipIdx 1).filterMap (fun ua => if ua.1.assigned then some ua.2 else none)

/-- The next position of the poll rota: the lowest assigned above the pointer, or the lowest assigned (R138). -/
def FieldLine.nextPoll (f : FieldLine) : Option Nat :=
  match f.assignedAddresses.find? (fun a => decide (f.rota.getD 0 < a)) with
  | some a => some a
  | none => f.assignedAddresses.head?

/-- The next poll sent, when a position is assigned; the count becomes 0 (R137, R138). With no position assigned no poll is sent and the count
stays (log 38). -/
def State.sendPoll (s : State) : State :=
  match s.fl.nextPoll with
  | some a => { s with fl := { s.fl with rota := some a, inRow := 0 } }.send (.poll a)
  | none => s

/-- The head taken, and after discards the next head, until a command is sent or the queue is empty (R134, R137). -/
def State.sendCommand (s : State) : State :=
  match takeOut s.commandStands s.fl.queue with
  | some (c, rest) =>
    { s with fl := { s.fl with queue := rest, inRow := min 4 (s.fl.inRow + 1) } }.send (.command c.address c.command)
  | none => { s with fl := { s.fl with queue := [] } }.sendPoll

/-- A line decision (R137). -/
def State.lineDecision (s : State) : State :=
  if s.fl.queue.isEmpty then s.sendPoll
  else if 4 ≤ s.fl.inRow ∧ s.fl.nextPoll.isSome = true then s.sendPoll
  else s.sendCommand

/-- The line is free for a decision (R137, R139, R141). -/
def State.lineFree (s : State) : Bool :=
  decide (s.fl.phase = .idle) && decide (s.fl.enumeration = .idle) && decide (s.eng.state ≠ .unconfigured)

/-! ### Enumeration (R141, R144) -/

/-- The line taken: marks clear, every position not assigned, CLEAR_ADDRESSES sent (R141, steps 2 to 4). -/
def State.startEnumeration (s : State) : State :=
  let t := s.clearMarks
  { t with
    fl := { t.fl with units := t.fl.units.map (fun (u : FieldUnit) => { u with assigned := false }), enumeration := .running 1 } }.send
    .clearAddresses

/-- The positions at the end of an enumeration (R144, step 2). -/
def FieldUnit.afterEnumeration (u : FieldUnit) : FieldUnit := { u with missed := 0, reachable := u.assigned }

/-- The bank of a position at the end of an enumeration (R94, R144 step 4). -/
def State.bankAfterEnumeration (s : State) (n : Nat) : State :=
  match s.bank n with
  | none => s
  | some b =>
    s.commitBank (b.withdraw (if (s.fl.unitOf .drive n).any FieldUnit.assigned then .verify else .unassigned))

/-- The end of an enumeration, in the order of R144. -/
def State.endEnumeration (s : State) (r : OperationResult) (detail : Nat) : State :=
  let units := s.fl.units.map FieldUnit.afterEnumeration
  let f1 : FieldLine := { s.fl with daisyOut := false, units := units }
  let f2 : FieldLine := { f1 with queue := f1.queue.filter (fun c => (f1.unit c.address).any FieldUnit.assigned) }
  let t := ((s.banks.map Bank.number).foldl State.bankAfterEnumeration { s with fl := f2 }).engineTakesBanks
  let u := { t with vel := { t.vel with stations := t.vel.stations.map (fun (x : Station) => { x with reading := none }) } }.clearMarks
  let v :=
    match s.inFlightOf .enumerate with
    | some o => u.recordOperation .enumerate 0 (units.filter FieldUnit.assigned).length r 0 detail o.initiator
    | none => u
  { v with fl := { v.fl with enumeration := .idle, rota := none, phase := .idle } }

/-- A position's kind answered to IDENTIFY (R142, steps 3 and 4, and the IDENTIFY beyond the chain). -/
def State.identified (s : State) (n : Nat) (k : UnitKind) : State :=
  match s.fl.unit n with
  | none => s.endEnumeration .longChain 0
  | some u => if u.kind = k then s.send (.assign n) else s.endEnumeration .kindMismatch n

/-- Position `n` has acknowledged its address (R142, step 4). -/
def State.assignedTo (s : State) (n : Nat) : State :=
  match s.fl.unit n with
  | none => s
  | some u =>
    { s with fl := { s.fl.setUnit n { u with assigned := true } with enumeration := .running (n + 1) } }.send .identify

/-- IDENTIFY unanswered: SHORT_CHAIN at a listed position, DONE beyond the chain (R142, steps 2 and last). -/
def State.identifyMissed (s : State) (n : Nat) : State :=
  if (s.fl.unit n).isSome then s.endEnumeration .shortChain n else s.endEnumeration .done 0

/-- The position being assigned. -/
def Enumeration.position : Enumeration → Nat
  | .running n => n
  | _ => 0

/-! ### Exchanges (R131, R132) -/

/-- A position's reply (R132). -/
def FieldUnit.replied (u : FieldUnit) : FieldUnit := { u with missed := 0, reachable := true }

/-- A position's miss (R132). -/
def FieldUnit.missedOne (u : FieldUnit) : FieldUnit :=
  let n := min 3 (u.missed + 1)
  { u with missed := n, reachable := u.reachable && decide (n < 3) }

/-- A drive's report handed to the Bank Sequencer with the command-waiting indication (R131, R81). -/
def State.bankReport (s : State) (n : Nat) (r : Report) (waits : Bool) : State :=
  match s.bank n with
  | none => s
  | some b => (s.commitBank (takeReport (s.bankContext n) b r waits)).engineTakesBanks

/-- A drive's third miss (R93). -/
def State.bankLost (s : State) (n : Nat) : State :=
  match s.bank n with
  | none => s
  | some b => (s.commitBank (unreachable b)).engineTakesBanks

/-- The exchange that polls or commands position `a` ends with a reply (R131, R132). -/
def State.unitReplied (s : State) (a : Nat) (isPoll : Bool) (hi lo : Byte) : State :=
  match s.fl.unit a with
  | none => s
  | some u =>
    let t := { s with fl := s.fl.setUnit a u.replied }
    match u.kind with
    | .drive =>
      match Report.ofStatus hi lo with
      | some r => t.bankReport u.number r (t.fl.commandWaits a)
      | none => t
    | .station =>
      if isPoll then
        t.stationPolled u.number (some { velocity := (readingOfStatus hi lo).1, quality := (readingOfStatus hi lo).2, at_ := t.uptime })
      else t

/-- The exchange that polls or commands position `a` ends with a miss (R131, R132, R93, R111). -/
def State.unitMissed (s : State) (a : Nat) (isPoll : Bool) : State :=
  match s.fl.unit a with
  | none => s
  | some u =>
    let v := u.missedOne
    let fell := u.reachable && !v.reachable
    let t := { s with fl := s.fl.setUnit a v }
    match u.kind with
    | .drive => if fell then t.bankLost u.number else t
    | .station =>
      let w := if fell then t.raise (.unitUnreachable a .station u.number) else t
      if isPoll then w.stationPolled u.number none else w

/-- The end of an exchange with a position: an enumeration that waits for the line takes it (R141, step 1). -/
def State.afterExchange (s : State) : State := if s.fl.enumeration = .waiting then s.startEnumeration else s

/-- The kind of the unit at a position, for the test of a reply's status (R129). -/
def State.statusOk (s : State) (a : Nat) (hi lo : Byte) : Bool :=
  match s.fl.unit a with
  | some u => decide (u.kind = .station) || (Report.ofStatus hi lo).isSome
  | none => true

/-- A reply frame with a correct CRC arrives (R129, R195): read by the request that opened the window; one that fails a test is discarded. -/
def State.takeReply (s : State) (addr hi lo : Byte) : State :=
  match s.fl.phase with
  | .window (.poll a) =>
    if addr.toNat = a ∧ s.statusOk a hi lo = true then (s.setPhase .idle).unitReplied a true hi lo |>.afterExchange else s
  | .window (.command a _) =>
    if addr.toNat = a ∧ s.statusOk a hi lo = true then (s.setPhase .idle).unitReplied a false hi lo |>.afterExchange else s
  | .window .identify =>
    match UnitKind.ofCode hi.toNat with
    | some k => if addr.toNat = 0 then s.identified s.fl.enumeration.position k else s
    | none => s
  | .window (.assign n) => if addr.toNat = n ∧ (UnitKind.ofCode hi.toNat).isSome = true then s.assignedTo n else s
  | _ => s

/-- The reply window closes (R129, R132, R142). -/
def State.windowExpires (s : State) : State :=
  match s.fl.phase with
  | .window (.poll a) => ((s.setPhase .idle).unitMissed a true).afterExchange
  | .window (.command a _) => ((s.setPhase .idle).unitMissed a false).afterExchange
  | .window .identify => s.identifyMissed s.fl.enumeration.position
  | .window (.assign n) => s.endEnumeration .shortChain n
  | _ => s

/-- The last character of a request has been sent: the reply window opens, or the line falls silent after CLEAR_ADDRESSES (R129). -/
def State.requestSent (s : State) : State :=
  match s.fl.phase with
  | .sending .clearAddresses => s.setPhase .silence
  | .sending r => s.setPhase (.window r)
  | _ => s

/-- The silence after CLEAR_ADDRESSES is over: DAISY-OUT asserted, IDENTIFY sent (R141 step 5, R142 step 1). -/
def State.silenceOver (s : State) : State :=
  if s.fl.phase = .silence then { s with fl := { s.fl with daisyOut := true } }.send .identify else s

/-- A grant: the head of the queue takes the lowest free slot (R103, R80). -/
def State.grant (s : State) : State :=
  match s.arb.grantOrder, s.arb.freeSlot with
  | q :: _, some i =>
    match s.bank q.bank with
    | some b =>
      let a := s.arb.leave q.bank
      ({ s with arb := { a with slots := a.slots.set i (some q.bank) } }.commitBank (granted (s.bankContext q.bank) b)).engineTakesBanks
    | none => s
  | _, _ => s

end Sys2Proof.Machine
end

