-- ==== Sys2Proof/Machine/Incidents.lean ====
section
/-! DEFINITION. The Incident Register and the Detection Line Receiver: placing reports, merging, the governing incident and its hand-off (R2 to
R15), and the line condition (R17 to R20). -/

namespace Sys2Proof.Machine

open Sys2Proof

/-! ### Zones (R2) -/

/-- A zone normalised. -/
def Zone.normal (a b : Nat) : Zone := { lo := min a b, hi := max a b }

/-- The gap between two zones. -/
def Zone.gap (x y : Zone) : Nat := if x.hi < y.lo then y.lo - x.hi else if y.hi < x.lo then x.lo - y.hi else 0

/-- The union of two zones. -/
def Zone.union (x y : Zone) : Zone := { lo := min x.lo y.lo, hi := max x.hi y.hi }

/-! ### A report (R5) -/

/-- A report to be placed; `temp` is 0 for a port report. -/
structure FireReport where
  zone : Zone
  cls : IncidentClass
  source : Source
  evacuation : Option Dir
  train : Option Nat
  temp : Nat
  deriving DecidableEq, Repr

def IncidentClass.higher : IncidentClass → IncidentClass → IncidentClass
  | .confirmed, _ => .confirmed
  | .suspected, c => c

/-- The members of a second list appended that the first does not hold (R6, R9). -/
def joinSources (l : List Source) (m : List Source) : List Source := l ++ m.filter (fun x => !l.contains x)

/-- A record created by a report (R5). -/
def FireReport.record (f : FireReport) (now : Nat) : Incident where
  cls := f.cls
  zone := f.zone
  sources := [f.source]
  firstReport := now
  lastUpdate := now
  train := f.train
  evacuation := f.evacuation

/-- A record updated by a report (R6). -/
def Incident.update (r : Incident) (f : FireReport) (now : Nat) : Incident where
  cls := r.cls.higher f.cls
  zone := r.zone.union f.zone
  sources := joinSources r.sources [f.source]
  firstReport := r.firstReport
  lastUpdate := now
  train := f.train.or r.train
  evacuation := f.evacuation.or r.evacuation

/-- The cause of an update (R6); none when nothing that raises a notice has changed. -/
def updateCause (old new : Incident) : Option UpdateCause :=
  if new.zone ≠ old.zone then some .zone
  else if new.cls ≠ old.cls then some .cls
  else if new.sources ≠ old.sources then some .source
  else if new.evacuation ≠ old.evacuation ∨ new.train ≠ old.train then some .details
  else none

/-- A record absorbing a record of a higher index (R9). -/
def Incident.absorb (l h : Incident) (now : Nat) : Incident where
  cls := l.cls.higher h.cls
  zone := l.zone.union h.zone
  sources := joinSources l.sources h.sources
  firstReport := min l.firstReport h.firstReport
  lastUpdate := now
  train := l.train.or h.train
  evacuation := l.evacuation.or h.evacuation

/-! ### Merging (R8, R9) -/

/-- The pairs of indices in the order of R8. -/
def indexPairs : List (Nat × Nat) := [(0, 1), (0, 2), (0, 3), (1, 2), (1, 3), (2, 3)]

/-- The first pair within the merge distance. -/
def mergePair (m : Nat) (table : List (Option Incident)) : Option (Nat × Nat) :=
  indexPairs.find? (fun p =>
    match table.getD p.1 none, table.getD p.2 none with
    | some x, some y => decide (x.zone.gap y.zone ≤ m)
    | _, _ => false)

/-- The incident table replaced. -/
def State.setTable (s : State) (t : List (Option Incident)) : State := { s with inc := { s.inc with table := t } }

/-- One record written. -/
def State.setIncident (s : State) (i : Nat) (o : Option Incident) : State := s.setTable (s.inc.table.set i o)

/-- A latch on index `h` moves to `l` (R9, R50). -/
def State.moveLatch (s : State) (l h : Nat) : State :=
  match s.eng.latch with
  | some c => if c.index = h then { s with eng := { s.eng with latch := some { c with index := l } } } else s
  | none => s

/-- One merge of `h` into `l` (R9). The notice carries `temp`, the temperature class of the HOTSPOT that caused the merge and 0 for a port's
report: R9 names no class in a MERGED subject (log 34). -/
def State.mergeOnce (s : State) (l h : Nat) (temp : Nat) : State :=
  match s.incident l, s.incident h with
  | some x, some y =>
    (((s.setIncident l (some (x.absorb y s.uptime))).setIncident h none).raise (.incidentUpdated l (.merged h) temp)).moveLatch l h
  | _, _ => s

/-- Merging until no pair qualifies: at most three merges (R8). The second component is the index that holds the report. -/
def State.mergeAll : Nat → Nat → Nat → State → State × Nat
  | 0, _, at_, s => (s, at_)
  | fuel + 1, temp, at_, s =>
    match mergePair (siteM s.site) s.inc.table with
    | some (l, h) => State.mergeAll fuel temp (if at_ = h then l else at_) (s.mergeOnce l h temp)
    | none => (s, at_)

/-! ### The governing incident (R14) -/

/-- `x` at index `i` ranks above `y` at index `j`. -/
def ranksAbove (i : Nat) (x : Incident) (j : Nat) (y : Incident) : Bool :=
  if x.cls ≠ y.cls then decide (x.cls = .confirmed)
  else if x.firstReport ≠ y.firstReport then decide (x.firstReport < y.firstReport)
  else decide (i < j)

/-- The better of the best so far and one entry. -/
def better (best : Option (Nat × Incident)) (oi : Option Incident × Nat) : Option (Nat × Incident) :=
  match oi.1, best with
  | none, b => b
  | some r, none => some (oi.2, r)
  | some r, some b => if ranksAbove oi.2 r b.1 b.2 then some (oi.2, r) else some b

/-- The index that ranks above all others; none for an empty table. -/
def governingOf (table : List (Option Incident)) : Option Nat := ((table.zipIdx.foldl better none)).map Prod.fst

/-- The governing index recomputed; GOVERNING_CHANGED on a difference (R14). -/
def State.recomputeGoverning (s : State) : State :=
  let g := governingOf s.inc.table
  if g = s.inc.governing then s
  else { s with inc := { s.inc with governing := g } }.raise (.governingChanged g)

/-! ### The hand-off (R15) -/

/-- The evacuation changes handed on, in index order, and then the link changes (R15, log 17). -/
def State.handDetails (s : State) (before : List (Option Incident)) : State :=
  let indices := [0, 1, 2, 3]
  let evac := indices.filter (fun i =>
    match before.getD i none, s.incident i with
    | some x, some y => decide (x.evacuation ≠ y.evacuation)
    | _, _ => false)
  let link := indices.filter (fun i =>
    match before.getD i none, s.incident i with
    | some x, some y => decide (x.train ≠ y.train)
    | _, _ => false)
  (evac ++ link).foldl State.engineTakesDetails s

/-- The result of a placement handed to the matcher, to the engine and, for details, to the engine again (R15). `before` and `governed` are the
table and the governing index before the placement. -/
def State.handOff (s : State) (before : List (Option Incident)) (governed : Option Nat) : State :=
  let govMoved := decide (governed ≠ s.inc.governing)
  let old := governed.bind (fun i => before.getD i none)
  let new := s.governingRecord
  let detected := fun (o : Option Incident) => o.any (fun r => r.sources.contains .detection)
  let detNew := detected new && !detected old
  let zoneMoved := decide (old.map Incident.zone ≠ new.map Incident.zone)
  let t := s.matcherTakesIncident detNew zoneMoved
  let u := t.handRow.engineTakesIncident (govMoved || zoneMoved) t.rowChanged
  u.handDetails before

/-! ### Placing a report (R4 to R8) -/

/-- The outcome of a placement: the index that holds the report and whether it was added; none when refused. -/
abbrev Placement := Option (Nat × Bool)

/-- A report placed in the table (R5 to R9), the governing index recomputed (R14), and the result handed on (R15). -/
def State.place (s : State) (f : FireReport) : State × Placement :=
  let before := s.inc.table
  let near := [0, 1, 2, 3].find? (fun i => (s.incident i).any (fun r => decide (r.zone.gap f.zone ≤ siteM s.site)))
  match near with
  | some i =>
    match s.incident i with
    | some r =>
      let r2 := r.update f s.uptime
      let t := s.setIncident i (some r2)
      let t2 :=
        match updateCause r r2 with
        | some c => t.raise (.incidentUpdated i c f.temp)
        | none => t
      let m := if r2.zone ≠ r.zone then State.mergeAll 3 f.temp i t2 else (t2, i)
      (m.1.recomputeGoverning.handOff before s.inc.governing, some (m.2, false))
    | none => (s, none)
  | none =>
    match [0, 1, 2, 3].find? (fun i => (s.incident i).isNone) with
    | some i =>
      let t := (s.setIncident i (some (f.record s.uptime))).raise (.incidentAdded i f.source f.temp)
      (t.recomputeGoverning.handOff before s.inc.governing, some (i, true))
    | none => (s.raise (.incidentRefused f.source), none)

/-- A report that has passed its checks: EDIT is aborted first (R4). -/
def State.takeReport (s : State) (f : FireReport) : State × Placement := (s.abortEdit .incident).place f

/-- A change of one record that is not a report: the table written, the notice, the governing index, the hand-off (R10 to R13). -/
def State.amend (s : State) (i : Nat) (o : Option Incident) (c : Option UpdateCause) : State :=
  let t := s.setIncident i o
  let u :=
    match c with
    | some k => t.raise (.incidentUpdated i k 0)
    | none => t
  u.recomputeGoverning.handOff s.inc.table s.inc.governing

/-! ### The Detection Line Receiver (R17 to R20) -/

/-- The detection silence time (R19). -/
def detectionSilence : Nat := 10

/-- The condition and break chainage replaced: a change of condition raises DETECTION_FAULT, sets the re-fix mark on a change to OK, and goes to
the matcher; a new break chainage in FAULT raises DETECTION_FAULT alone (R18). -/
def State.setCondition (s : State) (c : LineCondition) (brk : Option Nat) : State :=
  if s.det.condition = c then
    if c = LineCondition.fault ∧ s.det.breakAt ≠ brk then
      { s with det := { s.det with breakAt := brk } }.raise (.detectionFault c brk)
    else s
  else
    ({ s with det := { s.det with condition := c, breakAt := brk, refix := s.det.refix || decide (c = LineCondition.ok) } }.raise
      (.detectionFault c (if c = LineCondition.ok then none else brk))).matcherTakesCondition c

/-- A valid detection frame restarts the silence timer (R17, R19). -/
def State.detectionHeard (s : State) : State := { s with det := { s.det with silence := .running detectionSilence } }

/-- The effect of STATUS or HOTSPOT on the condition: SILENT becomes OK (R18). -/
def State.lineAlive (s : State) : State := if s.det.condition = .silent then s.setCondition .ok none else s

/-- The re-fix taken by the matcher after the placement, and the row handed on (R39, R41). -/
def State.takeRefix (s : State) : State :=
  if s.governingRecord.isSome then
    let t := s.matcherTakesRefix
    t.handRow.engineTakesRow t.rowChanged
  else s

end Sys2Proof.Machine
end

