-- ==== Sys2Proof/Machine/PortCommands.lean ====
section
/-! DEFINITION. Meanings of the resets, the port events, the command token's requests, the notice requests and the second's tick
(R149 to R172, R185, R202). -/

namespace Sys2Proof.Machine

open Sys2Proof

/-! ### Resets and time -/

/-- COLD_START (R185): the rate strap is sampled. -/
def execColdStart (strap : LineRate) (s : State) : Result := .next (s.boot strap)

/-- WARM_RESET (R185): the strap as sampled at cold start stands. -/
def execWarmReset (s : State) : Result := .next (s.boot s.strap)

/-- One second of a bank's timers; the start timer stands still while an enumeration holds the line (R83). -/
def Bank.tick (startRuns : Bool) (b : Bank) : Bank :=
  { b with coast := b.coast.tick, start := if startRuns then b.start.tick else b.start }

/-- One second of a port's silence timer. -/
def Port.tick (q : Port) : Port := { q with silence := q.silence.tick }

/-- An enumeration holds the field line: start timers stand still and no line decision is made (R83, R141). -/
def Enumeration.holdsLine : Enumeration → Bool
  | .running _ => true
  | _ => false

/-- The last value of the uptime (R202). -/
def uptimeMax : Nat := 4294967295

/-- One second: the uptime, held at its top, and every running timer (R202, log 3). -/
def State.second (s : State) : State :=
  { s with
    uptime := min (s.uptime + 1) uptimeMax
    ports := s.ports.map Port.tick
    det := { s.det with silence := s.det.silence.tick }
    banks := s.banks.map (Bank.tick (!s.fl.enumeration.holdsLine))
    vel := { s.vel with dwell := s.vel.dwell.tick } }

/-- UPTIME_TICK (R202). -/
def execUptimeTick (s : State) : Result := .next s.second

/-! ### Port events (R150 to R155) -/

/-- What a break leaves in hand: the frame whose sending had begun, the response or the refusal of that place (R155). -/
def Port.beingSent (q : Port) (sending : Option Nat) : Option Response :=
  match sending with
  | none => none
  | some 0 => q.response
  | some (i + 1) => (q.waiting[i]?).map portBusyResponse

/-- A port after a break (R155): `sending` is what its transmitter had begun to send. -/
def Port.broken (q : Port) (sending : Option Nat) : Port :=
  { q with
    receive := .hunting
    service := if (q.beingSent sending).isSome then .busy else .idle
    response := q.beingSent sending
    waiting := []
    present := false
    silence := .stopped
    notices := []
    mask := [] }

/-- PORT_BREAK (R155, R161, R166): an IDLE port is sending nothing. The holder's token lapses first, so that the TOKEN_CHANGED offered to the
port itself leaves with the rest of its set (spec 09, example 9.6). -/
def execPortBreak (i : PortId) (sending : Option Nat) (s : State) : Result :=
  let t := s.lapseToken i .broken
  let q := t.port i
  .next (t.setPort i (q.broken (if q.service = .busy then sending else none)))

/-- PORT_SILENCE_EXPIRY (R154, R161). -/
def execPortSilenceExpiry (i : PortId) (s : State) : Result :=
  let q := s.port i
  .next (if q.silence.isRunning then (s.setPort i { q with present := false, silence := .stopped }).lapseToken i .lapsed else s)

/-- A frame is discarded and the receiver of its port hunts (R150). -/
def State.huntAgain (s : State) (i : PortId) : State := s.setPort i { s.port i with receive := .hunting }

/-- PCP_LEN_INVALID (R150). -/
def execPcpLenInvalid (i : PortId) (_len : Byte) (s : State) : Result := .next (s.huntAgain i)

/-- REFUSED_PORT_BUSY_FRAME (R150, R152, R154): a frame at a BUSY port. -/
def execRefusedPortBusyFrame (i : PortId) (tag : Byte) (s : State) : Result :=
  .next
    (if (s.port i).service = .busy then
      let t := s.heard i
      t.setPort i ((t.port i).addWaiting tag)
    else s)

/-- UNKNOWN_REQUEST (R151, R190): refused with REFUSED_UNKNOWN; a CODE of the table is another command's frame (log 2). -/
def execUnknownRequest (i : PortId) (tag code : Byte) (_ops : List Byte) (s : State) : Result :=
  .next
    (if requestCodes.contains code.toNat then s
    else s.request i tag .read true (fun t => (t, refuse .refusedUnknown)))

/-- RESPONSE_SENT (R153). The tags of the refusals waiting leave together here, when the last of them has been sent (log 19). -/
def execResponseSent (i : PortId) (s : State) : Result :=
  let q := s.port i
  .next (if q.service = .busy then s.setPort i { q with service := .idle, response := none, waiting := [] } else s)

/-! ### The command token (R158 to R160) -/

/-- The holder after a request, in one character (spec 11). -/
def State.holderResult (s : State) : List Byte := u8 (optPortCode s.token)

/-- The key level of a portal noted as sampled with its CLAIM (R159). -/
def Keys.sample (k : Keys) (i : PortId) (v : Bool) : Keys :=
  match i with
  | .w => { k with west := v }
  | .e => { k with east := v }
  | _ => k

/-- CLAIM decided on the token as it stands (R158, R159). -/
def State.claim (i : PortId) (key : Bool) (s : State) : State × Answer :=
  let t := { s with keys := s.keys.sample i key }
  match t.token with
  | none =>
    let u := t.changeToken (some i) .claimed
    (u, done u.holderResult)
  | some h =>
    if h = i then (t, done t.holderResult)
    else if i.isPortal && key && !h.isPortal then
      let u := t.changeToken (some i) .seized
      (u, done u.holderResult)
    else (t, { completion := .refusedState, result := some t.holderResult })

/-- CLAIM (R158). -/
def execClaim (i : PortId) (tag : Byte) (ops : List Byte) (key : Bool) (s : State) : Result :=
  .next (s.request i tag .operate (lengthIs ops 0) (State.claim i key))

/-- YIELD by the table of R160. -/
def State.yieldTo (i : PortId) (target : Option Nat) (s : State) : State × Answer :=
  match target with
  | none =>
    if s.token = some i then
      let u := s.changeToken none .yielded
      (u, done u.holderResult)
    else (s, refuse .refusedState)
  | some c =>
    match PortId.ofCode c with
    | none => (s, refuse .refusedRange)
    | some p =>
      if s.token ≠ some i then (s, refuse .refusedState)
      else if p = i then (s, done s.holderResult)
      else if !(s.port p).present then (s, refuse .refusedState)
      else
        let u := s.changeToken (some p) .yielded
        (u, done u.holderResult)

/-- YIELD (R160). -/
def execYield (i : PortId) (tag : Byte) (ops : List Byte) (s : State) : Result :=
  .next (s.request i tag .operate (lengthEither ops 0 1) (State.yieldTo i (optionalOperand ops)))

/-! ### Notices (R170 to R172) -/

/-- The READ_NOTICES result (spec 11): uptime, mask, the entries in kind-number order. -/
def noticesResult (now : Nat) (q : Port) : List Byte := u32 now ++ u24 (setOfKinds q.mask) ++ counted NoticeEntry.bytes q.notices

/-- READ_NOTICES empties the set (R170). -/
def State.collectNotices (i : PortId) (s : State) : State × Answer :=
  (s.setPort i { s.port i with notices := [] }, done (noticesResult s.uptime (s.port i)))

/-- READ_NOTICES (R170). -/
def execReadNotices (i : PortId) (tag : Byte) (ops : List Byte) (s : State) : Result :=
  .next (s.request i tag .operate (lengthIs ops 0) (State.collectNotices i))

/-- The entries of a set whose kind is named. -/
def namedEntries (ks : List Nat) (l : List NoticeEntry) : List NoticeEntry := l.filter (fun e => ks.contains e.notice.kind)

/-- The entries of a set whose kind is not named. -/
def unnamedEntries (ks : List Nat) (l : List NoticeEntry) : List NoticeEntry := l.filter (fun e => !ks.contains e.notice.kind)

/-- A kind set naming the kinds of the given entries. -/
def kindsResult (l : List NoticeEntry) : List Byte := u24 (setOfKinds (l.map (fun e => e.notice.kind)))

/-- ACK_NOTICES removes the named entries (R171). -/
def State.acknowledge (i : PortId) (v : Nat) (s : State) : State × Answer :=
  if kindSetOk v then
    let left := unnamedEntries (kindsOfSet v) (s.port i).notices
    (s.setPort i { s.port i with notices := left }, done (kindsResult left))
  else (s, refuse .refusedRange)

/-- ACK_NOTICES (R171). -/
def execAckNotices (i : PortId) (tag : Byte) (ops : List Byte) (s : State) : Result :=
  .next (s.request i tag .operate (lengthIs ops 3) (State.acknowledge i (getU24 ops 0)))

/-- SET_NOTICE_MASK: the whole mask, and the masked entries discarded (R172); a refusal carries no list (log 43). -/
def State.setMask (i : PortId) (v : Nat) (s : State) : State × Answer :=
  if kindSetOk v then
    let ks := kindsOfSet v
    let q := s.port i
    (s.setPort i { q with mask := ks, notices := unnamedEntries ks q.notices },
      done (u24 (setOfKinds ks) ++ kindsResult (namedEntries ks q.notices)))
  else (s, refuse .refusedRange)

/-- SET_NOTICE_MASK (R172). -/
def execSetNoticeMask (i : PortId) (tag : Byte) (ops : List Byte) (s : State) : Result :=
  .next (s.request i tag .operate (lengthIs ops 3) (State.setMask i (getU24 ops 0)))

end Sys2Proof.Machine
end

