-- ==== Sys2Proof/Machine/ReadCommands.lean ====
section
/-! DEFINITION. Meanings of the READ-level requests: each result holds the items of its rule in the rule's order, encoded as R189 and R192 give
(log 12). -/

namespace Sys2Proof.Machine

open Sys2Proof

/-! ### READ_INCIDENTS (R16) -/

/-- Sources: the count and five characters, those not used 0xFF. -/
def sourceBytes (l : List Source) : List Byte :=
  u8 l.length ++ l.flatMap (fun x => u8 x.code) ++ List.replicate (5 - l.length) 0xFF

/-- One entry of the incident table; a free one holds the absent value in each field (R189), its sources count too: 0xFF (log 12). -/
def incidentBytes : Option Incident → List Byte
  | some r =>
    u8 r.cls.code ++ u16 r.zone.lo ++ u16 r.zone.hi ++ u16 r.zone.fire ++ sourceBytes r.sources ++ u32 r.firstReport ++
      u32 r.lastUpdate ++ u16 (r.train.getD 0) ++ u8 (evacuationCode r.evacuation)
  | none =>
    u8 0xFF ++ u16 0xFFFF ++ u16 0xFFFF ++ u16 0xFFFF ++ List.replicate 6 0xFF ++ u32 0xFFFFFFFF ++ u32 0xFFFFFFFF ++ u16 0 ++ u8 0

def State.incidentsResult (s : State) : List Byte :=
  u32 s.uptime ++ optU8 s.inc.governing ++ s.inc.table.flatMap incidentBytes

/-- READ_INCIDENTS (R16). -/
def execReadIncidents (i : PortId) (tag : Byte) (ops : List Byte) (s : State) : Result :=
  .next (s.readRequest i tag (lengthIs ops 0) (fun t => done t.incidentsResult))

/-! ### READ_DETECTION (R21) -/

def Detection.result (d : Detection) : List Byte :=
  u8 d.condition.code ++ optU16 d.breakAt ++ d.silence.bytes ++ flag d.refix

/-- READ_DETECTION (R21). -/
def execReadDetection (i : PortId) (tag : Byte) (ops : List Byte) (s : State) : Result :=
  .next (s.readRequest i tag (lengthIs ops 0) (fun t => done t.det.result))

/-! ### READ_PLANS (R32) -/

/-- Name, notice option and segment count of a plan. -/
def planHeader : Option PlanSlot → List Byte
  | some p => fitTo 8 p.name ++ u8 (if p.anyChange then 2 else 1) ++ u8 p.segmentCount
  | none => List.replicate 10 0xFF

def State.plansResult (s : State) : List Byte :=
  optU8 s.plans.active ++ planHeader (s.plans.active.map s.slot) ++ counted u8 s.plans.stack ++ optU8 s.mat.governing ++
    optU16 s.mat.workF ++ optU8 s.mat.matched ++ counted u8 s.mat.flags ++ flag s.mat.frozen

/-- READ_PLANS (R32). -/
def execReadPlans (i : PortId) (tag : Byte) (ops : List Byte) (s : State) : Result :=
  .next (s.readRequest i tag (lengthIs ops 0) (fun t => done t.plansResult))

/-! ### READ_ENGINE and READ_TRAINS (R71, R60) -/

def zoneBytes (z : Zone) : List Byte := u16 z.lo ++ u16 z.hi

/-- The items of R71. An absent latch direction is 0xFF: R192 gives Air direction no absent value (log 12). -/
def State.engineResult (s : State) : List Byte :=
  u32 s.uptime ++ u8 s.eng.state.code ++ u8 s.eng.state.reasonCode ++ optU8 (s.eng.latch.map (fun c => c.dir.code)) ++
    optU8 (s.eng.latch.map Latch.index) ++ optU8 s.eng.stage ++ optU8 (s.rowId.map Prod.fst) ++ optU8 (s.rowId.map Prod.snd) ++
    counted (fun b => u8 b.number) s.takenList ++ u8 s.shortfall ++ counted zoneBytes s.eng.heat ++ flag s.eng.snapshot.isSome

/-- READ_ENGINE (R71). -/
def execReadEngine (i : PortId) (tag : Byte) (ops : List Byte) (s : State) : Result :=
  .next (s.readRequest i tag (lengthIs ops 0) (fun t => done t.engineResult))

def trainBytes (t : Nat × Train) : List Byte :=
  u8 t.1 ++ u16 t.2.number ++ u16 t.2.head ++ u16 t.2.tail ++ u8 (if t.2.moving then 2 else 1)

/-- The occupied slots, in slot order. -/
def occupiedSlots (l : List (Option Train)) : List (Nat × Train) :=
  l.zipIdx.filterMap (fun oi => oi.1.map (fun t => (oi.2, t)))

def State.trainsResult (s : State) : List Byte := u32 s.uptime ++ counted trainBytes (occupiedSlots s.eng.trains)

/-- READ_TRAINS (R60). -/
def execReadTrains (i : PortId) (tag : Byte) (ops : List Byte) (s : State) : Result :=
  .next (s.readRequest i tag (lengthIs ops 0) (fun t => done t.trainsResult))

/-! ### READ_BANKS (R97) -/

/-- A coast timer in seconds remaining; one that has run out and waits for a report shows 0 (R79, R97). -/
def Timer.coastBytes : Timer → List Byte
  | .expired => u16 0
  | t => t.bytes

/-- The trip code of the latest report: absent, all ones, unless the report is TRIPPED (R97, R189). -/
def tripCodeOf : Option Report → Option Nat
  | some (.tripped t) => some t
  | _ => none

def State.bankBytes (s : State) (b : Bank) : List Byte :=
  u8 b.number ++ u16 b.chainage ++ u8 b.address ++ u16 b.thrust ++ u8 b.state.code ++ u8 b.state.direction.code ++
    u8 ((b.stopCause.map StopCause.code).getD 0) ++ u8 b.forcing.code ++ u8 b.demand.code ++ flag b.heatInhibited ++ u8 b.failures ++
    flag b.lockoutPending ++ u8 ((s.fl.unitOf .drive b.number).elim 0 FieldUnit.missed) ++ b.coast.coastBytes ++ b.start.bytes ++
    u8 ((b.latest.map Report.code).getD 0) ++ optU8 (tripCodeOf b.latest) ++
    u8 ((b.lastFault.map FaultReason.code).getD 0) ++ flag (s.arb.queued b.number) ++
    (if s.arb.queued b.number then u8 (s.arb.position b.number) else u8 0xFF)

/-- The answer of READ_BANKS: every record, or the one named, which is sent as a list of one record with its count character (log 12). -/
def State.banksAnswer (s : State) (named : Option Nat) : Answer :=
  match named with
  | none => done (u32 s.uptime ++ counted s.bankBytes s.banks)
  | some n =>
    if s.eng.state = .unconfigured then refuse .refusedState
    else
      match s.bank n with
      | some b => done (u32 s.uptime ++ counted s.bankBytes [b])
      | none => refuse .refusedRange

/-- READ_BANKS (R97, R72). -/
def execReadBanks (i : PortId) (tag : Byte) (ops : List Byte) (s : State) : Result :=
  .next (s.readRequest i tag (lengthEither ops 0 1) (fun t => t.banksAnswer (optionalOperand ops)))

/-! ### READ_STARTS (R109) -/

/-- One start slot: FREE, or the bank with its STARTING direction and start timer. -/
def State.slotBytes (s : State) (o : Option Nat) : List Byte :=
  match o.bind s.bank with
  | some b => u8 b.number ++ u8 b.state.direction.code ++ b.start.bytes
  | none => List.replicate 4 0xFF

def QueueKind.code : QueueKind → Nat
  | .start => 1
  | .resume => 2

/-- One entry of the grant order: position, bank, class, kind and the direction that would be granted. -/
def State.queueBytes (s : State) (q : QueueEntry × Nat) : List Byte :=
  u8 q.2 ++ u8 q.1.bank ++ u8 q.1.cls ++ u8 q.1.kind.code ++ u8 ((s.bank q.1.bank).elim 0xFF (fun b => b.state.direction.code))

/-- S stands for the count character of the list of slot records, which R189 puts before a list (log 12). -/
def State.startsResult (s : State) : List Byte :=
  u32 s.uptime ++ u8 s.arb.slots.length ++ s.arb.slots.flatMap s.slotBytes ++ counted s.queueBytes (s.arb.grantOrder.zipIdx 1)

/-- READ_STARTS (R109). -/
def execReadStarts (i : PortId) (tag : Byte) (ops : List Byte) (s : State) : Result :=
  .next (s.readRequest i tag (lengthIs ops 0) (fun t => done t.startsResult))

/-! ### READ_VELOCITY (R127) -/

/-- A station's reading or absent. A velocity beyond −2,000 to +2,000 is shown as sent, by R111 and R195 against the last sentence of R193 (log 45). -/
def readingBytes : Option Reading → List Byte
  | some r => i16 r.velocity ++ u8 r.quality.code ++ u32 r.at_
  | none => u16 0x8000 ++ u8 0 ++ u32 0xFFFFFFFF

def State.stationBytes (s : State) (t : Station) : List Byte :=
  u8 t.number ++ u16 t.chainage ++ u8 t.weight ++ u8 t.address ++ readingBytes t.reading ++ flag (s.stationAssigned t.number) ++
    flag (s.stationReachable t.number) ++ flag t.polled ++ flag t.used

/-- The target with its source and unclamped value. The source of an absent target is 0xFF: R192 gives Target source no absent value (log 12). -/
def targetBytes (o : Option Target) : List Byte :=
  match o with
  | some t => u16 t.value ++ u8 (if t.fromHeld then 2 else 1) ++ u16 t.unclamped
  | none => u16 0x8000 ++ u8 0xFF ++ u16 0x8000

def LimitRecord.bytes (l : LimitRecord) : List Byte := flag l.clamped ++ flag l.stageLimit ++ flag l.saturated

def State.velocityResult (s : State) : List Byte :=
  u32 s.uptime ++ u32 s.vel.rounds ++ counted s.stationBytes s.vel.stations ++ optVelocity s.vel.estimate ++
    optVelocity s.vel.projected ++ targetBytes s.vel.target ++ u16 (s.vel.held.getD 0x8000) ++
    (match s.vel.thrust with | some v => i16 v | none => u16 0xFFFF) ++ s.vel.dwell.bytes ++ s.vel.limits.bytes

/-- READ_VELOCITY (R127). -/
def execReadVelocity (i : PortId) (tag : Byte) (ops : List Byte) (s : State) : Result :=
  .next (s.readRequest i tag (lengthIs ops 0) (fun t => done t.velocityResult))

/-! ### READ_FIELD (R148) -/

def unitBytes (u : FieldUnit × Nat) : List Byte :=
  u8 u.2 ++ u8 u.1.kind.code ++ u8 u.1.number ++ flag u.1.assigned ++ flag u.1.reachable ++ u8 u.1.missed

/-- A command: 1 RUN(FWD), 2 RUN(REV), 3 STOP (log 12). -/
def DriveCommand.code : DriveCommand → Nat
  | .run d => d.code
  | .stop => 3

def commandBytes (c : CommandEntry) : List Byte := u8 c.address ++ u8 c.command.code

/-- The enumeration state and the position being assigned. The position shown is 1 while the enumeration waits for the line and during
CLEAR_ADDRESSES and its silence, and the chain length plus 1 during the last IDENTIFY (log 20). -/
def enumerationBytes : Enumeration → List Byte
  | .idle => u8 0 ++ u8 0xFF
  | .waiting => u8 1 ++ u8 1
  | .running n => u8 1 ++ u8 n

/-- The chain length stands for the count character of the list of positions, which R189 puts before a list (log 12). -/
def State.fieldResult (s : State) : List Byte :=
  u32 s.uptime ++ u8 s.fl.units.length ++ (s.fl.units.zipIdx 1).flatMap unitBytes ++ counted commandBytes s.fl.queue ++
    u8 s.fl.inRow ++ optU8 s.fl.rota ++ enumerationBytes s.fl.enumeration ++
    u8 (optPortCode ((s.inFlightOf .enumerate).map InFlight.initiator)) ++ flag s.fl.daisyOut

/-- READ_FIELD (R148). -/
def execReadField (i : PortId) (tag : Byte) (ops : List Byte) (s : State) : Result :=
  .next (s.readRequest i tag (lengthIs ops 0) (fun t => done t.fieldResult))

/-! ### READ_PORTS (R164) -/

def ServiceState.code : ServiceState → Nat
  | .idle => 0
  | .busy => 1

def State.portBytes (s : State) (i : PortId) : List Byte :=
  u8 (if i.isPortal then 2 else 1) ++ flag (s.port i).present ++ (s.port i).silence.bytes ++ u8 (s.port i).service.code

def State.portsResult (s : State) : List Byte :=
  u32 s.uptime ++ u8 (optPortCode s.token) ++ [PortId.a, .b, .w, .e].flatMap s.portBytes ++ flag s.keys.west ++ flag s.keys.east ++
    u8 s.silenceLimit ++ u8 (optPortCode s.lib.opener)

/-- READ_PORTS (R164): the key levels are sampled when it is taken. -/
def execReadPorts (i : PortId) (tag : Byte) (ops : List Byte) (keyW keyE : Bool) (s : State) : Result :=
  .next (s.request i tag .read (lengthIs ops 0) (fun t =>
    let u := { t with keys := { west := keyW, east := keyE } }
    (u, done u.portsResult)))

/-! ### READ_LIBRARY and READ_SLOT (R186) -/

/-- The operation in flight: kind, subject and initiator (R186). An enumeration's subject is 0 and 0 throughout (log 44). -/
def inFlightBytes : Option InFlight → List Byte
  | some o => u8 o.kind.code ++ u8 o.subjA ++ u8 o.subjB ++ u8 o.initiator.code
  | none => u8 0 ++ u16 0xFFFF ++ u8 0

/-- The operation record; one of kind NONE holds the absent value in every other field (R189). -/
def OperationRecord.bytes (r : OperationRecord) : List Byte :=
  if r.kind = .none then u8 0 ++ u16 0xFFFF ++ u8 0xFF ++ u16 0xFFFF ++ u8 0 ++ u32 0xFFFFFFFF
  else
    u8 r.kind.code ++ u8 r.subjA ++ u8 r.subjB ++ u8 r.result.code ++ u8 r.detailA ++ u8 r.detailB ++ u8 (optPortCode r.initiator) ++
      u32 r.at_

/-- The stored CRC of a SEALED slot. -/
def PlanSlot.sealedCrc (p : PlanSlot) : Option Nat := if p.state = .sealed then some p.crc.toNat else none

/-- Presence, CRC and default plan slot of the site record in use. -/
def siteInUseBytes : Option SiteStore → List Byte
  | some r => flag true ++ u16 r.crc.toNat ++ u8 (siteDefaultSlot r.parts)
  | none => flag false ++ u16 0xFFFF ++ u8 0xFF

def State.libraryResult (s : State) : List Byte :=
  u32 s.uptime ++ u8 s.lib.mode.code ++ u8 (optPortCode s.lib.opener) ++ u8 s.lib.abortCause.code ++ inFlightBytes s.lib.inFlight ++
    s.lib.record.bytes ++ siteInUseBytes s.lib.inUse ++ flag s.lib.nv.lock ++
    s.lib.nv.slots.flatMap (fun p => u8 p.state.code ++ optU16 p.sealedCrc)

/-- READ_LIBRARY (R186). -/
def execReadLibrary (i : PortId) (tag : Byte) (ops : List Byte) (s : State) : Result :=
  .next (s.readRequest i tag (lengthIs ops 0) (fun t => done t.libraryResult))

/-- State, CRC and name of a slot, and unless the lock is set the segment count and the written marks (R186). -/
def slotSummary (p : PlanSlot) (lock : Bool) : List Byte :=
  u8 p.state.code ++ optU16 p.sealedCrc ++ (if (p.part 0).isSome then fitTo 8 p.name else List.replicate 8 0xFF) ++
    (if lock then []
    else optU8 (if (p.part 0).isSome then some p.segmentCount else none) ++ (List.range 33).flatMap (fun k => flag (p.part k).isSome))

/-- A part of the staged site record, or of the record in use (R186). -/
def State.sitePartRead (s : State) (k : Nat) : Answer :=
  match s.lib.staged, s.lib.inUse with
  | some r, _ => done (sitePart r k)
  | none, some r => done (sitePart r.parts k)
  | none, none => refuse .refusedState

/-- READ_SLOT by R186. -/
def State.slotAnswer (s : State) (n : Nat) (part : Option Nat) : Answer :=
  if 16 < n ∨ part.any (fun k => decide ((if n = 0 then 8 else 32) < k)) = true then refuse .refusedRange
  else if n = 0 then
    match part with
    | some k => s.sitePartRead k
    | none =>
      match s.lib.inUse with
      | some r => done (flag true ++ u16 r.crc.toNat)
      | none => done (flag false ++ u16 0xFFFF)
  else
    match part with
    | none => done (slotSummary (s.slot n) s.lib.nv.lock)
    | some k =>
      if s.lib.nv.lock then refuse .refusedLocked
      else if (s.slot n).state = .invalid then refuse .refusedState
      else
        match (s.slot n).part k with
        | some l => done l
        | none => refuse .refusedState

/-- READ_SLOT (R186). -/
def execReadSlot (i : PortId) (tag : Byte) (ops : List Byte) (s : State) : Result :=
  .next (s.readRequest i tag (lengthEither ops 1 2) (fun t => t.slotAnswer (getU8 ops 0) (optionalOperand (ops.drop 1))))

end Sys2Proof.Machine
end

