-- ==== Sys2Proof/Machine/IncidentCommands.lean ====
section
/-! DEFINITION. Meanings of the incident requests and of the detection line's events (R3, R10 to R13, R17 to R20). -/

namespace Sys2Proof.Machine

open Sys2Proof

/-- The source of a port's report (R1). -/
def portSource (i : PortId) : Source := .port i

/-- The LODGE operands as a report; none when a check of R3 after the engine's refuses them (REFUSED_RANGE). -/
def lodgeReport (i : PortId) (len : Nat) (ops : List Byte) : Option FireReport :=
  match IncidentClass.ofCode (getU8 ops 0), evacuationOfCode (getU8 ops 5), optionalTrain (getU16 ops 6) with
  | some c, some e, some t =>
    if getU16 ops 1 ≤ len ∧ getU16 ops 3 ≤ len then
      some { zone := Zone.normal (getU16 ops 1) (getU16 ops 3), cls := c, source := portSource i, evacuation := e, train := t, temp := 0 }
    else none
  | _, _, _ => none

/-- LODGE checked and placed (R3 to R7). -/
def State.lodge (i : PortId) (ops : List Byte) (s : State) : State × Answer :=
  if s.eng.state = .unconfigured then (s, refuse .refusedState)
  else
    match lodgeReport i (siteL s.site) ops with
    | none => (s, refuse .refusedRange)
    | some f =>
      let r := s.takeReport f
      match r.2 with
      | some (k, added) => (r.1, done (u8 k ++ u8 (if added then 1 else 2) ++ u32 s.uptime))
      | none => (r.1, refuse .refusedFull)

/-- LODGE (R3). -/
def execLodge (i : PortId) (tag : Byte) (ops : List Byte) (s : State) : Result :=
  .next (s.request i tag .operate (lengthIs ops 8) (State.lodge i ops))

/-- CONFIRM by R10. -/
def State.confirmIncident (i : PortId) (n : Nat) (s : State) : State × Answer :=
  if 3 < n then (s, refuse .refusedRange)
  else
    match s.incident n with
    | none => (s, refuse .refusedState)
    | some r =>
      let r2 := { r with cls := .confirmed, sources := joinSources r.sources [portSource i], lastUpdate := s.uptime }
      (s.amend n (some r2) (updateCause r r2), doneBare)

/-- CONFIRM (R10). -/
def execConfirm (i : PortId) (tag : Byte) (ops : List Byte) (s : State) : Result :=
  .next (s.request i tag .operate (lengthIs ops 1) (State.confirmIncident i (getU8 ops 0)))

/-- SET_EVACUATION by R11. -/
def State.setEvacuation (n code : Nat) (s : State) : State × Answer :=
  match evacuationOfCode code with
  | none => (s, refuse .refusedRange)
  | some e =>
    if 3 < n then (s, refuse .refusedRange)
    else
      match s.incident n with
      | none => (s, refuse .refusedState)
      | some r =>
        if r.evacuation = e then (s, doneBare)
        else (s.amend n (some { r with evacuation := e, lastUpdate := s.uptime }) (some .details), doneBare)

/-- SET_EVACUATION (R11). -/
def execSetEvacuation (i : PortId) (tag : Byte) (ops : List Byte) (s : State) : Result :=
  .next (s.request i tag .operate (lengthIs ops 2) (State.setEvacuation (getU8 ops 0) (getU8 ops 1)))

/-- LINK_TRAIN by R12. -/
def State.linkTrain (n code : Nat) (s : State) : State × Answer :=
  match optionalTrain code with
  | none => (s, refuse .refusedRange)
  | some t =>
    if 3 < n then (s, refuse .refusedRange)
    else
      match s.incident n with
      | none => (s, refuse .refusedState)
      | some r =>
        if r.train = t then (s, doneBare)
        else (s.amend n (some { r with train := t, lastUpdate := s.uptime }) (some .details), doneBare)

/-- LINK_TRAIN (R12). -/
def execLinkTrain (i : PortId) (tag : Byte) (ops : List Byte) (s : State) : Result :=
  .next (s.request i tag .operate (lengthIs ops 3) (State.linkTrain (getU8 ops 0) (getU16 ops 1)))

/-- CLEAR by R13. -/
def State.clearIncident (n : Nat) (s : State) : State × Answer :=
  if 3 < n then (s, refuse .refusedRange)
  else
    match s.incident n with
    | none => (s, refuse .refusedState)
    | some _ => (s.amend n none (some .cleared), doneBare)

/-- CLEAR (R13). -/
def execClear (i : PortId) (tag : Byte) (ops : List Byte) (s : State) : Result :=
  .next (s.request i tag .command (lengthIs ops 1) (State.clearIncident (getU8 ops 0)))

/-! ### The detection line -/

/-- STATUS (R18, R19). -/
def execStatus (s : State) : Result := .next s.detectionHeard.lineAlive

/-- A hot spot passed on after its effect on the condition (R20): reduced to L, placed, and taken as the re-fix when the mark was set. The
engine acts on the record handed off by the placement before the matcher takes the re-fix (log 36). -/
def State.passHotspot (s : State) (a b temp : Nat) : State :=
  if s.eng.state = .unconfigured then s
  else
    let z := Zone.normal a b
    let len := siteL s.site
    let t := { s with det := { s.det with refix := false } }
    let u :=
      (t.takeReport
        { zone := { lo := min z.lo len, hi := min z.hi len }, cls := .confirmed, source := .detection, evacuation := none, train := none,
          temp := temp }).1
    if s.det.refix then u.takeRefix else u

/-- HOTSPOT (R18 to R20); a temperature class outside 1 to 3 is a frame that R17 discards. -/
def execHotspot (a b : Word16) (temp : Byte) (s : State) : Result :=
  .next
    (if 1 ≤ temp.toNat ∧ temp.toNat ≤ 3 then s.detectionHeard.lineAlive.passHotspot a.toNat b.toNat temp.toNat else s)

/-- LINE_FAULT (R18, R19). -/
def execLineFault (c : Word16) (s : State) : Result := .next (s.detectionHeard.setCondition .fault (some c.toNat))

/-- LINE_OK (R18, R19). -/
def execLineOk (s : State) : Result := .next (s.detectionHeard.setCondition .ok none)

/-- DETECTION_SILENCE_EXPIRY (R18, R19). -/
def execDetectionSilenceExpiry (s : State) : Result :=
  .next
    (if s.det.silence.isRunning then
      { s with det := { s.det with silence := .stopped } }.setCondition .silent s.det.breakAt
    else s)

end Sys2Proof.Machine
end

