-- ==== Sys2Proof/Machine/EngineCommands.lean ====
section
/-! DEFINITION. Meanings of the plan requests (R26 to R29), of the engine's requests (R47, R51, R59, R60), and of SET_TARGET and DWELL_EXPIRY
(R118, R120). -/

namespace Sys2Proof.Machine

open Sys2Proof

/-! ### Plans -/

/-- The new active slot and the number of occupied stack positions. -/
def State.stackResult (s : State) : List Byte := optU8 s.plans.active ++ u8 s.plans.stack.length

/-- The active reference pushed, if there is one; a full stack loses position 8, with STACK_DROPPED (R25, R27). -/
def State.pushActive (s : State) : State :=
  match s.plans.active with
  | none => s
  | some a =>
    let t := { s with plans := { s.plans with stack := (a :: s.plans.stack).take 8 } }
    match s.plans.stack[7]? with
    | some d => t.raise (.stackDropped d)
    | none => t

/-- SELECT_PLAN by R26. -/
def State.selectPlan (n : Nat) (s : State) : State × Answer :=
  if !slotOk n then (s, refuse .refusedRange)
  else if s.lib.mode ≠ .service then (s, refuse .refusedState)
  else if s.eng.state = .unconfigured then (s, refuse .refusedState)
  else if (s.slot n).state ≠ .sealed then (s, refuse .refusedState)
  else
    let t := s.pushActive.setActive (some n)
    (t, done t.stackResult)

/-- SELECT_PLAN (R26). -/
def execSelectPlan (i : PortId) (tag : Byte) (ops : List Byte) (s : State) : Result :=
  .next (s.request i tag .command (lengthIs ops 1) (State.selectPlan (getU8 ops 0)))

/-- REVERT_PLAN by R28. -/
def State.revertPlan (s : State) : State × Answer :=
  match s.plans.stack with
  | [] => (s, refuse .refusedState)
  | p :: ps =>
    let t := { s with plans := { s.plans with stack := ps } }.setActive (some p)
    (t, done t.stackResult)

/-- REVERT_PLAN (R28). -/
def execRevertPlan (i : PortId) (tag : Byte) (ops : List Byte) (s : State) : Result :=
  .next (s.request i tag .command (lengthIs ops 0) State.revertPlan)

/-- SWAP_PLAN by R29. -/
def State.swapPlan (s : State) : State × Answer :=
  match s.plans.active, s.plans.stack with
  | some a, p :: ps => ({ s with plans := { s.plans with stack := a :: ps } }.setActive (some p), doneBare)
  | _, _ => (s, refuse .refusedState)

/-- SWAP_PLAN (R29). -/
def execSwapPlan (i : PortId) (tag : Byte) (ops : List Byte) (s : State) : Result :=
  .next (s.request i tag .command (lengthIs ops 0) State.swapPlan)

/-! ### The engine's requests -/

/-- A direction imposed on a record under the matched row: the commit's last step without the blocking test, then the advisories (R51, R52). -/
def State.imposeDirection (s : State) (d : Dir) (index : Option Nat) : State × Answer :=
  match index, s.row with
  | some k, some r => ((s.latchDirection d k r).advise.finish, doneBare)
  | _, _ => (s, refuse .refusedState)

/-- SET_DIRECTION by state (R51). -/
def State.setDirection (code : Nat) (s : State) : State × Answer :=
  match Dir.ofCode code with
  | none => (s, refuse .refusedRange)
  | some d =>
    match s.eng.state with
    | .hold _ =>
      let t := s.freshMatch.handRow
      if s.plans.active.isSome && s.inc.governing.isSome && t.row.isSome then t.imposeDirection d s.inc.governing
      else (s, refuse .refusedState)
    | .active =>
      if s.eng.latch.any (fun c => decide (c.dir = d)) then (s, doneBare) else s.imposeDirection d (s.eng.latch.map Latch.index)
    | _ => (s, refuse .refusedState)

/-- SET_DIRECTION (R51). -/
def execSetDirection (i : PortId) (tag : Byte) (ops : List Byte) (s : State) : Result :=
  .next (s.request i tag .command (lengthIs ops 1) (State.setDirection (getU8 ops 0)))

/-- RESUME by R47. -/
def State.resumeQuiet (s : State) : State × Answer :=
  if s.eng.state = .resetHold ∧ s.tableEmpty = true then (s.enterQuiet.finish, doneBare) else (s, refuse .refusedState)

/-- RESUME (R47). -/
def execResume (i : PortId) (tag : Byte) (ops : List Byte) (s : State) : Result :=
  .next (s.request i tag .command (lengthIs ops 0) State.resumeQuiet)

/-- The occupancy slot of a train. -/
def trainSlot (l : List (Option Train)) (n : Nat) : Option Nat := l.findIdx? (fun o => o.any (fun t => t.number == n))

/-- The occupancy list written. -/
def State.setTrains (s : State) (l : List (Option Train)) : State := { s with eng := { s.eng with trains := l } }

/-- A SET_TRAIN that has passed its checks: the slot and the outcome, and the occupancy change when head or tail is new (R59, R60). -/
def State.recordTrain (s : State) (t : Train) : State × Answer :=
  let l := s.eng.trains
  match trainSlot l t.number with
  | some k =>
    let u := s.setTrains (l.set k (some t))
    let same := (l.getD k none).any (fun o => decide (o.head = t.head) && decide (o.tail = t.tail))
    (if same then u else u.engineTakesOccupancy, done (u8 k ++ u8 2))
  | none =>
    match l.findIdx? Option.isNone with
    | some k => ((s.setTrains (l.set k (some t))).engineTakesOccupancy, done (u8 k ++ u8 1))
    | none => (s, refuse .refusedFull)

/-- SET_TRAIN by R59. -/
def State.setTrain (ops : List Byte) (s : State) : State × Answer :=
  if s.eng.state = .unconfigured then (s, refuse .refusedState)
  else if !trainOk (getU16 ops 0) then (s, refuse .refusedRange)
  else if siteL s.site < getU16 ops 2 ∨ siteL s.site < getU16 ops 4 then (s, refuse .refusedRange)
  else
    match movingOfCode (getU8 ops 6) with
    | none => (s, refuse .refusedRange)
    | some m => s.recordTrain { number := getU16 ops 0, head := getU16 ops 2, tail := getU16 ops 4, moving := m }

/-- SET_TRAIN (R59). -/
def execSetTrain (i : PortId) (tag : Byte) (ops : List Byte) (s : State) : Result :=
  .next (s.request i tag .operate (lengthIs ops 7) (State.setTrain ops))

/-- REMOVE_TRAIN by R60. -/
def State.removeTrain (n : Nat) (s : State) : State × Answer :=
  if !trainOk n then (s, refuse .refusedRange)
  else
    match trainSlot s.eng.trains n with
    | none => (s, refuse .refusedState)
    | some k => ((s.setTrains (s.eng.trains.set k none)).engineTakesOccupancy, done (u8 k))

/-- REMOVE_TRAIN (R60). -/
def execRemoveTrain (i : PortId) (tag : Byte) (ops : List Byte) (s : State) : Result :=
  .next (s.request i tag .operate (lengthIs ops 2) (State.removeTrain (getU16 ops 0)))

/-! ### Target and dwell -/

/-- The target after the clamp, and whether the clamp changed it (R118). -/
def targetResult (o : Option Target) : List Byte :=
  match o with
  | some t => u16 t.value ++ flag (decide (t.value ≠ t.unclamped))
  | none => u16 0x8000 ++ flag false

/-- SET_TARGET by R118. -/
def State.setTarget (v : Int) (s : State) : State × Answer :=
  if v < 100 ∨ 800 < v then (s, refuse .refusedRange)
  else if s.eng.state ≠ .active then (s, refuse .refusedState)
  else
    let t := { s with vel := { s.vel with held := some v.toNat } }.formTarget
    (t, done (targetResult t.vel.target))

/-- SET_TARGET (R118). -/
def execSetTarget (i : PortId) (tag : Byte) (ops : List Byte) (s : State) : Result :=
  .next (s.request i tag .command (lengthIs ops 2) (State.setTarget (getI16 ops 0)))

/-- DWELL_EXPIRY (R120): the timer reads expired and nothing else follows. -/
def execDwellExpiry (s : State) : Result :=
  .next (if s.vel.dwell.isRunning then { s with vel := { s.vel with dwell := .expired } } else s)

end Sys2Proof.Machine
end

