-- ==== Sys2Proof/Machine/BankCommands.lean ====
section
/-! DEFINITION. Meanings of the bank requests, the bank timers, the grant, and the field line's events (R79, R83, R90, R91, R103, R129 to R144). -/

namespace Sys2Proof.Machine

open Sys2Proof

/-! ### Requests -/

/-- State and demand of a bank after SET_FORCING (R91). -/
def State.forcingResult (s : State) (n : Nat) : List Byte :=
  match s.bank n with
  | some b => u8 b.state.code ++ u8 b.demand.code
  | none => []

/-- The arbiter told of a bank's new forcing: the class of an entry changes when the forcing gives the other one; FORCE_OFF gives none (R100,
log 31). -/
def Arbiter.forced (a : Arbiter) (n : Nat) (m : Forcing) : Arbiter := if m = .off then a else a.setClass n m.queueClass

/-- SET_FORCING by R91. -/
def State.setForcing (n code : Nat) (s : State) : State × Answer :=
  if s.eng.state = .unconfigured then (s, refuse .refusedState)
  else
    match s.bank n with
    | none => (s, refuse .refusedRange)
    | some b =>
      match Forcing.ofCode code with
      | none => (s, refuse .refusedRange)
      | some m =>
        if b.state = .unassigned then (s, refuse .refusedState)
        else if b.forcing = m then (s, done (s.forcingResult n))
        else
          let t := { s with banks := setBank { b with forcing := m } s.banks, arb := s.arb.forced n m }.finish
          (t, done (t.forcingResult n))

/-- SET_FORCING (R91). -/
def execSetForcing (i : PortId) (tag : Byte) (ops : List Byte) (s : State) : Result :=
  .next (s.request i tag .command (lengthIs ops 2) (State.setForcing (getU8 ops 0) (getU8 ops 1)))

/-- RELEASE_BANK by R90. -/
def State.releaseBank (n : Nat) (s : State) : State × Answer :=
  if s.eng.state = .unconfigured then (s, refuse .refusedState)
  else
    match s.bank n with
    | none => (s, refuse .refusedRange)
    | some b =>
      if b.state = .lockedOut then ((s.commitBank (released (s.bankContext n) b)).engineTakesBanks, doneBare)
      else (s, refuse .refusedState)

/-- RELEASE_BANK (R90). -/
def execReleaseBank (i : PortId) (tag : Byte) (ops : List Byte) (s : State) : Result :=
  .next (s.request i tag .command (lengthIs ops 1) (State.releaseBank (getU8 ops 0)))

/-! ### Timers and the grant -/

/-- The coast timer of a bank expires, when it runs (R79). -/
def State.coastExpiry (s : State) (n : Nat) : State :=
  match s.bank n with
  | some b => if b.coast.isRunning then (s.commitBank (coastExpires (s.bankContext n) b)).engineTakesBanks else s
  | none => s

/-- COAST_TIMER_EXPIRY (R79). -/
def execCoastTimerExpiry (n : Nat) (s : State) : Result := .next (s.coastExpiry n)

/-- The start timer of a bank expires, when it runs and no enumeration holds the line (R83). -/
def State.startExpiry (s : State) (n : Nat) : State :=
  match s.bank n with
  | some b =>
    if b.start.isRunning && !s.fl.enumeration.holdsLine then
      (s.commitBank (startTimeout (s.bankContext n) b)).engineTakesBanks
    else s
  | none => s

/-- START_TIMER_EXPIRY (R83). -/
def execStartTimerExpiry (n : Nat) (s : State) : Result := .next (s.startExpiry n)

/-- START_GRANT (R103, R80). -/
def execStartGrant (s : State) : Result := .next s.grant

/-! ### The field line -/

/-- LINE_DECISION (R137, R134, R138), when the line is free. -/
def execLineDecision (s : State) : Result := .next (if s.lineFree then s.lineDecision else s)

/-- FIELD_REQUEST_SENT (R129). -/
def execFieldRequestSent (s : State) : Result := .next s.requestSent

/-- REPLY_WINDOW_EXPIRY (R129, R132, R142). -/
def execReplyWindowExpiry (s : State) : Result := .next s.windowExpires

/-- DRIVE_REPORT (R81, R131). -/
def execDriveReport (addr hi lo : Byte) (s : State) : Result := .next (s.takeReply addr hi lo)

/-- STATION_READING (R111, R131). -/
def execStationReading (addr hi lo : Byte) (s : State) : Result := .next (s.takeReply addr hi lo)

/-- IDENTIFY_REPLY (R142). -/
def execIdentifyReply (addr hi lo : Byte) (s : State) : Result := .next (s.takeReply addr hi lo)

/-- ASSIGN_REPLY (R142). -/
def execAssignReply (addr hi lo : Byte) (s : State) : Result := .next (s.takeReply addr hi lo)

/-- A state in which a bank does not refuse ENUMERATE (R140). -/
def BankState.allowsEnumeration : BankState → Bool
  | .off => true
  | .lockedOut => true
  | .unreachable => true
  | .unassigned => true
  | _ => false

/-- The line asked for by an accepted enumeration: taken at once when no exchange is in progress, otherwise at its end (R141, step 1). -/
def State.takeLine (s : State) : State :=
  if s.fl.phase = .idle then s.startEnumeration else { s with fl := { s.fl with enumeration := .waiting } }

/-- ENUMERATE by the ordered table of R140, also in CLOSING while UNCONFIGURED, where the summary of R175 differs (log 41). The subject
of the operation in flight is 0 and 0: R143 gives an enumeration's subject for the operation record at its end alone (log 44). -/
def State.enumerateUnits (i : PortId) (s : State) : State × Answer :=
  if s.eng.state = .unconfigured then (s, refuse .refusedState)
  else if s.lib.inFlight.isSome then (s, refuse .refusedBusy)
  else if s.eng.state ≠ .quiet then (s, refuse .refusedState)
  else if s.lib.mode ≠ .service then (s, refuse .refusedState)
  else if !s.banks.all (fun b => b.state.allowsEnumeration) then (s, refuse .refusedState)
  else
    let o : InFlight := { kind := .enumerate, subjA := 0, subjB := 0, initiator := i, content := [], sealOutcome := none }
    ({ s with lib := { s.lib with inFlight := some o } }.takeLine, accepted)

/-- ENUMERATE (R140). -/
def execEnumerate (i : PortId) (tag : Byte) (ops : List Byte) (s : State) : Result :=
  .next (s.request i tag .command (lengthIs ops 0) (State.enumerateUnits i))

/-- CLEAR_ADDRESSES_SILENCE_EXPIRY (R141, R142). -/
def execClearAddressesSilenceExpiry (s : State) : Result := .next s.silenceOver

end Sys2Proof.Machine
end

