-- ==== Sys2Proof/Machine/LibraryCommands.lean ====
section
/-! DEFINITION. Meanings of the library's requests and of the ends of its operations (R176 to R183). -/

namespace Sys2Proof.Machine

open Sys2Proof

/-- OPEN_EDIT by R176; the result says whether the staged record is a copy. -/
def State.openEdit (i : PortId) (s : State) : State × Answer :=
  if s.lib.inFlight.isSome then (s, refuse .refusedBusy)
  else if s.lib.mode ≠ .service then (s, refuse .refusedState)
  else if s.eng.state ≠ .quiet ∧ s.eng.state ≠ .unconfigured then (s, refuse .refusedState)
  else
    let staged :=
      match s.lib.inUse with
      | some r => r.parts
      | none => blankSiteRecord
    ({ s with
        lib := { s.lib with mode := .edit, opener := some i, abortCause := .none, staged := some staged }
        plans := { s.plans with stack := [] } }.setActive none,
      done (flag s.lib.inUse.isSome))

/-- OPEN_EDIT (R176). -/
def execOpenEdit (i : PortId) (tag : Byte) (ops : List Byte) (s : State) : Result :=
  .next (s.request i tag .command (lengthIs ops 0) (State.openEdit i))

/-- WRITE_SITE_PART by R177. -/
def State.stagePart (ops : List Byte) (s : State) : State × Answer :=
  if s.lib.mode ≠ .edit then (s, refuse .refusedState)
  else if 8 < getU8 ops 0 then (s, refuse .refusedRange)
  else
    ({ s with lib := { s.lib with staged := some ((s.lib.staged.getD []).set (getU8 ops 0) (ops.drop 1)) } }, doneBare)

/-- WRITE_SITE_PART (R177). -/
def execWriteSitePart (i : PortId) (tag : Byte) (ops : List Byte) (s : State) : Result :=
  .next (s.request i tag .command (writeSitePartFormat ops) (State.stagePart ops))

/-- LOCK_READBACK by R177: the lock is set; a write that fails its comparison adds the result NV_FAULT. -/
def State.lockReadback (compares : Bool) (s : State) : State × Answer :=
  if s.lib.mode ≠ .edit then (s, refuse .refusedState)
  else if s.lib.nv.lock then (s, doneBare)
  else
    ({ s with lib := { s.lib with nv := { s.lib.nv with lock := true } } },
      if compares then doneBare else done (u8 OperationResult.nvFault.code))

/-- LOCK_READBACK (R177). -/
def execLockReadback (i : PortId) (tag : Byte) (ops : List Byte) (compares : Bool) (s : State) : Result :=
  .next (s.request i tag .command (lengthIs ops 0) (State.lockReadback compares))

/-- A long slot request by R177: mode, range, no operation in flight, its own condition; then it starts (R178). -/
def State.longRequest (s : State) (rangeOk ownOk : Bool) (o : InFlight) : State × Answer :=
  if s.lib.mode ≠ .edit then (s, refuse .refusedState)
  else if !rangeOk then (s, refuse .refusedRange)
  else if s.lib.inFlight.isSome then (s, refuse .refusedBusy)
  else if !ownOk then (s, refuse .refusedState)
  else (s.startOperation o, accepted)

/-- An operation of a kind on a subject, begun by a port. -/
def operation (k : OperationKind) (a b : Nat) (i : PortId) : InFlight where
  kind := k
  subjA := a
  subjB := b
  initiator := i
  content := []
  sealOutcome := none

/-- ERASE_SLOT (R179). -/
def execEraseSlot (i : PortId) (tag : Byte) (ops : List Byte) (s : State) : Result :=
  .next (s.request i tag .command (lengthIs ops 1) (fun t =>
    t.longRequest (slotOk (getU8 ops 0)) true (operation .eraseSlot (getU8 ops 0) 0 i)))

/-- The state condition of WRITE_PART: the slot neither SEALED nor INVALID, and the part not yet written (R179). -/
def PlanSlot.writable (p : PlanSlot) (k : Nat) : Bool :=
  decide (p.state ≠ .sealed) && decide (p.state ≠ .invalid) && (p.part k).isNone

/-- WRITE_PART (R179). -/
def execWritePart (i : PortId) (tag : Byte) (ops : List Byte) (s : State) : Result :=
  .next (s.request i tag .command (writePartFormat ops) (fun t =>
    t.longRequest (slotOk (getU8 ops 0) && decide (getU8 ops 1 ≤ 32)) ((t.slot (getU8 ops 0)).writable (getU8 ops 1))
      { operation .writePart (getU8 ops 0) (getU8 ops 1) i with content := ops.drop 2 }))

/-- The checks of SEAL_SLOT as they stand when the request is taken (R180). -/
def State.sealOutcome (s : State) (n : Nat) : Option Violation :=
  sealViolation (s.slot n) (s.lib.staged.getD []) (s.lib.inUse.map SiteStore.parts)

/-- SEAL_SLOT (R180). -/
def execSealSlot (i : PortId) (tag : Byte) (ops : List Byte) (s : State) : Result :=
  .next (s.request i tag .command (lengthIs ops 1) (fun t =>
    t.longRequest (slotOk (getU8 ops 0)) (decide ((t.slot (getU8 ops 0)).state = .written))
      { operation .sealSlot (getU8 ops 0) 0 i with sealOutcome := t.sealOutcome (getU8 ops 0) }))

/-- ERASE_LIBRARY (R181). -/
def execEraseLibrary (i : PortId) (tag : Byte) (ops : List Byte) (s : State) : Result :=
  .next (s.request i tag .command (lengthIs ops 0) (fun t => t.longRequest true true (operation .eraseLibrary 0 0 i)))

/-- Part, field and, for step 5 of R182, the slot of a violation, in the order of R189, where R182 names the slot first (log 12). -/
def violationResult (v : Violation) : List Byte :=
  u8 v.part ++ u8 v.field ++
    match v.slot with
    | some n => u8 n
    | none => []

/-- CLOSE_EDIT by R177 and R182. -/
def State.closeEdit (i : PortId) (s : State) : State × Answer :=
  if s.lib.mode ≠ .edit then (s, refuse .refusedState)
  else if s.lib.inFlight.isSome then (s, refuse .refusedBusy)
  else
    match closeViolation (s.lib.staged.getD []) s.lib.nv.slots with
    | some v => (s, { completion := .refusedState, result := some (violationResult v) })
    | none =>
      ({ s with lib := { s.lib with mode := .closing, opener := none } }.startOperation (operation .closeEdit 0 0 i), accepted)

/-- CLOSE_EDIT (R182). -/
def execCloseEdit (i : PortId) (tag : Byte) (ops : List Byte) (s : State) : Result :=
  .next (s.request i tag .command (lengthIs ops 0) (State.closeEdit i))

/-! ### Ends of operations -/

/-- An operation of a kind ends, when one is in flight. -/
def State.endOf (s : State) (k : OperationKind) (f : State → InFlight → State) : State :=
  match s.inFlightOf k with
  | some o => f s o
  | none => s

/-- ERASE_SLOT_DONE (R179, R178). -/
def execEraseSlotDone (compares : Bool) (s : State) : Result := .next (s.endOf .eraseSlot (fun t o => t.endErase o compares))

/-- WRITE_PART_DONE (R179, R178). -/
def execWritePartDone (compares : Bool) (s : State) : Result := .next (s.endOf .writePart (fun t o => t.endWrite o compares))

/-- SEAL_SLOT_DONE (R180, R178). -/
def execSealSlotDone (compares : Bool) (s : State) : Result := .next (s.endOf .sealSlot (fun t o => t.endSeal o compares))

/-- ERASE_LIBRARY_DONE (R181, R178). -/
def execEraseLibraryDone (failed : Option Nat) (s : State) : Result :=
  .next (s.endOf .eraseLibrary (fun t o => t.endEraseLibrary o failed))

/-- CLOSE_EDIT_WRITE_DONE (R183, R178). -/
def execCloseEditWriteDone (compares : Bool) (s : State) : Result := .next (s.endOf .closeEdit (fun t o => t.endClose o compares))

end Sys2Proof.Machine
end

