-- ==== Sys2Proof/Machine/Receivers.lean ====
section
/-! DEFINITION. Meanings of the discarded frames: what a receiver finds when it hunts again inside the characters of a frame it has discarded
(R150, R195, R197). -/

namespace Sys2Proof.Machine

open Sys2Proof

/-- The meaning of a command that is a frame of a port or of the detection line; no effect for any other command. -/
def execFrame (c : Instr) (s : State) : Result :=
  match c with
  | .unknownRequest port tag code ops => execUnknownRequest port tag code ops s
  | .readIncidents port tag ops => execReadIncidents port tag ops s
  | .readDetection port tag ops => execReadDetection port tag ops s
  | .readPlans port tag ops => execReadPlans port tag ops s
  | .readEngine port tag ops => execReadEngine port tag ops s
  | .readTrains port tag ops => execReadTrains port tag ops s
  | .readBanks port tag ops => execReadBanks port tag ops s
  | .readStarts port tag ops => execReadStarts port tag ops s
  | .readVelocity port tag ops => execReadVelocity port tag ops s
  | .readField port tag ops => execReadField port tag ops s
  | .readPorts port tag ops keyW keyE => execReadPorts port tag ops keyW keyE s
  | .readLibrary port tag ops => execReadLibrary port tag ops s
  | .readSlot port tag ops => execReadSlot port tag ops s
  | .lodge port tag ops => execLodge port tag ops s
  | .confirm port tag ops => execConfirm port tag ops s
  | .setEvacuation port tag ops => execSetEvacuation port tag ops s
  | .linkTrain port tag ops => execLinkTrain port tag ops s
  | .clear port tag ops => execClear port tag ops s
  | .status => execStatus s
  | .hotspot zoneStart zoneEnd tempClass => execHotspot zoneStart zoneEnd tempClass s
  | .lineFault chainage => execLineFault chainage s
  | .lineOk => execLineOk s
  | .selectPlan port tag ops => execSelectPlan port tag ops s
  | .revertPlan port tag ops => execRevertPlan port tag ops s
  | .swapPlan port tag ops => execSwapPlan port tag ops s
  | .setDirection port tag ops => execSetDirection port tag ops s
  | .resume port tag ops => execResume port tag ops s
  | .setTrain port tag ops => execSetTrain port tag ops s
  | .removeTrain port tag ops => execRemoveTrain port tag ops s
  | .setForcing port tag ops => execSetForcing port tag ops s
  | .releaseBank port tag ops => execReleaseBank port tag ops s
  | .setTarget port tag ops => execSetTarget port tag ops s
  | .enumerate port tag ops => execEnumerate port tag ops s
  | .claim port tag ops key => execClaim port tag ops key s
  | .yield port tag ops => execYield port tag ops s
  | .readNotices port tag ops => execReadNotices port tag ops s
  | .ackNotices port tag ops => execAckNotices port tag ops s
  | .setNoticeMask port tag ops => execSetNoticeMask port tag ops s
  | .openEdit port tag ops => execOpenEdit port tag ops s
  | .writeSitePart port tag ops => execWriteSitePart port tag ops s
  | .lockReadback port tag ops compares => execLockReadback port tag ops compares s
  | .eraseSlot port tag ops => execEraseSlot port tag ops s
  | .writePart port tag ops => execWritePart port tag ops s
  | .sealSlot port tag ops => execSealSlot port tag ops s
  | .eraseLibrary port tag ops => execEraseLibrary port tag ops s
  | .closeEdit port tag ops => execCloseEdit port tag ops s
  | _ => .next s

/-- A frame found by a receiver takes its effect. -/
def State.takeFrame (s : State) (c : Instr) : State :=
  match execFrame c s with
  | .next t => t
  | _ => s

/-- Frames found one after another take their effects in order. -/
def State.takeFrames (s : State) (l : List Instr) : State := l.foldl State.takeFrame s

/-- The receiver of a port after it has discarded a frame with an incorrect CRC (R150): the valid frames that lie inside its characters are taken in
order, and the receiver stands where its hunt has come to the end of them. -/
def State.huntInside (s : State) (i : PortId) (d : DamagedFrame) : State :=
  let h := pcpHunt 0 d.chars
  let t := s.takeFrames (h.1.map (requestIn i d.keyW d.keyE d.compares))
  t.setPort i { t.port i with receive := h.2 }

/-- PCP_FRAME_BAD_CRC (R150). -/
def execPcpFrameBadCrc (i : PortId) (d : DamagedFrame) (s : State) : Result :=
  .next (if pcpComplete d.chars && !pcpCrcOk d.chars then s.huntInside i d else s)

/-- DETECTION_FRAME_DISCARDED (R17, R197): no effect of its own. A frame discarded for its TYPE or its CRC is hunted through from the character after
its SYNC; one discarded for a field is not. -/
def execDetectionFrameDiscarded (chars : List Byte) (s : State) : Result :=
  .next (if detectionCrcOk chars then s else s.takeFrames (detectionHunt 0 chars))

/-- FIELD_REPLY_DISCARDED (R129, R195): the window stays open, and the first frame with a correct CRC among the characters that passes the tests of
the window is taken as the reply. -/
def execFieldReplyDiscarded (chars : List Byte) (s : State) : Result :=
  .next ((replyHunt 0 chars).foldl (fun t r => t.takeReply r.addr r.hi r.lo) s)

end Sys2Proof.Machine
end

