-- ==== Sys2Proof/Machine/Dispatch.lean ====
section
/-! DEFINITION. One arm for each command: a direct call of its meaning. -/

namespace Sys2Proof.Machine

open Sys2Proof

/-- The effect of a command on everything but the queue of waiting commands. -/
def exec (i : Instr) (s : State) : Host.Outcome State Fault Refusal :=
  match i with
  | .coldStart strap => Sys2Proof.Machine.execColdStart strap s
  | .warmReset => Sys2Proof.Machine.execWarmReset s
  | .portBreak port sending => Sys2Proof.Machine.execPortBreak port sending s
  | .portSilenceExpiry port => Sys2Proof.Machine.execPortSilenceExpiry port s
  | .pcpFrameBadCrc port frame => Sys2Proof.Machine.execPcpFrameBadCrc port frame s
  | .refusedPortBusyFrame port tag => Sys2Proof.Machine.execRefusedPortBusyFrame port tag s
  | .unknownRequest port tag code ops => Sys2Proof.Machine.execUnknownRequest port tag code ops s
  | .responseSent port => Sys2Proof.Machine.execResponseSent port s
  | .readIncidents port tag ops => Sys2Proof.Machine.execReadIncidents port tag ops s
  | .readDetection port tag ops => Sys2Proof.Machine.execReadDetection port tag ops s
  | .readPlans port tag ops => Sys2Proof.Machine.execReadPlans port tag ops s
  | .readEngine port tag ops => Sys2Proof.Machine.execReadEngine port tag ops s
  | .readTrains port tag ops => Sys2Proof.Machine.execReadTrains port tag ops s
  | .readBanks port tag ops => Sys2Proof.Machine.execReadBanks port tag ops s
  | .readStarts port tag ops => Sys2Proof.Machine.execReadStarts port tag ops s
  | .readVelocity port tag ops => Sys2Proof.Machine.execReadVelocity port tag ops s
  | .readField port tag ops => Sys2Proof.Machine.execReadField port tag ops s
  | .readPorts port tag ops keyW keyE => Sys2Proof.Machine.execReadPorts port tag ops keyW keyE s
  | .readLibrary port tag ops => Sys2Proof.Machine.execReadLibrary port tag ops s
  | .readSlot port tag ops => Sys2Proof.Machine.execReadSlot port tag ops s
  | .lodge port tag ops => Sys2Proof.Machine.execLodge port tag ops s
  | .confirm port tag ops => Sys2Proof.Machine.execConfirm port tag ops s
  | .setEvacuation port tag ops => Sys2Proof.Machine.execSetEvacuation port tag ops s
  | .linkTrain port tag ops => Sys2Proof.Machine.execLinkTrain port tag ops s
  | .clear port tag ops => Sys2Proof.Machine.execClear port tag ops s
  | .detectionFrameDiscarded chars => Sys2Proof.Machine.execDetectionFrameDiscarded chars s
  | .status => Sys2Proof.Machine.execStatus s
  | .hotspot zoneStart zoneEnd tempClass => Sys2Proof.Machine.execHotspot zoneStart zoneEnd tempClass s
  | .lineFault chainage => Sys2Proof.Machine.execLineFault chainage s
  | .lineOk => Sys2Proof.Machine.execLineOk s
  | .detectionSilenceExpiry => Sys2Proof.Machine.execDetectionSilenceExpiry s
  | .selectPlan port tag ops => Sys2Proof.Machine.execSelectPlan port tag ops s
  | .revertPlan port tag ops => Sys2Proof.Machine.execRevertPlan port tag ops s
  | .swapPlan port tag ops => Sys2Proof.Machine.execSwapPlan port tag ops s
  | .setDirection port tag ops => Sys2Proof.Machine.execSetDirection port tag ops s
  | .resume port tag ops => Sys2Proof.Machine.execResume port tag ops s
  | .setTrain port tag ops => Sys2Proof.Machine.execSetTrain port tag ops s
  | .removeTrain port tag ops => Sys2Proof.Machine.execRemoveTrain port tag ops s
  | .setForcing port tag ops => Sys2Proof.Machine.execSetForcing port tag ops s
  | .releaseBank port tag ops => Sys2Proof.Machine.execReleaseBank port tag ops s
  | .coastTimerExpiry bank => Sys2Proof.Machine.execCoastTimerExpiry bank s
  | .startTimerExpiry bank => Sys2Proof.Machine.execStartTimerExpiry bank s
  | .driveReport addr hi lo => Sys2Proof.Machine.execDriveReport addr hi lo s
  | .startGrant => Sys2Proof.Machine.execStartGrant s
  | .lineDecision => Sys2Proof.Machine.execLineDecision s
  | .fieldRequestSent => Sys2Proof.Machine.execFieldRequestSent s
  | .fieldReplyDiscarded chars => Sys2Proof.Machine.execFieldReplyDiscarded chars s
  | .replyWindowExpiry => Sys2Proof.Machine.execReplyWindowExpiry s
  | .stationReading addr hi lo => Sys2Proof.Machine.execStationReading addr hi lo s
  | .dwellExpiry => Sys2Proof.Machine.execDwellExpiry s
  | .setTarget port tag ops => Sys2Proof.Machine.execSetTarget port tag ops s
  | .enumerate port tag ops => Sys2Proof.Machine.execEnumerate port tag ops s
  | .clearAddressesSilenceExpiry => Sys2Proof.Machine.execClearAddressesSilenceExpiry s
  | .identifyReply addr hi lo => Sys2Proof.Machine.execIdentifyReply addr hi lo s
  | .assignReply addr hi lo => Sys2Proof.Machine.execAssignReply addr hi lo s
  | .claim port tag ops key => Sys2Proof.Machine.execClaim port tag ops key s
  | .yield port tag ops => Sys2Proof.Machine.execYield port tag ops s
  | .readNotices port tag ops => Sys2Proof.Machine.execReadNotices port tag ops s
  | .ackNotices port tag ops => Sys2Proof.Machine.execAckNotices port tag ops s
  | .setNoticeMask port tag ops => Sys2Proof.Machine.execSetNoticeMask port tag ops s
  | .openEdit port tag ops => Sys2Proof.Machine.execOpenEdit port tag ops s
  | .writeSitePart port tag ops => Sys2Proof.Machine.execWriteSitePart port tag ops s
  | .lockReadback port tag ops compares => Sys2Proof.Machine.execLockReadback port tag ops compares s
  | .eraseSlot port tag ops => Sys2Proof.Machine.execEraseSlot port tag ops s
  | .writePart port tag ops => Sys2Proof.Machine.execWritePart port tag ops s
  | .sealSlot port tag ops => Sys2Proof.Machine.execSealSlot port tag ops s
  | .eraseLibrary port tag ops => Sys2Proof.Machine.execEraseLibrary port tag ops s
  | .closeEdit port tag ops => Sys2Proof.Machine.execCloseEdit port tag ops s
  | .eraseSlotDone compares => Sys2Proof.Machine.execEraseSlotDone compares s
  | .writePartDone compares => Sys2Proof.Machine.execWritePartDone compares s
  | .sealSlotDone compares => Sys2Proof.Machine.execSealSlotDone compares s
  | .eraseLibraryDone failed => Sys2Proof.Machine.execEraseLibraryDone failed s
  | .closeEditWriteDone compares => Sys2Proof.Machine.execCloseEditWriteDone compares s
  | .uptimeTick => Sys2Proof.Machine.execUptimeTick s
  | .pcpLenInvalid port len => Sys2Proof.Machine.execPcpLenInvalid port len s

end Sys2Proof.Machine
end

