-- ==== Sys2Proof/Safety.lean ====
section
/-! DEFINITION. The invariants of the machine: what no sequence of commands breaks. -/

namespace Sys2Proof.Machine

open Sys2Proof

/-- The holder of the command token, if any, is a present port (R157). -/
def State.TokenHolderPresent (s : State) : Prop := ∀ i, s.token = some i → (s.port i).present = true

/-- The kinds of a notice set rise strictly: at most one entry for each kind (R166). -/
def kindsRise : List NoticeEntry → Bool
  | [] => true
  | e :: es => es.all (fun f => decide (e.notice.kind < f.notice.kind)) && kindsRise es

/-- A port's notice set holds each kind at most once, none that is masked, with counts of 1 to 255; at most four refusals wait, and an IDLE port
has neither a response in hand nor a refusal waiting (R149, R153, R166). -/
def Port.ok (q : Port) : Prop :=
  kindsRise q.notices = true ∧ (∀ e ∈ q.notices, q.mask.contains e.notice.kind = false ∧ 1 ≤ e.count ∧ e.count ≤ 255) ∧
    q.waiting.length ≤ 4 ∧ (q.service = .idle → q.response = none ∧ q.waiting = [])

/-- The ports' invariant. -/
def State.PortsOk (s : State) : Prop := ∀ i, (s.port i).ok

/-- The command queue holds at most one entry for a unit address (R133). -/
def State.CommandQueueOk (s : State) : Prop := (s.fl.queue.map CommandEntry.address).Nodup

/-- The fallback stack holds at most eight references (R25). -/
def State.StackOk (s : State) : Prop := s.plans.stack.length ≤ 8

/-- The start queue holds each bank at most once (R99). -/
def State.StartQueueOk (s : State) : Prop := (s.arb.queue.map QueueEntry.bank).Nodup

/-- The commands-in-a-row count is at most 4 (R137). -/
def State.InRowOk (s : State) : Prop := s.fl.inRow ≤ 4

/-- The incident table has its four entries (R1), the occupancy list its eight slots (R58). -/
def State.TablesSized (s : State) : Prop := s.inc.table.length = 4 ∧ s.eng.trains.length = 8

/-- The uptime fits its 32 bits (R202). -/
def State.UptimeOk (s : State) : Prop := s.uptime ≤ uptimeMax

/-- The bank table holds one record for each bank number (R72). -/
def State.BanksDistinct (s : State) : Prop := (s.banks.map Bank.number).Nodup

/-- The governing index is the one that R14 gives for the incident table as it stands. -/
def State.GoverningOk (s : State) : Prop := s.inc.governing = governingOf s.inc.table

/-- What the start slots and the start queue have to do with the banks' states: no bank holds two slots; a bank holds a slot exactly while it is
STARTING (R98); a queued bank is QUEUED, or STOPPING with a known direction; and a QUEUED bank is queued (R99). -/
def Arbiter.fits (a : Arbiter) (l : List (Nat × BankState)) : Prop :=
  (a.slots.filterMap id).Nodup ∧ (∀ n, some n ∈ a.slots ↔ ∃ d, (n, .starting d) ∈ l) ∧
    (∀ n, a.queued n = true → ∃ d : Spin, (n, .queued d) ∈ l ∨ (n, .stopping d.turn) ∈ l) ∧
    ∀ n d, (n, .queued d) ∈ l → a.queued n = true

/-- The banks' numbers with their states. -/
def bankStates (l : List Bank) : List (Nat × BankState) := l.map (fun b => (b.number, b.state))

/-- The arbiter's slots and queue fit the bank table. -/
def State.SlotsOk (s : State) : Prop := s.arb.fits (bankStates s.banks)

/-- No two records of an incident table lie within a distance (R8). -/
def apart (m : Nat) (table : List (Option Incident)) : Prop :=
  ∀ i j x y, i < j → table.getD i none = some x → table.getD j none = some y → m < x.zone.gap y.zone

/-- What stands in a bank record from its building to its rebuilding, the forcing with it (R72, R91). -/
def Bank.fixed (b : Bank) : Nat × Nat × Nat × Nat × Dir × Nat × Forcing :=
  (b.number, b.chainage, b.fans, b.thrustPerFan, b.forward, b.address, b.forcing)

/-- What stands in a station record from its building to its rebuilding (R110). -/
def Station.fixed (t : Station) : Nat × Nat × Nat × Nat := (t.number, t.chainage, t.weight, t.address)

/-- Only the response differs: matches, the engine's registers but the trains, bank states and demands, start slots and queues, the velocity
registers, the command queue, and the notice sets; everything else of the later state is the earlier one's. -/
def State.ResponseOnly (s t : State) : Prop :=
  t = { s with
      ports := t.ports, mat := t.mat, eng := { t.eng with trains := s.eng.trains }, banks := t.banks, arb := t.arb, vel := t.vel
      fl := { s.fl with queue := t.fl.queue } } ∧
    (∀ i, t.port i = { s.port i with notices := (t.port i).notices }) ∧ t.arb.slots.length = s.arb.slots.length ∧
    t.vel.stations.map Station.fixed = s.vel.stations.map Station.fixed ∧
    (s.BanksDistinct → t.banks.map Bank.fixed = s.banks.map Bank.fixed)

/-- A port has nothing in hand. -/
def State.Ready (s : State) (i : PortId) : Prop := (s.port i).service = .idle

/-- The state in which an owning block works on a request of port `i`: the port present, its silence timer restarted, and BUSY (R150, R151). -/
def State.taking (s : State) (i : PortId) : State :=
  s.setPort i { s.port i with receive := .hunting, service := .busy, present := true, silence := .running s.silenceLimit }

/-- A request answered: the port as in `taking`, with the response in hand. -/
def State.answered (s : State) (i : PortId) (tag : Byte) (a : Answer) : State := (s.taking i).respond i tag a

end Sys2Proof.Machine
end

