-- ==== Sys2Proof/WellFormed.lean ====
section
/-! DEFINITION. Which commands are well formed: operands no longer than a frame holds (R150, R188), and each event's operands as its row's rule
describes the event. -/

namespace Sys2Proof

/-- The operand characters of a request fit a frame: LEN is at most 250 (R150). -/
def operandsFit (ops : List Byte) : Bool := decide (ops.length ≤ 248)

/-- The status characters of a drive's reply hold a report code (R194). -/
def driveStatusOk (hi lo : Byte) : Bool := (Machine.Report.ofStatus hi lo).isSome

/-- The first status character of an IDENTIFY or ASSIGN reply is a kind (R194). -/
def kindStatusOk (hi : Byte) : Bool := (Machine.UnitKind.ofCode hi.toNat).isSome

/-- A detection frame as its receiver takes it: an unknown TYPE alone, or TYPE, the payload of its length and the CRC-8 (R197). -/
def detectionWhole (chars : List Byte) : Bool :=
  match Machine.detectionPayload (Machine.getU8 chars 0) with
  | none => chars.length == 1
  | some n => chars.length == n + 2

/-- A unit address, 1 to 56. -/
def addressOk (a : Byte) : Bool := decide (1 ≤ a.toNat) && decide (a.toNat ≤ 56)

/-- A bank number, 1 to 48. -/
def bankNumberOk (n : Nat) : Bool := decide (1 ≤ n) && decide (n ≤ 48)

/-- The command is well formed. -/
def Instr.wf : Instr → Bool
  | .coldStart _ => true
  | .warmReset => true
  | .portBreak _ sending => sending.all (fun i => decide (i ≤ 4))
  | .portSilenceExpiry _ => true
  | .pcpFrameBadCrc _ frame => Machine.pcpComplete frame.chars && !Machine.pcpCrcOk frame.chars
  | .refusedPortBusyFrame _ _ => true
  | .unknownRequest _ _ code ops => operandsFit ops && !Machine.requestCodes.contains code.toNat
  | .responseSent _ => true
  | .readIncidents _ _ ops => operandsFit ops
  | .readDetection _ _ ops => operandsFit ops
  | .readPlans _ _ ops => operandsFit ops
  | .readEngine _ _ ops => operandsFit ops
  | .readTrains _ _ ops => operandsFit ops
  | .readBanks _ _ ops => operandsFit ops
  | .readStarts _ _ ops => operandsFit ops
  | .readVelocity _ _ ops => operandsFit ops
  | .readField _ _ ops => operandsFit ops
  | .readPorts _ _ ops _ _ => operandsFit ops
  | .readLibrary _ _ ops => operandsFit ops
  | .readSlot _ _ ops => operandsFit ops
  | .lodge _ _ ops => operandsFit ops
  | .confirm _ _ ops => operandsFit ops
  | .setEvacuation _ _ ops => operandsFit ops
  | .linkTrain _ _ ops => operandsFit ops
  | .clear _ _ ops => operandsFit ops
  | .detectionFrameDiscarded chars => detectionWhole chars && !Machine.detectionFrameOk chars
  | .status => true
  | .hotspot _ _ temp => decide (1 ≤ temp.toNat) && decide (temp.toNat ≤ 3)
  | .lineFault _ => true
  | .lineOk => true
  | .detectionSilenceExpiry => true
  | .selectPlan _ _ ops => operandsFit ops
  | .revertPlan _ _ ops => operandsFit ops
  | .swapPlan _ _ ops => operandsFit ops
  | .setDirection _ _ ops => operandsFit ops
  | .resume _ _ ops => operandsFit ops
  | .setTrain _ _ ops => operandsFit ops
  | .removeTrain _ _ ops => operandsFit ops
  | .setForcing _ _ ops => operandsFit ops
  | .releaseBank _ _ ops => operandsFit ops
  | .coastTimerExpiry n => bankNumberOk n
  | .startTimerExpiry n => bankNumberOk n
  | .driveReport a hi lo => addressOk a && driveStatusOk hi lo
  | .startGrant => true
  | .lineDecision => true
  | .fieldRequestSent => true
  | .fieldReplyDiscarded chars => decide (5 ≤ chars.length)
  | .replyWindowExpiry => true
  | .stationReading a _ _ => addressOk a
  | .dwellExpiry => true
  | .setTarget _ _ ops => operandsFit ops
  | .enumerate _ _ ops => operandsFit ops
  | .clearAddressesSilenceExpiry => true
  | .identifyReply a hi _ => a == 0 && kindStatusOk hi
  | .assignReply a hi _ => addressOk a && kindStatusOk hi
  | .claim _ _ ops _ => operandsFit ops
  | .yield _ _ ops => operandsFit ops
  | .readNotices _ _ ops => operandsFit ops
  | .ackNotices _ _ ops => operandsFit ops
  | .setNoticeMask _ _ ops => operandsFit ops
  | .openEdit _ _ ops => operandsFit ops
  | .writeSitePart _ _ ops => operandsFit ops
  | .lockReadback _ _ ops _ => operandsFit ops
  | .eraseSlot _ _ ops => operandsFit ops
  | .writePart _ _ ops => operandsFit ops
  | .sealSlot _ _ ops => operandsFit ops
  | .eraseLibrary _ _ ops => operandsFit ops
  | .closeEdit _ _ ops => operandsFit ops
  | .eraseSlotDone _ => true
  | .writePartDone _ => true
  | .sealSlotDone _ => true
  | .eraseLibraryDone failed => failed.all (fun n => decide (1 ≤ n) && decide (n ≤ 17))
  | .closeEditWriteDone _ => true
  | .uptimeTick => true
  | .pcpLenInvalid _ len => decide (len.toNat < 2) || decide (250 < len.toNat)

end Sys2Proof
end

