-- ==== Sys2Proof/Certificates/Slice0/Obligations.lean ====
section
/-! DEFINITION. The statements for the provers. `s.taking i` is the state in which an owning block works on a request of port `i`, and
`s.answered i tag a` that state with the response in hand. -/

open Sys2Proof Sys2Proof.Machine

/-! ### The queue -/

/-- A step runs the command at the front of the queue on the state with the queue's rest; on an empty queue the block idles. Both are the
model's convention (log 1). -/
def Obligations.StepRunsFront : Prop :=
  (∀ (c : Instr) (rest : List Instr) (s : State), step { s with pending := c :: rest } = exec c { s with pending := rest }) ∧
    ∀ s : State, s.pending = [] → step s = .next s

/-- Every command answers a next state, none faults or is refused, and the queue of waiting commands is left as it is. That no command
faults is read from the spec (log 28), and the queue is the model's own (log 1). -/
def Obligations.CommandsAnswerAndKeepQueue : Prop :=
  ∀ (c : Instr) (s : State), ∃ t, exec c s = .next t ∧ t.pending = s.pending

/-! ### Resets and time -/

/-- Reset values the spec gives: uptime 0, no token holder, every port as R149 and R166 give it, the line SILENT, an empty incident table, an empty
stack, no latch, SERVICE, a clear limit record, an empty command queue. That the engine is UNCONFIGURED rests on the model's choice of what was
stored before: State.reset is the first cold start of a part whose library was never written (log 4). -/
def Obligations.ResetValues : Prop :=
  State.reset.uptime = 0 ∧ State.reset.token = none ∧
    (∀ i, (State.reset.port i).receive = .hunting ∧ (State.reset.port i).service = .idle ∧ (State.reset.port i).waiting = [] ∧
      (State.reset.port i).present = false ∧ (State.reset.port i).silence = .stopped ∧ (State.reset.port i).notices = [] ∧
      (State.reset.port i).mask = []) ∧
    State.reset.det = { condition := .silent, silence := .stopped, breakAt := none, refix := false } ∧
    State.reset.inc = { table := [none, none, none, none], governing := none } ∧ State.reset.plans.stack = [] ∧
    State.reset.eng.state = .unconfigured ∧ State.reset.eng.latch = none ∧ State.reset.lib.mode = .service ∧
    State.reset.vel.limits = .allClear ∧ State.reset.fl.queue = []

/-- A cold start and a warm reset. With a clear operation marker, over a valid site record that lists a bank: STARTUP, the tables built from the record,
the default plan, every other register of the engine, the matcher, the library and the other blocks at its reset value, the NV library kept; over one
that lists no bank: QUIET. Over a stored record that fails its CRC or its validation, and over an unusable one: UNCONFIGURED, every table empty, no
active plan. A marker that names a CLOSE_EDIT write leaves the record invalid, one that names a slot leaves that slot INVALID, and one of
ERASE_LIBRARY leaves a slot INVALID with ERASED ones below it and the others above it (R185). The rate strap as an operand of the cold start, kept by
the warm reset, is the model's (log 6); which slot a cut ERASE_LIBRARY had reached is a free value (log 8). -/
def Obligations.ResetsRebuild : Prop :=
  (∀ (s : State) (strap : LineRate) (r : SiteStore), s.lib.nv.marker = none → s.lib.nv.site = .stored r →
    (siteCrc r.parts = r.crc → siteViolation r.parts = none → buildBanks r.parts ≠ []) →
    ∃ t : State, exec (.coldStart strap) s = .next t ∧ exec .warmReset s = .next { t with strap := s.strap } ∧ t.strap = strap ∧
      t.uptime = 0 ∧ t.token = none ∧ (∀ i, t.port i = .afterReset) ∧ t.det = State.reset.det ∧ t.inc = State.reset.inc ∧
      t.mat = State.reset.mat ∧
      t.lib = { State.reset.lib with
        nv := { s.lib.nv with slots := s.lib.nv.slots.map PlanSlot.checkSeal }, inUse := t.lib.inUse } ∧
      (siteCrc r.parts = r.crc → siteViolation r.parts = none →
        t.lib.inUse = some r ∧ t.eng = { State.reset.eng with state := .startup } ∧
          t.plans = { active := t.lib.nv.defaultOf (some r), stack := [] } ∧ t.banks = buildBanks r.parts ∧
          t.arb = { slots := buildSlots r.parts, queue := [] } ∧
          t.vel = { State.reset.vel with stations := buildStations r.parts } ∧
          t.fl = { State.reset.fl with units := buildUnits r.parts }) ∧
      (siteCrc r.parts ≠ r.crc ∨ siteViolation r.parts ≠ none →
        t.lib.inUse = none ∧ t.eng = State.reset.eng ∧ t.plans = { active := none, stack := [] } ∧ t.banks = [] ∧
          t.arb = { slots := [], queue := [] } ∧ t.vel = State.reset.vel ∧ t.fl = State.reset.fl)) ∧
    ∀ (s : State) (strap : LineRate), ∀ c ∈ [Instr.coldStart strap, .warmReset],
      (∀ r, s.lib.nv.marker = none → s.lib.nv.site = .stored r → siteCrc r.parts = r.crc → siteViolation r.parts = none →
        buildBanks r.parts = [] →
        ∃ t, exec c s = .next t ∧ t.eng = { State.reset.eng with state := .quiet } ∧
          t.lib = { State.reset.lib with
            nv := { s.lib.nv with slots := s.lib.nv.slots.map PlanSlot.checkSeal }, inUse := some r } ∧
          t.plans = { active := t.lib.nv.defaultOf (some r), stack := [] } ∧ t.mat = State.reset.mat ∧ t.inc = State.reset.inc ∧
          t.det = State.reset.det ∧ t.token = none ∧ t.uptime = 0) ∧
      (s.lib.nv.marker = none → s.lib.nv.site = .unusable →
        ∃ t, exec c s = .next t ∧ t.eng = State.reset.eng ∧ t.mat = State.reset.mat ∧
          t.lib = { State.reset.lib with nv := { s.lib.nv with slots := s.lib.nv.slots.map PlanSlot.checkSeal } }) ∧
      (∀ m, s.lib.nv.marker = some m → m.kind = .closeEdit →
        ∃ t, exec c s = .next t ∧ t.eng = State.reset.eng ∧ t.mat = State.reset.mat ∧
          t.lib = { State.reset.lib with nv := t.lib.nv, siteCut := true } ∧ t.lib.nv.marker = none ∧
          t.lib.nv.slots = s.lib.nv.slots.map PlanSlot.checkSeal ∧ t.lib.nv.lock = s.lib.nv.lock) ∧
      (∀ m, s.lib.nv.marker = some m → m.kind = .eraseSlot ∨ m.kind = .writePart ∨ m.kind = .sealSlot → 1 ≤ m.slot →
        m.slot ≤ s.lib.nv.slots.length →
        ∃ t, exec c s = .next t ∧ t.mat = State.reset.mat ∧
          t.lib = { State.reset.lib with nv := t.lib.nv, inUse := t.lib.inUse } ∧ t.lib.nv.marker = none ∧
          (t.slot m.slot).state = .invalid ∧ t.lib.nv.lock = s.lib.nv.lock ∧ t.lib.nv.site = s.lib.nv.site ∧
          (∀ n, n ≠ m.slot → 1 ≤ n → n ≤ s.lib.nv.slots.length → t.slot n = (s.slot n).checkSeal)) ∧
      (∀ m, s.lib.nv.marker = some m → m.kind = .eraseLibrary → s.lib.nv.slots.length = 16 →
        ∃ t n, exec c s = .next t ∧ t.mat = State.reset.mat ∧
          t.lib = { State.reset.lib with nv := t.lib.nv, inUse := t.lib.inUse } ∧ t.lib.nv.marker = none ∧ t.lib.nv.lock = s.lib.nv.lock ∧ t.lib.nv.site = s.lib.nv.site ∧ 1 ≤ n ∧
          n ≤ 16 ∧ (t.slot n).state = .invalid ∧ (∀ k, 1 ≤ k → k < n → t.slot k = .blank) ∧
          ∀ k, n < k → k ≤ 16 → t.slot k = (s.slot k).checkSeal)

/-- A second: the uptime rises by 1 and holds at its top, every running timer loses a second, and a start timer stands still while an enumeration
holds the line; everything else stands. That the tick counts the timers down is the model's reading (log 3). -/
def Obligations.SecondPasses : Prop :=
  ∀ s : State,
    exec .uptimeTick s =
      .next { s with
        uptime := min (s.uptime + 1) 4294967295
        ports := s.ports.map (fun q => { q with silence := q.silence.tick })
        det := { s.det with silence := s.det.silence.tick }
        banks := s.banks.map (fun b =>
          { b with coast := b.coast.tick, start := if s.fl.enumeration.holdsLine then b.start else b.start.tick })
        vel := { s.vel with dwell := s.vel.dwell.tick } }

/-! ### Ports -/

/-- The end of presence. A break on a port that does not hold the token clears that port and nothing else; a response or a refusal whose sending has
begun stays in hand to its end. A silence expiry of such a port leaves it not present with its timer stopped, and nothing else changes. The
holder's silence expiry leaves the token vacant, and so does a break on the holder, whose port is cleared to the last notice (R155, R161, R166). -/
def Obligations.PresenceLost : Prop :=
  ∀ (s : State) (i : PortId),
    (s.token ≠ some i →
      exec (.portBreak i none) s = .next (s.setPort i .afterReset) ∧
        (∀ r, (s.port i).service = .busy → (s.port i).response = some r →
          exec (.portBreak i (some 0)) s = .next (s.setPort i { Port.afterReset with service := .busy, response := some r })) ∧
        (∀ k tag, (s.port i).service = .busy → (s.port i).waiting[k]? = some tag →
          exec (.portBreak i (some (k + 1))) s =
            .next (s.setPort i { Port.afterReset with service := .busy, response := some (portBusyResponse tag) })) ∧
        (∀ n, (s.port i).silence = .running n →
          exec (.portSilenceExpiry i) s = .next (s.setPort i { s.port i with present := false, silence := .stopped }))) ∧
      (∀ n, s.token = some i → (s.port i).silence = .running n →
        ∃ t, exec (.portSilenceExpiry i) s = .next t ∧ t.token = none ∧ (t.port i).present = false ∧
          (t.port i).silence = .stopped ∧ t.inc = s.inc ∧ t.eng.trains = s.eng.trains ∧ t.fl.units = s.fl.units) ∧
      (s.token = some i →
        ∃ t, exec (.portBreak i none) s = .next t ∧ t.token = none ∧ t.port i = .afterReset ∧ t.inc = s.inc ∧
          t.eng.trains = s.eng.trains ∧ t.fl.units = s.fl.units)

/-- Discarded frames. A PCP frame with an incorrect CRC in which no SYNC lies leaves its receiver hunting and nothing else; a valid frame inside it is
taken as the request its CODE names; an incomplete one leaves the receiver RECEIVING. A LEN that cannot begin a frame leaves it hunting. A
detection frame discarded for a field, or in which no SYNC lies, changes nothing; a valid frame inside one is taken. A field reply with another
address leaves its window open, and a reply inside or after a damaged one is taken. -/
def Obligations.BadFramesDiscarded : Prop :=
  ∀ (s : State) (i : PortId) (len : Byte),
    (∀ d : DamagedFrame, pcpComplete d.chars = true → pcpCrcOk d.chars = false →
      (0xA5 ∉ d.chars → exec (.pcpFrameBadCrc i d) s = .next (s.setPort i { s.port i with receive := .hunting })) ∧
        (∀ (pre post ops : List Byte) (tag code : Byte), d.chars = pre ++ 0xA5 :: (requestFrame tag code ops ++ post) → 0xA5 ∉ pre →
          0xA5 ∉ post → ops.length ≤ 248 →
          ∃ t, exec (requestOf i tag code ops d.keyW d.keyE d.compares) s = .next t ∧
            exec (.pcpFrameBadCrc i d) s = .next (t.setPort i { t.port i with receive := .hunting })) ∧
        (∀ pre rest : List Byte, d.chars = pre ++ 0xA5 :: rest → 0xA5 ∉ pre →
          rest = [] ∨ 2 ≤ getU8 rest 0 ∧ getU8 rest 0 ≤ 250 ∧ rest.length < getU8 rest 0 + 3 →
          exec (.pcpFrameBadCrc i d) s = .next (s.setPort i { s.port i with receive := .receiving }))) ∧
      exec (.pcpLenInvalid i len) s = .next (s.setPort i { s.port i with receive := .hunting }) ∧
      (∀ chars : List Byte, detectionFrameOk chars = false → 0x96 ∉ chars ∨ detectionCrcOk chars = true →
        exec (.detectionFrameDiscarded chars) s = .next s) ∧
      (∀ (pre frame post : List Byte) (c : Instr), detectionCrcOk (pre ++ 0x96 :: (frame ++ post)) = false →
        detectionFrameOk frame = true → detectionIn frame = some c → 0x96 ∉ pre → 0x96 ∉ post →
        ∃ t, exec c s = .next t ∧ exec (.detectionFrameDiscarded (pre ++ 0x96 :: (frame ++ post))) s = .next t) ∧
      (∀ (r : FieldReply) (a : Nat), s.fl.phase = .window (.poll a) → r.addr.toNat ≠ a →
        exec (.fieldReplyDiscarded r.frame) s = .next s) ∧
      ∀ (r : FieldReply) (pre : List Byte), 0x3C ∉ pre → replyCrcOk ((pre ++ r.frame).take 4) = false →
        ∃ t, exec (.driveReport r.addr r.hi r.lo) s = .next t ∧ exec (.fieldReplyDiscarded (0x3C :: (pre ++ r.frame))) s = .next t

/-- A frame at a BUSY port: the port present, its timer restarted, the tag at the end of the refusals waiting unless four wait already. When
everything waiting has been sent the port is IDLE again, with nothing in hand; that the tags leave together then is the model's choice (log 19). -/
def Obligations.BusyPortRefuses : Prop :=
  ∀ (s : State) (i : PortId) (tag : Byte), (s.port i).service = .busy →
    exec (.refusedPortBusyFrame i tag) s =
        .next (s.setPort i
          { s.port i with
            receive := .hunting
            present := true
            silence := .running s.silenceLimit
            waiting := if (s.port i).waiting.length < 4 then (s.port i).waiting ++ [tag] else (s.port i).waiting }) ∧
      exec (.responseSent i) s = .next (s.setPort i { s.port i with service := .idle, response := none, waiting := [] })

/-- A frame written out from the layouts of chapter 11 is read back as what it carries: a PCP request of any TAG, CODE and operands (R188, R190), each
detection frame (R196), and a field reply (R194); the receiver is then hunting. A CODE of the table names a request, every other none. -/
def Obligations.FramesReadBack : Prop :=
  (∀ (i : PortId) (tag code : Byte) (ops : List Byte) (w e c : Bool), ops.length ≤ 248 →
    pcpHunt 0 (0xA5 :: requestFrame tag code ops) = ([requestFrame tag code ops], .hunting) ∧
      requestIn i w e c (requestFrame tag code ops) = requestOf i tag code ops w e c ∧
      (requestCodes.contains code.toNat = false ↔ requestOf i tag code ops w e c = .unknownRequest i tag code ops)) ∧
    (∀ (a b : Word16) (temp : Byte),
      detectionHunt 0 (0x96 :: detectionFrame 0x01 []) = [.status] ∧
        (1 ≤ temp.toNat → temp.toNat ≤ 3 →
          detectionHunt 0 (0x96 :: detectionFrame 0x02 (u16 a.toNat ++ u16 b.toNat ++ [temp])) = [.hotspot a b temp]) ∧
        detectionHunt 0 (0x96 :: detectionFrame 0x03 (u16 a.toNat)) = [.lineFault a] ∧
        detectionHunt 0 (0x96 :: detectionFrame 0x04 []) = [.lineOk]) ∧
    ∀ r : FieldReply, replyHunt 0 r.frame = [r]

/-- A CODE that is no request code is refused with REFUSED_UNKNOWN, and an operand length that R190 and R188 do not allow with REFUSED_FORMAT before
anything else is checked, for each of the 41 requests; nothing else happens. -/
def Obligations.MalformedRequestsRefused : Prop :=
  ∀ (s : State) (i : PortId) (tag code : Byte) (ops : List Byte) (w e c : Bool), s.Ready i →
    (requestCodes.contains code.toNat = false →
      exec (.unknownRequest i tag code ops) s = .next (s.answered i tag (refuse .refusedUnknown))) ∧
      ∀ r : Instr,
        (ops.length ≠ 0 ∧
            r ∈ [Instr.readIncidents i tag ops, .readDetection i tag ops, .readPlans i tag ops, .readEngine i tag ops,
              .readTrains i tag ops, .readStarts i tag ops, .readVelocity i tag ops, .readField i tag ops, .readPorts i tag ops w e,
              .readLibrary i tag ops, .revertPlan i tag ops, .swapPlan i tag ops, .resume i tag ops, .enumerate i tag ops,
              .claim i tag ops w, .readNotices i tag ops, .openEdit i tag ops, .closeEdit i tag ops, .lockReadback i tag ops c,
              .eraseLibrary i tag ops] ∨
          ops.length ≠ 1 ∧
            r ∈ [Instr.confirm i tag ops, .clear i tag ops, .selectPlan i tag ops, .setDirection i tag ops, .releaseBank i tag ops,
              .eraseSlot i tag ops, .sealSlot i tag ops] ∨
          ops.length ≠ 2 ∧ r ∈ [Instr.setEvacuation i tag ops, .removeTrain i tag ops, .setForcing i tag ops, .setTarget i tag ops] ∨
          ops.length ≠ 3 ∧ r ∈ [Instr.linkTrain i tag ops, .ackNotices i tag ops, .setNoticeMask i tag ops] ∨
          ops.length ≠ 7 ∧ r = .setTrain i tag ops ∨ ops.length ≠ 8 ∧ r = .lodge i tag ops ∨
          (ops.length ≠ 0 ∧ ops.length ≠ 1) ∧ r ∈ [Instr.readBanks i tag ops, .yield i tag ops] ∨
          (ops.length ≠ 1 ∧ ops.length ≠ 2) ∧ r = .readSlot i tag ops ∨
          ops.length ≠ (if getU8 ops 1 = 0 then 82 else 72) ∧ r = .writePart i tag ops ∨
          (ops = [] ∨ getU8 ops 0 ≤ 8 ∧ ops.length ≠ 1 + siteLengths.getD (getU8 ops 0) 0) ∧ r = .writeSitePart i tag ops) →
        exec r s = .next (s.answered i tag (refuse .refusedFormat))

/-- The eighteen COMMAND-level requests, with operands of a length they allow, from a port that does not hold the token are refused with
REFUSED_AUTHORITY, and nothing else happens. -/
def Obligations.CommandLevelNeedsToken : Prop :=
  ∀ (s : State) (i : PortId) (tag x y : Byte) (c : Bool), s.Ready i → s.token ≠ some i →
    (∀ r ∈ [Instr.clear i tag [x], .selectPlan i tag [x], .revertPlan i tag [], .swapPlan i tag [], .setDirection i tag [x],
        .resume i tag [], .setForcing i tag [x, y], .releaseBank i tag [x], .setTarget i tag [x, y], .enumerate i tag [],
        .openEdit i tag [], .closeEdit i tag [], .eraseSlot i tag [x], .sealSlot i tag [x], .lockReadback i tag [] c,
        .eraseLibrary i tag []],
      exec r s = .next (s.answered i tag (refuse .refusedAuthority))) ∧
        (∀ content : List Byte, content.length = (if y.toNat = 0 then 80 else 70) →
          exec (.writePart i tag (x :: y :: content)) s = .next (s.answered i tag (refuse .refusedAuthority))) ∧
        ∀ content : List Byte, x.toNat ≤ 8 → content.length = siteLengths.getD x.toNat 0 →
          exec (.writeSitePart i tag (x :: content)) s = .next (s.answered i tag (refuse .refusedAuthority))

/-! ### READ-level requests -/

/-- The READ-level requests but READ_NOTICES change nothing but the port; READ_PORTS samples the key levels. Each is answered DONE with its result,
but READ_BANKS of one bank and READ_SLOT, which may be refused: READ_BANKS in UNCONFIGURED and of a bank that is not listed; READ_SLOT of a slot or
part that is none, of a part under the readback lock, of an INVALID slot's part and of one not written, and of a part of a site record that is not
there: the staged one, or without it the one in use. READ_DETECTION gives the line condition, the
break chainage or absent, the silence timer and the re-fix mark. The characters of each result are the model's reading of R189 and R192 (log 12),
with logs 20, 30 and 40 for those of READ_FIELD, READ_VELOCITY and READ_ENGINE; that a refused READ_SLOT carries no result is log 43. -/
def Obligations.ReadsChangeNothing : Prop :=
  ∀ (s : State) (i : PortId) (tag n k : Byte) (w e : Bool), s.Ready i →
    exec (.readDetection i tag []) s =
        .next (s.answered i tag
          (done (u8 s.det.condition.code ++ optU16 s.det.breakAt ++ s.det.silence.bytes ++ flag s.det.refix))) ∧
      exec (.readIncidents i tag []) s = .next (s.answered i tag (done s.incidentsResult)) ∧
      exec (.readPlans i tag []) s = .next (s.answered i tag (done s.plansResult)) ∧
      exec (.readEngine i tag []) s = .next (s.answered i tag (done s.engineResult)) ∧
      exec (.readTrains i tag []) s = .next (s.answered i tag (done s.trainsResult)) ∧
      exec (.readStarts i tag []) s = .next (s.answered i tag (done s.startsResult)) ∧
      exec (.readVelocity i tag []) s = .next (s.answered i tag (done s.velocityResult)) ∧
      exec (.readField i tag []) s = .next (s.answered i tag (done s.fieldResult)) ∧
      exec (.readLibrary i tag []) s = .next (s.answered i tag (done s.libraryResult)) ∧
      exec (.readBanks i tag []) s = .next (s.answered i tag (done (u32 s.uptime ++ counted s.bankBytes s.banks))) ∧
      (s.eng.state = .unconfigured → exec (.readBanks i tag [n]) s = .next (s.answered i tag (refuse .refusedState))) ∧
      (s.eng.state ≠ .unconfigured →
        (s.bank n.toNat = none → exec (.readBanks i tag [n]) s = .next (s.answered i tag (refuse .refusedRange))) ∧
          ∀ b, s.bank n.toNat = some b →
            exec (.readBanks i tag [n]) s = .next (s.answered i tag (done (u32 s.uptime ++ counted s.bankBytes [b])))) ∧
      exec (.readSlot i tag [n]) s = .next (s.answered i tag (s.slotAnswer n.toNat none)) ∧
      exec (.readSlot i tag [n, k]) s = .next (s.answered i tag (s.slotAnswer n.toNat (some k.toNat))) ∧
      (16 < n.toNat → exec (.readSlot i tag [n]) s = .next (s.answered i tag (refuse .refusedRange))) ∧
      (16 < n.toNat ∨ (1 ≤ n.toNat ∧ 32 < k.toNat) ∨ (n.toNat = 0 ∧ 8 < k.toNat) →
        exec (.readSlot i tag [n, k]) s = .next (s.answered i tag (refuse .refusedRange))) ∧
      (1 ≤ n.toNat → n.toNat ≤ 16 → k.toNat ≤ 32 →
        (s.lib.nv.lock = true → exec (.readSlot i tag [n, k]) s = .next (s.answered i tag (refuse .refusedLocked))) ∧
          (s.lib.nv.lock = false →
            ((s.slot n.toNat).state = .invalid ∨ (s.slot n.toNat).part k.toNat = none →
              exec (.readSlot i tag [n, k]) s = .next (s.answered i tag (refuse .refusedState))) ∧
              ∀ l, (s.slot n.toNat).state ≠ .invalid → (s.slot n.toNat).part k.toNat = some l →
                exec (.readSlot i tag [n, k]) s = .next (s.answered i tag (done l)))) ∧
      (n.toNat = 0 → k.toNat ≤ 8 →
        (∀ r, s.lib.staged = some r → exec (.readSlot i tag [n, k]) s = .next (s.answered i tag (done (sitePart r k.toNat)))) ∧
          (∀ u, s.lib.staged = none → s.lib.inUse = some u →
            exec (.readSlot i tag [n, k]) s = .next (s.answered i tag (done (sitePart u.parts k.toNat)))) ∧
          (s.lib.staged = none → s.lib.inUse = none →
            exec (.readSlot i tag [n, k]) s = .next (s.answered i tag (refuse .refusedState)))) ∧
      exec (.readPorts i tag [] w e) s =
        .next (({ s with keys := { west := w, east := e } }.taking i).respond i tag
          (done ({ s with keys := { west := w, east := e } }.taking i).portsResult))

/-! ### Incidents and the detection line -/

/-- A LODGE that passes its checks. With no record within the merge distance: a record in the lowest free index and DONE with index, ADDED and
uptime, or, with no entry free, REFUSED_FULL and the table as it was. With the lowest-indexed record within the merge distance holding its
zone: that record updated and DONE with its index, UPDATED and uptime. -/
def Obligations.LodgePlacesReport : Prop :=
  ∀ (s : State) (i : PortId) (tag : Byte) (ops : List Byte) (f : FireReport), s.Ready i → ops.length = 8 →
    s.eng.state ≠ .unconfigured → lodgeReport i (siteL s.site) ops = some f →
    ((∀ j r, j < 4 → s.incident j = some r → siteM s.site < r.zone.gap f.zone) →
      (∀ k, k < s.inc.table.length → k < 4 → s.incident k = none → (∀ j, j < k → s.incident j ≠ none) →
        ∃ t, exec (.lodge i tag ops) s = .next t ∧
          t.inc.table = s.inc.table.set k
            (some
              { cls := f.cls, zone := f.zone, sources := [.port i], firstReport := s.uptime, lastUpdate := s.uptime, train := f.train,
                evacuation := f.evacuation }) ∧
          (t.port i).response = some { tag := tag, completion := .done, result := some (u8 k ++ u8 1 ++ u32 s.uptime) }) ∧
        ((∀ j, j < 4 → s.incident j ≠ none) →
          ∃ t, exec (.lodge i tag ops) s = .next t ∧ t.inc = s.inc ∧
            (t.port i).response = some { tag := tag, completion := .refusedFull, result := none })) ∧
      (∀ k r, k < s.inc.table.length → k < 4 → s.incident k = some r → r.zone.gap f.zone ≤ siteM s.site →
        (∀ j x, j < k → s.incident j = some x → siteM s.site < x.zone.gap f.zone) → r.zone.lo ≤ f.zone.lo → f.zone.hi ≤ r.zone.hi →
        ∃ t, exec (.lodge i tag ops) s = .next t ∧
          t.inc.table = s.inc.table.set k
            (some
              { cls := if r.cls = .confirmed then .confirmed else f.cls, zone := r.zone
                sources := if r.sources.contains (.port i) then r.sources else r.sources ++ [.port i]
                firstReport := r.firstReport, lastUpdate := s.uptime, train := f.train.or r.train
                evacuation := f.evacuation.or r.evacuation }) ∧
          (t.port i).response = some { tag := tag, completion := .done, result := some (u8 k ++ u8 2 ++ u32 s.uptime) })

/-- A valid HOTSPOT with no record within the merge distance and a free entry creates a CONFIRMED record of source DETECTION there. -/
def Obligations.HotspotAddsRecord : Prop :=
  ∀ (s : State) (a b : Word16) (temp : Byte) (k : Nat), 1 ≤ temp.toNat → temp.toNat ≤ 3 → s.eng.state ≠ .unconfigured →
    (∀ j r, j < 4 → s.incident j = some r →
      siteM s.site < r.zone.gap { lo := min (min a.toNat b.toNat) (siteL s.site), hi := min (max a.toNat b.toNat) (siteL s.site) }) →
    k < s.inc.table.length → k < 4 → s.incident k = none → (∀ j, j < k → s.incident j ≠ none) →
    ∃ t, exec (.hotspot a b temp) s = .next t ∧ t.det.silence = .running 10 ∧ t.det.refix = false ∧ t.det.condition ≠ .silent ∧
      t.inc.table = s.inc.table.set k
        (some
          { cls := .confirmed
            zone := { lo := min (min a.toNat b.toNat) (siteL s.site), hi := min (max a.toNat b.toNat) (siteL s.site) }
            sources := [.detection], firstReport := s.uptime, lastUpdate := s.uptime, train := none, evacuation := none })

/-- A report that grows a zone (R6, R8, R9), by a LODGE or a HOTSPOT. When all records then stay apart by more than the merge distance, the record it
fell on is updated alone, with the union of the zones; otherwise records are merged until no two lie within that distance. One merge folds the
record of the higher index into the lower one's, frees the higher index, and moves a latch on it to the lower. -/
def Obligations.GrowthMerges : Prop :=
  (∀ (s : State) (i : PortId) (tag temp : Byte) (ops : List Byte) (a b : Word16) (f : FireReport) (c : Instr) (k : Nat) (r r2 : Incident),
    s.eng.state ≠ .unconfigured →
    (c = .lodge i tag ops ∧ s.Ready i ∧ ops.length = 8 ∧ lodgeReport i (siteL s.site) ops = some f) ∨
      (c = .hotspot a b temp ∧ 1 ≤ temp.toNat ∧ temp.toNat ≤ 3 ∧
        f = { zone := { lo := min (min a.toNat b.toNat) (siteL s.site), hi := min (max a.toNat b.toNat) (siteL s.site) }
              cls := .confirmed, source := .detection, evacuation := none, train := none, temp := temp.toNat }) →
    s.inc.table.length = 4 → s.incident k = some r → r.zone.gap f.zone ≤ siteM s.site →
    (∀ j x, j < k → s.incident j = some x → siteM s.site < x.zone.gap f.zone) → f.zone.lo < r.zone.lo ∨ r.zone.hi < f.zone.hi →
    r2 =
      { cls := if r.cls = .confirmed then .confirmed else f.cls
        zone := { lo := min r.zone.lo f.zone.lo, hi := max r.zone.hi f.zone.hi }
        sources := if r.sources.contains f.source then r.sources else r.sources ++ [f.source]
        firstReport := r.firstReport, lastUpdate := s.uptime, train := f.train.or r.train, evacuation := f.evacuation.or r.evacuation } →
    ∃ t, exec c s = .next t ∧ apart (siteM s.site) t.inc.table ∧
      (apart (siteM s.site) (s.inc.table.set k (some r2)) → t.inc.table = s.inc.table.set k (some r2))) ∧
    ∀ (s : State) (l h temp : Nat) (x y : Incident), s.incident l = some x → s.incident h = some y → l < h →
      (s.mergeOnce l h temp).inc.table =
          (s.inc.table.set l
            (some
              { cls := if x.cls = .confirmed then .confirmed else y.cls
                zone := { lo := min x.zone.lo y.zone.lo, hi := max x.zone.hi y.zone.hi }
                sources := x.sources ++ y.sources.filter (fun z => !x.sources.contains z)
                firstReport := min x.firstReport y.firstReport, lastUpdate := s.uptime, train := x.train.or y.train
                evacuation := x.evacuation.or y.evacuation })).set h none ∧
        (s.mergeOnce l h temp).eng.latch = s.eng.latch.map (fun c => { c with index := if c.index = h then l else c.index })

/-- CONFIRM, SET_EVACUATION, LINK_TRAIN and CLEAR of an occupied entry write that entry alone and are answered DONE. -/
def Obligations.AmendmentsWriteEntry : Prop :=
  ∀ (s : State) (i : PortId) (tag n : Byte) (r : Incident), s.Ready i → n.toNat ≤ 3 → n.toNat < s.inc.table.length →
    s.incident n.toNat = some r →
    (∃ t, exec (.confirm i tag [n]) s = .next t ∧
      t.inc.table = s.inc.table.set n.toNat
        (some { r with cls := .confirmed, sources := joinSources r.sources [.port i], lastUpdate := s.uptime }) ∧
      (t.port i).response = some { tag := tag, completion := .done, result := none }) ∧
      (∀ (d : Dir), r.evacuation ≠ some d →
        ∃ t, exec (.setEvacuation i tag [n, byteOf d.code]) s = .next t ∧
          t.inc.table = s.inc.table.set n.toNat (some { r with evacuation := some d, lastUpdate := s.uptime }) ∧
          (t.port i).response = some { tag := tag, completion := .done, result := none }) ∧
      (∀ (hi lo : Byte), 1 ≤ hi.toNat * 256 + lo.toNat → hi.toNat * 256 + lo.toNat ≤ 9999 →
        r.train ≠ some (hi.toNat * 256 + lo.toNat) →
        ∃ t, exec (.linkTrain i tag [n, hi, lo]) s = .next t ∧
          t.inc.table = s.inc.table.set n.toNat
            (some { r with train := some (hi.toNat * 256 + lo.toNat), lastUpdate := s.uptime }) ∧
          (t.port i).response = some { tag := tag, completion := .done, result := none }) ∧
      (s.token = some i →
        ∃ t, exec (.clear i tag [n]) s = .next t ∧ t.inc.table = s.inc.table.set n.toNat none ∧
          (t.port i).response = some { tag := tag, completion := .done, result := none })

/-- The governing index names an entry that ranks above every other (R14), and a non-empty table has one. -/
def Obligations.GoverningRanksFirst : Prop :=
  ∀ table : List (Option Incident),
    (∀ i, governingOf table = some i → ∃ r, table.getD i none = some r ∧
      ∀ j x, table.getD j none = some x → j ≠ i → ranksAbove i r j x = true) ∧
    (governingOf table = none → ∀ j, table.getD j none = none)

/-- The line condition by the table of R18, on valid frames and on the silence timer's expiry, with the timer's restart from 10 s. -/
def Obligations.LineConditionTable : Prop :=
  ∀ (s : State) (c : Word16),
    (∃ t, exec .status s = .next t ∧ t.det.silence = .running 10 ∧
      t.det.condition = (if s.det.condition = .silent then .ok else s.det.condition) ∧
      t.det.breakAt = (if s.det.condition = .silent then none else s.det.breakAt) ∧
      t.det.refix = (s.det.refix || decide (s.det.condition = .silent))) ∧
    (∃ t, exec (.lineFault c) s = .next t ∧ t.det.silence = .running 10 ∧ t.det.condition = .fault ∧
      t.det.breakAt = some c.toNat ∧ t.det.refix = s.det.refix) ∧
    (∃ t, exec .lineOk s = .next t ∧ t.det.silence = .running 10 ∧ t.det.condition = .ok ∧
      (s.det.condition ≠ .ok → t.det.breakAt = none ∧ t.det.refix = true)) ∧
    (∀ n, s.det.silence = .running n →
      ∃ t, exec .detectionSilenceExpiry s = .next t ∧ t.det.silence = .stopped ∧ t.det.condition = .silent ∧
        t.det.breakAt = s.det.breakAt ∧ t.det.refix = s.det.refix)

/-- The matcher. The flags are the segments whose range holds the working F. An ordinary evaluation keeps the matched segment within its range widened
by H and otherwise takes the lowest flagged one or the default row; a fresh match takes that without regard to the match before; SEGMENT_ENTERED by
the table of R40. Leaving OK under a governing record that lists DETECTION, or DETECTION newly in it while the line is not OK, holds match, flags and
working F; while frozen, a hand-off of the same index is ignored, and a return to OK leaves the freeze held. A change of governing index, and a
re-fix, end it with a fresh match on the record's F, frozen again when the record lists DETECTION and the line is not OK (the re-fix: log 33). By
command: a LODGE that widens the one SUSPECTED record in ALERT evaluates, and a HOTSPOT with a re-fix leaves a fresh match and no freeze. -/
def Obligations.MatchFollowsFire : Prop :=
  (∀ (s : State) (c : Word16),
    (s.det.condition ≠ .fault →
      ∃ t, exec (.lineFault c) s = .next t ∧ t.eng = s.eng ∧ t.banks = s.banks ∧
        t.mat = { s.mat with
          condition := .fault, frozen := s.mat.frozen || (decide (s.mat.condition = .ok) && s.governingDetected) }) ∧
      (∀ n, s.det.silence = .running n → s.det.condition ≠ .silent →
        ∃ t, exec .detectionSilenceExpiry s = .next t ∧ t.eng = s.eng ∧ t.banks = s.banks ∧
          t.mat = { s.mat with
            condition := .silent, frozen := s.mat.frozen || (decide (s.mat.condition = .ok) && s.governingDetected) }) ∧
      (s.det.condition ≠ .ok →
        ∃ t, exec .lineOk s = .next t ∧ t.eng = s.eng ∧ t.banks = s.banks ∧ t.mat = { s.mat with condition := .ok }) ∧
      (∀ d z g, s.inc.governing = some g → s.governingRecord.isSome = true → s.mat.governing = some g → s.mat.frozen = true →
        s.matcherTakesIncident d z = s)) ∧
    (∀ (p : PlanSlot) (f : Nat),
      (rawFlags p f).Pairwise (· < ·) ∧
        ∀ k, k ∈ rawFlags p f ↔ 1 ≤ k ∧ k ≤ p.segmentCount ∧ (p.row k).start ≤ f ∧ f ≤ (p.row k).stop) ∧
    (∀ (s : State) (n g f : Nat), s.plans.active = some n → s.mat.governing = some g → s.mat.workF = some f →
      ∃ t, t = { s with mat := { s.mat with flags := rawFlags (s.slot n) f, matched := some ((rawFlags (s.slot n) f).headD 0) } } ∧
        s.freshMatch = if (s.slot n).anyChange then t.raise (.segmentEntered ((rawFlags (s.slot n) f).headD 0)) else t) ∧
    (∀ (s : State) (d z : Bool) (g : Nat) (r : Incident), s.inc.governing = some g → s.governingRecord = some r →
      let fresh : State :=
        ({ s with mat := { s.mat with governing := some g, workF := some r.zone.fire, frozen := false } } : State).freshMatch
      let settled : State :=
        { fresh with mat := { fresh.mat with
          frozen := r.sources.contains .detection && decide (s.mat.condition ≠ .ok) } }
      (s.mat.governing ≠ some g → s.matcherTakesIncident d z = settled) ∧
        (s.mat.governing = some g → s.matcherTakesRefix = settled) ∧
        (s.mat.governing = some g → s.mat.frozen = false →
          (d = true → s.mat.condition ≠ .ok → s.matcherTakesIncident d z = { s with mat := { s.mat with frozen := true } }) ∧
            (d = false ∨ s.mat.condition = .ok →
              (z = false → s.matcherTakesIncident d z = s) ∧
                ∀ n k, z = true → s.plans.active = some n → s.mat.matched = some k →
                  let p := s.slot n
                  let h := siteSegmentHysteresis s.site
                  let low := (rawFlags p r.zone.fire).headD 0
                  let t : State := { s with mat := { s.mat with workF := some r.zone.fire, flags := rawFlags p r.zone.fire } }
                  let u : State := { t with mat := { t.mat with matched := some low } }
                  (k ≠ 0 → (p.row k).start ≤ r.zone.fire + h → r.zone.fire ≤ (p.row k).stop + h → s.matcherTakesIncident d z = t) ∧
                    (k = 0 ∨ r.zone.fire + h < (p.row k).start ∨ (p.row k).stop + h < r.zone.fire →
                      s.matcherTakesIncident d z = if low = k then u else u.raise (.segmentEntered low))))) ∧
    (∀ (s : State) (i : PortId) (tag : Byte) (ops : List Byte) (f : FireReport) (g n k : Nat) (r : Incident), s.Ready i → ops.length = 8 →
      lodgeReport i (siteL s.site) ops = some f → s.lib.mode ≠ .edit → s.eng.state = .alert → f.cls = .suspected →
      g < s.inc.table.length → g < 4 → s.incident g = some r → r.cls = .suspected → (∀ j, j ≠ g → s.incident j = none) →
      r.zone.gap f.zone ≤ siteM s.site → f.zone.lo < r.zone.lo ∨ r.zone.hi < f.zone.hi → s.inc.governing = some g →
      s.mat.governing = some g → s.mat.frozen = false → s.plans.active = some n → s.mat.matched = some k →
      ∃ t z, exec (.lodge i tag ops) s = .next t ∧ z = (min r.zone.lo f.zone.lo + max r.zone.hi f.zone.hi) / 2 ∧
        t.mat.workF = some z ∧ t.mat.flags = rawFlags (s.slot n) z ∧ t.mat.frozen = false ∧
        t.mat.matched =
          some
            (if k ≠ 0 ∧ ((s.slot n).row k).start ≤ z + siteSegmentHysteresis s.site ∧
                z ≤ ((s.slot n).row k).stop + siteSegmentHysteresis s.site then k
            else (rawFlags (s.slot n) z).headD 0)) ∧
    ∀ (s : State) (a b : Word16) (temp : Byte), s.eng.state ≠ .unconfigured → 1 ≤ temp.toNat → temp.toNat ≤ 3 →
      s.det.condition = .silent ∨ (s.det.refix = true ∧ s.mat.condition = .ok) →
      ∃ t, exec (.hotspot a b temp) s = .next t ∧ t.det.refix = false ∧
        ∀ r n, t.governingRecord = some r → t.plans.active = some n → t.mat.governing = t.inc.governing →
          t.mat.frozen = false ∧ t.mat.workF = some r.zone.fire ∧ t.mat.flags = rawFlags (t.slot n) r.zone.fire ∧
            t.mat.matched = some ((rawFlags (t.slot n) r.zone.fire).headD 0)

/-! ### Plans -/

/-- SELECT_PLAN of a SEALED slot pushes the active reference and makes the slot active; REVERT_PLAN pops position 1 and discards the active reference;
SWAP_PLAN exchanges the two. The last two are refused with an empty stack, SWAP_PLAN without an active plan too, and both from a port that does not
hold the token. -/
def Obligations.PlanReferencesMove : Prop :=
  (∀ (s : State) (i : PortId) (tag n : Byte) (a : Nat), s.Ready i → s.token = some i → 1 ≤ n.toNat → n.toNat ≤ 16 →
    s.lib.mode = .service → s.eng.state ≠ .unconfigured → (s.slot n.toNat).state = .sealed → s.plans.active = some a →
    ∃ t, exec (.selectPlan i tag [n]) s = .next t ∧
      t.plans = { active := some n.toNat, stack := (a :: s.plans.stack).take 8 } ∧
      (t.port i).response =
        some { tag := tag, completion := .done, result := some (u8 n.toNat ++ u8 ((a :: s.plans.stack).take 8).length) }) ∧
    ∀ (s : State) (i : PortId) (tag : Byte), s.Ready i →
      (s.token ≠ some i →
        exec (.revertPlan i tag []) s = .next (s.answered i tag (refuse .refusedAuthority)) ∧
          exec (.swapPlan i tag []) s = .next (s.answered i tag (refuse .refusedAuthority))) ∧
        (s.token = some i → s.plans.stack = [] →
          exec (.revertPlan i tag []) s = .next (s.answered i tag (refuse .refusedState)) ∧
            exec (.swapPlan i tag []) s = .next (s.answered i tag (refuse .refusedState))) ∧
        (s.token = some i → s.plans.active = none →
          exec (.swapPlan i tag []) s = .next (s.answered i tag (refuse .refusedState))) ∧
        (∀ p ps, s.token = some i → s.plans.stack = p :: ps →
          ∃ t, exec (.revertPlan i tag []) s = .next t ∧ t.plans = { active := some p, stack := ps } ∧
            (t.port i).response = some { tag := tag, completion := .done, result := some (u8 p ++ u8 ps.length) }) ∧
        (∀ a p ps, s.token = some i → s.plans.active = some a → s.plans.stack = p :: ps →
          ∃ t, exec (.swapPlan i tag []) s = .next t ∧ t.plans = { active := some p, stack := a :: ps } ∧
            (t.port i).response = some { tag := tag, completion := .done, result := none })

/-! ### The engine -/

/-- The commit attempt: two CONFIRMED entries hold, no plan holds, a blocked choice holds; otherwise the direction is latched with the governing
index under the lowest flagged segment's row (or the default row) on the working F, with the row's base stage and a full dwell. The choice is the
side opposite to the evacuation, or the row's preferred direction with its alternate. -/
def Obligations.CommitAttemptOutcomes : Prop :=
  ∀ s : State,
    (2 ≤ s.confirmedCount → s.commitAttempt = s.enterHold .multiFire) ∧
      (s.confirmedCount ≤ 1 → s.plans.active = none → s.commitAttempt = s.enterHold .noPlan) ∧
      (∀ n g f r k row, s.confirmedCount ≤ 1 → s.plans.active = some n → s.inc.governing = some g → s.mat.governing = some g →
        s.mat.workF = some f → s.incident g = some r → (rawFlags (s.slot n) f).headD 0 = k → (s.slot n).row k = row →
        (∀ d, s.commitDir r row = some d →
          s.commitAttempt.eng.state = .active ∧ s.commitAttempt.eng.latch = some { dir := d, index := g } ∧
            s.commitAttempt.eng.stage = some row.base ∧ s.commitAttempt.vel.dwell = .running (siteDwell s.site) ∧
            s.commitAttempt.vel.held = none ∧ s.commitAttempt.mat.matched = some k) ∧
          (s.commitDir r row = none → s.commitAttempt.eng.state = .hold .directionBlocked)) ∧
      (∀ (r : Incident) (row : Row),
        (∀ side, r.evacuation = some side →
          s.commitDir r row = if s.blocked r side.opposite then none else some side.opposite) ∧
          (r.evacuation = none →
            (s.blocked r row.preferred = false → s.commitDir r row = some row.preferred) ∧
              (s.blocked r row.preferred = true →
                s.commitDir r row =
                  if row.alternate && !s.blocked r row.preferred.opposite then some row.preferred.opposite else none)))

/-- SET_DIRECTION by state. In ACTIVE the direction already latched changes nothing; the other changes the latch's direction, with its index kept, the
row's base stage and the dwell from the start. In HOLD with an active plan, a fresh match, the direction latched with the governing index, that
row's base stage, the dwell, no held target and no snapshot: ACTIVE, whatever blocks. Without an active plan, and in every other state, refused
REFUSED_STATE; a value that is no direction, REFUSED_RANGE. -/
def Obligations.SetDirectionLatches : Prop :=
  ∀ (s : State) (i : PortId) (tag : Byte) (d : Dir), s.Ready i → s.token = some i →
    (∀ (c : Latch) (r : Row), s.eng.state = .active → s.eng.latch = some c → c.dir ≠ d → s.row = some r →
      ∃ t, exec (.setDirection i tag [byteOf d.code]) s = .next t ∧ t.eng.state = .active ∧
        t.eng.latch = some { dir := d, index := c.index } ∧ t.eng.stage = some r.base ∧ t.vel.dwell = .running (siteDwell s.site) ∧
        t.vel.held = none ∧ t.inc = s.inc ∧ t.plans = s.plans ∧
        (t.port i).response = some { tag := tag, completion := .done, result := none }) ∧
      (∀ c : Latch, s.eng.state = .active → s.eng.latch = some c → c.dir = d →
        exec (.setDirection i tag [byteOf d.code]) s = .next (s.answered i tag doneBare)) ∧
      (∀ (h : HoldReason) (n g f k : Nat) (r : Row), s.eng.state = .hold h → s.plans.active = some n → s.inc.governing = some g →
        s.mat.governing = some g → s.mat.workF = some f → k = (rawFlags (s.slot n) f).headD 0 → r = (s.slot n).row k →
        ∃ t, exec (.setDirection i tag [byteOf d.code]) s = .next t ∧ t.eng.state = .active ∧
          t.eng.latch = some { dir := d, index := g } ∧ t.eng.stage = some r.base ∧ t.eng.snapshot = none ∧
          t.mat.matched = some k ∧ t.vel.dwell = .running (siteDwell s.site) ∧ t.vel.held = none ∧ t.inc = s.inc ∧
          t.plans = s.plans ∧ (t.port i).response = some { tag := tag, completion := .done, result := none }) ∧
      ((∃ h, s.eng.state = .hold h) → s.plans.active = none →
        exec (.setDirection i tag [byteOf d.code]) s = .next (s.answered i tag (refuse .refusedState))) ∧
      (s.eng.state ≠ .active → (∀ h, s.eng.state ≠ .hold h) →
        exec (.setDirection i tag [byteOf d.code]) s = .next (s.answered i tag (refuse .refusedState))) ∧
      ∀ x : Byte, x.toNat ≠ 1 → x.toNat ≠ 2 →
        exec (.setDirection i tag [x]) s = .next (s.answered i tag (refuse .refusedRange))

/-- The evaluation of the table by engine state (R46, R47, R53 to R56): an empty table gives QUIET, SUSPECTED entries alone ALERT, a CONFIRMED entry
the commit attempt in QUIET, ALERT and RESET_HOLD; ACTIVE goes to HOLD(MULTI_FIRE) when the count rises to 2 or more, and each HOLD is left as its
rule says. By command: a LODGE of the first CONFIRMED record makes the commit attempt, one of a SUSPECTED record gives ALERT, a CONFIRM that raises the
count in ACTIVE gives HOLD(MULTI_FIRE), a CLEAR of the last entry QUIET. RESUME takes RESET_HOLD with an empty table to QUIET and is refused in every
other state. STARTUP lasts while a bank is in VERIFY; its end gives RESET_HOLD when a bank is RUNNING or STOPPING and QUIET otherwise, and a table that
holds reports is evaluated from there at once (R45). By command: a DRIVE_REPORT that takes the last bank out of VERIFY ends it. -/
def Obligations.EngineStatesMove : Prop :=
  (∀ (s t : State) (rerun : Bool) (n : Nat), n = s.confirmedCount → t = { s with eng := { s.eng with confirmed := n } } →
    (s.eng.state = .unconfigured ∨ s.eng.state = .startup → s.evaluate rerun = s) ∧
      (s.tableEmpty = true →
        (s.eng.state = .quiet ∨ s.eng.state = .resetHold → s.evaluate rerun = t) ∧
          (s.eng.state = .alert ∨ s.eng.state = .active ∨ (∃ r, s.eng.state = .hold r) →
            (s.evaluate rerun).eng =
                { t.eng with state := .quiet, latch := none, kept := none, stage := none, snapshot := none, heat := [] } ∧
              (s.evaluate rerun).vel.limits = .allClear ∧ (s.evaluate rerun).vel.held = none ∧
              ∀ b ∈ (s.evaluate rerun).banks, b.failures = 0 ∧ b.lockoutPending = false)) ∧
      (s.tableEmpty = false → n = 0 →
        (s.eng.state = .quiet ∨ s.eng.state = .resetHold ∨ (∃ r, s.eng.state = .hold r) ∨
            (s.eng.state = .active ∧ s.latchedCleared = true) →
          (s.evaluate rerun).eng = { t.eng with state := .alert, latch := none, kept := none, stage := none, snapshot := none } ∧
            (s.evaluate rerun).vel.limits = s.vel.limits ∧ (s.evaluate rerun).vel.held = none) ∧
          (s.eng.state = .alert → s.evaluate rerun = t)) ∧
      (s.tableEmpty = false → 1 ≤ n →
        (s.eng.state = .quiet ∨ s.eng.state = .alert ∨ s.eng.state = .resetHold → s.evaluate rerun = t.commitAttempt) ∧
          (∀ c, s.eng.state = .active → s.eng.latch = some c →
            (s.incident c.index = none → s.evaluate rerun = t.dropLatch.commitAttempt) ∧
              (s.incident c.index ≠ none → s.eng.confirmed < n → 2 ≤ n →
                (s.evaluate rerun).eng =
                  { t.eng with
                    state := .hold .multiFire, kept := s.eng.stage, stage := none
                    snapshot := some (s.banks.map (fun (b : Bank) => (b.number, b.demand))) }) ∧
              (s.incident c.index ≠ none → n ≤ s.eng.confirmed ∨ n = 1 → s.evaluate rerun = t)) ∧
          (s.eng.state = .hold .multiFire →
            (∀ c, n = 1 → s.eng.latch = some c → s.inc.governing = some c.index →
              (s.evaluate rerun).eng =
                  { t.eng with
                    state := .active, kept := none, snapshot := none
                    stage := some (min 24 (max (s.eng.kept.getD 0) ((s.row.map Row.base).getD 1))) } ∧
                (s.evaluate rerun).vel.dwell = .running (siteDwell s.site)) ∧
              (n = 1 → (∀ c, s.eng.latch = some c → s.inc.governing ≠ some c.index) →
                s.evaluate rerun = t.dropLatch.commitAttempt) ∧
              (∀ c, 2 ≤ n → s.eng.latch = some c → s.incident c.index = none → s.evaluate rerun = t.dropLatch) ∧
              (2 ≤ n → (∀ c, s.eng.latch = some c → s.incident c.index ≠ none) → s.evaluate rerun = t)) ∧
          (s.eng.state = .hold .directionBlocked →
            (rerun = true ∨ 2 ≤ n → s.evaluate rerun = t.commitAttempt) ∧ (rerun = false → n = 1 → s.evaluate rerun = t)) ∧
          (s.eng.state = .hold .noPlan →
            (2 ≤ n → (s.evaluate rerun).eng = { t.eng with state := .hold .multiFire }) ∧ (n = 1 → s.evaluate rerun = t)))) ∧
    (∀ (s : State) (i : PortId) (tag : Byte) (ops : List Byte) (f : FireReport) (k : Nat), s.Ready i → ops.length = 8 →
      lodgeReport i (siteL s.site) ops = some f → s.lib.mode ≠ .edit →
      s.eng.state = .quiet ∨ s.eng.state = .alert ∨ s.eng.state = .resetHold →
      (∀ j r, s.incident j = some r → r.cls = .suspected ∧ siteM s.site < r.zone.gap f.zone) → k < s.inc.table.length → k < 4 →
      s.incident k = none → (∀ j, j < k → s.incident j ≠ none) → s.mat.governing ≠ some k →
      (f.cls = .suspected → ∃ t, exec (.lodge i tag ops) s = .next t ∧ t.eng.state = .alert) ∧
        (f.cls = .confirmed → s.plans.active = none → ∃ t, exec (.lodge i tag ops) s = .next t ∧ t.eng.state = .hold .noPlan) ∧
        (∀ p row, f.cls = .confirmed → s.plans.active = some p →
          row = (s.slot p).row ((rawFlags (s.slot p) f.zone.fire).headD 0) →
          (∀ d, s.commitDir (f.record s.uptime) row = some d →
            ∃ t, exec (.lodge i tag ops) s = .next t ∧ t.eng.state = .active ∧ t.eng.latch = some { dir := d, index := k }) ∧
            (s.commitDir (f.record s.uptime) row = none →
              ∃ t, exec (.lodge i tag ops) s = .next t ∧ t.eng.state = .hold .directionBlocked))) ∧
    (∀ (s : State) (i : PortId) (tag n : Byte), s.Ready i →
      (∀ r c, n.toNat ≤ 3 → n.toNat < s.inc.table.length → s.incident n.toNat = some r → r.cls = .suspected → s.eng.state = .active →
        s.eng.latch = some c → s.incident c.index ≠ none → s.eng.confirmed = s.confirmedCount → 1 ≤ s.confirmedCount →
        ∃ t, exec (.confirm i tag [n]) s = .next t ∧ t.eng.state = .hold .multiFire ∧ t.eng.latch = some c) ∧
        (∀ r, s.token = some i → n.toNat ≤ 3 → s.incident n.toNat = some r → (∀ j, j ≠ n.toNat → s.incident j = none) →
          s.eng.state = .alert ∨ s.eng.state = .active ∨ (∃ h, s.eng.state = .hold h) →
          ∃ t, exec (.clear i tag [n]) s = .next t ∧ t.eng.state = .quiet ∧ t.eng.latch = none ∧ t.eng.stage = none) ∧
        (s.token = some i → s.eng.state = .resetHold → s.tableEmpty = true →
          ∃ t, exec (.resume i tag []) s = .next t ∧ t.eng.state = .quiet ∧ t.eng.latch = none ∧ t.eng.stage = none ∧
            t.vel.limits = .allClear ∧ (t.port i).response = some { tag := tag, completion := .done, result := none }) ∧
        (s.token = some i → s.eng.state ≠ .resetHold → exec (.resume i tag []) s = .next (s.answered i tag (refuse .refusedState)))) ∧
    (∀ s : State, s.eng.state = .startup →
      ((∃ b ∈ s.banks, b.state = .verify) → s.engineTakesBanks = s) ∧
        ∀ e : EngineState, (∀ b ∈ s.banks, b.state ≠ .verify) →
          ((∃ b ∈ s.banks, (∃ x, b.state = .running x) ∨ ∃ x, b.state = .stopping x) → e = .resetHold) →
          ((∀ b ∈ s.banks, (∀ x, b.state ≠ .running x) ∧ ∀ x, b.state ≠ .stopping x) → e = .quiet) →
          (s.tableEmpty = true → s.engineTakesBanks.eng.state = e) ∧
            (s.tableEmpty = false →
              (s.confirmedCount = 0 → s.engineTakesBanks.eng.state = .alert) ∧
                (2 ≤ s.confirmedCount → s.engineTakesBanks.eng.state = .hold .multiFire) ∧
                (s.confirmedCount = 1 → s.plans.active = none → s.engineTakesBanks.eng.state = .hold .noPlan) ∧
                (s.confirmedCount = 1 →
                  ∃ u : State, u.eng.state = e ∧ u.inc = s.inc ∧ u.plans = s.plans ∧ u.mat = s.mat ∧ u.lib = s.lib ∧
                    u.eng.trains = s.eng.trains ∧ s.engineTakesBanks.eng.state = u.commitAttempt.eng.state))) ∧
    ∀ (s : State) (a hi lo : Byte) (u : FieldUnit) (r : Report) (b : Bank), s.eng.state = .startup →
      s.fl.phase = .window (.poll a.toNat) → s.fl.enumeration = .idle → s.fl.unit a.toNat = some u → u.kind = .drive →
      s.fl.commandWaits a.toNat = false → Report.ofStatus hi lo = some r → s.BanksDistinct → s.bank u.number = some b →
      b.state = .verify → (∀ c ∈ s.banks, c.number ≠ b.number → c.state ≠ .verify) → s.tableEmpty = true →
      ((∃ d, r = .run d) ∨ r = .decel → ∃ t, exec (.driveReport a hi lo) s = .next t ∧ t.eng.state = .resetHold) ∧
        (r = .stopped → (∀ c ∈ s.banks, (∀ x, c.state ≠ .running x) ∧ ∀ x, c.state ≠ .stopping x) →
          ∃ t, exec (.driveReport a hi lo) s = .next t ∧ t.eng.state = .quiet)

/-- SET_TRAIN of a train not in the list takes the lowest free slot, outcome ADDED, and of one in the list writes its slot, outcome UPDATED;
REMOVE_TRAIN of a train in the list frees its slot. The outcome characters 1 and 2 are the model's reading (log 12). -/
def Obligations.TrainsRecorded : Prop :=
  ∀ (s : State) (i : PortId) (tag a b c d e f m : Byte), s.Ready i →
    (∀ (k : Nat) (moving : Bool), s.eng.state ≠ .unconfigured → 1 ≤ a.toNat * 256 + b.toNat → a.toNat * 256 + b.toNat ≤ 9999 →
      c.toNat * 256 + d.toNat ≤ siteL s.site → e.toNat * 256 + f.toNat ≤ siteL s.site → movingOfCode m.toNat = some moving →
      trainSlot s.eng.trains (a.toNat * 256 + b.toNat) = none → s.eng.trains.findIdx? Option.isNone = some k →
      ∃ t, exec (.setTrain i tag [a, b, c, d, e, f, m]) s = .next t ∧
        t.eng.trains = s.eng.trains.set k
          (some
            { number := a.toNat * 256 + b.toNat, head := c.toNat * 256 + d.toNat, tail := e.toNat * 256 + f.toNat,
              moving := moving }) ∧
        (t.port i).response = some { tag := tag, completion := .done, result := some (u8 k ++ u8 1) }) ∧
      (∀ (k : Nat) (moving : Bool), s.eng.state ≠ .unconfigured → 1 ≤ a.toNat * 256 + b.toNat → a.toNat * 256 + b.toNat ≤ 9999 →
        c.toNat * 256 + d.toNat ≤ siteL s.site → e.toNat * 256 + f.toNat ≤ siteL s.site → movingOfCode m.toNat = some moving →
        trainSlot s.eng.trains (a.toNat * 256 + b.toNat) = some k →
        ∃ t, exec (.setTrain i tag [a, b, c, d, e, f, m]) s = .next t ∧
          t.eng.trains = s.eng.trains.set k
            (some
              { number := a.toNat * 256 + b.toNat, head := c.toNat * 256 + d.toNat, tail := e.toNat * 256 + f.toNat,
                moving := moving }) ∧
          (t.port i).response = some { tag := tag, completion := .done, result := some (u8 k ++ u8 2) }) ∧
      (∀ k : Nat, 1 ≤ a.toNat * 256 + b.toNat → a.toNat * 256 + b.toNat ≤ 9999 →
        trainSlot s.eng.trains (a.toNat * 256 + b.toNat) = some k →
        ∃ t, exec (.removeTrain i tag [a, b]) s = .next t ∧ t.eng.trains = s.eng.trains.set k none ∧
          (t.port i).response = some { tag := tag, completion := .done, result := some (u8 k) })

/-- The heat zone by R61: in ACTIVE the stretch [s - U, e + D] of the latched record toward EAST and [s - D, e + U] toward WEST, with [s - D, e + D] of
every other CONFIRMED entry; in HOLD [s - D, e + D] of every CONFIRMED entry; none in every other state. Each is clamped to [0, L], and the zone is held
as separate intervals in chainage order (joining: log 22). -/
def Obligations.HeatZoneIsUnion : Prop :=
  ∀ (site : List (List Byte)) (e : Engine) (table : List (Option Incident)),
    let near (z : Zone) (west east c : Nat) : Prop := min (z.lo - west) (siteL site) ≤ c ∧ c ≤ min (z.hi + east) (siteL site)
    (∀ c, inHeat (heatZone site e table) c = inHeat (heatStretches site e table) c) ∧
      (heatZone site e table).Pairwise (fun x y => x.hi < y.lo) ∧
      (∀ l r c, e.state = .active → e.latch = some l → table.getD l.index none = some r →
        (inHeat (heatZone site e table) c = true ↔
          (l.dir = .east ∧ near r.zone (siteU site) (siteD site) c) ∨ (l.dir = .west ∧ near r.zone (siteD site) (siteU site) c) ∨
            ∃ j x, j ≠ l.index ∧ table.getD j none = some x ∧ x.cls = .confirmed ∧ near x.zone (siteD site) (siteD site) c)) ∧
      (∀ h c, e.state = .hold h →
        (inHeat (heatZone site e table) c = true ↔
          ∃ j x, table.getD j none = some x ∧ x.cls = .confirmed ∧ near x.zone (siteD site) (siteD site) c)) ∧
      (e.state ≠ .active → (∀ h, e.state ≠ .hold h) → heatZone site e table = [])

/-- The demand of a bank. Heat-inhibited: OFF, whatever its forcing and in ACTIVE and HOLD. Forced: OFF, FWD or REV. AUTO in QUIET: OFF; in ALERT and
RESET_HOLD its hold demand, the direction it is queued, starting, running or resuming in; in HOLD its snapshot demand, and OFF in the four excluded
states; in ACTIVE the direction that pushes the latched way on the taken list and OFF off it. The taken list is the first stage-count eligible
banks of the latched direction's run order, in its order. The end of every hand-off leaves each bank with its demand of the recomputed heat zone,
and outside a live engine it does nothing (R45). -/
def Obligations.DemandsFollowState : Prop :=
  (∀ (s : State) (b : Bank), b.heatInhibited = true →
    (b.forcing ≠ .auto → ∀ ns, s.demandOf ns b = .off) ∧
      ((∃ r, s.eng.state = .hold r) → ∀ ns, s.demandOf ns b = .off) ∧
      (s.eng.state = .active → s.bank b.number = some b → s.demandOf (s.takenList.map Bank.number) b = .off)) ∧
    (∀ (s : State) (b : Bank) (ns : List Nat),
      (b.forcing = .off → s.demandOf ns b = .off) ∧
        (b.heatInhibited = false →
          (b.forcing = .fwd → s.demandOf ns b = .run .fwd) ∧ (b.forcing = .rev → s.demandOf ns b = .run .rev)) ∧
        (b.forcing = .auto →
          (s.eng.state = .quiet → s.demandOf ns b = .off) ∧
            (s.eng.state = .alert ∨ s.eng.state = .resetHold → ∀ d,
              (s.demandOf ns b = .run d ↔
                b.state = .running d ∨ b.state = .starting d ∨ b.state = .queued d ∨
                  (b.state = .stopping d.turn ∧ ∃ q ∈ s.arb.queue, q.bank = b.number))) ∧
            (∀ h l, s.eng.state = .hold h → s.eng.snapshot = some l →
              (b.state = .lockedOut ∨ b.state = .unreachable ∨ b.state = .atLocal ∨ b.state = .unassigned → s.demandOf ns b = .off) ∧
                ∀ m, b.heatInhibited = false → b.state ≠ .lockedOut → b.state ≠ .unreachable → b.state ≠ .atLocal →
                  b.state ≠ .unassigned → l.find? (fun p => p.1 == b.number) = some (b.number, m) → s.demandOf ns b = m) ∧
            ∀ c, s.eng.state = .active → s.eng.latch = some c →
              s.demandOf ns b = if b.number ∈ ns then .run (if b.forward = c.dir then .fwd else .rev) else .off)) ∧
    (∀ (s : State) (c : Latch) (r : Row) (n : Nat), s.eng.state = .active → s.eng.latch = some c → s.row = some r →
      s.eng.stage = some n →
      ∃ l : List Bank, s.takenList = l.take n ∧
        (l.map Bank.number).Sublist (match c.dir with | .west => r.west | .east => r.east) ∧
        (∀ b ∈ l, s.bank b.number = some b) ∧
        ∀ b, s.bank b.number = some b →
          (b ∈ l ↔
            b.number ∈ (match c.dir with | .west => r.west | .east => r.east) ∧ b.forcing = .auto ∧ b.heatInhibited = false ∧
              b.number ∉ r.inhibit ∧ b.state ≠ .lockedOut ∧ b.state ≠ .unreachable ∧ b.state ≠ .atLocal ∧ b.state ≠ .unassigned)) ∧
    ∀ s : State,
      (s.eng.state = .unconfigured ∨ s.eng.state = .startup → s.finish = s) ∧
        (s.eng.state ≠ .unconfigured → s.eng.state ≠ .startup → s.BanksDistinct → ∀ b ∈ s.banks,
          ∃ z c b', z = s.refreshHeat ∧ z.eng.heat = heatZone s.site s.eng s.inc.table ∧
            c = { b with heatInhibited := inHeat z.eng.heat b.chainage } ∧ z.bank b.number = some c ∧
            s.finish.bank b.number = some b' ∧ b'.demand = z.demandOf (z.takenList.map Bank.number) c ∧
            b'.heatInhibited = c.heatInhibited)

/-- A direction is blocked only by a train that is not the incident's own and whose span reaches into the downstream stretch (R49). -/
def Obligations.BlockedMeansTrainDownstream : Prop :=
  ∀ (s : State) (r : Incident),
    (s.blocked r .east = true ↔ ∃ t, some t ∈ s.eng.trains ∧ r.train ≠ some t.number ∧ r.zone.hi < max t.head t.tail ∧
      r.zone.hi < siteL s.site) ∧
      (s.blocked r .west = true ↔ ∃ t, some t ∈ s.eng.trains ∧ r.train ≠ some t.number ∧ min t.head t.tail < r.zone.lo)

/-! ### Velocity -/

/-- The target and the committed thrust. The target is formed in ACTIVE from the held SET_TARGET value, or without one from the matched row, raised to
the floor and lowered to the ceiling, and a change by the clamp sets CLAMPED (R117, R125): on a latch, a return to ACTIVE, a row change and SET_TARGET,
which leaves the dwell. Leaving ACTIVE drops it, the held value, P and the dwell. The thrust is absent without a latch, and otherwise the sum over the
banks in STARTING and RUNNING, positive for those whose air goes the latched way, bounded at 32,767 either way, where a bound sets SATURATED (R119): it
is formed by a latch and by a bank's change of state, dropped with the latch, and stands so through the recomputation of demands. By command: in
ACTIVE, SET_DIRECTION forms both and a grant the thrust. The dwell's expiry sets the timer expired and does nothing else. -/
def Obligations.TargetAndThrustFormed : Prop :=
  ∀ s : State,
    let signed (d : Dir) (b : Bank) : Int :=
      let value (x : Spin) : Int :=
        if (if x = .fwd then b.forward else b.forward.opposite) = d then ((b.fans * b.thrustPerFan : Nat) : Int)
        else -((b.fans * b.thrustPerFan : Nat) : Int)
      match b.state with
      | .starting x => value x
      | .running x => value x
      | _ => 0
    let sum (l : List Bank) (d : Dir) : Int := (l.map (signed d)).sum
    let formed (t : State) : Prop := t.vel.thrust = t.eng.latch.map (fun c => max (-32767) (min 32767 (sum t.banks c.dir)))
    let target (u : Nat) (held : Bool) : Option Target :=
      some { value := min (max u (siteFloor s.site)) (siteCeiling s.site), unclamped := u, fromHeld := held }
    (∀ (i : PortId) (tag x y : Byte) (r : Row), s.Ready i → s.token = some i → s.eng.state = .active → s.row = some r →
      100 ≤ x.toNat * 256 + y.toNat → x.toNat * 256 + y.toNat ≤ 800 →
      ∃ t, exec (.setTarget i tag [x, y]) s = .next t ∧ t.vel.held = some (x.toNat * 256 + y.toNat) ∧
        t.vel.target = target (x.toNat * 256 + y.toNat) true ∧ t.vel.thrust = s.vel.thrust ∧ t.vel.dwell = s.vel.dwell ∧
        t.eng = s.eng ∧ t.banks = s.banks) ∧
      (∀ n, s.vel.dwell = .running n → exec .dwellExpiry s = .next { s with vel := { s.vel with dwell := .expired } }) ∧
      (∀ (r : Row) (u : Nat), s.eng.state = .active → s.row = some r → u = s.vel.held.getD r.target →
        s.formTarget.vel.target = target u s.vel.held.isSome ∧ s.rowChange.vel.target = target u s.vel.held.isSome ∧
          s.formTarget.vel.limits =
            { s.vel.limits with
              clamped := s.vel.limits.clamped || decide (min (max u (siteFloor s.site)) (siteCeiling s.site) ≠ u) }) ∧
      (s.eng.state ≠ .active → s.formTarget = s ∧ s.rowChange = s) ∧
      s.endActive.vel = { s.vel with target := none, held := none, projected := none, dwell := .stopped } ∧
      (formed s.formThrust ∧ s.formThrust.banks = s.banks ∧ s.formThrust.eng = s.eng ∧
        (s.eng.latch = none → s.formThrust.vel.limits = s.vel.limits) ∧
        (∀ c, s.eng.latch = some c → s.formThrust.vel.limits =
          { s.vel.limits with
            saturated := s.vel.limits.saturated || decide (sum s.banks c.dir < -32767 ∨ 32767 < sum s.banks c.dir) })) ∧
      formed s.dropLatch ∧
      (∀ (d : Dir) (g : Nat) (r : Row), s.row = some r →
        formed (s.latchDirection d g r) ∧ (s.latchDirection d g r).vel.target = target r.target false) ∧
      (∀ r : Row, s.row = some r →
        formed s.returnActive ∧ s.returnActive.vel.target = target (s.vel.held.getD r.target) s.vel.held.isSome) ∧
      (s.BanksDistinct → formed s → (∀ n m, formed (s.handDemand n m)) ∧ formed s.finish) ∧
      (∀ (i : PortId) (tag : Byte) (d : Dir) (c : Latch) (r : Row), s.Ready i → s.token = some i → s.eng.state = .active →
        s.eng.latch = some c → c.dir ≠ d → s.row = some r → s.BanksDistinct →
        ∃ t, exec (.setDirection i tag [byteOf d.code]) s = .next t ∧ formed t ∧ t.vel.target = target r.target false) ∧
      ∀ (q : QueueEntry) (qs : List QueueEntry) (k : Nat) (b : Bank), s.arb.grantOrder = q :: qs → s.arb.freeSlot = some k →
        s.bank q.bank = some b → (∃ d : Spin, b.state = .queued d ∨ b.state = .stopping d.turn) → s.eng.state ≠ .startup →
        s.BanksDistinct → ∃ t, exec .startGrant s = .next t ∧ formed t

/-- Staging at a round completion in ACTIVE with P, a target and the dwell expired: below the dead band the count rises by one and the dwell
restarts when the test passes, and STAGE_LIMIT is set when it fails; above the band, over the base stage, the count falls by one; within the band
nothing changes. Outside ACTIVE, with the dwell not expired or without P, nothing changes (R122). -/
def Obligations.StagingMovesStage : Prop :=
  (∀ s : State, s.eng.state ≠ .active ∨ s.vel.dwell ≠ .expired ∨ s.vel.projected = none → s.evaluateStaging = s) ∧
  ∀ (s : State) (p : Int) (g : Target) (r : Row) (n : Nat), s.eng.state = .active → s.vel.dwell = .expired → s.vel.projected = some p →
    s.vel.target = some g → s.row = some r → s.eng.stage = some n →
    (p < (g.value : Int) - (siteVelocityHysteresis s.site : Int) →
      (∀ b, s.nextBank = some b → n < 24 → r.ceiling = 0 ∨ s.vel.thrust.getD 0 + (b.thrust : Int) ≤ (r.ceiling : Int) →
        s.evaluateStaging.eng.stage = some (n + 1) ∧ s.evaluateStaging.vel.dwell = .running (siteDwell s.site)) ∧
        ((∀ b, s.nextBank = some b → r.ceiling ≠ 0 ∧ (r.ceiling : Int) < s.vel.thrust.getD 0 + (b.thrust : Int)) →
          s.evaluateStaging = s.setLimit .stageLimit)) ∧
      ((g.value : Int) + (siteVelocityHysteresis s.site : Int) < p → r.base < n →
        s.evaluateStaging.eng.stage = some (n - 1) ∧ s.evaluateStaging.vel.dwell = .running (siteDwell s.site)) ∧
      ((g.value : Int) - (siteVelocityHysteresis s.site : Int) ≤ p → p ≤ (g.value : Int) + (siteVelocityHysteresis s.site : Int) →
        s.evaluateStaging = s)

/-- Stations in use, each with a weight above 0, have an estimate, and it lies between the least and the greatest velocity used; without a station in
use there is none (R114). -/
def Obligations.EstimateBetween : Prop :=
  estimateOf [] = none ∧
    ∀ (used : List Station) (lo hi : Int), used ≠ [] → (∀ t ∈ used, 0 < t.weight ∧ lo ≤ t.velocity ∧ t.velocity ≤ hi) →
      ∃ v, estimateOf used = some v ∧ lo ≤ v ∧ v ≤ hi

/-! ### Banks and starts -/

/-- SET_FORCING of a mode other than the one held writes the forcing and has the engine respond, answered DONE with the bank's state and demand;
the mode already held changes nothing. RELEASE_BANK of a LOCKED_OUT bank leaves the record OFF with no failures; one that holds a demand FWD or
REV, which the engine lets it act on, goes on to QUEUED and the start queue. Refused: in UNCONFIGURED, a bank that is not listed, a forcing that
is no mode, an UNASSIGNED bank for SET_FORCING, a bank not LOCKED_OUT for RELEASE_BANK. The demand's character is the model's reading (log 12). -/
def Obligations.BankRequestsAct : Prop :=
  ∀ (s : State) (i : PortId) (tag n x : Byte), s.Ready i → s.token = some i →
    (s.eng.state = .unconfigured →
      exec (.setForcing i tag [n, x]) s = .next (s.answered i tag (refuse .refusedState)) ∧
        exec (.releaseBank i tag [n]) s = .next (s.answered i tag (refuse .refusedState))) ∧
      (s.eng.state ≠ .unconfigured → s.bank n.toNat = none →
        exec (.setForcing i tag [n, x]) s = .next (s.answered i tag (refuse .refusedRange)) ∧
          exec (.releaseBank i tag [n]) s = .next (s.answered i tag (refuse .refusedRange))) ∧
      ∀ b : Bank, s.eng.state ≠ .unconfigured → s.bank n.toNat = some b →
        (3 < x.toNat → exec (.setForcing i tag [n, x]) s = .next (s.answered i tag (refuse .refusedRange))) ∧
          (∀ m : Forcing, b.state = .unassigned →
            exec (.setForcing i tag [n, byteOf m.code]) s = .next (s.answered i tag (refuse .refusedState))) ∧
          (b.state ≠ .lockedOut → exec (.releaseBank i tag [n]) s = .next (s.answered i tag (refuse .refusedState))) ∧
          (∀ m : Forcing, b.state ≠ .unassigned → b.forcing ≠ m →
            ∃ u b', exec (.setForcing i tag [n, byteOf m.code]) s =
                .next (u.respond i tag (done (u8 b'.state.code ++ u8 b'.demand.code))) ∧ u.bank n.toNat = some b' ∧
              b'.forcing = m ∧ State.ResponseOnly { s.taking i with banks := setBank { b with forcing := m } s.banks } u) ∧
          (∀ m : Forcing, b.state ≠ .unassigned → b.forcing = m →
            exec (.setForcing i tag [n, byteOf m.code]) s =
              .next (s.answered i tag (done (u8 b.state.code ++ u8 b.demand.code)))) ∧
          (b.state = .lockedOut → b.demand = .off ∨ s.eng.state = .startup →
            exec (.releaseBank i tag [n]) s =
              .next (((((s.taking i).commitBank
                (.only { b with state := .off, failures := 0, lockoutPending := false }))).engineTakesBanks).respond i tag doneBare)) ∧
          ∀ d : Spin, b.state = .lockedOut → b.demand = .run d → s.eng.state ≠ .startup →
            exec (.releaseBank i tag [n]) s =
              .next (((((s.taking i).commitBank
                { BankOut.only { b with state := .queued d, failures := 0, lockoutPending := false } with
                  words := [.join .start] })).engineTakesBanks).respond i tag doneBare)

/-- The coast timer's expiry in STOPPING. With the latest report STOPPED or TRIPPED the bank leaves STOPPING: for LOCKED_OUT under a pending lockout,
otherwise for OFF with demand OFF, and for QUEUED with demand FWD or REV, a queued resume becoming an ordinary start. With any other latest
report, or none, it stays STOPPING with the timer run out. The start timer's expiry is a fault: STOP, the slot released, STOPPING with cause FAULT
and a full coast, BANK_FAULT START_TIMEOUT. -/
def Obligations.BankTimersExpire : Prop :=
  ∀ (s : State) (n k : Nat) (b : Bank), s.bank n = some b →
    (∀ x r, b.coast = .running k → b.state = .stopping x → b.latest = some r → r = .stopped ∨ (∃ trip, r = .tripped trip) →
      (b.lockoutPending = true →
        exec (.coastTimerExpiry n) s =
          .next (s.commitBank
            { bank := { b with state := .lockedOut, lockoutPending := false, stopCause := none, coast := .stopped }, command := none
              words := [.leave], notices := [.bankLockedOut b.number] }).engineTakesBanks) ∧
        (b.lockoutPending = false → b.demand = .off →
          exec (.coastTimerExpiry n) s =
            .next (s.commitBank
              { BankOut.only { b with state := .off, stopCause := none, coast := .stopped } with words := [.leave] }).engineTakesBanks) ∧
        (∀ d : Spin, b.lockoutPending = false → b.demand = .run d →
          exec (.coastTimerExpiry n) s =
            .next (s.commitBank
              { BankOut.only { b with state := .queued d, stopCause := none, coast := .stopped } with
                words := [if s.arb.queued n then .becomeStart else .join .start] }).engineTakesBanks)) ∧
      (∀ x, b.coast = .running k → b.state = .stopping x → (∀ r, b.latest = some r → r ≠ .stopped ∧ ∀ trip, r ≠ .tripped trip) →
        exec (.coastTimerExpiry n) s = .next (s.commitBank (.only { b with coast := .expired })).engineTakesBanks) ∧
      (∀ d : Spin, b.start = .running k → b.state = .starting d → s.fl.enumeration = .idle →
        exec (.startTimerExpiry n) s =
          .next (s.commitBank
            { bank :=
                { b with
                  state := .stopping d.turn, stopCause := some .fault, coast := .running (siteCoast s.site), start := .stopped
                  lastFault := some .startTimeout, failures := min (b.failures + 1) 2
                  lockoutPending := b.lockoutPending || decide (1 ≤ b.failures) }
              command := some .stop
              words := [.release]
              notices := [.bankFault b.number .startTimeout 0] }).engineTakesBanks)

/-- A demand handed to a bank, by the bank's state, while the engine lets demands be acted on: OFF joins the start queue; QUEUED leaves it, or turns in
its place; STARTING and RUNNING make a commanded stop of any demand but their own direction, with STOP enqueued, a full coast, and from STARTING the
slot released; STOPPING on a commanded stop without a pending lockout joins as a resume in its own direction; a STOPPING bank demanded otherwise
leaves the queue; in every other state, and outside a live engine, the demand is held. By command: SET_FORCING to FORCE_OFF stops a bank that runs,
and to FORCE_FWD queues one at OFF outside the heat zone. -/
def Obligations.DemandsActedOn : Prop :=
  (∀ (s : State) (n : Nat) (b : Bank) (m : Demand), s.bank n = some b →
    let acts (c : Bank) (o : Option DriveCommand) (a : Arbiter) : Prop :=
      (s.handDemand n m).bank n = some { c with demand := m } ∧ (s.handDemand n m).arb = a ∧
        (s.handDemand n m).fl =
          match o with
          | some x => s.fl.enqueue { address := b.address, command := x }
          | none => s.fl
    let stop (d : Spin) : Bank :=
      { b with state := .stopping d.turn, stopCause := some .commanded, coast := .running (siteCoast s.site), start := .stopped }
    (s.eng.state = .unconfigured ∨ s.eng.state = .startup → acts b none s.arb) ∧
      (s.eng.state ≠ .unconfigured → s.eng.state ≠ .startup →
        (b.state = .off →
          (m = .off → acts b none s.arb) ∧
            ∀ d, m = .run d → acts { b with state := .queued d } none (s.arb.join n b.forcing.queueClass .start)) ∧
          (∀ x, b.state = .queued x →
            (m = .off → acts { b with state := .off } none (s.arb.leave n)) ∧
              ∀ d, m = .run d → acts { b with state := .queued d } none s.arb) ∧
          (∀ x, b.state = .starting x →
            (m = .run x → acts b none s.arb) ∧ (m ≠ .run x → acts (stop x) (some .stop) (s.arb.release n))) ∧
          (∀ x, b.state = .running x → (m = .run x → acts b none s.arb) ∧ (m ≠ .run x → acts (stop x) (some .stop) s.arb)) ∧
          (∀ x : Spin, b.state = .stopping x.turn →
            (m = .run x → b.stopCause = some .commanded → b.lockoutPending = false →
              acts b none (if s.arb.queued n then s.arb else s.arb.join n b.forcing.queueClass .resume)) ∧
              (m = .run x → b.stopCause ≠ some .commanded ∨ b.lockoutPending = true → acts b none s.arb) ∧
              (m ≠ .run x → acts b none (s.arb.leave n))) ∧
          (b.state = .stopping .unknown → acts b none (s.arb.leave n)) ∧
          (b.state = .unassigned ∨ b.state = .verify ∨ b.state = .lockedOut ∨ b.state = .unreachable ∨ b.state = .atLocal →
            acts b none s.arb))) ∧
    ∀ (s : State) (i : PortId) (tag n : Byte) (b : Bank) (d : Spin), s.Ready i → s.token = some i → s.eng.state ≠ .unconfigured →
      s.eng.state ≠ .startup → s.BanksDistinct → s.bank n.toNat = some b →
      (b.state = .running d ∨ b.state = .starting d → b.forcing ≠ .off → b.demand = .run d →
        ∃ t b', exec (.setForcing i tag [n, 1]) s = .next t ∧ t.bank n.toNat = some b' ∧ b'.forcing = .off ∧ b'.demand = .off ∧
          b'.state = .stopping d.turn ∧ b'.stopCause = some .commanded ∧ b'.coast = .running (siteCoast s.site) ∧
          b'.start = .stopped) ∧
        (b.state = .off → b.demand = .off → b.forcing ≠ .fwd → inHeat (heatZone s.site s.eng s.inc.table) b.chainage = false →
          ∃ t b', exec (.setForcing i tag [n, 2]) s = .next t ∧ t.bank n.toNat = some b' ∧ b'.forcing = .fwd ∧
            b'.demand = .run .fwd ∧ b'.state = .queued .fwd)

/-- A grant to the head of the grant order: its entry removed, the lowest free slot taken, RUN enqueued, STARTING with the start timer running, from
QUEUED and from the STOPPING of a queued resume, whose coast and stop cause end. -/
def Obligations.GrantStartsHead : Prop :=
  ∀ (s t : State) (q : QueueEntry) (qs : List QueueEntry) (k : Nat) (b : Bank) (d : Spin), s.arb.grantOrder = q :: qs →
    s.arb.freeSlot = some k → s.bank q.bank = some b →
    t = { s with
      arb := { slots := s.arb.slots.set k (some q.bank), queue := s.arb.queue.filter (fun e => e.bank != q.bank) } } →
    (b.state = .queued d →
      exec .startGrant s =
        .next (t.commitBank
          { BankOut.only { b with state := .starting d, start := .running (siteStartTimeout s.site) } with
            command := some (.run d) }).engineTakesBanks) ∧
      (b.state = .stopping d.turn →
        exec .startGrant s =
          .next (t.commitBank
            { BankOut.only
                { b with
                  state := .starting d, stopCause := none, coast := .stopped, start := .running (siteStartTimeout s.site) } with
              command := some (.run d) }).engineTakesBanks)

/-- A drive's report by the bank's state, with no command waiting, in every cell of the table of R82 to R87: STARTING, RUNNING, OFF, QUEUED, STOPPING,
LOCKED_OUT and VERIFY against STOPPED, DECEL, TRIPPED, and ACCEL or RUN in either direction; the test of R79 after a report in STOPPING whose coast has
run out; LOCAL from every state, and the return from LOCAL and UNREACHABLE to VERIFY; and a report recorded alone while a command waits (R81, R92,
R93). -/
def Obligations.ReconciliationOutcomes : Prop :=
  ∀ (x : BankContext) (b : Bank) (d : Spin) (trip : Nat),
    let seen (r : Report) : Bank := { b with latest := some r }
    let fault (r : Report) (y : Turn) (f : FaultReason) (t : Nat) (c : Option DriveCommand) (w : List ArbiterWord) : BankOut :=
      { bank :=
          { seen r with
            lastFault := some f, failures := min (b.failures + 1) 2, lockoutPending := b.lockoutPending || decide (1 ≤ b.failures)
            state := .stopping y, stopCause := some .fault, coast := .running x.coast, start := .stopped }
        command := c, words := w, notices := [.bankFault b.number f t] }
    let found : Bank :=
      { seen .decel with state := .stopping .unknown, stopCause := some .found, coast := .running x.coast, start := .stopped }
    (b.state = .starting d →
      takeReport x b (.run d) false =
          { BankOut.only { seen (.run d) with state := .running d, start := .stopped } with words := [.release] } ∧
        takeReport x b (.accel d) false = .only (seen (.accel d)) ∧
        takeReport x b .stopped false = { BankOut.only (seen .stopped) with command := some (.run d) } ∧
        takeReport x b (.tripped trip) false = fault (.tripped trip) d.turn .tripped trip none [.release] ∧
        takeReport x b .decel false = fault .decel d.turn .uncommandedDecel 0 (some .stop) [.release] ∧
        ∀ r ∈ [Report.run d.opposite, .accel d.opposite],
          takeReport x b r false = fault r d.turn .wrongDirection 0 (some .stop) [.release]) ∧
      (b.state = .running d →
        (∀ r ∈ [Report.run d, .accel d], takeReport x b r false = .only (seen r)) ∧
          takeReport x b .stopped false = fault .stopped d.turn .uncommandedStop 0 (some .stop) [] ∧
          takeReport x b .decel false = fault .decel d.turn .uncommandedDecel 0 (some .stop) [] ∧
          takeReport x b (.tripped trip) false = fault (.tripped trip) d.turn .tripped trip none [] ∧
          ∀ r ∈ [Report.run d.opposite, .accel d.opposite],
            takeReport x b r false = fault r .unknown .wrongDirection 0 (some .stop) []) ∧
      (b.state = .off ∨ b.state = .queued d →
        takeReport x b .stopped false = .only (seen .stopped) ∧
          takeReport x b .decel false = { BankOut.only found with words := [.leave] } ∧
          takeReport x b (.tripped trip) false = fault (.tripped trip) .unknown .tripped trip none [.leave] ∧
          ∀ y, ∀ r ∈ [Report.run y, .accel y],
            takeReport x b r false = fault r .unknown .uncommandedRun 0 (some .stop) [.leave]) ∧
      (∀ z, b.state = .stopping z →
        (∀ y, ∀ r ∈ [Report.run y, .accel y],
          takeReport x b r false = fault r .unknown .uncommandedRun 0 (some .stop) [.leave]) ∧
          (∀ r ∈ [Report.stopped, .decel, .tripped trip], b.coast ≠ .expired → takeReport x b r false = .only (seen r)) ∧
          (b.coast = .expired →
            takeReport x b .decel false = .only (seen .decel) ∧
              ∀ r ∈ [Report.stopped, .tripped trip],
                (b.lockoutPending = true → (takeReport x b r false).bank.state = .lockedOut) ∧
                  (b.lockoutPending = false → b.demand = .off → (takeReport x b r false).bank.state = .off) ∧
                  ∀ y, b.lockoutPending = false → b.demand = .run y → (takeReport x b r false).bank.state = .queued y)) ∧
      (b.state = .lockedOut →
        (∀ r ∈ [Report.stopped, .decel, .tripped trip], takeReport x b r false = .only (seen r)) ∧
          ∀ y, ∀ r ∈ [Report.run y, .accel y],
            takeReport x b r false =
              { bank := { seen r with lastFault := some .uncommandedRun }, command := some .stop, words := []
                notices := [.bankFault b.number .uncommandedRun 0] }) ∧
      (b.state = .verify →
        takeReport x b .decel false = .only found ∧
          takeReport x b (.tripped trip) false = fault (.tripped trip) .unknown .tripped trip none [] ∧
          (b.lockoutPending = true →
            ((takeReport x b .stopped false).bank.state = .lockedOut ∧ (takeReport x b .stopped false).bank.lockoutPending = false ∧
              (takeReport x b .stopped false).notices = [.bankLockedOut b.number]) ∧
              ∀ y, ∀ r ∈ [Report.run y, .accel y],
                takeReport x b r false =
                  { BankOut.only
                      { seen r with state := .stopping y.turn, stopCause := some .fault, coast := .running x.coast, start := .stopped } with
                    command := some .stop }) ∧
          (b.lockoutPending = false → x.live = false ∨ b.demand = .off →
            takeReport x b .stopped false = .only { seen .stopped with state := .off }) ∧
          (∀ y, b.lockoutPending = false → x.live = true → b.demand = .run y →
            takeReport x b .stopped false = { BankOut.only { seen .stopped with state := .queued y } with words := [.join .start] }) ∧
          (∀ y, b.lockoutPending = false → ∀ r ∈ [Report.run y, .accel y],
            (x.live = false ∨ b.demand = .run y → takeReport x b r false = .only { seen r with state := .running y }) ∧
              (x.live = true → b.demand ≠ .run y →
                takeReport x b r false =
                  { BankOut.only
                      { seen r with
                        state := .stopping y.turn, stopCause := some .commanded, coast := .running x.coast, start := .stopped } with
                    command := some .stop }))) ∧
      (∀ waits,
        (b.state ≠ .atLocal →
          takeReport x b .atLocal waits =
            { BankOut.only
                { seen .atLocal with
                  state := .atLocal, stopCause := none, coast := .stopped, start := .stopped
                  lockoutPending := b.lockoutPending || decide (b.state = .lockedOut) } with
              words := [.leave, .release] }) ∧
          (b.state = .atLocal → takeReport x b .atLocal waits = .only (seen .atLocal)) ∧
          ∀ r, r ≠ .atLocal → b.state = .atLocal ∨ b.state = .unreachable →
            takeReport x b r waits = .only { seen r with state := .verify }) ∧
      ∀ r, r ≠ .atLocal → b.state ≠ .atLocal → b.state ≠ .unreachable → ((∃ y, b.state = .stopping y) → b.coast ≠ .expired) →
        takeReport x b r true = .only (seen r)

/-! ### The field line -/

/-- A line decision on a free line: with an empty queue, or after four commands in a row, the next poll of the rota; otherwise the head of the
queue when it passes the check at take-out. The end of a request's last character opens the reply window; after CLEAR_ADDRESSES the line falls
silent. -/
def Obligations.LineDecisionChooses : Prop :=
  ∀ s : State,
    (s.fl.phase = .idle → s.fl.enumeration = .idle → s.eng.state ≠ .unconfigured →
      (∀ a, s.fl.nextPoll = some a → s.fl.queue = [] ∨ s.fl.inRow = 4 →
        exec .lineDecision s = .next { s with fl := { s.fl with rota := some a, inRow := 0, phase := .sending (.poll a) } }) ∧
        (∀ (c : CommandEntry) (rest : List CommandEntry), s.fl.queue = c :: rest → s.fl.inRow ≤ 3 → s.commandStands c = true →
          exec .lineDecision s =
            .next { s with fl := { s.fl with
              queue := rest, inRow := s.fl.inRow + 1, phase := .sending (.command c.address c.command) } })) ∧
      (∀ r : FieldRequest, s.fl.phase = .sending r → r ≠ .clearAddresses →
        exec .fieldRequestSent s = .next { s with fl := { s.fl with phase := .window r } }) ∧
      (s.fl.phase = .sending .clearAddresses → exec .fieldRequestSent s = .next { s with fl := { s.fl with phase := .silence } })

/-- No RUN is sent to a bank that is heat-inhibited or not STARTING in that direction. -/
def Obligations.NoRunToBarredBank : Prop :=
  ∀ (s t : State) (a : Nat) (d : Spin), s.fl.phase = .idle → exec .lineDecision s = .next t →
    t.fl.phase = .sending (.command a (.run d)) →
    ∃ u b, s.fl.unit a = some u ∧ s.bank u.number = some b ∧ b.state = .starting d ∧ b.heatInhibited = false

/-- A reply to a poll: the exchange ends, the position's missed count is 0 and it is reachable. A drive's report goes to the sequencer with the
command-waiting indication, then to the engine; a station's reading is kept with its uptime, its mark set, and the round tested. A round in which every
reachable station is marked completes: used fields, estimate, ESTIMATE_INVALID on a change of validity, P, staging, marks cleared; otherwise nothing
happens (R112, R114 to R116). -/
def Obligations.RepliesTaken : Prop :=
  (∀ s : State,
    ((∃ x ∈ s.vel.stations, x.polled = false ∧ s.stationReachable x.number = true) → s.completeRound = s) ∧
      ∀ (used : Station → Bool) (e : Option Int) (t v : State),
        (∀ x ∈ s.vel.stations, x.polled = true ∨ s.stationReachable x.number = false) →
        (∀ x, used x = true ↔ (∃ r, x.reading = some r ∧ r.quality = .good) ∧ 0 < x.weight ∧ s.stationReachable x.number = true ∧
          inHeat s.eng.heat x.chainage = false) →
        e = (if s.vel.stations.filter used = [] then none
          else some (Int.tdiv (((s.vel.stations.filter used).map (fun x => (x.weight : Int) * x.velocity)).sum)
            (((s.vel.stations.filter used).map (fun x => (x.weight : Int))).sum))) →
        t = { s with vel := { s.vel with
          rounds := s.vel.rounds + 1
          estimate := e
          stations := s.vel.stations.map (fun (x : Station) => { x with used := used x })
          projected :=
            match s.eng.state, s.eng.latch with
            | .active, some c => e.map (fun p => if c.dir = .east then p else -p)
            | _, _ => none } } →
        v = (if e.isSome = s.vel.estimate.isSome then t else t.raise (.estimateInvalid e.isSome)).evaluateStaging →
        s.completeRound =
          { v with vel := { v.vel with stations := v.vel.stations.map (fun (x : Station) => { x with polled := false }) } }) ∧
  ∀ (s : State) (a hi lo : Byte) (u : FieldUnit), s.fl.phase = .window (.poll a.toNat) → s.fl.enumeration = .idle →
    s.fl.unit a.toNat = some u →
    (∀ (r : Report) (b : Bank), u.kind = .drive → Report.ofStatus hi lo = some r → s.bank u.number = some b →
      ∃ t, t = { s with fl := { s.fl with
          phase := .idle, units := s.fl.units.set (a.toNat - 1) { u with missed := 0, reachable := true } } } ∧
        exec (.driveReport a hi lo) s =
          .next (let v := (t.commitBank (takeReport (s.bankContext u.number) b r (s.fl.commandWaits a.toNat))).engineTakesBanks
                 if v.fl.enumeration = .waiting then v.startEnumeration else v)) ∧
      (u.kind = .station →
        ∃ t, t = { s with
            fl := { s.fl with phase := .idle, units := s.fl.units.set (a.toNat - 1) { u with missed := 0, reachable := true } }
            vel := { s.vel with
              stations := s.vel.stations.map (fun (x : Station) =>
                if x.number = u.number then
                  { x with
                    polled := true
                    reading := some
                      { velocity := (readingOfStatus hi lo).1, quality := (readingOfStatus hi lo).2, at_ := s.uptime } }
                else x) } } ∧
          exec (.stationReading a hi lo) s =
            .next (let v := t.completeRound
                   if v.fl.enumeration = .waiting then v.startEnumeration else v))

/-- The window of a poll closes without a reply. A drive's: below the third miss only the count rises; the third makes the bank UNREACHABLE from whatever
state it was in, with UNIT_UNREACHABLE, a LOCKED_OUT bank with its lockout pending, and leaves its failures (but for the end of STARTUP in QUIET, which
clears them); further misses raise nothing. A station's: the count, UNIT_UNREACHABLE at the fall from reachable, the mark set with its reading kept, and
the round tested (R93, R111, R132). -/
def Obligations.MissCounted : Prop :=
  ∀ (s t : State) (a : Nat) (u : FieldUnit), s.fl.phase = .window (.poll a) → s.fl.enumeration = .idle → s.fl.unit a = some u →
    t = { s with fl := { s.fl with
      phase := .idle
      units := s.fl.units.set (a - 1)
        { u with missed := min 3 (u.missed + 1), reachable := u.reachable && decide (u.missed + 1 < 3) } } } →
    (u.kind = .drive →
      (u.missed ≤ 1 ∨ u.reachable = false → exec .replyWindowExpiry s = .next t) ∧
        (2 ≤ u.missed → u.reachable = true → ∀ b, s.bank u.number = some b → b.state ≠ .unassigned → b.state ≠ .unreachable →
          exec .replyWindowExpiry s =
            .next (t.commitBank
              { bank :=
                  { b with
                    state := .unreachable, stopCause := none, coast := .stopped, start := .stopped
                    lockoutPending := b.lockoutPending || decide (b.state = .lockedOut) }
                command := none, words := [.leave, .release]
                notices := [.unitUnreachable b.address .drive b.number] }).engineTakesBanks ∧
            ∃ v b', exec .replyWindowExpiry s = .next v ∧ v.bank u.number = some b' ∧ b'.state = .unreachable ∧
              b'.coast = .stopped ∧ b'.start = .stopped ∧
              (s.eng.state ≠ .startup →
                b'.failures = b.failures ∧ b'.lockoutPending = (b.lockoutPending || decide (b.state = .lockedOut))))) ∧
      (u.kind = .station →
        ∃ v, v = (if 2 ≤ u.missed ∧ u.reachable = true then t.raise (.unitUnreachable a .station u.number) else t) ∧
          exec .replyWindowExpiry s =
            .next { v with vel := { v.vel with
              stations := v.vel.stations.map (fun (x : Station) => if x.number = u.number then { x with polled := true } else x) } }.completeRound)

/-- ENUMERATE with the response at rest: ACCEPTED, every position not assigned, CLEAR_ADDRESSES being sent. The enumeration's exchanges: DAISY-OUT and
IDENTIFY after the silence; ASSIGN(n) to a unit of the listed kind; position n assigned and the next IDENTIFY on its acknowledgement; and the end
with result DONE when an IDENTIFY beyond the last listed position is not answered. -/
def Obligations.EnumerationRuns : Prop :=
  (∀ (s : State) (i : PortId) (tag : Byte), s.Ready i → s.token = some i → s.eng.state = .quiet → s.lib.inFlight = none →
      s.lib.mode = .service → s.banks.all (fun b => b.state.allowsEnumeration) = true → s.fl.phase = .idle →
      ∃ t, exec (.enumerate i tag []) s = .next t ∧ t.fl.enumeration = .running 1 ∧ t.fl.phase = .sending .clearAddresses ∧
        t.fl.units = s.fl.units.map (fun (u : FieldUnit) => { u with assigned := false }) ∧ t.fl.queue = s.fl.queue ∧
        t.banks = s.banks ∧ t.eng = s.eng ∧
        (t.port i).response = some { tag := tag, completion := .accepted, result := none }) ∧
    ∀ (s : State) (hi lo : Byte) (n : Byte), s.fl.enumeration = .running n.toNat →
      (s.fl.phase = .silence →
        exec .clearAddressesSilenceExpiry s = .next { s with fl := { s.fl with daisyOut := true, phase := .sending .identify } }) ∧
        (∀ u : FieldUnit, s.fl.phase = .window .identify → s.fl.unit n.toNat = some u → UnitKind.ofCode hi.toNat = some u.kind →
          exec (.identifyReply 0 hi lo) s = .next { s with fl := { s.fl with phase := .sending (.assign n.toNat) } }) ∧
        (∀ u : FieldUnit, s.fl.phase = .window (.assign n.toNat) → s.fl.unit n.toNat = some u →
          UnitKind.ofCode hi.toNat = some u.kind →
          exec (.assignReply n hi lo) s =
            .next { s with fl := { s.fl with
              units := s.fl.units.set (n.toNat - 1) { u with assigned := true }
              enumeration := .running (n.toNat + 1), phase := .sending .identify } }) ∧
        (∀ o, s.fl.phase = .window .identify → s.fl.unit n.toNat = none → s.inFlightOf .enumerate = some o →
          ∃ t, exec .replyWindowExpiry s = .next t ∧ t.fl.enumeration = .idle ∧ t.fl.phase = .idle ∧ t.fl.rota = none ∧
            t.fl.daisyOut = false ∧
            t.fl.units = s.fl.units.map (fun (u : FieldUnit) => { u with missed := 0, reachable := u.assigned }) ∧
            (∀ x ∈ t.vel.stations, x.reading = none ∧ x.polled = false) ∧
            t.lib = { s.lib with
              inFlight := none
              record :=
                { kind := .enumerate, subjA := 0, subjB := (s.fl.units.filter FieldUnit.assigned).length, result := .done, detailA := 0
                  detailB := 0, initiator := some o.initiator, at_ := s.uptime } })

/-! ### The token -/

/-- CLAIM by the table of R158: granted with cause CLAIMED when vacant, unchanged and without notice for the holder, a seizure with cause SEIZED for
a keyed PORTAL port against a CENTRE holder, otherwise refused with the present holder. The key of the port that sent it is sampled
when it is taken (R159); that State holds the levels as last sampled is the model's (log 5). -/
def Obligations.ClaimTable : Prop :=
  ∀ (s u : State) (i h : PortId) (tag : Byte) (key : Bool), s.Ready i → u = { s.taking i with keys := s.keys.sample i key } →
    (s.token = none →
      exec (.claim i tag [] key) s = .next ((u.changeToken (some i) .claimed).respond i tag (done (u8 i.code))) ∧
        (u.changeToken (some i) .claimed).token = some i) ∧
      (s.token = some i → exec (.claim i tag [] key) s = .next (u.respond i tag (done (u8 i.code))) ∧ u.token = some i) ∧
      (s.token = some h → h ≠ i → i.isPortal = true → key = true → h.isPortal = false →
        exec (.claim i tag [] key) s = .next ((u.changeToken (some i) .seized).respond i tag (done (u8 i.code))) ∧
          (u.changeToken (some i) .seized).token = some i) ∧
      (s.token = some h → h ≠ i → (i.isPortal && key && !h.isPortal) = false →
        exec (.claim i tag [] key) s =
            .next (u.respond i tag { completion := .refusedState, result := some (u8 h.code) }) ∧ u.token = some h)

/-- YIELD by the table of R160: a target that is no port is refused, then a port that does not hold the token, then a target that is not present;
vacant without a target and the target's with a present one, with cause YIELDED; nothing changes with the requester itself as target. -/
def Obligations.YieldTable : Prop :=
  ∀ (s : State) (i p : PortId) (tag x : Byte), s.Ready i →
    (x.toNat = 0 ∨ 4 < x.toNat → exec (.yield i tag [x]) s = .next (s.answered i tag (refuse .refusedRange))) ∧
      (s.token ≠ some i →
        exec (.yield i tag []) s = .next (s.answered i tag (refuse .refusedState)) ∧
          exec (.yield i tag [byteOf p.code]) s = .next (s.answered i tag (refuse .refusedState))) ∧
      (s.token = some i → p ≠ i → (s.port p).present = false →
        exec (.yield i tag [byteOf p.code]) s = .next (s.answered i tag (refuse .refusedState))) ∧
      (s.token = some i →
        exec (.yield i tag []) s = .next (((s.taking i).changeToken none .yielded).respond i tag (done (u8 0))) ∧
          ((s.taking i).changeToken none .yielded).token = none) ∧
      (s.token = some i → p ≠ i → (s.port p).present = true →
        exec (.yield i tag [byteOf p.code]) s =
            .next (((s.taking i).changeToken (some p) .yielded).respond i tag (done (u8 p.code))) ∧
          ((s.taking i).changeToken (some p) .yielded).token = some p) ∧
      (s.token = some i → exec (.yield i tag [byteOf i.code]) s = .next (s.answered i tag (done (u8 i.code))))

/-! ### Notices -/

/-- A notice raised (R166 to R169): lost at a port that masks its kind; at every other port a new entry of count 1, or the entry of its kind with the
latest subject and uptime and a count one higher, held at 255; the other kinds' entries and the rest of the port stand, and the attention line is
asserted. OPERATION_DONE goes to the initiator alone. By command: LINE_FAULT raises DETECTION_FAULT at the four ports, and the end of an ERASE_SLOT in
EDIT raises OPERATION_DONE at its initiator. -/
def Obligations.NoticesEnterSets : Prop :=
  (∀ (s : State) (n : Notice) (i : PortId), s.PortsOk →
    let entry (q : Port) (k : Nat) : Option NoticeEntry := q.notices.find? (fun e => e.notice.kind == k)
    s.raise n = { s with ports := (s.raise n).ports } ∧
      (s.raise n).port i = { s.port i with notices := ((s.raise n).port i).notices } ∧
      ((s.port i).mask.contains n.kind = true → (s.raise n).port i = s.port i) ∧
      ((s.port i).mask.contains n.kind = false →
        (entry (s.port i) n.kind = none → entry ((s.raise n).port i) n.kind = some { notice := n, at_ := s.uptime, count := 1 }) ∧
          (∀ e, entry (s.port i) n.kind = some e →
            entry ((s.raise n).port i) n.kind = some { notice := n, at_ := s.uptime, count := min (e.count + 1) 255 }) ∧
          (∀ k, k ≠ n.kind → entry ((s.raise n).port i) k = entry (s.port i) k) ∧ ((s.raise n).port i).attention = true) ∧
      (s.raiseTo i n).port i = (s.raise n).port i ∧ ∀ j, j ≠ i → (s.raiseTo i n).port j = s.port j) ∧
    (∀ (s : State) (c : Word16), s.det.condition ≠ .fault →
      ∃ t, exec (.lineFault c) s = .next t ∧ t.ports = (s.raise (.detectionFault .fault (some c.toNat))).ports) ∧
    ∀ (s : State) (o : InFlight), s.lib.inFlight = some o → o.kind = .eraseSlot → s.lib.mode = .edit →
      ∃ t, exec (.eraseSlotDone true) s = .next t ∧
        t.ports = (s.raiseTo o.initiator (.operationDone .eraseSlot o.subjA o.subjB .done 0 0)).ports

/-- READ_NOTICES gives the uptime, the mask and the entries of the port's own set, in kind-number order, and leaves that set empty and its attention
line deasserted. -/
def Obligations.ReadNoticesEmptiesSet : Prop :=
  ∀ (s : State) (i : PortId) (tag : Byte), s.Ready i → s.PortsOk →
    ∃ t, t = (s.setPort i { s.port i with notices := [] }).answered i tag
        (done (u32 s.uptime ++ u24 (setOfKinds (s.port i).mask) ++ counted NoticeEntry.bytes (s.port i).notices)) ∧
      exec (.readNotices i tag []) s = .next t ∧ (s.port i).notices.Pairwise (fun x y => x.notice.kind < y.notice.kind) ∧
      (t.port i).attention = false

/-- ACK_NOTICES removes the entries whose kinds are named and answers the kinds that remain. SET_NOTICE_MASK replaces the whole mask and discards the
entries it now masks, in the requesting port alone, answered with the new mask and the kinds discarded. A kind outside 1 to 17 is refused by both;
that the refusal of SET_NOTICE_MASK carries no result is the model's reading of R189 against R172 (log 43). -/
def Obligations.AckAndMaskNotices : Prop :=
  ∀ (s : State) (i : PortId) (tag x y z : Byte), s.Ready i →
    (getU24 [x, y, z] 0 < 2 ^ 17 →
      exec (.ackNotices i tag [x, y, z]) s =
        .next ((s.setPort i
            { s.port i with
              notices := (s.port i).notices.filter (fun e => !(kindsOfSet (getU24 [x, y, z] 0)).contains e.notice.kind) }).answered
          i tag
          (done (u24 (setOfKinds
            (((s.port i).notices.filter (fun e => !(kindsOfSet (getU24 [x, y, z] 0)).contains e.notice.kind)).map
              (fun e => e.notice.kind)))))) ∧
        exec (.setNoticeMask i tag [x, y, z]) s =
          .next ((s.setPort i
              { s.port i with
                mask := kindsOfSet (getU24 [x, y, z] 0)
                notices := (s.port i).notices.filter (fun e => !(kindsOfSet (getU24 [x, y, z] 0)).contains e.notice.kind) }).answered
            i tag
            (done (u24 (setOfKinds (kindsOfSet (getU24 [x, y, z] 0))) ++ u24 (setOfKinds
              (((s.port i).notices.filter (fun e => (kindsOfSet (getU24 [x, y, z] 0)).contains e.notice.kind)).map
                (fun e => e.notice.kind))))))) ∧
      (2 ^ 17 ≤ getU24 [x, y, z] 0 →
        exec (.ackNotices i tag [x, y, z]) s = .next (s.answered i tag (refuse .refusedRange)) ∧
          exec (.setNoticeMask i tag [x, y, z]) s = .next (s.answered i tag (refuse .refusedRange)))

/-! ### The library -/

/-- OPEN_EDIT: the mode, the opener, the staged copy, no active plan and an empty stack; the flag that answers whether the staged record is a copy is
the model's reading (log 12). In EDIT, WRITE_SITE_PART replaces a part of the staged record, and LOCK_READBACK sets the lock. -/
def Obligations.EditRequests : Prop :=
  (∀ (s : State) (i : PortId) (tag : Byte), s.Ready i → s.token = some i → s.lib.inFlight = none → s.lib.mode = .service →
      s.eng.state = .quiet ∨ s.eng.state = .unconfigured →
      ∃ t, exec (.openEdit i tag []) s = .next t ∧ t.plans = { active := none, stack := [] } ∧
        t.lib = { s.lib with
          mode := .edit, opener := some i, abortCause := .none
          staged := some (match s.lib.inUse with | some r => r.parts | none => blankSiteRecord) } ∧
        (t.port i).response = some { tag := tag, completion := .done, result := some (flag s.lib.inUse.isSome) }) ∧
    ∀ (s : State) (i : PortId) (tag : Byte), s.Ready i → s.token = some i → s.lib.mode = .edit →
      (∀ (p : Byte) (content : List Byte) (r : List (List Byte)), p.toNat ≤ 8 → content.length = siteLengths.getD p.toNat 0 →
        s.lib.staged = some r →
        exec (.writeSitePart i tag (p :: content)) s =
          .next ({ s with lib := { s.lib with staged := some (r.set p.toNat content) } }.answered i tag doneBare)) ∧
        (s.lib.nv.lock = false →
          exec (.lockReadback i tag [] true) s =
            .next ({ s with lib := { s.lib with nv := { s.lib.nv with lock := true } } }.answered i tag doneBare) ∧
          exec (.lockReadback i tag [] false) s =
            .next ({ s with lib := { s.lib with nv := { s.lib.nv with lock := true } } }.answered i tag (done (u8 3))))

/-- EDIT aborted (R4, R162, R184): by a report that has passed its checks, with cause INCIDENT; and when the token leaves the opener, with cause TOKEN,
by its silence, a break, a YIELD or a seizure. The staged record and the opener go; with nothing in flight the mode is SERVICE and the default plan
is installed, otherwise CLOSING until the operation's end installs it. The default is the default plan slot, when it is SEALED, of the record in use
(R184) or of the NV site record (R30), which gives none when it is invalid or its write was cut by the last reset (R24, R185): one plan where the two
records are one or both give none, and of the record in use while the NV record is unusable (R183). Where the rules differ, after a CLOSE_EDIT that
ended DONE in UNCONFIGURED, which of the two plans it is stands open (log 13). -/
def Obligations.EditAborted : Prop :=
  (∀ (s : State) (o : PortId) (aborted : AbortCause → Library) (plans : PlanSelector), s.lib.mode = .edit → s.lib.opener = some o →
    (∀ c, aborted c = { s.lib with
      mode := if s.lib.inFlight.isNone then .service else .closing, opener := none, staged := none, abortCause := c }) →
    plans = (if s.lib.inFlight.isNone then { active := s.abortDefault, stack := [] } else s.plans) →
    (∀ i tag ops f, s.Ready i → ops.length = 8 → s.eng.state ≠ .unconfigured → lodgeReport i (siteL s.site) ops = some f →
      ∃ t, exec (.lodge i tag ops) s = .next t ∧ t.lib = aborted .incident ∧ t.plans = plans) ∧
      (∀ a b temp, s.eng.state ≠ .unconfigured → 1 ≤ temp.toNat → temp.toNat ≤ 3 →
        ∃ t, exec (.hotspot a b temp) s = .next t ∧ t.lib = aborted .incident ∧ t.plans = plans) ∧
      (s.token = some o →
        (∀ n, (s.port o).silence = .running n →
          ∃ t, exec (.portSilenceExpiry o) s = .next t ∧ t.lib = aborted .token ∧ t.plans = plans ∧ t.token = none) ∧
          (∀ sending, ∃ t, exec (.portBreak o sending) s = .next t ∧ t.lib = aborted .token ∧ t.plans = plans ∧ t.token = none) ∧
          (∀ tag, s.Ready o →
            ∃ t, exec (.yield o tag []) s = .next t ∧ t.lib = aborted .token ∧ t.plans = plans ∧ t.token = none) ∧
          (∀ tag p, s.Ready o → p ≠ o → (s.port p).present = true →
            ∃ t, exec (.yield o tag [byteOf p.code]) s = .next t ∧ t.lib = aborted .token ∧ t.plans = plans ∧ t.token = some p) ∧
          ∀ tag i, s.Ready i → i.isPortal = true → o.isPortal = false →
            ∃ t, exec (.claim i tag [] true) s = .next t ∧ t.lib = aborted .token ∧ t.plans = plans ∧ t.token = some i)) ∧
    (∀ (s : State) (o : InFlight), s.lib.mode = .closing → s.lib.inFlight = some o →
      ∀ c b, (o.kind = .eraseSlot ∧ c = .eraseSlotDone b) ∨ (o.kind = .writePart ∧ c = .writePartDone b) ∨
          (o.kind = .sealSlot ∧ c = .sealSlotDone b) ∨ (o.kind = .eraseLibrary ∧ ∃ failed, c = .eraseLibraryDone failed) →
        ∃ t, exec c s = .next t ∧ t.lib.mode = .service ∧ t.lib.inFlight = none ∧ t.plans = { active := t.abortDefault, stack := [] }) ∧
    ∀ s : State,
      let plan (r : List (List Byte)) : Option Nat :=
        if 1 ≤ siteDefaultSlot r ∧ siteDefaultSlot r ≤ 16 ∧ (s.slot (siteDefaultSlot r)).state = .sealed then some (siteDefaultSlot r)
        else none
      let inUse : Option Nat := s.lib.inUse.bind (fun u => plan u.parts)
      (s.lib.nv.site = .unusable → s.abortDefault = inUse) ∧
        ∀ r, s.lib.nv.site = .stored r →
          (siteCrc r.parts = r.crc → siteViolation r.parts = none → s.lib.siteCut = false →
            (s.abortDefault = plan r.parts ∨ s.abortDefault = inUse) ∧ (s.lib.inUse = some r → s.abortDefault = plan r.parts)) ∧
            (siteCrc r.parts ≠ r.crc ∨ siteViolation r.parts ≠ none ∨ s.lib.siteCut = true →
              (s.abortDefault = none ∨ s.abortDefault = inUse) ∧ (s.lib.inUse = none → s.abortDefault = none))

/-- The long slot requests in EDIT with nothing in flight: ACCEPTED, the operation in flight and the marker, and nothing else. The checks of SEAL_SLOT
are made as it is taken: they pass exactly when part 0 is written with a segment count n to 32, of parts 1 to 32 those to n are written and no
other, the notice option is one of two, and each row of parts 0 to n has its fields in range, base stages within both run orders, and lists that
repeat no bank, name banks of the staged record and of a record in use, and end in 0 (R180). -/
def Obligations.LongRequestsStart : Prop :=
  ∀ (s : State) (i : PortId) (tag n k : Byte) (content : List Byte), s.Ready i → s.token = some i → s.lib.mode = .edit →
    s.lib.inFlight = none → 1 ≤ n.toNat → n.toNat ≤ 16 →
    exec (.eraseSlot i tag [n]) s =
        .next ((s.startOperation (operation .eraseSlot n.toNat 0 i)).answered i tag accepted) ∧
      exec (.eraseLibrary i tag []) s = .next ((s.startOperation (operation .eraseLibrary 0 0 i)).answered i tag accepted) ∧
      (k.toNat ≤ 32 → content.length = (if k.toNat = 0 then 80 else 70) → (s.slot n.toNat).writable k.toNat = true →
        exec (.writePart i tag (n :: k :: content)) s =
          .next ((s.startOperation { operation .writePart n.toNat k.toNat i with content := content }).answered i tag accepted)) ∧
      ((s.slot n.toNat).state = .written →
        exec (.sealSlot i tag [n]) s =
          .next ((s.startOperation { operation .sealSlot n.toNat 0 i with sealOutcome := s.sealOutcome n.toNat }).answered i tag
            accepted)) ∧
      ∀ (p : PlanSlot) (r : List (List Byte)), s.slot n.toNat = p → s.lib.staged = some r →
        let listed (x : Nat) : Prop :=
          x ≠ 0 ∧ (∃ e ∈ siteBanks r, e.number = x) ∧ ∀ u, s.lib.inUse = some u → ∃ e ∈ siteBanks u.parts, e.number = x
        let list (l : List Byte) (lengthAt size : Nat) : Prop :=
          (rowList l lengthAt (lengthAt + 1)).Nodup ∧ (∀ x ∈ rowList l lengthAt (lengthAt + 1), listed x) ∧
            ∀ j, getU8 l lengthAt ≤ j → j < size → getU8 l (lengthAt + 1 + j) = 0
        (s.sealOutcome n.toNat = none ↔
          (p.part 0).isSome = true ∧ p.segmentCount ≤ 32 ∧
            (∀ k, 1 ≤ k → k ≤ 32 → ((p.part k).isSome = true ↔ k ≤ p.segmentCount)) ∧
            (getU8 ((p.part 0).getD []) 9 = 1 ∨ getU8 ((p.part 0).getD []) 9 = 2) ∧
            ∀ k c l, k ≤ p.segmentCount → p.part k = some c → l = (if k = 0 then c.drop 10 else c) →
              (getU8 l 4 = 1 ∨ getU8 l 4 = 2) ∧ getU8 l 5 ≤ 1 ∧ 1 ≤ getU8 l 6 ∧ getU8 l 6 ≤ 24 ∧ getU8 l 6 ≤ getU8 l 11 ∧
                getU8 l 6 ≤ getU8 l 36 ∧ 100 ≤ getU16 l 7 ∧ getU16 l 7 ≤ 800 ∧ getU16 l 9 ≤ 32767 ∧ 1 ≤ getU8 l 11 ∧
                getU8 l 11 ≤ 24 ∧ list l 11 24 ∧ 1 ≤ getU8 l 36 ∧ getU8 l 36 ≤ 24 ∧ list l 36 24 ∧ getU8 l 61 ≤ 8 ∧ list l 61 8)

/-- CLOSE_EDIT: a violation is refused with its place and leaves EDIT open; without one the write begins in CLOSING. There is none exactly when part
0 has its fields in range and the chain length is the sum of the counts, each listed bank and station has its entry's fields in range and a number
of its own, the chain holds each listed bank once as DRIVE and each listed station once as STATION and nothing else, and every bank of the run
orders and inhibit lists of each SEALED slot is listed (R182). A violation names a slot exactly when the record itself passes. The place is sent as
part, field and slot, the order of R189 where R182 names the slot first (log 12); the field that a check of two fields names is log 14's reading. -/
def Obligations.CloseEditValidates : Prop :=
  (∀ (s : State) (i : PortId) (tag : Byte) (r : List (List Byte)), s.Ready i → s.token = some i → s.lib.mode = .edit →
    s.lib.inFlight = none → s.lib.staged = some r →
    (∀ v, closeViolation r s.lib.nv.slots = some v →
      exec (.closeEdit i tag []) s = .next (s.answered i tag { completion := .refusedState, result := some (violationResult v) })) ∧
      (closeViolation r s.lib.nv.slots = none →
        exec (.closeEdit i tag []) s =
          .next (({ s with lib := { s.lib with mode := .closing, opener := none } }.startOperation
            (operation .closeEdit 0 0 i)).answered i tag accepted))) ∧
    ∀ (r : List (List Byte)) (slots : List PlanSlot),
      let record : Prop :=
        (1000 ≤ siteL r ∧ siteL r ≤ 65000 ∧ 30 ≤ siteCoast r ∧ siteCoast r ≤ 600 ∧ 5 ≤ siteStartTimeout r ∧ siteStartTimeout r ≤ 60 ∧
          20 ≤ siteDwell r ∧ siteDwell r ≤ 600 ∧ 5 ≤ siteVelocityHysteresis r ∧ siteVelocityHysteresis r ≤ 100 ∧ 100 ≤ siteFloor r ∧
          siteFloor r ≤ 400 ∧ 200 ≤ siteCeiling r ∧ siteCeiling r ≤ 800 ∧ siteFloor r ≤ siteCeiling r ∧ siteSegmentHysteresis r ≤ 200 ∧
          siteU r ≤ 500 ∧ siteD r ≤ 2000 ∧ 50 ≤ siteM r ∧ siteM r ≤ 1000 ∧ 1 ≤ siteS r ∧ siteS r ≤ 4 ∧ 2 ≤ siteSilence r ∧
          siteSilence r ≤ 60 ∧ siteDefaultSlot r ≤ 16 ∧ siteBankCount r ≤ 48 ∧ siteStationCount r ≤ 8 ∧
          siteChainLength r = siteBankCount r + siteStationCount r) ∧
          (∀ e ∈ siteBanks r, 1 ≤ e.number ∧ e.number ≤ 48 ∧ e.chainage ≤ siteL r ∧ 1 ≤ e.fans ∧ e.fans ≤ 4 ∧ 10 ≤ e.thrustPerFan ∧
            e.thrustPerFan ≤ 300 ∧ (e.forward = 1 ∨ e.forward = 2)) ∧
          ((siteBanks r).map BankEntry.number).Nodup ∧
          (∀ e ∈ siteStations r, 1 ≤ e.number ∧ e.number ≤ 8 ∧ e.chainage ≤ siteL r ∧ e.weight ≤ 15) ∧
          ((siteStations r).map StationEntry.number).Nodup ∧
          (∀ c ∈ siteChain r,
            (c.kind = 1 ∧ ∃ e ∈ siteBanks r, e.number = c.number) ∨ (c.kind = 2 ∧ ∃ e ∈ siteStations r, e.number = c.number)) ∧
          (∀ e ∈ siteBanks r, (siteChain r).count { kind := 1, number := e.number } = 1) ∧
          ∀ e ∈ siteStations r, (siteChain r).count { kind := 2, number := e.number } = 1
      (closeViolation r slots = none ↔
        record ∧
          ∀ p ∈ slots, p.state = .sealed → ∀ k, k ≤ p.segmentCount → ∀ x, x ∈ (p.row k).west ∨ x ∈ (p.row k).east ∨ x ∈ (p.row k).inhibit →
            x ≠ 0 ∧ ∃ e ∈ siteBanks r, e.number = x) ∧
        ∀ v, closeViolation r slots = some v → (v.slot = none ↔ ¬ record)

/-- The ends of the slot operations in EDIT: read back as written, the slot's new state; a violation leaves the slot; a failed comparison leaves its slot
INVALID, whatever its parts then hold (log 8), with the slots before it ERASED and those after it as they were in a library erase, whose lock then
stands. Nothing is in flight afterwards, the marker is clear, the mode is EDIT, and the operation record has kind, subject, result, initiator and
uptime. -/
def Obligations.SlotOperationsEnd : Prop :=
  ∀ (s : State) (o : InFlight), s.lib.inFlight = some o → s.lib.mode = .edit →
    let ended (t : State) (a b : Nat) (x : OperationResult) (d1 d2 : Nat) : Prop :=
      t.lib.inFlight = none ∧ t.lib.mode = .edit ∧ t.lib.nv.marker = none ∧
        t.lib.record =
          { kind := o.kind, subjA := a, subjB := b, result := x, detailA := d1, detailB := d2, initiator := some o.initiator
            at_ := s.uptime }
    (o.kind = .eraseSlot →
      (∃ t, exec (.eraseSlotDone true) s = .next t ∧ t.lib.nv = { s.lib.nv.setSlot o.subjA .blank with marker := none } ∧
        ended t o.subjA o.subjB .done 0 0) ∧
        (1 ≤ o.subjA → o.subjA ≤ s.lib.nv.slots.length →
          ∃ t, exec (.eraseSlotDone false) s = .next t ∧ (t.slot o.subjA).state = .invalid ∧ ended t o.subjA o.subjB .nvFault 0 0)) ∧
      (o.kind = .writePart →
        (∃ t, exec (.writePartDone true) s = .next t ∧
          t.lib.nv = { s.lib.nv.setSlot o.subjA ((s.slot o.subjA).write o.subjB o.content) with marker := none } ∧
          ended t o.subjA o.subjB .done 0 0) ∧
          (1 ≤ o.subjA → o.subjA ≤ s.lib.nv.slots.length →
            ∃ t, exec (.writePartDone false) s = .next t ∧ (t.slot o.subjA).state = .invalid ∧ ended t o.subjA o.subjB .nvFault 0 0)) ∧
      (o.kind = .sealSlot → o.sealOutcome = none →
        (∃ t, exec (.sealSlotDone true) s = .next t ∧
          t.lib.nv = { s.lib.nv.setSlot o.subjA (s.slot o.subjA).seal with marker := none } ∧
          ended t o.subjA o.subjB .done ((s.slot o.subjA).seal.crc.toNat / 256) ((s.slot o.subjA).seal.crc.toNat % 256)) ∧
          (1 ≤ o.subjA → o.subjA ≤ s.lib.nv.slots.length →
            ∃ t, exec (.sealSlotDone false) s = .next t ∧ (t.slot o.subjA).state = .invalid ∧ ended t o.subjA o.subjB .nvFault 0 0)) ∧
      (o.kind = .sealSlot → ∀ v, o.sealOutcome = some v → ∀ c,
        ∃ t, exec (.sealSlotDone c) s = .next t ∧ t.lib.nv = { s.lib.nv with marker := none } ∧
          ended t o.subjA o.subjB .violation v.part v.field) ∧
      (o.kind = .eraseLibrary →
        (∃ t, exec (.eraseLibraryDone none) s = .next t ∧ t.lib.nv.slots = eraseFirst 16 s.lib.nv.slots ∧ t.lib.nv.lock = false ∧
          ended t 0 o.subjB .done 0 0) ∧
          ∀ n, 1 ≤ n → n ≤ 16 → s.lib.nv.slots.length = 16 →
            ∃ t, exec (.eraseLibraryDone (some n)) s = .next t ∧ (t.slot n).state = .invalid ∧ t.lib.nv.lock = s.lib.nv.lock ∧
              (∀ k, 1 ≤ k → k < n → t.slot k = .blank) ∧ (∀ k, n < k → t.slot k = s.slot k) ∧ ended t n o.subjB .nvFault 0 0)

/-- The end of the CLOSE_EDIT write. Read back as written, the NV record is the staged one with its CRC; outside UNCONFIGURED it is the record in use and
the running tables are rebuilt from it: the units, with the command queue and the in-a-row count empty and no rota pointer, and an exchange in progress
goes on (the model's reading, log 32); the start slots all free with the new S and nobody queued; the banks in VERIFY at their reset values, in QUIET
with demand OFF and no heat flag, elsewhere with demands and heat flags of which this statement says nothing (R95); the stations at theirs.
In UNCONFIGURED nothing is rebuilt. A failed comparison leaves the NV record unusable and the tables as they stand. In every case the staged record
is gone, the mode is SERVICE, the operation record is written, and the default plan slot is installed when it is SEALED: of the record written, or
after a failed comparison of the record in use (R30, R183). -/
def Obligations.CloseWriteEnds : Prop :=
  ∀ (s : State) (o : InFlight) (r : List (List Byte)), s.lib.inFlight = some o → o.kind = .closeEdit → s.lib.staged = some r →
    let default (r : List (List Byte)) : Option Nat :=
      if 1 ≤ siteDefaultSlot r ∧ siteDefaultSlot r ≤ 16 ∧ (s.slot (siteDefaultSlot r)).state = .sealed then some (siteDefaultSlot r)
      else none
    let ended (t : State) (x : OperationResult) : Prop :=
      t.lib.staged = none ∧ t.lib.mode = .service ∧ t.lib.inFlight = none ∧ t.lib.nv.marker = none ∧ t.lib.nv.slots = s.lib.nv.slots ∧
        t.inc = s.inc ∧ t.eng.trains = s.eng.trains ∧
        t.lib.record =
          { kind := .closeEdit, subjA := 0, subjB := 0, result := x, detailA := 0, detailB := 0, initiator := some o.initiator
            at_ := s.uptime }
    (s.eng.state = .unconfigured →
      ∃ t, exec (.closeEditWriteDone true) s = .next t ∧ t.lib.nv.site = .stored { parts := r, crc := siteCrc r } ∧
        t.lib.inUse = s.lib.inUse ∧ t.banks = s.banks ∧ t.arb = s.arb ∧ t.vel.stations = s.vel.stations ∧ t.fl = s.fl ∧
        t.plans = { active := default r, stack := [] } ∧ ended t .done) ∧
      (s.eng.state ≠ .unconfigured →
        ∃ t, exec (.closeEditWriteDone true) s = .next t ∧ t.lib.nv.site = .stored { parts := r, crc := siteCrc r } ∧
          t.lib.inUse = some { parts := r, crc := siteCrc r } ∧
          t.fl = { s.fl with units := buildUnits r, queue := [], inRow := 0, rota := none } ∧
          t.arb = { slots := List.replicate (siteS r) none, queue := [] } ∧ t.vel.stations = buildStations r ∧
          t.banks.map (fun b => { b with demand := .off, heatInhibited := false }) = buildBanks r ∧
          (∀ b ∈ t.banks, b.state = .verify ∧ b.forcing = .auto ∧ b.failures = 0 ∧ b.lockoutPending = false ∧ b.latest = none) ∧
          (s.eng.state = .quiet → t.banks = buildBanks r) ∧ t.plans = { active := default r, stack := [] } ∧ ended t .done) ∧
      ∃ t, exec (.closeEditWriteDone false) s = .next t ∧ t.lib.nv.site = .unusable ∧ t.lib.inUse = s.lib.inUse ∧
        t.fl.units = s.fl.units ∧ t.fl.rota = s.fl.rota ∧ t.vel.stations = s.vel.stations ∧
        (s.BanksDistinct → t.banks.map Bank.fixed = s.banks.map Bank.fixed) ∧
        t.plans = { active := s.lib.inUse.bind (fun u => default u.parts), stack := [] } ∧ ended t .nvFault

/-! ### Frames -/

/-- What the requests that set the response going leave alone, whatever their operands: only the response differs (`State.ResponseOnly`), with the
incident table, the plan references, the occupancy list or the token and key levels for the requests that own them. -/
def Obligations.RequestFrames : Prop :=
  ∀ (s : State) (i : PortId) (tag : Byte) (ops : List Byte) (key : Bool), s.Ready i →
    (∀ c ∈ [Instr.confirm i tag ops, .setEvacuation i tag ops, .linkTrain i tag ops, .clear i tag ops],
      ∃ u a, exec c s = .next (u.respond i tag a) ∧ State.ResponseOnly { s.taking i with inc := u.inc } u) ∧
      (s.lib.mode ≠ .edit →
        ∃ u a, exec (.lodge i tag ops) s = .next (u.respond i tag a) ∧ State.ResponseOnly { s.taking i with inc := u.inc } u) ∧
      (∀ c ∈ [Instr.selectPlan i tag ops, .revertPlan i tag ops, .swapPlan i tag ops],
        ∃ u a, exec c s = .next (u.respond i tag a) ∧ State.ResponseOnly { s.taking i with plans := u.plans } u) ∧
      (∀ c ∈ [Instr.setTrain i tag ops, .removeTrain i tag ops],
        ∃ u a, exec c s = .next (u.respond i tag a) ∧
          State.ResponseOnly { s.taking i with eng := { s.eng with trains := u.eng.trains } } u) ∧
      (∀ c ∈ [Instr.setDirection i tag ops, .resume i tag ops, .releaseBank i tag ops, .setTarget i tag ops],
        ∃ u a, exec c s = .next (u.respond i tag a) ∧ (s.taking i).ResponseOnly u) ∧
      (s.lib.mode ≠ .edit →
        ∀ c ∈ [Instr.claim i tag ops key, .yield i tag ops],
          ∃ u a, exec c s = .next (u.respond i tag a) ∧
            State.ResponseOnly { s.taking i with token := u.token, keys := u.keys } u) ∧
      (∃ u a, exec (.openEdit i tag ops) s = .next (u.respond i tag a) ∧
        State.ResponseOnly { s.taking i with plans := u.plans, lib := u.lib } u)

/-- What the events leave alone: the detection line's events change its registers and the matcher; a hot spot adds the incident table; the bank
timers and the grant change the response alone; a line decision and the end of a request change the field line alone; an exchange with a position
changes that position, the phase and the response. -/
def Obligations.EventFrames : Prop :=
  ∀ (s : State) (n : Nat) (w x : Word16) (a hi lo : Byte),
    (∀ c ∈ [Instr.status, .lineFault w, .lineOk, .detectionSilenceExpiry],
      ∃ t, exec c s = .next t ∧ State.ResponseOnly { s with det := t.det } t ∧ t.eng = s.eng ∧ t.banks = s.banks) ∧
      (s.lib.mode ≠ .edit →
        ∃ t, exec (.hotspot w x a) s = .next t ∧ State.ResponseOnly { s with det := t.det, inc := t.inc } t) ∧
      (∀ c ∈ [Instr.coastTimerExpiry n, .startTimerExpiry n, .startGrant], ∃ t, exec c s = .next t ∧ s.ResponseOnly t) ∧
      (∀ c ∈ [Instr.lineDecision, .fieldRequestSent],
        ∃ f : FieldLine, exec c s = .next { s with fl := f } ∧ f.units = s.fl.units ∧ f.enumeration = s.fl.enumeration ∧
          f.daisyOut = s.fl.daisyOut) ∧
      (∀ y, s.fl.enumeration = .idle → (s.fl.phase = .window (.poll y) ∨ ∃ d, s.fl.phase = .window (.command y d)) →
        ∀ c ∈ [Instr.driveReport a hi lo, .stationReading a hi lo, .replyWindowExpiry],
          ∃ t, exec c s = .next t ∧ State.ResponseOnly { s with fl := { s.fl with phase := t.fl.phase, units := t.fl.units } } t ∧
            t.fl.units.length = s.fl.units.length ∧ ∀ z, z ≠ y → t.fl.unit z = s.fl.unit z)

/-! ### Invariants -/

/-- Every step keeps the token holder present. -/
def Obligations.TokenHolderPresentKept : Prop :=
  ∀ s t : State, s.TokenHolderPresent → step s = .next t → t.TokenHolderPresent

/-- Every step keeps the ports' invariant: notice sets with one entry a kind and none masked, at most four refusals waiting, nothing in hand at an
IDLE port. -/
def Obligations.PortsOkKept : Prop := ∀ s t : State, s.PortsOk → step s = .next t → t.PortsOk

/-- Every step keeps one command queue entry for each unit address, one start queue entry for each bank, and one record for each bank number. -/
def Obligations.QueuesDistinctKept : Prop :=
  ∀ s t : State, s.CommandQueueOk → s.StartQueueOk → s.BanksDistinct → step s = .next t →
    t.CommandQueueOk ∧ t.StartQueueOk ∧ t.BanksDistinct

/-- Every step keeps the bounds of the stack, the commands-in-a-row count and the uptime, and the sizes of the incident table and the occupancy
list. -/
def Obligations.BoundsKept : Prop :=
  ∀ s t : State, s.StackOk → s.InRowOk → s.UptimeOk → s.TablesSized → step s = .next t →
    t.StackOk ∧ t.InRowOk ∧ t.UptimeOk ∧ t.TablesSized

/-- Every step keeps the governing index the one that R14 gives for the incident table. -/
def Obligations.GoverningKept : Prop := ∀ s t : State, s.GoverningOk → step s = .next t → t.GoverningOk

/-- Every step keeps the start slots and the start queue fitted to the banks' states: a bank holds a slot, and one alone, exactly while it is STARTING;
a queued bank is QUEUED, or STOPPING with a known direction; a QUEUED bank is queued. -/
def Obligations.StartSlotsKept : Prop :=
  ∀ s t : State, s.BanksDistinct → s.SlotsOk → step s = .next t → t.SlotsOk

/-- The invariants hold right after reset. -/
def Obligations.InvariantsAtReset : Prop :=
  State.reset.TokenHolderPresent ∧ State.reset.PortsOk ∧ State.reset.CommandQueueOk ∧ State.reset.StartQueueOk ∧ State.reset.BanksDistinct ∧
    State.reset.StackOk ∧ State.reset.InRowOk ∧ State.reset.UptimeOk ∧ State.reset.TablesSized ∧ State.reset.GoverningOk ∧ State.reset.SlotsOk
end

