-- ==== Sys2Proof/Laws/State.lean ====
section
/-! SUPPORT. What each named update of the state leaves alone, field by field: true by rfl, so that no later proof unfolds a record update. -/

namespace Sys2Proof.Machine

open Sys2Proof

/-! ### State.setPort -/

@[simp] theorem State.setPort_uptime (s : State) (i : PortId) (q : Port) : (s.setPort i q).uptime = s.uptime := rfl
@[simp] theorem State.setPort_strap (s : State) (i : PortId) (q : Port) : (s.setPort i q).strap = s.strap := rfl
@[simp] theorem State.setPort_keys (s : State) (i : PortId) (q : Port) : (s.setPort i q).keys = s.keys := rfl
@[simp] theorem State.setPort_token (s : State) (i : PortId) (q : Port) : (s.setPort i q).token = s.token := rfl
@[simp] theorem State.setPort_det (s : State) (i : PortId) (q : Port) : (s.setPort i q).det = s.det := rfl
@[simp] theorem State.setPort_inc (s : State) (i : PortId) (q : Port) : (s.setPort i q).inc = s.inc := rfl
@[simp] theorem State.setPort_plans (s : State) (i : PortId) (q : Port) : (s.setPort i q).plans = s.plans := rfl
@[simp] theorem State.setPort_mat (s : State) (i : PortId) (q : Port) : (s.setPort i q).mat = s.mat := rfl
@[simp] theorem State.setPort_lib (s : State) (i : PortId) (q : Port) : (s.setPort i q).lib = s.lib := rfl
@[simp] theorem State.setPort_eng (s : State) (i : PortId) (q : Port) : (s.setPort i q).eng = s.eng := rfl
@[simp] theorem State.setPort_banks (s : State) (i : PortId) (q : Port) : (s.setPort i q).banks = s.banks := rfl
@[simp] theorem State.setPort_arb (s : State) (i : PortId) (q : Port) : (s.setPort i q).arb = s.arb := rfl
@[simp] theorem State.setPort_vel (s : State) (i : PortId) (q : Port) : (s.setPort i q).vel = s.vel := rfl
@[simp] theorem State.setPort_fl (s : State) (i : PortId) (q : Port) : (s.setPort i q).fl = s.fl := rfl
@[simp] theorem State.setPort_freeIx (s : State) (i : PortId) (q : Port) : (s.setPort i q).freeIx = s.freeIx := rfl
@[simp] theorem State.setPort_pending (s : State) (i : PortId) (q : Port) : (s.setPort i q).pending = s.pending := rfl

/-! ### State.raise -/

@[simp] theorem State.raise_uptime (s : State) (n : Notice) : (s.raise n).uptime = s.uptime := rfl
@[simp] theorem State.raise_strap (s : State) (n : Notice) : (s.raise n).strap = s.strap := rfl
@[simp] theorem State.raise_keys (s : State) (n : Notice) : (s.raise n).keys = s.keys := rfl
@[simp] theorem State.raise_token (s : State) (n : Notice) : (s.raise n).token = s.token := rfl
@[simp] theorem State.raise_det (s : State) (n : Notice) : (s.raise n).det = s.det := rfl
@[simp] theorem State.raise_inc (s : State) (n : Notice) : (s.raise n).inc = s.inc := rfl
@[simp] theorem State.raise_plans (s : State) (n : Notice) : (s.raise n).plans = s.plans := rfl
@[simp] theorem State.raise_mat (s : State) (n : Notice) : (s.raise n).mat = s.mat := rfl
@[simp] theorem State.raise_lib (s : State) (n : Notice) : (s.raise n).lib = s.lib := rfl
@[simp] theorem State.raise_eng (s : State) (n : Notice) : (s.raise n).eng = s.eng := rfl
@[simp] theorem State.raise_banks (s : State) (n : Notice) : (s.raise n).banks = s.banks := rfl
@[simp] theorem State.raise_arb (s : State) (n : Notice) : (s.raise n).arb = s.arb := rfl
@[simp] theorem State.raise_vel (s : State) (n : Notice) : (s.raise n).vel = s.vel := rfl
@[simp] theorem State.raise_fl (s : State) (n : Notice) : (s.raise n).fl = s.fl := rfl
@[simp] theorem State.raise_freeIx (s : State) (n : Notice) : (s.raise n).freeIx = s.freeIx := rfl
@[simp] theorem State.raise_pending (s : State) (n : Notice) : (s.raise n).pending = s.pending := rfl

/-! ### State.raiseTo -/

@[simp] theorem State.raiseTo_uptime (s : State) (i : PortId) (n : Notice) : (s.raiseTo i n).uptime = s.uptime := rfl
@[simp] theorem State.raiseTo_strap (s : State) (i : PortId) (n : Notice) : (s.raiseTo i n).strap = s.strap := rfl
@[simp] theorem State.raiseTo_keys (s : State) (i : PortId) (n : Notice) : (s.raiseTo i n).keys = s.keys := rfl
@[simp] theorem State.raiseTo_token (s : State) (i : PortId) (n : Notice) : (s.raiseTo i n).token = s.token := rfl
@[simp] theorem State.raiseTo_det (s : State) (i : PortId) (n : Notice) : (s.raiseTo i n).det = s.det := rfl
@[simp] theorem State.raiseTo_inc (s : State) (i : PortId) (n : Notice) : (s.raiseTo i n).inc = s.inc := rfl
@[simp] theorem State.raiseTo_plans (s : State) (i : PortId) (n : Notice) : (s.raiseTo i n).plans = s.plans := rfl
@[simp] theorem State.raiseTo_mat (s : State) (i : PortId) (n : Notice) : (s.raiseTo i n).mat = s.mat := rfl
@[simp] theorem State.raiseTo_lib (s : State) (i : PortId) (n : Notice) : (s.raiseTo i n).lib = s.lib := rfl
@[simp] theorem State.raiseTo_eng (s : State) (i : PortId) (n : Notice) : (s.raiseTo i n).eng = s.eng := rfl
@[simp] theorem State.raiseTo_banks (s : State) (i : PortId) (n : Notice) : (s.raiseTo i n).banks = s.banks := rfl
@[simp] theorem State.raiseTo_arb (s : State) (i : PortId) (n : Notice) : (s.raiseTo i n).arb = s.arb := rfl
@[simp] theorem State.raiseTo_vel (s : State) (i : PortId) (n : Notice) : (s.raiseTo i n).vel = s.vel := rfl
@[simp] theorem State.raiseTo_fl (s : State) (i : PortId) (n : Notice) : (s.raiseTo i n).fl = s.fl := rfl
@[simp] theorem State.raiseTo_freeIx (s : State) (i : PortId) (n : Notice) : (s.raiseTo i n).freeIx = s.freeIx := rfl
@[simp] theorem State.raiseTo_pending (s : State) (i : PortId) (n : Notice) : (s.raiseTo i n).pending = s.pending := rfl

/-! ### State.heard -/

@[simp] theorem State.heard_uptime (s : State) (i : PortId) : (s.heard i).uptime = s.uptime := rfl
@[simp] theorem State.heard_strap (s : State) (i : PortId) : (s.heard i).strap = s.strap := rfl
@[simp] theorem State.heard_keys (s : State) (i : PortId) : (s.heard i).keys = s.keys := rfl
@[simp] theorem State.heard_token (s : State) (i : PortId) : (s.heard i).token = s.token := rfl
@[simp] theorem State.heard_det (s : State) (i : PortId) : (s.heard i).det = s.det := rfl
@[simp] theorem State.heard_inc (s : State) (i : PortId) : (s.heard i).inc = s.inc := rfl
@[simp] theorem State.heard_plans (s : State) (i : PortId) : (s.heard i).plans = s.plans := rfl
@[simp] theorem State.heard_mat (s : State) (i : PortId) : (s.heard i).mat = s.mat := rfl
@[simp] theorem State.heard_lib (s : State) (i : PortId) : (s.heard i).lib = s.lib := rfl
@[simp] theorem State.heard_eng (s : State) (i : PortId) : (s.heard i).eng = s.eng := rfl
@[simp] theorem State.heard_banks (s : State) (i : PortId) : (s.heard i).banks = s.banks := rfl
@[simp] theorem State.heard_arb (s : State) (i : PortId) : (s.heard i).arb = s.arb := rfl
@[simp] theorem State.heard_vel (s : State) (i : PortId) : (s.heard i).vel = s.vel := rfl
@[simp] theorem State.heard_fl (s : State) (i : PortId) : (s.heard i).fl = s.fl := rfl
@[simp] theorem State.heard_freeIx (s : State) (i : PortId) : (s.heard i).freeIx = s.freeIx := rfl
@[simp] theorem State.heard_pending (s : State) (i : PortId) : (s.heard i).pending = s.pending := rfl

/-! ### State.respond -/

@[simp] theorem State.respond_uptime (s : State) (i : PortId) (tag : Byte) (a : Answer) : (s.respond i tag a).uptime = s.uptime := rfl
@[simp] theorem State.respond_strap (s : State) (i : PortId) (tag : Byte) (a : Answer) : (s.respond i tag a).strap = s.strap := rfl
@[simp] theorem State.respond_keys (s : State) (i : PortId) (tag : Byte) (a : Answer) : (s.respond i tag a).keys = s.keys := rfl
@[simp] theorem State.respond_token (s : State) (i : PortId) (tag : Byte) (a : Answer) : (s.respond i tag a).token = s.token := rfl
@[simp] theorem State.respond_det (s : State) (i : PortId) (tag : Byte) (a : Answer) : (s.respond i tag a).det = s.det := rfl
@[simp] theorem State.respond_inc (s : State) (i : PortId) (tag : Byte) (a : Answer) : (s.respond i tag a).inc = s.inc := rfl
@[simp] theorem State.respond_plans (s : State) (i : PortId) (tag : Byte) (a : Answer) : (s.respond i tag a).plans = s.plans := rfl
@[simp] theorem State.respond_mat (s : State) (i : PortId) (tag : Byte) (a : Answer) : (s.respond i tag a).mat = s.mat := rfl
@[simp] theorem State.respond_lib (s : State) (i : PortId) (tag : Byte) (a : Answer) : (s.respond i tag a).lib = s.lib := rfl
@[simp] theorem State.respond_eng (s : State) (i : PortId) (tag : Byte) (a : Answer) : (s.respond i tag a).eng = s.eng := rfl
@[simp] theorem State.respond_banks (s : State) (i : PortId) (tag : Byte) (a : Answer) : (s.respond i tag a).banks = s.banks := rfl
@[simp] theorem State.respond_arb (s : State) (i : PortId) (tag : Byte) (a : Answer) : (s.respond i tag a).arb = s.arb := rfl
@[simp] theorem State.respond_vel (s : State) (i : PortId) (tag : Byte) (a : Answer) : (s.respond i tag a).vel = s.vel := rfl
@[simp] theorem State.respond_fl (s : State) (i : PortId) (tag : Byte) (a : Answer) : (s.respond i tag a).fl = s.fl := rfl
@[simp] theorem State.respond_freeIx (s : State) (i : PortId) (tag : Byte) (a : Answer) : (s.respond i tag a).freeIx = s.freeIx := rfl
@[simp] theorem State.respond_pending (s : State) (i : PortId) (tag : Byte) (a : Answer) : (s.respond i tag a).pending = s.pending := rfl

/-! ### State.setTable -/

@[simp] theorem State.setTable_uptime (s : State) (l : List (Option Incident)) : (s.setTable l).uptime = s.uptime := rfl
@[simp] theorem State.setTable_strap (s : State) (l : List (Option Incident)) : (s.setTable l).strap = s.strap := rfl
@[simp] theorem State.setTable_keys (s : State) (l : List (Option Incident)) : (s.setTable l).keys = s.keys := rfl
@[simp] theorem State.setTable_ports (s : State) (l : List (Option Incident)) : (s.setTable l).ports = s.ports := rfl
@[simp] theorem State.setTable_token (s : State) (l : List (Option Incident)) : (s.setTable l).token = s.token := rfl
@[simp] theorem State.setTable_det (s : State) (l : List (Option Incident)) : (s.setTable l).det = s.det := rfl
@[simp] theorem State.setTable_plans (s : State) (l : List (Option Incident)) : (s.setTable l).plans = s.plans := rfl
@[simp] theorem State.setTable_mat (s : State) (l : List (Option Incident)) : (s.setTable l).mat = s.mat := rfl
@[simp] theorem State.setTable_lib (s : State) (l : List (Option Incident)) : (s.setTable l).lib = s.lib := rfl
@[simp] theorem State.setTable_eng (s : State) (l : List (Option Incident)) : (s.setTable l).eng = s.eng := rfl
@[simp] theorem State.setTable_banks (s : State) (l : List (Option Incident)) : (s.setTable l).banks = s.banks := rfl
@[simp] theorem State.setTable_arb (s : State) (l : List (Option Incident)) : (s.setTable l).arb = s.arb := rfl
@[simp] theorem State.setTable_vel (s : State) (l : List (Option Incident)) : (s.setTable l).vel = s.vel := rfl
@[simp] theorem State.setTable_fl (s : State) (l : List (Option Incident)) : (s.setTable l).fl = s.fl := rfl
@[simp] theorem State.setTable_freeIx (s : State) (l : List (Option Incident)) : (s.setTable l).freeIx = s.freeIx := rfl
@[simp] theorem State.setTable_pending (s : State) (l : List (Option Incident)) : (s.setTable l).pending = s.pending := rfl

/-! ### State.setTrains -/

@[simp] theorem State.setTrains_uptime (s : State) (l : List (Option Train)) : (s.setTrains l).uptime = s.uptime := rfl
@[simp] theorem State.setTrains_strap (s : State) (l : List (Option Train)) : (s.setTrains l).strap = s.strap := rfl
@[simp] theorem State.setTrains_keys (s : State) (l : List (Option Train)) : (s.setTrains l).keys = s.keys := rfl
@[simp] theorem State.setTrains_ports (s : State) (l : List (Option Train)) : (s.setTrains l).ports = s.ports := rfl
@[simp] theorem State.setTrains_token (s : State) (l : List (Option Train)) : (s.setTrains l).token = s.token := rfl
@[simp] theorem State.setTrains_det (s : State) (l : List (Option Train)) : (s.setTrains l).det = s.det := rfl
@[simp] theorem State.setTrains_inc (s : State) (l : List (Option Train)) : (s.setTrains l).inc = s.inc := rfl
@[simp] theorem State.setTrains_plans (s : State) (l : List (Option Train)) : (s.setTrains l).plans = s.plans := rfl
@[simp] theorem State.setTrains_mat (s : State) (l : List (Option Train)) : (s.setTrains l).mat = s.mat := rfl
@[simp] theorem State.setTrains_lib (s : State) (l : List (Option Train)) : (s.setTrains l).lib = s.lib := rfl
@[simp] theorem State.setTrains_banks (s : State) (l : List (Option Train)) : (s.setTrains l).banks = s.banks := rfl
@[simp] theorem State.setTrains_arb (s : State) (l : List (Option Train)) : (s.setTrains l).arb = s.arb := rfl
@[simp] theorem State.setTrains_vel (s : State) (l : List (Option Train)) : (s.setTrains l).vel = s.vel := rfl
@[simp] theorem State.setTrains_fl (s : State) (l : List (Option Train)) : (s.setTrains l).fl = s.fl := rfl
@[simp] theorem State.setTrains_freeIx (s : State) (l : List (Option Train)) : (s.setTrains l).freeIx = s.freeIx := rfl
@[simp] theorem State.setTrains_pending (s : State) (l : List (Option Train)) : (s.setTrains l).pending = s.pending := rfl

/-! ### State.setPhase -/

@[simp] theorem State.setPhase_uptime (s : State) (p : LinePhase) : (s.setPhase p).uptime = s.uptime := rfl
@[simp] theorem State.setPhase_strap (s : State) (p : LinePhase) : (s.setPhase p).strap = s.strap := rfl
@[simp] theorem State.setPhase_keys (s : State) (p : LinePhase) : (s.setPhase p).keys = s.keys := rfl
@[simp] theorem State.setPhase_ports (s : State) (p : LinePhase) : (s.setPhase p).ports = s.ports := rfl
@[simp] theorem State.setPhase_token (s : State) (p : LinePhase) : (s.setPhase p).token = s.token := rfl
@[simp] theorem State.setPhase_det (s : State) (p : LinePhase) : (s.setPhase p).det = s.det := rfl
@[simp] theorem State.setPhase_inc (s : State) (p : LinePhase) : (s.setPhase p).inc = s.inc := rfl
@[simp] theorem State.setPhase_plans (s : State) (p : LinePhase) : (s.setPhase p).plans = s.plans := rfl
@[simp] theorem State.setPhase_mat (s : State) (p : LinePhase) : (s.setPhase p).mat = s.mat := rfl
@[simp] theorem State.setPhase_lib (s : State) (p : LinePhase) : (s.setPhase p).lib = s.lib := rfl
@[simp] theorem State.setPhase_eng (s : State) (p : LinePhase) : (s.setPhase p).eng = s.eng := rfl
@[simp] theorem State.setPhase_banks (s : State) (p : LinePhase) : (s.setPhase p).banks = s.banks := rfl
@[simp] theorem State.setPhase_arb (s : State) (p : LinePhase) : (s.setPhase p).arb = s.arb := rfl
@[simp] theorem State.setPhase_vel (s : State) (p : LinePhase) : (s.setPhase p).vel = s.vel := rfl
@[simp] theorem State.setPhase_freeIx (s : State) (p : LinePhase) : (s.setPhase p).freeIx = s.freeIx := rfl
@[simp] theorem State.setPhase_pending (s : State) (p : LinePhase) : (s.setPhase p).pending = s.pending := rfl

/-! ### State.setSlot -/

@[simp] theorem State.setSlot_uptime (s : State) (n : Nat) (p : PlanSlot) : (s.setSlot n p).uptime = s.uptime := rfl
@[simp] theorem State.setSlot_strap (s : State) (n : Nat) (p : PlanSlot) : (s.setSlot n p).strap = s.strap := rfl
@[simp] theorem State.setSlot_keys (s : State) (n : Nat) (p : PlanSlot) : (s.setSlot n p).keys = s.keys := rfl
@[simp] theorem State.setSlot_ports (s : State) (n : Nat) (p : PlanSlot) : (s.setSlot n p).ports = s.ports := rfl
@[simp] theorem State.setSlot_token (s : State) (n : Nat) (p : PlanSlot) : (s.setSlot n p).token = s.token := rfl
@[simp] theorem State.setSlot_det (s : State) (n : Nat) (p : PlanSlot) : (s.setSlot n p).det = s.det := rfl
@[simp] theorem State.setSlot_inc (s : State) (n : Nat) (p : PlanSlot) : (s.setSlot n p).inc = s.inc := rfl
@[simp] theorem State.setSlot_plans (s : State) (n : Nat) (p : PlanSlot) : (s.setSlot n p).plans = s.plans := rfl
@[simp] theorem State.setSlot_mat (s : State) (n : Nat) (p : PlanSlot) : (s.setSlot n p).mat = s.mat := rfl
@[simp] theorem State.setSlot_eng (s : State) (n : Nat) (p : PlanSlot) : (s.setSlot n p).eng = s.eng := rfl
@[simp] theorem State.setSlot_banks (s : State) (n : Nat) (p : PlanSlot) : (s.setSlot n p).banks = s.banks := rfl
@[simp] theorem State.setSlot_arb (s : State) (n : Nat) (p : PlanSlot) : (s.setSlot n p).arb = s.arb := rfl
@[simp] theorem State.setSlot_vel (s : State) (n : Nat) (p : PlanSlot) : (s.setSlot n p).vel = s.vel := rfl
@[simp] theorem State.setSlot_fl (s : State) (n : Nat) (p : PlanSlot) : (s.setSlot n p).fl = s.fl := rfl
@[simp] theorem State.setSlot_freeIx (s : State) (n : Nat) (p : PlanSlot) : (s.setSlot n p).freeIx = s.freeIx := rfl
@[simp] theorem State.setSlot_pending (s : State) (n : Nat) (p : PlanSlot) : (s.setSlot n p).pending = s.pending := rfl

/-! ### State.clearMarker -/

@[simp] theorem State.clearMarker_uptime (s : State) : (s.clearMarker).uptime = s.uptime := rfl
@[simp] theorem State.clearMarker_strap (s : State) : (s.clearMarker).strap = s.strap := rfl
@[simp] theorem State.clearMarker_keys (s : State) : (s.clearMarker).keys = s.keys := rfl
@[simp] theorem State.clearMarker_ports (s : State) : (s.clearMarker).ports = s.ports := rfl
@[simp] theorem State.clearMarker_token (s : State) : (s.clearMarker).token = s.token := rfl
@[simp] theorem State.clearMarker_det (s : State) : (s.clearMarker).det = s.det := rfl
@[simp] theorem State.clearMarker_inc (s : State) : (s.clearMarker).inc = s.inc := rfl
@[simp] theorem State.clearMarker_plans (s : State) : (s.clearMarker).plans = s.plans := rfl
@[simp] theorem State.clearMarker_mat (s : State) : (s.clearMarker).mat = s.mat := rfl
@[simp] theorem State.clearMarker_eng (s : State) : (s.clearMarker).eng = s.eng := rfl
@[simp] theorem State.clearMarker_banks (s : State) : (s.clearMarker).banks = s.banks := rfl
@[simp] theorem State.clearMarker_arb (s : State) : (s.clearMarker).arb = s.arb := rfl
@[simp] theorem State.clearMarker_vel (s : State) : (s.clearMarker).vel = s.vel := rfl
@[simp] theorem State.clearMarker_fl (s : State) : (s.clearMarker).fl = s.fl := rfl
@[simp] theorem State.clearMarker_freeIx (s : State) : (s.clearMarker).freeIx = s.freeIx := rfl
@[simp] theorem State.clearMarker_pending (s : State) : (s.clearMarker).pending = s.pending := rfl

/-! ### State.clearMarks -/

@[simp] theorem State.clearMarks_uptime (s : State) : (s.clearMarks).uptime = s.uptime := rfl
@[simp] theorem State.clearMarks_strap (s : State) : (s.clearMarks).strap = s.strap := rfl
@[simp] theorem State.clearMarks_keys (s : State) : (s.clearMarks).keys = s.keys := rfl
@[simp] theorem State.clearMarks_ports (s : State) : (s.clearMarks).ports = s.ports := rfl
@[simp] theorem State.clearMarks_token (s : State) : (s.clearMarks).token = s.token := rfl
@[simp] theorem State.clearMarks_det (s : State) : (s.clearMarks).det = s.det := rfl
@[simp] theorem State.clearMarks_inc (s : State) : (s.clearMarks).inc = s.inc := rfl
@[simp] theorem State.clearMarks_plans (s : State) : (s.clearMarks).plans = s.plans := rfl
@[simp] theorem State.clearMarks_mat (s : State) : (s.clearMarks).mat = s.mat := rfl
@[simp] theorem State.clearMarks_lib (s : State) : (s.clearMarks).lib = s.lib := rfl
@[simp] theorem State.clearMarks_eng (s : State) : (s.clearMarks).eng = s.eng := rfl
@[simp] theorem State.clearMarks_banks (s : State) : (s.clearMarks).banks = s.banks := rfl
@[simp] theorem State.clearMarks_arb (s : State) : (s.clearMarks).arb = s.arb := rfl
@[simp] theorem State.clearMarks_fl (s : State) : (s.clearMarks).fl = s.fl := rfl
@[simp] theorem State.clearMarks_freeIx (s : State) : (s.clearMarks).freeIx = s.freeIx := rfl
@[simp] theorem State.clearMarks_pending (s : State) : (s.clearMarks).pending = s.pending := rfl

/-! ### State.startDwell -/

@[simp] theorem State.startDwell_uptime (s : State) : (s.startDwell).uptime = s.uptime := rfl
@[simp] theorem State.startDwell_strap (s : State) : (s.startDwell).strap = s.strap := rfl
@[simp] theorem State.startDwell_keys (s : State) : (s.startDwell).keys = s.keys := rfl
@[simp] theorem State.startDwell_ports (s : State) : (s.startDwell).ports = s.ports := rfl
@[simp] theorem State.startDwell_token (s : State) : (s.startDwell).token = s.token := rfl
@[simp] theorem State.startDwell_det (s : State) : (s.startDwell).det = s.det := rfl
@[simp] theorem State.startDwell_inc (s : State) : (s.startDwell).inc = s.inc := rfl
@[simp] theorem State.startDwell_plans (s : State) : (s.startDwell).plans = s.plans := rfl
@[simp] theorem State.startDwell_mat (s : State) : (s.startDwell).mat = s.mat := rfl
@[simp] theorem State.startDwell_lib (s : State) : (s.startDwell).lib = s.lib := rfl
@[simp] theorem State.startDwell_eng (s : State) : (s.startDwell).eng = s.eng := rfl
@[simp] theorem State.startDwell_banks (s : State) : (s.startDwell).banks = s.banks := rfl
@[simp] theorem State.startDwell_arb (s : State) : (s.startDwell).arb = s.arb := rfl
@[simp] theorem State.startDwell_fl (s : State) : (s.startDwell).fl = s.fl := rfl
@[simp] theorem State.startDwell_freeIx (s : State) : (s.startDwell).freeIx = s.freeIx := rfl
@[simp] theorem State.startDwell_pending (s : State) : (s.startDwell).pending = s.pending := rfl

/-! ### State.handRow -/

@[simp] theorem State.handRow_uptime (s : State) : (s.handRow).uptime = s.uptime := rfl
@[simp] theorem State.handRow_strap (s : State) : (s.handRow).strap = s.strap := rfl
@[simp] theorem State.handRow_keys (s : State) : (s.handRow).keys = s.keys := rfl
@[simp] theorem State.handRow_ports (s : State) : (s.handRow).ports = s.ports := rfl
@[simp] theorem State.handRow_token (s : State) : (s.handRow).token = s.token := rfl
@[simp] theorem State.handRow_det (s : State) : (s.handRow).det = s.det := rfl
@[simp] theorem State.handRow_inc (s : State) : (s.handRow).inc = s.inc := rfl
@[simp] theorem State.handRow_plans (s : State) : (s.handRow).plans = s.plans := rfl
@[simp] theorem State.handRow_lib (s : State) : (s.handRow).lib = s.lib := rfl
@[simp] theorem State.handRow_eng (s : State) : (s.handRow).eng = s.eng := rfl
@[simp] theorem State.handRow_banks (s : State) : (s.handRow).banks = s.banks := rfl
@[simp] theorem State.handRow_arb (s : State) : (s.handRow).arb = s.arb := rfl
@[simp] theorem State.handRow_vel (s : State) : (s.handRow).vel = s.vel := rfl
@[simp] theorem State.handRow_fl (s : State) : (s.handRow).fl = s.fl := rfl
@[simp] theorem State.handRow_freeIx (s : State) : (s.handRow).freeIx = s.freeIx := rfl
@[simp] theorem State.handRow_pending (s : State) : (s.handRow).pending = s.pending := rfl

/-! ### State.detectionHeard -/

@[simp] theorem State.detectionHeard_uptime (s : State) : (s.detectionHeard).uptime = s.uptime := rfl
@[simp] theorem State.detectionHeard_strap (s : State) : (s.detectionHeard).strap = s.strap := rfl
@[simp] theorem State.detectionHeard_keys (s : State) : (s.detectionHeard).keys = s.keys := rfl
@[simp] theorem State.detectionHeard_ports (s : State) : (s.detectionHeard).ports = s.ports := rfl
@[simp] theorem State.detectionHeard_token (s : State) : (s.detectionHeard).token = s.token := rfl
@[simp] theorem State.detectionHeard_inc (s : State) : (s.detectionHeard).inc = s.inc := rfl
@[simp] theorem State.detectionHeard_plans (s : State) : (s.detectionHeard).plans = s.plans := rfl
@[simp] theorem State.detectionHeard_mat (s : State) : (s.detectionHeard).mat = s.mat := rfl
@[simp] theorem State.detectionHeard_lib (s : State) : (s.detectionHeard).lib = s.lib := rfl
@[simp] theorem State.detectionHeard_eng (s : State) : (s.detectionHeard).eng = s.eng := rfl
@[simp] theorem State.detectionHeard_banks (s : State) : (s.detectionHeard).banks = s.banks := rfl
@[simp] theorem State.detectionHeard_arb (s : State) : (s.detectionHeard).arb = s.arb := rfl
@[simp] theorem State.detectionHeard_vel (s : State) : (s.detectionHeard).vel = s.vel := rfl
@[simp] theorem State.detectionHeard_fl (s : State) : (s.detectionHeard).fl = s.fl := rfl
@[simp] theorem State.detectionHeard_freeIx (s : State) : (s.detectionHeard).freeIx = s.freeIx := rfl
@[simp] theorem State.detectionHeard_pending (s : State) : (s.detectionHeard).pending = s.pending := rfl

/-! ### State.endActive -/

@[simp] theorem State.endActive_uptime (s : State) : (s.endActive).uptime = s.uptime := rfl
@[simp] theorem State.endActive_strap (s : State) : (s.endActive).strap = s.strap := rfl
@[simp] theorem State.endActive_keys (s : State) : (s.endActive).keys = s.keys := rfl
@[simp] theorem State.endActive_ports (s : State) : (s.endActive).ports = s.ports := rfl
@[simp] theorem State.endActive_token (s : State) : (s.endActive).token = s.token := rfl
@[simp] theorem State.endActive_det (s : State) : (s.endActive).det = s.det := rfl
@[simp] theorem State.endActive_inc (s : State) : (s.endActive).inc = s.inc := rfl
@[simp] theorem State.endActive_plans (s : State) : (s.endActive).plans = s.plans := rfl
@[simp] theorem State.endActive_mat (s : State) : (s.endActive).mat = s.mat := rfl
@[simp] theorem State.endActive_lib (s : State) : (s.endActive).lib = s.lib := rfl
@[simp] theorem State.endActive_banks (s : State) : (s.endActive).banks = s.banks := rfl
@[simp] theorem State.endActive_arb (s : State) : (s.endActive).arb = s.arb := rfl
@[simp] theorem State.endActive_fl (s : State) : (s.endActive).fl = s.fl := rfl
@[simp] theorem State.endActive_freeIx (s : State) : (s.endActive).freeIx = s.freeIx := rfl
@[simp] theorem State.endActive_pending (s : State) : (s.endActive).pending = s.pending := rfl

/-! ### State.dropLatch -/

@[simp] theorem State.dropLatch_uptime (s : State) : (s.dropLatch).uptime = s.uptime := rfl
@[simp] theorem State.dropLatch_strap (s : State) : (s.dropLatch).strap = s.strap := rfl
@[simp] theorem State.dropLatch_keys (s : State) : (s.dropLatch).keys = s.keys := rfl
@[simp] theorem State.dropLatch_ports (s : State) : (s.dropLatch).ports = s.ports := rfl
@[simp] theorem State.dropLatch_token (s : State) : (s.dropLatch).token = s.token := rfl
@[simp] theorem State.dropLatch_det (s : State) : (s.dropLatch).det = s.det := rfl
@[simp] theorem State.dropLatch_inc (s : State) : (s.dropLatch).inc = s.inc := rfl
@[simp] theorem State.dropLatch_plans (s : State) : (s.dropLatch).plans = s.plans := rfl
@[simp] theorem State.dropLatch_mat (s : State) : (s.dropLatch).mat = s.mat := rfl
@[simp] theorem State.dropLatch_lib (s : State) : (s.dropLatch).lib = s.lib := rfl
@[simp] theorem State.dropLatch_banks (s : State) : (s.dropLatch).banks = s.banks := rfl
@[simp] theorem State.dropLatch_arb (s : State) : (s.dropLatch).arb = s.arb := rfl
@[simp] theorem State.dropLatch_fl (s : State) : (s.dropLatch).fl = s.fl := rfl
@[simp] theorem State.dropLatch_freeIx (s : State) : (s.dropLatch).freeIx = s.freeIx := rfl
@[simp] theorem State.dropLatch_pending (s : State) : (s.dropLatch).pending = s.pending := rfl

/-! ### The changed field -/

@[simp] theorem State.setTable_table (s : State) (l : List (Option Incident)) : (s.setTable l).inc.table = l := rfl
@[simp] theorem State.setTable_governing (s : State) (l : List (Option Incident)) : (s.setTable l).inc.governing = s.inc.governing := rfl
@[simp] theorem State.setPhase_phase (s : State) (p : LinePhase) : (s.setPhase p).fl.phase = p := rfl
@[simp] theorem State.setPhase_units (s : State) (p : LinePhase) : (s.setPhase p).fl.units = s.fl.units := rfl
@[simp] theorem State.setPhase_queue (s : State) (p : LinePhase) : (s.setPhase p).fl.queue = s.fl.queue := rfl
@[simp] theorem State.setTrains_trains (s : State) (l : List (Option Train)) : (s.setTrains l).eng.trains = l := rfl
@[simp] theorem State.startDwell_dwell (s : State) : s.startDwell.vel.dwell = .running (siteDwell s.site) := rfl
@[simp] theorem State.dropLatch_latch (s : State) : s.dropLatch.eng.latch = none := rfl
@[simp] theorem State.endActive_stage (s : State) : s.endActive.eng.stage = none := rfl

/-! ### Ports -/

@[simp] theorem Ports.get_set_same (p : Ports) (i : PortId) (q : Port) : (p.set i q).get i = q := by cases i <;> rfl

theorem Ports.get_set_other (p : Ports) (i j : PortId) (q : Port) (h : j ≠ i) : (p.set i q).get j = p.get j := by
  cases i <;> cases j <;> first | rfl | exact absurd rfl h

@[simp] theorem Ports.get_map (p : Ports) (f : Port → Port) (i : PortId) : (p.map f).get i = f (p.get i) := by cases i <;> rfl

@[simp] theorem Ports.set_set (p : Ports) (i : PortId) (q r : Port) : (p.set i q).set i r = p.set i r := by cases i <;> rfl

@[simp] theorem State.port_setPort_same (s : State) (i : PortId) (q : Port) : (s.setPort i q).port i = q :=
  Ports.get_set_same s.ports i q

theorem State.port_setPort_other (s : State) (i j : PortId) (q : Port) (h : j ≠ i) : (s.setPort i q).port j = s.port j :=
  Ports.get_set_other s.ports i j q h

@[simp] theorem State.setPort_setPort (s : State) (i : PortId) (q r : Port) : (s.setPort i q).setPort i r = s.setPort i r := by
  simp [State.setPort]

@[simp] theorem State.port_raise (s : State) (n : Notice) (i : PortId) : (s.raise n).port i = (s.port i).offer n s.uptime :=
  Ports.get_map s.ports _ i

end Sys2Proof.Machine
end

