-- ==== Sys2Proof/Laws/Notices.lean ====
section
/-! SUPPORT. Notice sets: an offer keeps a port's invariant (R166, R167). The command queue and the start queue: enqueue, join and leave keep
their entries distinct (R133, R99). -/

namespace Sys2Proof.Machine

open Sys2Proof

/-- Every entry of a set that a notice has entered is one that was there, or the entry of the notice's kind, with a count of 1 to 255. -/
theorem mem_enterNotice {n : Notice} {now : Nat} {e : NoticeEntry} : ∀ {l : List NoticeEntry}, e ∈ enterNotice n now l →
    (∀ x ∈ l, 1 ≤ x.count) → e ∈ l ∨ (e.notice.kind = n.kind ∧ 1 ≤ e.count ∧ e.count ≤ 255)
  | [], h, _ => by
    simp [enterNotice] at h
    subst h
    exact Or.inr ⟨rfl, Nat.le_refl 1, by simp only; omega⟩
  | x :: xs, h, hc => by
    unfold enterNotice at h
    split at h
    · rcases List.mem_cons.1 h with h | h
      · subst h; exact Or.inr ⟨rfl, Nat.le_refl 1, by simp only; omega⟩
      · exact Or.inl h
    · split at h
      · rcases List.mem_cons.1 h with h | h
        · subst h
          refine Or.inr ⟨rfl, ?_, ?_⟩
          · have := hc x (List.mem_cons_self ..); simp only; omega
          · simp only; omega
        · exact Or.inl (List.mem_cons_of_mem _ h)
      · rcases List.mem_cons.1 h with h | h
        · exact Or.inl (h ▸ List.mem_cons_self ..)
        · rcases mem_enterNotice h (fun y hy => hc y (List.mem_cons_of_mem _ hy)) with h | h
          · exact Or.inl (List.mem_cons_of_mem _ h)
          · exact Or.inr h

/-- A kind below every entry's kind, and below the notice's, stays below after the notice has entered. -/
theorem kind_lt_enterNotice {n : Notice} {now k : Nat} : ∀ {l : List NoticeEntry}, k < n.kind → (∀ x ∈ l, k < x.notice.kind) →
    ∀ x ∈ enterNotice n now l, k < x.notice.kind
  | [], hn, _, x, hx => by simp [enterNotice] at hx; subst hx; exact hn
  | y :: ys, hn, hl, x, hx => by
    unfold enterNotice at hx
    split at hx
    · rcases List.mem_cons.1 hx with h | h
      · subst h; exact hn
      · exact hl x h
    · split at hx
      · rcases List.mem_cons.1 hx with h | h
        · subst h; exact hn
        · exact hl x (List.mem_cons_of_mem _ h)
      · rcases List.mem_cons.1 hx with h | h
        · subst h; exact hl _ (List.mem_cons_self ..)
        · exact kind_lt_enterNotice hn (fun z hz => hl z (List.mem_cons_of_mem _ hz)) x h

/-- A notice entered keeps the kinds rising (R166). -/
theorem kindsRise_enterNotice {n : Notice} {now : Nat} : ∀ {l : List NoticeEntry}, kindsRise l = true → kindsRise (enterNotice n now l) = true
  | [], _ => rfl
  | e :: es, h => by
    simp only [kindsRise, Bool.and_eq_true, List.all_eq_true, decide_eq_true_eq] at h
    unfold enterNotice
    split
    next hlt =>
      simp only [kindsRise, Bool.and_eq_true, List.all_eq_true, decide_eq_true_eq, List.mem_cons]
      refine ⟨?_, h.1, h.2⟩
      rintro x (hx | hx)
      · subst hx; exact hlt
      · exact Nat.lt_trans hlt (h.1 x hx)
    next hlt =>
      split
      next heq =>
        simp only [kindsRise, Bool.and_eq_true, List.all_eq_true, decide_eq_true_eq]
        exact ⟨fun x hx => heq ▸ h.1 x hx, h.2⟩
      next hne =>
        simp only [kindsRise, Bool.and_eq_true, List.all_eq_true, decide_eq_true_eq]
        exact ⟨kind_lt_enterNotice (by omega) h.1, kindsRise_enterNotice h.2⟩

/-- A notice entered: a new entry of count 1 where its kind has none, the entry of its kind with a count one higher and held at 255, the other kinds'
entries as they were (R167). -/
theorem find_enterNotice (n : Notice) (now : Nat) : ∀ l : List NoticeEntry, kindsRise l = true →
    (l.find? (fun e => e.notice.kind == n.kind) = none →
        (enterNotice n now l).find? (fun e => e.notice.kind == n.kind) = some { notice := n, at_ := now, count := 1 }) ∧
      (∀ e, l.find? (fun e => e.notice.kind == n.kind) = some e →
        (enterNotice n now l).find? (fun e => e.notice.kind == n.kind) = some { notice := n, at_ := now, count := min (e.count + 1) 255 }) ∧
      (∀ k, k ≠ n.kind → (enterNotice n now l).find? (fun e => e.notice.kind == k) = l.find? (fun e => e.notice.kind == k)) ∧
      enterNotice n now l ≠ []
  | [], _ => by
    refine ⟨?_, ?_, ?_, ?_⟩ <;> simp [enterNotice]
    intro k h
    exact fun e => h e.symm
  | x :: xs, h => by
    simp only [kindsRise, Bool.and_eq_true, List.all_eq_true, decide_eq_true_eq] at h
    obtain ⟨i1, i2, i3, i4⟩ := find_enterNotice n now xs h.2
    unfold enterNotice
    split
    · rename_i hlt
      refine ⟨?_, ?_, ?_, by simp⟩
      · intro _
        simp
      · intro e he
        have hk := List.find?_some he
        have hm := List.mem_of_find?_eq_some he
        simp at hk
        rcases List.mem_cons.mp hm with hm | hm
        · subst hm
          omega
        · have := h.1 e hm
          omega
      · intro k hk
        rw [List.find?_cons_of_neg]
        simp
        exact fun e => hk e.symm
    · split
      · rename_i _ heq
        refine ⟨?_, ?_, ?_, by simp⟩
        · intro he
          simp [heq] at he
        · intro e he
          rw [List.find?_cons_of_pos (by simp [heq])] at he
          cases he
          simp
        · intro k hk
          rw [List.find?_cons_of_neg (by simp; exact fun e => hk e.symm),
            List.find?_cons_of_neg (by simp; exact fun e => hk (e.symm.trans heq.symm))]
      · rename_i _ hne
        have hx : (x.notice.kind == n.kind) = false := by
          simp
          exact fun e => hne e.symm
        refine ⟨?_, ?_, ?_, by simp⟩
        · simp only [List.find?_cons, hx]
          exact i1
        · simp only [List.find?_cons, hx]
          exact i2
        · intro k hk
          by_cases hxk : x.notice.kind = k
          · rw [List.find?_cons_of_pos (by simp [hxk]), List.find?_cons_of_pos (by simp [hxk])]
          · rw [List.find?_cons_of_neg (by simp [hxk]), List.find?_cons_of_neg (by simp [hxk])]
            exact i3 k hk

/-- An offer keeps a port's invariant. -/
theorem Port.ok_offer {q : Port} (h : q.ok) (n : Notice) (now : Nat) : (q.offer n now).ok := by
  obtain ⟨h1, h2, h3, h4⟩ := h
  unfold Port.offer
  split
  · exact ⟨h1, h2, h3, h4⟩
  next hm =>
    refine ⟨kindsRise_enterNotice h1, ?_, h3, h4⟩
    intro e he
    rcases mem_enterNotice he (fun x hx => (h2 x hx).2.1) with h | ⟨hk, hc⟩
    · exact h2 e h
    · refine ⟨?_, hc⟩
      show q.mask.contains e.notice.kind = false
      rw [hk]; simpa using hm

/-- An offer changes nothing of a port but its notice set. -/
theorem Port.offer_rest (q : Port) (n : Notice) (now : Nat) :
    (q.offer n now).receive = q.receive ∧ (q.offer n now).service = q.service ∧ (q.offer n now).response = q.response ∧
      (q.offer n now).waiting = q.waiting ∧ (q.offer n now).present = q.present ∧ (q.offer n now).silence = q.silence ∧
      (q.offer n now).mask = q.mask := by
  unfold Port.offer
  split <;> exact ⟨rfl, rfl, rfl, rfl, rfl, rfl, rfl⟩

/-! ### Queues -/

/-- The addresses after an enqueue: the same, or one more at the tail that was not there (R133). -/
theorem addresses_enqueueCommand (c : CommandEntry) : ∀ l : List CommandEntry,
    (enqueueCommand c l).map CommandEntry.address =
      if c.address ∈ l.map CommandEntry.address then l.map CommandEntry.address else l.map CommandEntry.address ++ [c.address]
  | [] => rfl
  | e :: es => by
    unfold enqueueCommand
    split
    next h => simp [h]
    next h =>
      rw [List.map_cons, addresses_enqueueCommand c es]
      have h' : ¬ c.address = e.address := fun x => h x.symm
      by_cases hm : c.address ∈ es.map CommandEntry.address <;> simp [h', hm]

/-- An enqueue keeps one entry for each address (R133). -/
theorem nodup_enqueueCommand (c : CommandEntry) {l : List CommandEntry} (h : (l.map CommandEntry.address).Nodup) :
    ((enqueueCommand c l).map CommandEntry.address).Nodup := by
  rw [addresses_enqueueCommand]
  split
  · exact h
  next hm =>
    rw [List.nodup_append]
    refine ⟨h, by simp, ?_⟩
    intro a ha b hb
    simp at hb
    subst hb
    exact fun hab => hm (hab ▸ ha)

/-- The banks of the start queue are distinct. -/
def Arbiter.distinct (a : Arbiter) : Prop := (a.queue.map QueueEntry.bank).Nodup

/-- Every word to the arbiter keeps the banks of the queue distinct (R99). -/
theorem Arbiter.distinct_tell (b : Bank) {a : Arbiter} (h : a.distinct) (w : ArbiterWord) : (Arbiter.tell b a w).distinct := by
  cases w with
  | join k =>
    unfold Arbiter.tell Arbiter.join
    dsimp only
    split
    · exact h
    next hq =>
      show ((a.queue ++ [_]).map QueueEntry.bank).Nodup
      rw [List.map_append, List.nodup_append]
      refine ⟨h, by simp, ?_⟩
      intro x hx y hy hxy
      simp at hy
      subst hy
      subst hxy
      apply hq
      obtain ⟨q, hq1, hq2⟩ := List.mem_map.1 hx
      exact List.any_eq_true.2 ⟨q, hq1, by simpa using hq2⟩
  | leave => exact (List.Sublist.map _ (List.filter_sublist ..)).nodup h
  | release => exact h
  | becomeStart =>
    have : ((a.queue.map (fun q => if q.bank = b.number then { q with kind := QueueKind.start } else q)).map QueueEntry.bank)
        = a.queue.map QueueEntry.bank := by
      rw [List.map_map]
      apply List.map_congr_left
      intro q _
      simp only [Function.comp]
      split <;> rfl
    show ((a.queue.map _).map QueueEntry.bank).Nodup
    rw [this]; exact h

/-- A list of words keeps them distinct. -/
theorem Arbiter.distinct_words (b : Bank) : ∀ (ws : List ArbiterWord) {a : Arbiter}, a.distinct → (ws.foldl (Arbiter.tell b) a).distinct
  | [], _, h => h
  | w :: ws, _, h => Arbiter.distinct_words b ws (Arbiter.distinct_tell b h w)

end Sys2Proof.Machine
end

