-- ==== Sys2Proof/Laws/Banks.lean ====
section
/-! SUPPORT. What the sequencer's work on a record leaves alone: number, place, thrust, orientation, address and forcing. -/

namespace Sys2Proof.Machine

open Sys2Proof

theorem Bank.fixed_number {b c : Bank} (h : c.fixed = b.fixed) : c.number = b.number := congrArg Prod.fst h

theorem fixed_actOnDemand (x : BankContext) (b : Bank) : (actOnDemand x b).bank.fixed = b.fixed := by
  unfold actOnDemand
  (repeat' split) <;> rfl

theorem BankOut.fixed_thenAct (o : BankOut) (x : BankContext) : (o.thenAct x).bank.fixed = o.bank.fixed := by
  unfold BankOut.thenAct
  split
  · exact fixed_actOnDemand _ _
  · rfl

theorem fixed_endStopping (x : BankContext) (b : Bank) : (endStopping x b).bank.fixed = b.fixed := by
  unfold endStopping
  split
  · split
    · dsimp only
      split
      · rfl
      · split
        · rfl
        · exact (BankOut.fixed_thenAct _ _).trans rfl
    · rfl
  · rfl

theorem fixed_reconcile (x : BankContext) (b : Bank) (r : Report) : (reconcile x b r).bank.fixed = b.fixed := by
  unfold reconcile
  split
  · cases r <;> (unfold reconcileStarting; dsimp only; try split) <;> rfl
  · cases r <;> (unfold reconcileRunning; dsimp only; try split) <;> rfl
  · cases r <;> rfl
  · cases r <;> rfl
  · cases r <;> first | rfl | exact fixed_endStopping x b
  · cases r <;> rfl
  · cases r <;> (unfold reconcileVerify; dsimp only; try unfold verifyRuns) <;> (try split) <;>
      first
      | rfl
      | exact (BankOut.fixed_thenAct _ _).trans rfl
  · rfl

theorem fixed_takeReport (x : BankContext) (b : Bank) (r : Report) (w : Bool) : (takeReport x b r w).bank.fixed = b.fixed := by
  unfold takeReport
  dsimp only
  split
  · split <;> rfl
  · split
    · rfl
    · split
      · exact (fixed_endStopping _ _).trans rfl
      · exact (fixed_reconcile _ _ _).trans rfl

theorem fixed_startTimeout (x : BankContext) (b : Bank) : (startTimeout x b).bank.fixed = b.fixed := by
  unfold startTimeout
  split <;> rfl

theorem fixed_coastExpires (x : BankContext) (b : Bank) : (coastExpires x b).bank.fixed = b.fixed :=
  (fixed_endStopping _ _).trans rfl

theorem fixed_granted (x : BankContext) (b : Bank) : (granted x b).bank.fixed = b.fixed := by
  unfold granted
  split
  · rfl
  · split <;> rfl
  · rfl

theorem fixed_unreachable (b : Bank) : (unreachable b).bank.fixed = b.fixed := by
  unfold unreachable
  split <;> rfl

theorem fixed_released (x : BankContext) (b : Bank) : (released x b).bank.fixed = b.fixed :=
  (BankOut.fixed_thenAct _ _).trans rfl

/-- Two records of one number are one record. -/
theorem Bank.eq_of_distinct : ∀ {l : List Bank}, (l.map Bank.number).Nodup → ∀ {b c : Bank}, b ∈ l → c ∈ l → b.number = c.number → b = c
  | [], _, _, _, hb, _, _ => by cases hb
  | d :: l, h, b, c, hb, hc, e => by
    simp only [List.map_cons, List.nodup_cons, List.mem_map, not_exists, not_and] at h
    rcases List.mem_cons.mp hb with rfl | hb' <;> rcases List.mem_cons.mp hc with rfl | hc'
    · rfl
    · exact absurd e.symm (h.1 c hc')
    · exact absurd e (h.1 b hb')
    · exact Bank.eq_of_distinct h.2 hb' hc' e

theorem State.bank_mem {s : State} {n : Nat} {b : Bank} (h : s.bank n = some b) : b ∈ s.banks ∧ b.number = n :=
  ⟨List.mem_of_find?_eq_some h, by simpa using List.find?_some h⟩

/-- A record replaced by one that keeps what stands. -/
theorem fixed_setBank {s : State} {n : Nat} {b c : Bank} (h : s.bank n = some b) (e : c.fixed = b.fixed) (d : s.BanksDistinct) :
    (setBank c s.banks).map Bank.fixed = s.banks.map Bank.fixed := by
  obtain ⟨hm, _⟩ := State.bank_mem h
  unfold setBank
  rw [List.map_map]
  refine List.map_congr_left (fun x hx => ?_)
  dsimp only [Function.comp]
  split
  · rename_i hn
    rw [e, Bank.eq_of_distinct d hm hx ((Bank.fixed_number e).symm.trans hn.symm)]
  · rfl

/-- The numbers stand when what stands does. -/
theorem numbers_of_fixed {l m : List Bank} (h : l.map Bank.fixed = m.map Bank.fixed) : l.map Bank.number = m.map Bank.number := by
  have := congrArg (List.map Prod.fst) h
  simpa [List.map_map, Function.comp_def, Bank.fixed] using this

theorem fixed_flagHeat (z : List Zone) (l : List Bank) : (flagHeat z l).map Bank.fixed = l.map Bank.fixed := by
  unfold flagHeat
  rw [List.map_map]
  rfl

theorem fixed_clearFailures (l : List Bank) : (clearFailures l).map Bank.fixed = l.map Bank.fixed := by
  unfold clearFailures
  rw [List.map_map]
  rfl

end Sys2Proof.Machine
end

