-- ==== Sys2Proof/Laws/Slots.lean ====
section
/-! SUPPORT. How an event of one bank moves the bank between the start queue, the start slots and its states, so that these go on fitting one
another (R98 to R104). -/

namespace Sys2Proof.Machine

open Sys2Proof

-- one theorem after another: see Laws/Frame.lean
set_option Elab.async false

/-- STARTING in either direction. -/
def BankState.isStarting : BankState → Bool
  | .starting _ => true
  | _ => false

/-- A state in which a bank may stand in the start queue. -/
def BankState.mayQueue : BankState → Bool
  | .queued _ => true
  | .stopping .fwd => true
  | .stopping .rev => true
  | _ => false

/-- QUEUED in either direction. -/
def BankState.isQueued : BankState → Bool
  | .queued _ => true
  | _ => false

/-- Whether a bank is queued after a word to the arbiter. -/
def ArbiterWord.queues : ArbiterWord → Bool → Bool
  | .join _, _ => true
  | .leave, _ => false
  | .release, q => q
  | .becomeStart, q => q

/-- Whether a bank is queued after words to the arbiter. -/
def queuesAll (ws : List ArbiterWord) (q : Bool) : Bool := ws.foldl (fun q w => w.queues q) q

/-- A bank's state, its place in the queue and its words agree: it keeps a slot exactly while it goes on STARTING, a queued bank may be queued,
and a QUEUED bank is queued. -/
def BankOut.agrees (o : BankOut) (st : BankState) (q : Bool) : Prop :=
  (o.bank.state.isStarting = (st.isStarting && !o.words.contains .release)) ∧
    (queuesAll o.words q = true → o.bank.state.mayQueue = true) ∧ (o.bank.state.isQueued = true → queuesAll o.words q = true)

/-- What a fitting state says of a bank in state `st`. -/
def BankState.placed (st : BankState) (q : Bool) : Prop := (q = true → st.mayQueue = true) ∧ (st.isQueued = true → q = true)

theorem mayQueue_turn (d : Spin) : (BankState.stopping d.turn).mayQueue = true := by cases d <;> rfl

theorem queuesAll_append (ws vs : List ArbiterWord) (q : Bool) : queuesAll (ws ++ vs) q = queuesAll vs (queuesAll ws q) := List.foldl_append

/-- An outcome that agrees leaves the bank placed. -/
theorem BankOut.agrees.placed {o : BankOut} {st : BankState} {q : Bool} (h : o.agrees st q) : o.bank.state.placed (queuesAll o.words q) := h.2

theorem agrees_actOnDemand (x : BankContext) (b : Bank) (q : Bool) (h : b.state.placed q) : (actOnDemand x b).agrees b.state q := by
  obtain ⟨number, chainage, fans, thrust, forward, address, st, forcing, demand, failures, lockout, cause, coast, start, heat, latest, fault⟩ := b
  obtain ⟨h1, h2⟩ := h
  dsimp only at h1 h2
  unfold actOnDemand BankOut.agrees
  dsimp only
  cases st <;> cases demand <;> cases q <;> dsimp only <;> (repeat' split) <;>
    simp_all [BankOut.only, Bank.stopping, BankState.isStarting, mayQueue_turn, BankState.isQueued, queuesAll, ArbiterWord.queues] <;> rfl

theorem BankOut.agrees_thenAct (o : BankOut) (x : BankContext) {st : BankState} {q : Bool} (h : o.agrees st q) : (o.thenAct x).agrees st q := by
  unfold BankOut.thenAct
  split
  · obtain ⟨k1, k2, k3⟩ := agrees_actOnDemand { x with queued := false } o.bank _ h.placed
    refine ⟨?_, ?_, ?_⟩
    · dsimp only; rw [k1, h.1]
      cases st.isStarting <;> simp [List.contains_eq_mem, List.mem_append]
    · dsimp only; rw [queuesAll_append]; exact k2
    · dsimp only; rw [queuesAll_append]; exact k3
  · exact h

theorem agrees_only {b : Bank} {st : BankState} {q : Bool} (h : st.placed q) (e : b.state = st) : (BankOut.only b).agrees st q := by
  unfold BankOut.only BankOut.agrees queuesAll
  rw [e]
  exact ⟨by simp, h.1, h.2⟩

/-- A move of a bank that is neither STARTING nor in the queue afterwards. -/
theorem agrees_moved {o : BankOut} {st : BankState} {q : Bool} (h1 : o.bank.state.isStarting = false) (h2 : o.bank.state.isQueued = false)
    (h3 : st.isStarting = true → .release ∈ o.words) (h4 : q = true → queuesAll o.words q = true → o.bank.state.mayQueue = true)
    (h5 : queuesAll o.words false = false) : o.agrees st q := by
  refine ⟨?_, ?_, ?_⟩
  · rw [h1]
    cases hs : st.isStarting
    · rfl
    · simp [h3 hs]
  · cases q
    · rw [h5]; intro h; cases h
    · exact h4 rfl
  · rw [h2]; intro h; cases h

theorem agrees_endStopping (x : BankContext) (b : Bank) (q : Bool) (hx : x.queued = q) (h : b.state.placed q) :
    (endStopping x b).agrees b.state q := by
  unfold endStopping
  split
  · rename_i y e
    split
    · dsimp only
      split
      · exact agrees_moved rfl rfl (by rw [e]; intro h; cases h) (by intro _ h; cases h) rfl
      · split
        · rw [e, hx]
          cases q <;> exact ⟨rfl, fun _ => rfl, fun _ => rfl⟩
        · exact BankOut.agrees_thenAct _ _ (agrees_moved rfl rfl (by rw [e]; intro h; cases h) (by intro _ h; cases h) rfl)
    · exact agrees_only h rfl
  · exact agrees_only h rfl

/-- A bank that is queued only while QUEUED or STOPPING, moved without a word to the queue. -/
theorem not_queued {st : BankState} {q : Bool} (h : st.placed q) (hs : st.mayQueue = false) : q = false := by
  cases q
  · rfl
  · have := h.1 rfl; rw [hs] at this; cases this

theorem agrees_withdraw (b : Bank) (st : BankState) (q : Bool) (h : st.isStarting = false) (k : st.isQueued = false) :
    (b.withdraw st).agrees b.state q :=
  agrees_moved h k (fun _ => by simp [Bank.withdraw]) (fun _ h => by cases h) rfl

/-- A fault stop: the words leave the queue, or the bank was not in it. -/
theorem agrees_faultStop (x : BankContext) (b : Bank) (y : Turn) (r : FaultReason) (t : Nat) (c : Option DriveCommand)
    (ws : List ArbiterWord) (q : Bool) (h3 : b.state.isStarting = true → .release ∈ ws) (h4 : queuesAll ws q = false)
    (h5 : queuesAll ws false = false) : (faultStop x b y r t c ws).agrees b.state q :=
  agrees_moved rfl rfl h3 (fun _ h => by rw [show (faultStop x b y r t c ws).words = ws from rfl, h4] at h; cases h) h5

theorem agrees_reconcile (x : BankContext) (b : Bank) (r : Report) (q : Bool) (hx : x.queued = q) (h : b.state.placed q) :
    (reconcile x b r).agrees b.state q := by
  have same : (BankOut.only b).agrees b.state q := agrees_only h rfl
  unfold reconcile
  split
  · rename_i d e
    have hq : q = false := not_queued h (by rw [e]; rfl)
    subst hq
    have fs : ∀ y r t c, (faultStop x b y r t c [.release]).agrees b.state false := fun y r t c =>
      agrees_faultStop _ _ _ _ _ _ _ _ (fun _ => by simp) rfl rfl
    have cmd : ∀ c, ({ BankOut.only b with command := c } : BankOut).agrees b.state false := fun c => same
    cases r <;> (unfold reconcileStarting; dsimp only) <;> (try split) <;> first | exact same | exact fs _ _ _ _ | exact cmd _ | skip
    exact agrees_moved rfl rfl (fun _ => by simp) (fun h => by cases h) rfl
  · rename_i d e
    have hq : q = false := not_queued h (by rw [e]; rfl)
    subst hq
    have fs : ∀ y r t c, (faultStop x b y r t c []).agrees b.state false := fun y r t c =>
      agrees_faultStop _ _ _ _ _ _ _ _ (fun hs => by rw [e] at hs; cases hs) rfl rfl
    cases r <;> (unfold reconcileRunning; dsimp only) <;> (try split) <;> first | exact same | exact fs _ _ _ _
  · rename_i e; exact idle same (by rw [e]; rfl)
  · rename_i d e; exact idle same (by rw [e]; rfl)
  · rename_i y e
    have hs : b.state.isStarting = true → ArbiterWord.release ∈ [ArbiterWord.leave] := fun hs => by rw [e] at hs; cases hs
    cases r <;> (unfold reconcileStopping; dsimp only) <;>
      first | exact agrees_endStopping x b q hx h | exact agrees_faultStop _ _ _ _ _ _ _ _ hs rfl rfl
  · cases r <;> first | exact same | (unfold reconcileLockedOut lockedOutRuns; dsimp only; exact same)
  · rename_i e
    have hq : q = false := not_queued h (by rw [e]; rfl)
    subst hq
    have hs : ∀ ws : List ArbiterWord, b.state.isStarting = true → ArbiterWord.release ∈ ws := fun ws hs => by rw [e] at hs; cases hs
    have mv : ∀ (o : BankOut), o.bank.state.isStarting = false → o.bank.state.isQueued = false → queuesAll o.words false = false →
        o.agrees b.state false := fun o a c d => agrees_moved a c (hs _) (fun h => by cases h) d
    cases r <;> (unfold reconcileVerify; dsimp only; try unfold verifyRuns) <;> (try split) <;>
      first
      | exact same
      | exact mv _ rfl rfl rfl
      | exact BankOut.agrees_thenAct _ _ (mv _ rfl rfl rfl)
  · exact same
where
  idle {x : BankContext} {b : Bank} {r : Report} {q : Bool} (same : (BankOut.only b).agrees b.state q) (hs : b.state.isStarting = false) :
      (reconcileIdle x b r).agrees b.state q := by
    have h3 : b.state.isStarting = true → ArbiterWord.release ∈ [ArbiterWord.leave] := fun h => by rw [hs] at h; cases h
    cases r <;> first | exact same | exact agrees_faultStop _ _ _ _ _ _ _ _ h3 rfl rfl | exact agrees_moved rfl rfl h3 (fun _ h => by cases h) rfl

theorem agrees_takeReport (x : BankContext) (b : Bank) (r : Report) (w : Bool) (q : Bool) (hx : x.queued = q) (h : b.state.placed q) :
    (takeReport x b r w).agrees b.state q := by
  unfold takeReport
  dsimp only
  split
  · split
    · exact agrees_only h rfl
    · exact agrees_withdraw { b with latest := some r } .atLocal q rfl rfl
  · split
    · rename_i hs
      have hn : b.state.mayQueue = false ∧ b.state.isStarting = false := by rcases hs with e | e <;> rw [e] <;> exact ⟨rfl, rfl⟩
      have hq := not_queued h hn.1
      subst hq
      exact agrees_moved rfl rfl (fun h => by rw [hn.2] at h; cases h) (fun h => by cases h) rfl
    · split
      · exact agrees_endStopping x { b with latest := some r } q hx h
      · exact agrees_reconcile x { b with latest := some r } r q hx h

theorem agrees_startTimeout (x : BankContext) (b : Bank) (q : Bool) (h : b.state.placed q) : (startTimeout x b).agrees b.state q := by
  unfold startTimeout
  split
  · rename_i d e
    have hq : q = false := not_queued h (by rw [e]; rfl)
    subst hq
    exact agrees_faultStop _ _ _ _ _ _ _ _ (fun _ => by simp) rfl rfl
  · exact agrees_only h rfl

theorem agrees_coastExpires (x : BankContext) (b : Bank) (q : Bool) (hx : x.queued = q) (h : b.state.placed q) :
    (coastExpires x b).agrees b.state q := agrees_endStopping x { b with coast := .expired } q hx h

theorem agrees_unreachable (b : Bank) (q : Bool) (h : b.state.placed q) : (unreachable b).agrees b.state q := by
  unfold unreachable
  split
  · exact agrees_only h rfl
  · exact agrees_withdraw b .unreachable q rfl rfl

theorem agrees_released (x : BankContext) (b : Bank) (q : Bool) (e : b.state = .lockedOut) (h : b.state.placed q) :
    (released x b).agrees b.state q := by
  have hq : q = false := not_queued h (by rw [e]; rfl)
  subst hq
  exact BankOut.agrees_thenAct _ _ (agrees_moved rfl rfl (fun h => by rw [e] at h; cases h) (fun h => by cases h) rfl)

/-! ### The arbiter and the bank table together -/

theorem mem_bankStates {l : List Bank} {m : Nat} {st : BankState} : (m, st) ∈ bankStates l ↔ ∃ b ∈ l, b.number = m ∧ b.state = st := by
  simp [bankStates]

theorem mem_bankStates_set {l : List Bank} {c : Bank} {m : Nat} {st : BankState} (hn : ∃ b ∈ l, b.number = c.number) :
    (m, st) ∈ bankStates (setBank c l) ↔ (m = c.number ∧ st = c.state) ∨ (m ≠ c.number ∧ (m, st) ∈ bankStates l) := by
  rw [mem_bankStates, mem_bankStates]
  unfold setBank
  constructor
  · rintro ⟨b, hb, h1, h2⟩
    obtain ⟨a, ha, rfl⟩ := List.mem_map.mp hb
    by_cases e : a.number = c.number
    · rw [if_pos e] at h1 h2; exact .inl ⟨h1.symm, h2.symm⟩
    · rw [if_neg e] at h1 h2; exact .inr ⟨h1 ▸ e, a, ha, h1, h2⟩
  · rintro (⟨rfl, rfl⟩ | ⟨hm, a, ha, h1, h2⟩)
    · obtain ⟨b, hb, e⟩ := hn
      exact ⟨c, List.mem_map.mpr ⟨b, hb, if_pos e⟩, rfl, rfl⟩
    · exact ⟨a, List.mem_map.mpr ⟨a, ha, if_neg (h1 ▸ hm)⟩, h1, h2⟩

/-- The state a table of distinct banks gives for a number. -/
theorem bankStates_unique {s : State} {n : Nat} {b : Bank} (hb : s.bank n = some b) (hd : s.BanksDistinct) {st : BankState} :
    (n, st) ∈ bankStates s.banks ↔ st = b.state := by
  obtain ⟨hm, hn⟩ := State.bank_mem hb
  rw [mem_bankStates]
  constructor
  · rintro ⟨a, ha, h1, rfl⟩
    rw [Bank.eq_of_distinct hd ha hm (h1.trans hn.symm)]
  · rintro rfl; exact ⟨b, hm, hn, rfl⟩

/-- In a fitting state every bank is placed. -/
theorem State.SlotsOk.placed {s : State} {n : Nat} {b : Bank} (h : s.SlotsOk) (hb : s.bank n = some b) (hd : s.BanksDistinct) :
    b.state.placed (s.arb.queued n) := by
  obtain ⟨-, -, h3, h4⟩ := h
  constructor
  · intro hq
    obtain ⟨d, hh | hh⟩ := h3 n hq
    · rw [← (bankStates_unique hb hd).mp hh]; rfl
    · rw [← (bankStates_unique hb hd).mp hh]; exact mayQueue_turn d
  · intro hs
    cases e : b.state <;> rw [e] at hs <;> first | cases hs | skip
    rename_i d
    exact h4 n d ((bankStates_unique hb hd).mpr e.symm)

theorem isStarting_iff {st : BankState} : st.isStarting = true ↔ ∃ d, BankState.starting d = st := by
  cases st <;> simp [BankState.isStarting]

theorem isQueued_iff {st : BankState} : st.isQueued = true ↔ ∃ d, BankState.queued d = st := by
  cases st <;> simp [BankState.isQueued]

theorem mayQueue_iff {st : BankState} : st.mayQueue = true ↔ ∃ d : Spin, BankState.queued d = st ∨ BankState.stopping d.turn = st := by
  constructor
  · intro h
    cases st <;> first | cases h | skip
    · exact ⟨_, .inl rfl⟩
    · rename_i x; cases x <;> first | cases h | skip
      · exact ⟨.fwd, .inr rfl⟩
      · exact ⟨.rev, .inr rfl⟩
  · rintro ⟨d, rfl | rfl⟩
    · rfl
    · exact mayQueue_turn d

/-- One bank's record and its place in the slots and the queue changed together. -/
theorem Arbiter.fits_change {s : State} {n : Nat} {b c : Bank} {a : Arbiter} (hb : s.bank n = some b) (hc : c.number = n)
    (h : s.SlotsOk) (h0 : (a.slots.filterMap id).Nodup)
    (h1 : ∀ m, m ≠ n → (some m ∈ a.slots ↔ some m ∈ s.arb.slots)) (h2 : some n ∈ a.slots ↔ c.state.isStarting = true)
    (h3 : ∀ m, m ≠ n → a.queued m = s.arb.queued m) (h4 : a.queued n = true → c.state.mayQueue = true)
    (h5 : c.state.isQueued = true → a.queued n = true) : a.fits (bankStates (setBank c s.banks)) := by
  obtain ⟨-, k2, k3, k4⟩ := h
  obtain ⟨hm, hn⟩ := State.bank_mem hb
  have mem := fun m st => mem_bankStates_set (l := s.banks) (c := c) (m := m) (st := st) ⟨b, hm, hn.trans hc.symm⟩
  rw [hc] at mem
  refine ⟨h0, fun m => ?_, fun m hq => ?_, fun m d hd => ?_⟩
  · by_cases e : m = n
    · subst e
      rw [h2, isStarting_iff]
      simp only [mem, true_and, ne_eq, not_true_eq_false, false_and, or_false]
    · rw [h1 m e, k2 m]
      simp only [mem, e, false_and, ne_eq, not_false_eq_true, true_and, false_or]
  · by_cases e : m = n
    · subst e
      simp only [mem, true_and, ne_eq, not_true_eq_false, false_and, or_false]
      exact mayQueue_iff.mp (h4 hq)
    · simp only [mem, e, false_and, ne_eq, not_false_eq_true, true_and, false_or]
      exact k3 m (by rw [← h3 m e]; exact hq)
  · rcases (mem _ _).mp hd with ⟨rfl, e⟩ | ⟨e, hl⟩
    · exact h5 (isQueued_iff.mpr ⟨d, e⟩)
    · rw [h3 m e]; exact k4 m d hl

theorem states_flagHeat (z : List Zone) (l : List Bank) : bankStates (flagHeat z l) = bankStates l := by
  unfold bankStates flagHeat
  rw [List.map_map]
  rfl

theorem states_clearFailures (l : List Bank) : bankStates (clearFailures l) = bankStates l := by
  unfold bankStates clearFailures
  rw [List.map_map]
  rfl

/-! ### Words to the arbiter -/

theorem Arbiter.queued_eq (a : Arbiter) (m : Nat) : a.queued m = a.queue.any (fun q => q.bank == m) := rfl

theorem Arbiter.queued_tell (b : Bank) (a : Arbiter) (w : ArbiterWord) (m : Nat) :
    (Arbiter.tell b a w).queued m = if m = b.number then w.queues (a.queued m) else a.queued m := by
  cases w with
  | join k =>
    show (a.join b.number _ k).queued m = _
    unfold Arbiter.join
    split
    · rename_i h
      split
      · rename_i e; subst e; rw [h]; rfl
      · rfl
    · rename_i h
      rw [Arbiter.queued_eq, Arbiter.queued_eq, List.any_append]
      by_cases e : m = b.number
      · subst e; simp [ArbiterWord.queues]
      · have : (b.number == m) = false := by simpa using fun h => e h.symm
        simp [e, this]
  | leave =>
    show (a.leave b.number).queued m = _
    unfold Arbiter.leave
    rw [Arbiter.queued_eq, Arbiter.queued_eq, List.any_filter]
    by_cases e : m = b.number
    · subst e; simp [ArbiterWord.queues]
    · rw [if_neg e]
      congr 1; funext q
      by_cases k : q.bank = m
      · simp [k, e]
      · simp [k]
  | release => show (a.release b.number).queued m = _; split <;> rfl
  | becomeStart =>
    have : (a.becomeStart b.number).queued m = a.queued m := by
      unfold Arbiter.becomeStart
      rw [Arbiter.queued_eq, Arbiter.queued_eq, List.any_map]
      congr 1; funext q
      dsimp only [Function.comp]; split <;> rfl
    show (a.becomeStart b.number).queued m = _
    rw [this]; split <;> rfl

theorem Arbiter.slots_release (a : Arbiter) (n m : Nat) : some m ∈ (a.release n).slots ↔ some m ∈ a.slots ∧ m ≠ n := by
  unfold Arbiter.release
  rw [List.mem_map]
  constructor
  · rintro ⟨o, ho, e⟩
    split at e
    · cases e
    · rename_i k; subst e; exact ⟨ho, fun hh => k (hh ▸ rfl)⟩
  · rintro ⟨ho, hn⟩
    exact ⟨some m, ho, if_neg (fun e => hn (Option.some.inj e))⟩

theorem Arbiter.slots_tell_mem (b : Bank) (a : Arbiter) (w : ArbiterWord) (m : Nat) :
    some m ∈ (Arbiter.tell b a w).slots ↔ some m ∈ a.slots ∧ ¬ (w = .release ∧ m = b.number) := by
  cases w with
  | join k =>
    show some m ∈ (a.join b.number _ k).slots ↔ _
    unfold Arbiter.join
    split <;> simp
  | leave => show some m ∈ a.slots ↔ _; simp
  | release => show some m ∈ (a.release b.number).slots ↔ _; rw [Arbiter.slots_release]; simp
  | becomeStart => show some m ∈ a.slots ↔ _; simp

theorem Arbiter.slots_tell_nodup (b : Bank) (a : Arbiter) (w : ArbiterWord) (h : (a.slots.filterMap id).Nodup) :
    ((Arbiter.tell b a w).slots.filterMap id).Nodup := by
  cases w with
  | join k =>
    show ((a.join b.number _ k).slots.filterMap id).Nodup
    unfold Arbiter.join
    split <;> exact h
  | leave => exact h
  | becomeStart => exact h
  | release =>
    refine h.sublist ?_
    show ((a.slots.map fun o => if o = some b.number then none else o).filterMap id).Sublist _
    generalize a.slots = l
    induction l with
    | nil => exact .slnil
    | cons o l ih =>
      rw [List.map_cons]
      split
      · cases o
        · exact ih
        · exact ih.cons _
      · cases o
        · exact ih
        · exact ih.cons_cons _

/-- What words to the arbiter for one bank do to its slots and its queue. -/
theorem Arbiter.words (b : Bank) : ∀ (ws : List ArbiterWord) (a : Arbiter),
    (∀ m, (ws.foldl (Arbiter.tell b) a).queued m = if m = b.number then queuesAll ws (a.queued m) else a.queued m) ∧
      (∀ m, some m ∈ (ws.foldl (Arbiter.tell b) a).slots ↔ some m ∈ a.slots ∧ ¬ (.release ∈ ws ∧ m = b.number)) ∧
      ((a.slots.filterMap id).Nodup → ((ws.foldl (Arbiter.tell b) a).slots.filterMap id).Nodup)
  | [], a => ⟨fun m => by split <;> rfl, fun m => by simp, id⟩
  | w :: ws, a => by
    obtain ⟨h1, h2, h3⟩ := Arbiter.words b ws (Arbiter.tell b a w)
    refine ⟨fun m => ?_, fun m => ?_, fun h => h3 (Arbiter.slots_tell_nodup b a w h)⟩
    · rw [List.foldl_cons, h1, Arbiter.queued_tell]
      split <;> rfl
    · rw [List.foldl_cons, h2, Arbiter.slots_tell_mem, List.mem_cons]
      constructor
      · rintro ⟨⟨a1, a2⟩, a3⟩
        refine ⟨a1, ?_⟩
        rintro ⟨e | e, k⟩
        · exact a2 ⟨e.symm, k⟩
        · exact a3 ⟨e, k⟩
      · rintro ⟨a1, a2⟩
        exact ⟨⟨a1, fun ⟨e, k⟩ => a2 ⟨.inl e.symm, k⟩⟩, fun ⟨e, k⟩ => a2 ⟨.inr e, k⟩⟩

/-- An outcome that agrees, carried out, leaves the arbiter fitting the bank table. -/
theorem BankOut.agrees.fits {o : BankOut} {s : State} {n : Nat} {b : Bank} (ha : o.agrees b.state (s.arb.queued n)) (hb : s.bank n = some b)
    (ho : o.bank.fixed = b.fixed) (hd : s.BanksDistinct) (h : s.SlotsOk) :
    (o.words.foldl (Arbiter.tell o.bank) s.arb).fits (bankStates (setBank o.bank s.banks)) := by
  obtain ⟨w1, w2, w3⟩ := Arbiter.words o.bank o.words s.arb
  have hn : o.bank.number = n := (Bank.fixed_number ho).trans (State.bank_mem hb).2
  rw [hn] at w1 w2
  refine Arbiter.fits_change hb hn h (w3 h.1) (fun m e => ?_) ?_ (fun m e => ?_) ?_ ?_
  · rw [w2]; simp [e]
  · rw [w2, ha.1, h.2.1 n]
    simp only [bankStates_unique hb hd]
    rw [← isStarting_iff]
    cases b.state.isStarting <;> simp
  · rw [w1, if_neg e]
  · rw [w1, if_pos rfl]; exact ha.2.1
  · rw [w1, if_pos rfl]; exact ha.2.2

end Sys2Proof.Machine
end

