-- ==== Sys2Proof/Laws/Frame.lean ====
section
/-! SUPPORT. The frame of the response: what no work of the matcher, the engine, the sequencer or the velocity loop changes, in one relation
kept by each of their shared operations. Only matches, banks, slots, queues, notice sets and the loop's and engine's own registers may differ. -/

namespace Sys2Proof.Machine

open Sys2Proof

-- one theorem after another: a case split waits for another theorem's split of the same match, and waiting ones would each hold a thread
set_option Elab.async false

/-- One port before and after: only the notice set may differ, and the port's invariant is kept. -/
structure PortFrame (p q : Port) : Prop where
  receive : q.receive = p.receive
  service : q.service = p.service
  response : q.response = p.response
  waiting : q.waiting = p.waiting
  present : q.present = p.present
  silence : q.silence = p.silence
  mask : q.mask = p.mask
  ok : p.ok → q.ok

/-- The state before and after work of the response. -/
structure Frame (s t : State) : Prop where
  uptime : t.uptime = s.uptime
  strap : t.strap = s.strap
  keys : t.keys = s.keys
  token : t.token = s.token
  det : t.det = s.det
  inc : t.inc = s.inc
  plans : t.plans = s.plans
  lib : t.lib = s.lib
  freeIx : t.freeIx = s.freeIx
  pending : t.pending = s.pending
  trains : t.eng.trains = s.eng.trains
  line : t.fl = { s.fl with queue := t.fl.queue }
  ports : ∀ i, PortFrame (s.port i) (t.port i)
  commands : s.CommandQueueOk → t.CommandQueueOk
  starts : s.StartQueueOk → t.StartQueueOk
  slots : t.arb.slots.length = s.arb.slots.length
  stations : t.vel.stations.map Station.fixed = s.vel.stations.map Station.fixed
  banks : s.BanksDistinct → t.banks.map Bank.fixed = s.banks.map Bank.fixed
  fits : s.BanksDistinct → s.SlotsOk → t.SlotsOk

theorem PortFrame.refl (p : Port) : PortFrame p p := ⟨rfl, rfl, rfl, rfl, rfl, rfl, rfl, id⟩

theorem PortFrame.trans {p q r : Port} (h : PortFrame p q) (k : PortFrame q r) : PortFrame p r :=
  ⟨k.receive.trans h.receive, k.service.trans h.service, k.response.trans h.response, k.waiting.trans h.waiting,
    k.present.trans h.present, k.silence.trans h.silence, k.mask.trans h.mask, k.ok ∘ h.ok⟩

theorem Frame.refl (s : State) : Frame s s :=
  ⟨rfl, rfl, rfl, rfl, rfl, rfl, rfl, rfl, rfl, rfl, rfl, rfl, fun _ => PortFrame.refl _, id, id, rfl, rfl, fun _ => rfl, fun _ h => h⟩

/-- The bank table keeps one record for each number. -/
theorem Frame.distinct {s t : State} (h : Frame s t) (d : s.BanksDistinct) : t.BanksDistinct := by
  unfold State.BanksDistinct
  rw [numbers_of_fixed (h.banks d)]
  exact d

theorem Frame.trans {s t u : State} (h : Frame s t) (k : Frame t u) : Frame s u :=
  ⟨k.uptime.trans h.uptime, k.strap.trans h.strap, k.keys.trans h.keys, k.token.trans h.token, k.det.trans h.det,
    k.inc.trans h.inc, k.plans.trans h.plans, k.lib.trans h.lib, k.freeIx.trans h.freeIx, k.pending.trans h.pending,
    k.trains.trans h.trains, by rw [k.line, h.line], fun i => (h.ports i).trans (k.ports i), k.commands ∘ h.commands,
    k.starts ∘ h.starts, k.slots.trans h.slots, k.stations.trans h.stations, fun d => (k.banks (h.distinct d)).trans (h.banks d),
    fun d f => k.fits (h.distinct d) (h.fits d f)⟩

/-- Two frames in a row, the later one first. -/
theorem Frame.after {s t u : State} (k : Frame t u) (h : Frame s t) : Frame s u := h.trans k

/-- A change of match, banks, loop and engine registers alone. -/
theorem Frame.quiet (s : State) (m : Matcher) (e : Engine) (bs : List Bank) (v : Velocity) (h : e.trains = s.eng.trains)
    (hb : bs.map Bank.fixed = s.banks.map Bank.fixed := by rfl)
    (hv : v.stations.map Station.fixed = s.vel.stations.map Station.fixed := by rfl)
    (hs : bankStates bs = bankStates s.banks := by rfl) :
    Frame s { s with mat := m, eng := e, banks := bs, vel := v } :=
  ⟨rfl, rfl, rfl, rfl, rfl, rfl, rfl, rfl, rfl, rfl, h, rfl, fun _ => PortFrame.refl _, id, id, rfl, hv, fun _ => hb,
    fun _ f => by unfold State.SlotsOk at *; dsimp only; rw [hs]; exact f⟩

theorem Frame.raise (s : State) (n : Notice) : Frame s (s.raise n) := by
  refine ⟨rfl, rfl, rfl, rfl, rfl, rfl, rfl, rfl, rfl, rfl, rfl, rfl, fun i => ?_, id, id, rfl, rfl, fun _ => rfl, fun _ h => h⟩
  rw [State.port_raise]
  obtain ⟨h1, h2, h3, h4, h5, h6, h7⟩ := Port.offer_rest (s.port i) n s.uptime
  exact ⟨h1, h2, h3, h4, h5, h6, h7, fun h => Port.ok_offer h n _⟩

theorem Frame.raiseAll (s : State) (ns : List Notice) : Frame s (s.raiseAll ns) := by
  induction ns generalizing s with
  | nil => exact .refl s
  | cons n ns ih => exact (Frame.raise s n).trans (ih _)

/-! ### Velocity and thrust -/

theorem Frame.setLimit (s : State) (f : LimitFlag) : Frame s (s.setLimit f) := by
  unfold State.setLimit
  split
  · exact .refl s
  · exact Frame.after (Frame.raise _ _) (Frame.quiet s s.mat s.eng s.banks _ rfl)

theorem Frame.formThrust (s : State) : Frame s s.formThrust := by
  unfold State.formThrust
  split
  · exact Frame.quiet s s.mat s.eng s.banks _ rfl
  · dsimp only
    split
    · exact Frame.quiet s s.mat s.eng s.banks _ rfl
    · exact Frame.after (Frame.setLimit _ _) (Frame.quiet s s.mat s.eng s.banks _ rfl)

theorem Frame.formTarget (s : State) : Frame s s.formTarget := by
  unfold State.formTarget
  split
  · dsimp only
    split
    · exact Frame.quiet s s.mat s.eng s.banks _ rfl
    · exact Frame.after (Frame.setLimit _ _) (Frame.quiet s s.mat s.eng s.banks _ rfl)
  · exact .refl s

theorem Frame.startDwell (s : State) : Frame s s.startDwell := Frame.quiet s s.mat s.eng s.banks _ rfl

/-! ### Banks -/

theorem Arbiter.slots_tell (b : Bank) (a : Arbiter) (w : ArbiterWord) : (Arbiter.tell b a w).slots.length = a.slots.length := by
  cases w with
  | join k =>
    unfold Arbiter.tell Arbiter.join
    dsimp only
    split <;> rfl
  | leave => rfl
  | release =>
    show (List.map _ _).length = _
    rw [List.length_map]
  | becomeStart => rfl

theorem Arbiter.slots_words (b : Bank) : ∀ (ws : List ArbiterWord) (a : Arbiter),
    (ws.foldl (Arbiter.tell b) a).slots.length = a.slots.length
  | [], _ => rfl
  | w :: ws, a => (Arbiter.slots_words b ws _).trans (Arbiter.slots_tell b a w)

theorem Frame.commitBank (s : State) (o : BankOut) {n : Nat} {b : Bank} (hb : s.bank n = some b) (ho : o.bank.fixed = b.fixed)
    (ha : b.state.placed (s.arb.queued n) → o.agrees b.state (s.arb.queued n)) : Frame s (s.commitBank o) := by
  have key : ∀ fl : FieldLine, fl = { s.fl with queue := fl.queue } →
      (s.CommandQueueOk → (fl.queue.map CommandEntry.address).Nodup) →
      Frame s { s with banks := setBank o.bank s.banks, fl := fl, arb := o.words.foldl (Arbiter.tell o.bank) s.arb } :=
    fun fl h1 h2 =>
      ⟨rfl, rfl, rfl, rfl, rfl, rfl, rfl, rfl, rfl, rfl, rfl, h1, fun _ => PortFrame.refl _, h2,
        fun h => Arbiter.distinct_words o.bank o.words h, Arbiter.slots_words _ _ _, rfl, fixed_setBank hb ho,
        fun d f => (ha (f.placed hb d)).fits hb ho d f⟩
  unfold State.commitBank
  dsimp only
  have base : Frame s
      ({ s with
        banks := setBank o.bank s.banks
        fl :=
          match o.command with
          | some c => s.fl.enqueue { address := o.bank.address, command := c }
          | none => s.fl
        arb := o.words.foldl (Arbiter.tell o.bank) s.arb }.raiseAll o.notices) := by
    refine Frame.trans (key _ ?_ ?_) (Frame.raiseAll _ _)
    · split <;> rfl
    · intro h
      split
      · exact nodup_enqueueCommand _ h
      · exact h
  split
  · exact base
  · exact base.trans (Frame.formThrust _)

theorem Frame.handDemand (s : State) (n : Nat) (m : Demand) : Frame s (s.handDemand n m) := by
  unfold State.handDemand
  split
  · exact .refl s
  · rename_i b h
    refine Frame.commitBank s _ h ?_ (fun k => ?_)
    · split
      · exact (fixed_actOnDemand _ _).trans rfl
      · rfl
    · split
      · exact agrees_actOnDemand _ { b with demand := m } _ k
      · exact agrees_only k rfl

theorem Frame.handDemands (s : State) (every : Bool) : Frame s (s.handDemands every) := by
  unfold State.handDemands
  generalize s.demandList = l
  induction l generalizing s with
  | nil => exact .refl s
  | cons p ps ih =>
    refine Frame.trans ?_ (ih _)
    unfold State.handOne
    split
    · exact Frame.handDemand s _ _
    · exact .refl s

theorem Frame.refreshHeat (s : State) : Frame s s.refreshHeat :=
  Frame.quiet s s.mat _ _ s.vel rfl (fixed_flagHeat _ _) rfl (states_flagHeat _ _)

theorem Frame.finish (s : State) : Frame s s.finish := by
  unfold State.finish
  split
  · exact (Frame.refreshHeat s).trans (Frame.handDemands _ _)
  · exact .refl s

theorem Frame.finishAll (s : State) : Frame s s.finishAll := by
  unfold State.finishAll
  split
  · exact (Frame.refreshHeat s).trans (Frame.handDemands _ _)
  · exact .refl s

/-! ### Engine states -/

theorem Frame.setEngine (s : State) (st : EngineState) : Frame s (s.setEngine st) := by
  unfold State.setEngine
  split
  · exact .refl s
  · exact Frame.after (Frame.raise _ _) (Frame.quiet s s.mat _ s.banks s.vel rfl)

theorem Frame.dropLatch (s : State) : Frame s s.dropLatch := Frame.quiet s s.mat _ s.banks _ rfl

theorem Frame.endActive (s : State) : Frame s s.endActive := Frame.quiet s s.mat _ s.banks _ rfl

theorem Frame.enterQuiet (s : State) : Frame s s.enterQuiet :=
  Frame.after (Frame.setEngine _ _)
    (Frame.after (Frame.quiet s.dropLatch.endActive s.mat _ _ _ rfl (fixed_clearFailures _) rfl (states_clearFailures _)) ((Frame.dropLatch s).trans (Frame.endActive _)))

theorem Frame.enterAlert (s : State) : Frame s s.enterAlert :=
  Frame.after (Frame.setEngine _ _)
    (Frame.after (Frame.quiet s.dropLatch.endActive s.mat _ s.banks s.dropLatch.endActive.vel rfl)
      ((Frame.dropLatch s).trans (Frame.endActive _)))

theorem Frame.enterHold (s : State) (r : HoldReason) : Frame s (s.enterHold r) := by
  unfold State.enterHold
  dsimp only
  split
  · exact Frame.setEngine _ _
  · exact Frame.after (Frame.after (Frame.setEngine _ _) (Frame.endActive _)) (Frame.quiet s s.mat _ s.banks s.vel rfl)

/-! ### Matcher -/

theorem Frame.mat (s : State) (m : Matcher) : Frame s { s with mat := m } := Frame.quiet s m s.eng s.banks s.vel rfl

theorem Frame.freshMatch (s : State) : Frame s s.freshMatch := by
  unfold State.freshMatch
  split
  · dsimp only
    split
    · exact Frame.after (Frame.raise _ _) (Frame.mat s _)
    · exact Frame.mat s _
  · exact Frame.mat s _

theorem Frame.handRow (s : State) : Frame s s.handRow := Frame.mat s _

theorem Frame.settleFreeze (s : State) : Frame s s.settleFreeze := by
  unfold State.settleFreeze
  split
  · exact Frame.mat s _
  · exact .refl s

theorem Frame.ordinaryEvaluation (s : State) (f : Nat) : Frame s (s.ordinaryEvaluation f) := by
  unfold State.ordinaryEvaluation
  split
  · exact Frame.mat s _
  · dsimp only
    split
    · exact Frame.mat s _
    · exact Frame.after (Frame.raise _ _) (Frame.mat s _)

theorem Frame.matcherTakesIncident (s : State) (d z : Bool) : Frame s (s.matcherTakesIncident d z) := by
  unfold State.matcherTakesIncident
  split
  · split
    · exact ((Frame.mat s _).trans (Frame.freshMatch _)).trans (Frame.settleFreeze _)
    · split
      · exact .refl s
      · split
        · exact Frame.mat s _
        · split
          · exact Frame.ordinaryEvaluation s _
          · exact .refl s
  · exact Frame.mat s _

theorem Frame.matcherTakesCondition (s : State) (c : LineCondition) : Frame s (s.matcherTakesCondition c) := by
  unfold State.matcherTakesCondition
  dsimp only
  split
  · exact Frame.after (Frame.settleFreeze _) (Frame.mat s _)
  · exact Frame.mat s _

theorem Frame.matcherTakesRefix (s : State) : Frame s s.matcherTakesRefix := by
  unfold State.matcherTakesRefix
  split
  · exact ((Frame.mat s _).trans (Frame.freshMatch _)).trans (Frame.settleFreeze _)
  · exact .refl s

/-! ### Commit and evaluation -/

theorem Frame.eng (s : State) (e : Engine) (h : e.trains = s.eng.trains) : Frame s { s with eng := e } :=
  Frame.quiet s s.mat e s.banks s.vel h

theorem Frame.latchDirection (s : State) (d : Dir) (i : Nat) (r : Row) : Frame s (s.latchDirection d i r) :=
  Frame.after (Frame.formThrust _) (Frame.after (Frame.formTarget _) (Frame.after (Frame.startDwell _)
    (Frame.after (Frame.raise _ _) (Frame.after (Frame.setEngine _ _) (Frame.quiet s s.mat _ s.banks _ rfl)))))

theorem Frame.commitAttempt (s : State) : Frame s s.commitAttempt := by
  unfold State.commitAttempt
  split
  · exact Frame.enterHold s _
  · split
    · exact Frame.enterHold s _
    · refine ((Frame.freshMatch s).trans (Frame.handRow _)).trans ?_
      dsimp only
      split
      · split
        · exact Frame.latchDirection _ _ _ _
        · exact Frame.enterHold _ _
      · exact .refl _

theorem Frame.advise (s : State) : Frame s s.advise := by
  unfold State.advise
  split
  · split
    · dsimp only
      split <;> split <;>
        first
        | exact (Frame.raise _ _).trans (Frame.raise _ _)
        | exact Frame.raise _ _
        | exact .refl s
    · exact .refl s
  · exact .refl s

theorem Frame.rowChange (s : State) : Frame s s.rowChange := by
  unfold State.rowChange
  split
  · dsimp only
    split
    · exact Frame.formTarget s
    · exact Frame.after (Frame.after (Frame.formTarget _) (Frame.startDwell _)) (Frame.eng s _ rfl)
  · exact .refl s

theorem Frame.returnActive (s : State) : Frame s s.returnActive :=
  Frame.after (Frame.formThrust _) (Frame.after (Frame.formTarget _) (Frame.after (Frame.startDwell _)
    (Frame.after (Frame.setEngine _ _) (Frame.eng s _ rfl))))

theorem Frame.evaluateFull (s : State) (n : Nat) (rerun rose : Bool) : Frame s (s.evaluateFull n rerun rose) := by
  unfold State.evaluateFull
  split <;> (repeat' split) <;>
    first
    | exact Frame.enterAlert s
    | exact Frame.commitAttempt s
    | exact .refl s
    | exact (Frame.dropLatch s).trans (Frame.commitAttempt _)
    | exact Frame.after (Frame.enterHold _ _) (Frame.eng s _ rfl)
    | exact Frame.returnActive s
    | exact Frame.dropLatch s

theorem Frame.evaluate (s : State) (rerun : Bool) : Frame s (s.evaluate rerun) := by
  unfold State.evaluate
  split
  · refine Frame.trans (Frame.eng s { s.eng with confirmed := s.confirmedCount } rfl) ?_
    dsimp only
    split
    · split
      · exact .refl _
      · exact Frame.enterQuiet _
    · exact Frame.evaluateFull _ _ _ _
  · exact .refl s

theorem Frame.rerunBlocked (s : State) : Frame s s.rerunBlocked := by
  unfold State.rerunBlocked
  split
  · exact Frame.commitAttempt s
  · exact .refl s

/-- A row change when one has been handed on, and the engine's end of the hand-off. -/
theorem Frame.rowThenFinish (s : State) (b : Bool) : Frame s (if b then s.rowChange else s).finish := by
  split
  · exact (Frame.rowChange s).trans (Frame.finish _)
  · exact Frame.finish s

theorem Frame.engineTakesIncident (s : State) (rerun moved : Bool) : Frame s (s.engineTakesIncident rerun moved) :=
  (Frame.evaluate s rerun).trans (Frame.rowThenFinish _ moved)

theorem Frame.engineTakesRow (s : State) (moved : Bool) : Frame s (s.engineTakesRow moved) :=
  (Frame.rerunBlocked s).trans (Frame.rowThenFinish _ moved)

theorem Frame.engineTakesPlan (s : State) (moved : Bool) : Frame s (s.engineTakesPlan moved) := by
  unfold State.engineTakesPlan
  refine Frame.trans ?_ (Frame.rowThenFinish _ moved)
  split
  · split
    · exact Frame.commitAttempt s
    · exact .refl s
  · exact Frame.commitAttempt s
  · exact .refl s

theorem Frame.engineTakesDetails (s : State) (i : Nat) : Frame s (s.engineTakesDetails i) := by
  have h : Frame s (if s.eng.latch.any (fun c => c.index == i) then s.advise else s) := by
    split
    · exact Frame.advise s
    · exact .refl s
  unfold State.engineTakesDetails
  dsimp only
  split
  · exact h.trans ((Frame.rerunBlocked _).trans (Frame.finish _))
  · exact h.trans (Frame.finish _)

theorem Frame.engineTakesOccupancy (s : State) : Frame s s.engineTakesOccupancy :=
  (Frame.advise s).trans ((Frame.rerunBlocked _).trans (Frame.finish _))

theorem Frame.leaveStartup (s : State) : Frame s s.leaveStartup := by
  unfold State.leaveStartup
  dsimp only
  have h : Frame s (if s.banks.any (fun b => b.state.foundTurning) then s.setEngine .resetHold else s.enterQuiet) := by
    split
    · exact Frame.setEngine s _
    · exact Frame.enterQuiet s
  have w : ∀ t : State, Frame t t.writeDemands := fun t => Frame.quiet t t.mat t.eng _ t.vel rfl (by rw [List.map_map]; rfl) rfl (by unfold bankStates; rw [List.map_map]; rfl)
  revert h
  generalize (if s.banks.any (fun b => b.state.foundTurning) then s.setEngine .resetHold else s.enterQuiet) = t
  intro h
  split
  · exact (h.trans (w _)).trans (Frame.finishAll _)
  · exact (h.trans (w _)).trans ((Frame.evaluate _ _).trans (Frame.finishAll _))

theorem Frame.engineTakesBanks (s : State) : Frame s s.engineTakesBanks := by
  unfold State.engineTakesBanks
  split
  · split
    · exact .refl s
    · exact Frame.leaveStartup s
  · exact Frame.finish s

/-! ### Rounds -/

theorem Frame.vel (s : State) (v : Velocity) (hv : v.stations.map Station.fixed = s.vel.stations.map Station.fixed) :
    Frame s { s with vel := v } := Frame.quiet s s.mat s.eng s.banks v rfl rfl hv

/-- Station records changed one by one, what stands in them kept. -/
theorem fixed_mapStations {f : Station → Station} (h : ∀ x, (f x).fixed = x.fixed) (l : List Station) :
    (l.map f).map Station.fixed = l.map Station.fixed := by
  rw [List.map_map]
  exact List.map_congr_left (fun x _ => h x)

theorem Frame.clearMarks (s : State) : Frame s s.clearMarks := Frame.vel s _ (by exact fixed_mapStations (fun x => by rfl) _)

theorem Frame.setStage (s : State) (n : Nat) : Frame s (s.setStage n) :=
  Frame.after (Frame.after (Frame.finish _) (Frame.startDwell _)) (Frame.eng s { s.eng with stage := some n } rfl)

theorem Frame.completeRound (s : State) : Frame s s.completeRound := by
  unfold State.completeRound
  split
  · refine Frame.trans (t := s.formEstimate) ?_ (Frame.trans ?_ (Frame.clearMarks _))
    · unfold State.formEstimate
      dsimp only
      split
      · exact Frame.vel s _ (by exact fixed_mapStations (fun x => by rfl) _)
      · exact Frame.after (Frame.raise _ _) (Frame.vel s _ (by exact fixed_mapStations (fun x => by rfl) _))
    · unfold State.evaluateStaging State.stageOn
      (repeat' split) <;>
        first
        | exact .refl _
        | exact Frame.setStage _ _
        | exact Frame.setLimit _ _
        | (dsimp only; (repeat' split) <;>
            first
            | exact .refl _
            | exact Frame.setStage _ _
            | exact Frame.setLimit _ _)
  · exact .refl s

theorem Frame.stationPolled (s : State) (n : Nat) (r : Option Reading) : Frame s (s.stationPolled n r) :=
  Frame.after (Frame.completeRound _) (Frame.vel s _ (by refine fixed_mapStations (fun x => ?_) _; split <;> rfl))

/-! ### The response alone -/

theorem Frame.responseOnly {s t : State} (h : Frame s t) : s.ResponseOnly t := by
  refine ⟨?_, fun i => ?_, h.slots, h.stations, h.banks⟩
  · have e : t.eng = { t.eng with trains := s.eng.trains } := by rw [← h.trains]
    have e2 := h.line
    cases t
    obtain ⟨h1, h2, h3, h4, h5, h6, h7, h8, h9, h10, h11, h12, _⟩ := h
    simp only at *
    subst h1 h2 h3 h4 h5 h6 h7 h8 h9 h10
    rw [← e, ← e2]
  · obtain ⟨h1, h2, h3, h4, h5, h6, h7, _⟩ := h.ports i
    dsimp only
    rw [← h1, ← h2, ← h3, ← h4, ← h5, ← h6, ← h7]

end Sys2Proof.Machine
end

