-- ==== Sys2Proof/Laws/Demands.lean ====
section
/-! SUPPORT. What the engine's end of a hand-off leaves alone in the engine and the velocity loop: only the heat zone, the committed thrust and
the limit record may differ there; and what a changed bank record does to the table. -/

namespace Sys2Proof.Machine

open Sys2Proof

/-- Matches stand, the engine's registers but the heat zone, the loop's registers but thrust and limits. -/
structure DemandFrame (s t : State) : Prop where
  mat : t.mat = s.mat
  eng : t.eng = { s.eng with heat := t.eng.heat }
  vel : t.vel = { s.vel with thrust := t.vel.thrust, limits := t.vel.limits }

theorem DemandFrame.refl (s : State) : DemandFrame s s := ⟨rfl, rfl, rfl⟩

theorem DemandFrame.trans {s t u : State} (h : DemandFrame s t) (k : DemandFrame t u) : DemandFrame s u :=
  ⟨k.mat.trans h.mat, by rw [k.eng, h.eng], by rw [k.vel, h.vel]⟩

/-- Two frames in a row, the later one first. -/
theorem DemandFrame.after {s t u : State} (k : DemandFrame t u) (h : DemandFrame s t) : DemandFrame s u := h.trans k

theorem DemandFrame.raise (s : State) (n : Notice) : DemandFrame s (s.raise n) := ⟨rfl, rfl, rfl⟩

theorem DemandFrame.raiseAll (s : State) (ns : List Notice) : DemandFrame s (s.raiseAll ns) := by
  induction ns generalizing s with
  | nil => exact .refl s
  | cons n ns ih => exact (DemandFrame.raise s n).trans (ih _)

theorem DemandFrame.setLimit (s : State) (f : LimitFlag) : DemandFrame s (s.setLimit f) := by
  unfold State.setLimit
  split
  · exact .refl s
  · exact ⟨rfl, rfl, rfl⟩

theorem DemandFrame.formThrust (s : State) : DemandFrame s s.formThrust := by
  unfold State.formThrust
  split
  · exact ⟨rfl, rfl, rfl⟩
  · dsimp only
    split
    · exact ⟨rfl, rfl, rfl⟩
    · exact DemandFrame.after (DemandFrame.setLimit _ _) ⟨rfl, rfl, rfl⟩

theorem DemandFrame.commitBank (s : State) (o : BankOut) : DemandFrame s (s.commitBank o) := by
  unfold State.commitBank
  dsimp only
  split
  · exact DemandFrame.after (DemandFrame.raiseAll _ _) ⟨rfl, rfl, rfl⟩
  · exact DemandFrame.after (DemandFrame.formThrust _) (DemandFrame.after (DemandFrame.raiseAll _ _) ⟨rfl, rfl, rfl⟩)

theorem DemandFrame.handDemand (s : State) (n : Nat) (m : Demand) : DemandFrame s (s.handDemand n m) := by
  unfold State.handDemand
  split
  · exact .refl s
  · exact DemandFrame.commitBank s _

theorem DemandFrame.handDemands (s : State) (every : Bool) : DemandFrame s (s.handDemands every) := by
  unfold State.handDemands
  generalize s.demandList = l
  induction l generalizing s with
  | nil => exact .refl s
  | cons p ps ih =>
    refine DemandFrame.trans ?_ (ih _)
    unfold State.handOne
    split
    · exact DemandFrame.handDemand s _ _
    · exact .refl s

theorem DemandFrame.finish (s : State) : DemandFrame s s.finish := by
  unfold State.finish
  split
  · exact DemandFrame.after (DemandFrame.handDemands s.refreshHeat _) ⟨rfl, rfl, rfl⟩
  · exact .refl s

theorem DemandFrame.finishAll (s : State) : DemandFrame s s.finishAll := by
  unfold State.finishAll
  split
  · exact DemandFrame.after (DemandFrame.handDemands s.refreshHeat _) ⟨rfl, rfl, rfl⟩
  · exact .refl s

/-! ### One record replaced -/

theorem find_setBank {l : List Bank} {n : Nat} {b : Bank} (c : Bank) (h : l.find? (fun x => x.number == n) = some b) (hc : c.number = n) :
    (setBank c l).find? (fun x => x.number == n) = some c := by
  induction l with
  | nil => cases h
  | cons x l ih =>
    unfold setBank at *
    rw [List.map_cons]
    by_cases k : x.number = n
    · rw [if_pos (k.trans hc.symm), List.find?_cons_of_pos (by simp [hc])]
    · rw [if_neg (by rw [hc]; exact k), List.find?_cons_of_neg (by simp [k])]
      rw [List.find?_cons_of_neg (by simp [k])] at h
      exact ih h

theorem find_setBank_other {l : List Bank} {n : Nat} (c : Bank) (hc : c.number ≠ n) :
    (setBank c l).find? (fun x => x.number == n) = l.find? (fun x => x.number == n) := by
  induction l with
  | nil => rfl
  | cons x l ih =>
    unfold setBank at *
    rw [List.map_cons]
    by_cases k : x.number = c.number
    · rw [if_pos k, List.find?_cons_of_neg (by simp [hc]), List.find?_cons_of_neg (by simp [k, hc]), ih]
    · rw [if_neg k]
      by_cases e : x.number = n
      · rw [List.find?_cons_of_pos (by simp [e]), List.find?_cons_of_pos (by simp [e])]
      · rw [List.find?_cons_of_neg (by simp [e]), List.find?_cons_of_neg (by simp [e]), ih]

theorem State.banks_setLimit (s : State) (f : LimitFlag) : (s.setLimit f).banks = s.banks := by
  unfold State.setLimit
  split <;> rfl

theorem State.banks_formThrust (s : State) : s.formThrust.banks = s.banks := by
  unfold State.formThrust
  split
  · rfl
  · dsimp only
    split
    · rfl
    · exact State.banks_setLimit _ _

theorem State.banks_raiseAll (s : State) (ns : List Notice) : (s.raiseAll ns).banks = s.banks := by
  induction ns generalizing s with
  | nil => rfl
  | cons n ns ih => exact ih _

/-- The bank table after an event is carried out. -/
theorem State.banks_commitBank (s : State) (o : BankOut) : (s.commitBank o).banks = setBank o.bank s.banks := by
  unfold State.commitBank
  dsimp only
  split
  · exact State.banks_raiseAll _ _
  · rw [State.banks_formThrust]
    exact State.banks_raiseAll _ _

/-- The record itself after an event is carried out. -/
theorem State.bank_commitBank {s : State} {n : Nat} {b : Bank} (h : s.bank n = some b) (o : BankOut) (ho : o.bank.number = n) :
    (s.commitBank o).bank n = some o.bank := by
  unfold State.bank
  rw [State.banks_commitBank]
  exact find_setBank o.bank h ho

/-- The other records stand. -/
theorem State.bank_commitBank_other (s : State) {n : Nat} (o : BankOut) (ho : o.bank.number ≠ n) : (s.commitBank o).bank n = s.bank n := by
  unfold State.bank
  rw [State.banks_commitBank]
  exact find_setBank_other o.bank ho

end Sys2Proof.Machine
end

