-- ==== Sys2Proof/Laws/Library.lean ====
section
/-! SUPPORT. The frame of the library's work: what the install of a default plan, the abort of EDIT and a change of token holder leave alone.
Beside the response's registers only the library and the plan references may differ. -/

namespace Sys2Proof.Machine

open Sys2Proof

/-- The state before and after work of the library and the plan selector. -/
structure LibFrame (s t : State) : Prop where
  uptime : t.uptime = s.uptime
  strap : t.strap = s.strap
  keys : t.keys = s.keys
  token : t.token = s.token
  det : t.det = s.det
  inc : t.inc = s.inc
  freeIx : t.freeIx = s.freeIx
  pending : t.pending = s.pending
  trains : t.eng.trains = s.eng.trains
  line : t.fl = { s.fl with queue := t.fl.queue }
  ports : ∀ i, PortFrame (s.port i) (t.port i)
  commands : s.CommandQueueOk → t.CommandQueueOk
  starts : s.StartQueueOk → t.StartQueueOk
  banks : s.BanksDistinct → t.BanksDistinct
  fits : s.BanksDistinct → s.SlotsOk → t.SlotsOk
  stack : s.StackOk → t.StackOk

theorem Frame.toLib {s t : State} (h : Frame s t) : LibFrame s t :=
  ⟨h.uptime, h.strap, h.keys, h.token, h.det, h.inc, h.freeIx, h.pending, h.trains, h.line, h.ports, h.commands, h.starts,
    h.distinct, h.fits,
    fun k => by unfold State.StackOk; rw [h.plans]; exact k⟩

theorem LibFrame.refl (s : State) : LibFrame s s := (Frame.refl s).toLib

theorem LibFrame.trans {s t u : State} (h : LibFrame s t) (k : LibFrame t u) : LibFrame s u :=
  ⟨k.uptime.trans h.uptime, k.strap.trans h.strap, k.keys.trans h.keys, k.token.trans h.token, k.det.trans h.det,
    k.inc.trans h.inc, k.freeIx.trans h.freeIx, k.pending.trans h.pending, k.trains.trans h.trains, by rw [k.line, h.line],
    fun i => (h.ports i).trans (k.ports i), k.commands ∘ h.commands, k.starts ∘ h.starts, k.banks ∘ h.banks, fun d f => k.fits (h.banks d) (h.fits d f),
    k.stack ∘ h.stack⟩

/-- A change of the library and of the plan references alone. -/
theorem LibFrame.registers (s : State) (l : Library) (p : PlanSelector) (h : s.plans.stack.length ≤ 8 → p.stack.length ≤ 8) :
    LibFrame s { s with lib := l, plans := p } :=
  ⟨rfl, rfl, rfl, rfl, rfl, rfl, rfl, rfl, rfl, rfl, fun _ => PortFrame.refl _, id, id, id, fun _ f => f, h⟩

/-- The active reference set: the reference, and then the response's work. -/
theorem Frame.setActive (s : State) (p : Option Nat) : Frame { s with plans := { s.plans with active := p } } (s.setActive p) := by
  unfold State.setActive
  split
  · rename_i h
    rw [← h]
    exact .refl _
  · exact ((Frame.freshMatch _).trans (Frame.handRow _)).trans (Frame.engineTakesPlan _ _)

theorem LibFrame.setActive (s : State) (p : Option Nat) : LibFrame s (s.setActive p) :=
  (LibFrame.registers s s.lib { s.plans with active := p } id).trans (Frame.setActive s p).toLib

/-- A plan installed: the stack empty, the active reference, and then the response's work. -/
theorem Frame.installPlan (s : State) (p : Option Nat) : Frame { s with plans := { active := p, stack := [] } } (s.installPlan p) :=
  Frame.setActive { s with plans := { s.plans with stack := [] } } p

theorem LibFrame.installPlan (s : State) (p : Option Nat) : LibFrame s (s.installPlan p) :=
  (LibFrame.registers s s.lib { active := p, stack := [] } (fun _ => Nat.zero_le _)).trans (Frame.installPlan s p).toLib

theorem LibFrame.installDefault (s : State) (r : Option SiteStore) : LibFrame s (s.installDefault r) := LibFrame.installPlan s _

theorem LibFrame.abortEdit (s : State) (c : AbortCause) : LibFrame s (s.abortEdit c) := by
  unfold State.abortEdit
  split
  · split
    · exact (LibFrame.registers s _ s.plans id).trans (LibFrame.installPlan _ _)
    · exact LibFrame.registers s _ s.plans id
  · exact .refl s

/-- The record an abort reads when the checked NV record and the record in use are one, or the NV record is unusable (R184, R183). -/
theorem State.abortRecord_same {s : State} (h : s.lib.nv.site = .unusable ∨ checkedSite s.lib.nv s.lib.siteCut = s.lib.inUse) :
    s.abortRecord = s.lib.inUse := by
  unfold State.abortRecord
  rcases h with h | h
  · rw [h]
  · split
    · rw [h, ite_self]
    · rfl

/-- The record an abort reads is one of the two that R30 and R184 name. -/
theorem State.abortRecord_cases (s : State) : s.abortRecord = checkedSite s.lib.nv s.lib.siteCut ∨ s.abortRecord = s.lib.inUse := by
  unfold State.abortRecord
  split
  · split
    · exact .inr rfl
    · exact .inl rfl
  · exact .inr rfl

/-- The site record in use stands through an abort of EDIT. -/
theorem State.abortEdit_inUse (s : State) (c : AbortCause) : (s.abortEdit c).lib.inUse = s.lib.inUse := by
  unfold State.abortEdit
  split
  · split
    · rw [(Frame.installPlan _ _).lib]
    · rfl
  · rfl

theorem LibFrame.changeToken (s : State) (h : Option PortId) (c : TokenCause) :
    LibFrame { s with token := h } (s.changeToken h c) := by
  unfold State.changeToken
  dsimp only
  have k : LibFrame { s with token := h } ({ s with token := h }.raise (.tokenChanged h c)) := (Frame.raise _ _).toLib
  split
  · exact k.trans (LibFrame.abortEdit _ _)
  · exact k

/-- The plan an abort installs depends on the library's NV, on the record in use and on the last start-up check alone. -/
theorem State.abortDefault_congr {s t : State} (hn : t.lib.nv = s.lib.nv) (hu : t.lib.inUse = s.lib.inUse)
    (hc : t.lib.siteCut = s.lib.siteCut) : t.abortDefault = s.abortDefault := by
  unfold State.abortDefault State.abortRecord
  rw [hn, hu, hc]

/-- The registers after an abort of an open EDIT (R184). -/
theorem State.abortEdit_open {s : State} (h : s.lib.mode = .edit) (c : AbortCause) :
    (s.abortEdit c).lib =
        { s.lib with
          mode := if s.lib.inFlight.isNone then .service else .closing, opener := none, staged := none, abortCause := c } ∧
      (s.abortEdit c).plans = if s.lib.inFlight.isNone then { active := s.abortDefault, stack := [] } else s.plans := by
  unfold State.abortEdit
  rw [if_pos h]
  split
  · exact ⟨(Frame.installPlan _ _).lib, (Frame.installPlan _ _).plans⟩
  · exact ⟨rfl, rfl⟩

/-- The registers after the token has left the opener of EDIT (R162). -/
theorem State.changeToken_open {s : State} {o : PortId} (hm : s.lib.mode = .edit) (ho : s.lib.opener = some o) {h : Option PortId}
    (hn : h ≠ some o) (c : TokenCause) :
    (s.changeToken h c).lib =
        { s.lib with
          mode := if s.lib.inFlight.isNone then .service else .closing, opener := none, staged := none, abortCause := .token } ∧
      (s.changeToken h c).plans = if s.lib.inFlight.isNone then { active := s.abortDefault, stack := [] } else s.plans := by
  unfold State.changeToken
  dsimp only
  have e : ({ s with token := h }.raise (.tokenChanged h c)).abortDefault = s.abortDefault := rfl
  have el : ({ s with token := h }.raise (.tokenChanged h c)).lib = s.lib := rfl
  have ep : ({ s with token := h }.raise (.tokenChanged h c)).plans = s.plans := rfl
  revert e el ep
  generalize { s with token := h }.raise (.tokenChanged h c) = w
  intro e el ep
  rw [if_pos ⟨by rw [el]; exact hm, by rw [el, ho]; exact fun k => hn k.symm⟩]
  obtain ⟨a, b⟩ := State.abortEdit_open (s := w) (by rw [el]; exact hm) .token
  rw [el] at a
  rw [e, el, ep] at b
  exact ⟨a, b⟩

/-- The registers after a long operation has ended in CLOSING (R178, R184). -/
theorem State.endOperation_closing {s : State} (h : s.lib.mode = .closing) (o : InFlight) (a : Nat) (r : OperationResult) (d e : Nat) :
    (s.endOperation o a r d e).lib.mode = .service ∧ (s.endOperation o a r d e).lib.inFlight = none ∧
      (s.endOperation o a r d e).plans = { active := (s.endOperation o a r d e).abortDefault, stack := [] } := by
  unfold State.endOperation
  dsimp only
  have hm : (s.clearMarker.recordOperation o.kind a o.subjB r d e o.initiator).lib.mode = .closing := h
  have hf : (s.clearMarker.recordOperation o.kind a o.subjB r d e o.initiator).lib.inFlight = none := rfl
  revert hm hf
  generalize s.clearMarker.recordOperation o.kind a o.subjB r d e o.initiator = t
  intro hm hf
  rw [if_pos hm]
  have k := Frame.installPlan { t with lib := { t.lib with mode := .service } } t.abortDefault
  have hl := k.lib
  dsimp only at hl
  refine ⟨by rw [hl], by rw [hl]; exact hf, k.plans.trans ?_⟩
  exact congrArg (fun x => ({ active := x, stack := [] } : PlanSelector)) (State.abortDefault_congr (by rw [hl]) (by rw [hl]) (by rw [hl])).symm

end Sys2Proof.Machine
end

