-- ==== Sys2Proof/Laws/Incidents.lean ====
section
/-! SUPPORT. What the Incident Register's and the Detection Line Receiver's shared operations do to the incident table and the line's registers,
and what they leave alone. -/

namespace Sys2Proof.Machine

open Sys2Proof

/-- The governing index recomputed, and nothing else but notices. -/
theorem Frame.recomputeGoverning (s : State) :
    Frame { s with inc := { s.inc with governing := governingOf s.inc.table } } s.recomputeGoverning := by
  unfold State.recomputeGoverning
  dsimp only
  split
  · rename_i h
    rw [h]
    exact .refl _
  · exact Frame.raise _ _

theorem Frame.details (l : List Nat) : ∀ s : State, Frame s (l.foldl State.engineTakesDetails s) := by
  induction l with
  | nil => exact fun s => .refl s
  | cons a l ih => exact fun s => (Frame.engineTakesDetails s a).trans (ih _)

/-- A hand-off is the response's work. -/
theorem Frame.handOff (s : State) (before : List (Option Incident)) (governed : Option Nat) : Frame s (s.handOff before governed) := by
  unfold State.handOff
  exact ((Frame.matcherTakesIncident s _ _).trans (Frame.handRow _)).trans
    ((Frame.engineTakesIncident _ _ _).trans (Frame.details _ _))

/-- A change of one record: the entry, the governing index, and the response's work. -/
theorem Frame.amend (s : State) (i : Nat) (o : Option Incident) (c : Option UpdateCause) :
    Frame { s with inc := { table := s.inc.table.set i o, governing := governingOf (s.inc.table.set i o) } } (s.amend i o c) := by
  unfold State.amend
  refine Frame.trans ?_ (Frame.handOff _ _ _)
  cases c with
  | none => exact Frame.recomputeGoverning (s.setIncident i o)
  | some k =>
    refine Frame.trans ?_ (Frame.recomputeGoverning _)
    exact Frame.raise { s with inc := { table := s.inc.table.set i o, governing := governingOf (s.inc.table.set i o) } }
      (.incidentUpdated i k 0)

/-- The detection line's registers after a condition is set (R18). -/
theorem State.setCondition_det (s : State) (c : LineCondition) (brk : Option Nat) :
    (s.setCondition c brk).det =
      if s.det.condition = c then (if c = .fault then { s.det with breakAt := brk } else s.det)
      else { s.det with condition := c, breakAt := brk, refix := s.det.refix || decide (c = .ok) } := by
  unfold State.setCondition
  split
  · rename_i h
    split
    · rename_i k
      rw [if_pos k.1]
      rfl
    · rename_i k
      split
      · rename_i hc
        have : s.det.breakAt = brk := Classical.byContradiction (fun e => k ⟨hc, e⟩)
        rw [← this]
      · rfl
  · rw [(Frame.matcherTakesCondition _ _).det]
    rfl

/-- A condition set changes the line's registers, and the rest is the matcher's work. -/
theorem Frame.setCondition (s : State) (c : LineCondition) (brk : Option Nat) :
    Frame { s with det := (s.setCondition c brk).det } (s.setCondition c brk) := by
  have e := State.setCondition_det s c brk
  revert e
  unfold State.setCondition
  split
  · split
    · intro _
      exact Frame.raise _ _
    · intro _
      exact .refl _
  · intro _
    have k := Frame.matcherTakesCondition ({ s with det :=
      { s.det with condition := c, breakAt := brk, refix := s.det.refix || decide (c = LineCondition.ok) } }.raise
      (.detectionFault c (if c = LineCondition.ok then none else brk))) c
    rw [k.det]
    exact (Frame.raise _ _).trans k

/-- A condition set leaves the engine and the banks alone (R37). -/
theorem State.setCondition_rest (s : State) (c : LineCondition) (brk : Option Nat) :
    (s.setCondition c brk).eng = s.eng ∧ (s.setCondition c brk).banks = s.banks := by
  have takes : ∀ t : State, (t.matcherTakesCondition c).eng = t.eng ∧ (t.matcherTakesCondition c).banks = t.banks := by
    intro t
    unfold State.matcherTakesCondition State.settleFreeze
    dsimp only
    split
    · split <;> exact ⟨rfl, rfl⟩
    · exact ⟨rfl, rfl⟩
  unfold State.setCondition
  split
  · split <;> exact ⟨rfl, rfl⟩
  · exact takes _

theorem Frame.lineAlive (s : State) : Frame { s with det := s.lineAlive.det } s.lineAlive := by
  unfold State.lineAlive
  split
  · exact Frame.setCondition s _ _
  · exact .refl _

theorem Frame.takeRefix (s : State) : Frame s s.takeRefix := by
  unfold State.takeRefix
  split
  · exact ((Frame.matcherTakesRefix s).trans (Frame.handRow _)).trans (Frame.engineTakesRow _ _)
  · exact .refl s

end Sys2Proof.Machine
end

