-- ==== Sys2Proof/Laws/Engine.lean ====
section
/-! SUPPORT. What entering a state, forming the target and latching a direction do to the engine's and the loop's registers; what the engine shows
after a hand-off; the governing index of a first CONFIRMED record. -/

namespace Sys2Proof.Machine

open Sys2Proof

theorem State.setEngine_eng (s : State) (st : EngineState) : (s.setEngine st).eng = { s.eng with state := st } := by
  unfold State.setEngine
  split
  · rename_i h
    rw [← h]
  · rfl

theorem State.setEngine_vel (s : State) (st : EngineState) : (s.setEngine st).vel = s.vel := by
  unfold State.setEngine
  split <;> rfl

theorem State.setEngine_mat (s : State) (st : EngineState) : (s.setEngine st).mat = s.mat := by
  unfold State.setEngine
  split <;> rfl

theorem State.setEngine_banks (s : State) (st : EngineState) : (s.setEngine st).banks = s.banks := by
  unfold State.setEngine
  split <;> rfl

theorem State.enterHold_state (s : State) (r : HoldReason) : (s.enterHold r).eng.state = .hold r := by
  unfold State.enterHold
  dsimp only
  rw [State.setEngine_eng]

/-- A target formed leaves the engine, the matcher, the banks, and the loop's registers but target and limits. -/
theorem State.formTarget_rest (s : State) :
    s.formTarget.eng = s.eng ∧ s.formTarget.mat = s.mat ∧ s.formTarget.banks = s.banks ∧
      s.formTarget.vel = { s.vel with target := s.formTarget.vel.target, limits := s.formTarget.vel.limits } := by
  unfold State.formTarget
  split
  · dsimp only
    split
    · exact ⟨rfl, rfl, rfl, rfl⟩
    · unfold State.setLimit
      split <;> exact ⟨rfl, rfl, rfl, rfl⟩
  · exact ⟨rfl, rfl, rfl, rfl⟩

/-- What a latch leaves in the registers (R48, step 7). -/
theorem State.latchDirection_registers (s : State) (d : Dir) (g : Nat) (row : Row) :
    (s.latchDirection d g row).eng.state = .active ∧ (s.latchDirection d g row).eng.latch = some { dir := d, index := g } ∧
      (s.latchDirection d g row).eng.stage = some row.base ∧
      (s.latchDirection d g row).vel.dwell = .running (siteDwell s.site) ∧ (s.latchDirection d g row).vel.held = none ∧
      (s.latchDirection d g row).mat = s.mat := by
  unfold State.latchDirection
  dsimp only
  generalize ha : ({ s with
      eng := { s.eng with latch := some { dir := d, index := g }, stage := some row.base, kept := none, snapshot := none }
      vel := { s.vel with held := none } } : State) = a
  have g1 := State.setEngine_eng a .active
  have g2 := State.setEngine_vel a .active
  have g3 := State.setEngine_mat a .active
  have g4 : (a.setEngine .active).lib = s.lib := (Frame.setEngine a .active).lib.trans (by rw [← ha])
  have g5 : (a.setEngine .active).site = s.site := by unfold State.site; rw [g4]
  generalize hb : ((a.setEngine .active).raise (.directionCommitted d)).startDwell = b
  have b1 : b.eng = { a.eng with state := .active } := by rw [← hb, ← g1]; rfl
  have b2 : b.vel = { a.vel with dwell := .running (siteDwell s.site) } := by rw [← hb, ← g2, ← g5]; rfl
  have b3 : b.mat = a.mat := by rw [← hb, ← g3]; rfl
  obtain ⟨f1, f2, _, f4⟩ := State.formTarget_rest b
  obtain ⟨q1, q2, q3⟩ := DemandFrame.formThrust b.formTarget
  rw [q2, q3, q1, f1, f2, f4, b1, b2, b3]
  subst ha
  exact ⟨rfl, rfl, rfl, rfl, rfl, rfl⟩

/-! ### The evaluation on a hand-off (R15, R46) -/

/-- Two engines with one state and one latch, and outside ACTIVE one stage count. -/
structure Engine.Follows (e f : Engine) : Prop where
  state : e.state = f.state
  latch : e.latch = f.latch
  stage : f.state ≠ .active → e.stage = f.stage

/-- Two records with one evacuation side and one linked train. -/
def Incident.sameDetails (x y : Incident) : Prop := x.evacuation = y.evacuation ∧ x.train = y.train

/-- What the matcher does with a governing record leaves the engine alone. -/
theorem State.matcherTakesIncident_eng (s : State) (a b : Bool) : (s.matcherTakesIncident a b).eng = s.eng := by
  unfold State.matcherTakesIncident State.settleFreeze State.freshMatch State.ordinaryEvaluation
  repeat' (first | rfl | (split <;> try rfl) | dsimp only)

/-- A row change keeps state and latch, and acts in ACTIVE alone (R70). -/
theorem State.rowChange_keeps (s : State) :
    s.rowChange.eng.state = s.eng.state ∧ s.rowChange.eng.latch = s.eng.latch ∧ (s.eng.state ≠ .active → s.rowChange = s) := by
  unfold State.rowChange
  split
  · rename_i h _
    dsimp only
    rw [(State.formTarget_rest _).1]
    split
    · exact ⟨rfl, rfl, fun k => absurd h k⟩
    · exact ⟨rfl, rfl, fun k => absurd h k⟩
  · exact ⟨rfl, rfl, fun _ => rfl⟩

/-- The engine's end of a hand-off shows the evaluation's state and latch, and outside ACTIVE its stage count. -/
theorem State.engineTakesIncident_follows (s : State) (rerun moved : Bool) :
    (s.engineTakesIncident rerun moved).eng.Follows (s.evaluate rerun).eng := by
  unfold State.engineTakesIncident
  dsimp only
  generalize s.evaluate rerun = v
  have k : ∀ w : State, w.eng.Follows v.eng → w.finish.eng.Follows v.eng := fun w hw => by
    rw [(DemandFrame.finish w).eng]
    exact ⟨hw.state, hw.latch, hw.stage⟩
  split
  · obtain ⟨r1, r2, r3⟩ := State.rowChange_keeps v
    exact k _ ⟨r1, r2, fun h => by rw [r3 h]⟩
  · exact k _ ⟨rfl, rfl, fun _ => rfl⟩

/-- No details are handed on where no record's evacuation side or linked train changes (R15). -/
theorem State.handDetails_none (s : State) (before : List (Option Incident))
    (h : ∀ i x y, before.getD i none = some x → s.incident i = some y → x.sameDetails y) : s.handDetails before = s := by
  unfold State.handDetails
  dsimp only
  rw [List.filter_eq_nil_iff.mpr, List.filter_eq_nil_iff.mpr]
  · rfl
  · intro i _
    split
    · rename_i x y h1 h2
      simp [(h i x y h1 h2).2]
    · simp
  · intro i _
    split
    · rename_i x y h1 h2
      simp [(h i x y h1 h2).1]
    · simp

/-- A hand-off without details: the engine shows what the evaluation of the record taken by the matcher gives. -/
theorem State.handOff_follows (s : State) (before : List (Option Incident)) (g : Option Nat)
    (h : ∀ i x y, before.getD i none = some x → s.incident i = some y → x.sameDetails y) :
    ∃ d z rerun, (s.handOff before g).eng.Follows ((s.matcherTakesIncident d z).handRow.evaluate rerun).eng := by
  unfold State.handOff
  dsimp only
  generalize (Option.any (fun r => r.sources.contains Source.detection) s.governingRecord &&
    !Option.any (fun r => r.sources.contains Source.detection) (g.bind fun i => before.getD i none)) = d
  generalize (decide (Option.map Incident.zone (g.bind fun i => before.getD i none) ≠ Option.map Incident.zone s.governingRecord)) = z
  generalize (decide (g ≠ s.inc.governing) || z) = rerun
  refine ⟨d, z, rerun, ?_⟩
  rw [State.handDetails_none]
  · exact State.engineTakesIncident_follows _ _ _
  · intro i x y h1 h2
    refine h i x y h1 ?_
    rw [← h2]
    unfold State.incident
    rw [((Frame.matcherTakesIncident s _ _).trans ((Frame.handRow _).trans (Frame.engineTakesIncident _ _ _))).inc]

/-- The same for a hand-off after one record written: the evaluation starts from the engine before, over the table written. -/
theorem State.handOff_written (s u : State) (n : Nat) (o : Option Incident) (hu : Frame (s.setIncident n o) u) (he : u.eng = s.eng)
    (h : ∀ x y, s.incident n = some x → o = some y → x.sameDetails y) :
    ∃ (d z rerun : Bool) (v : State), v = (u.recomputeGoverning.matcherTakesIncident d z).handRow ∧ v.eng = s.eng ∧
      v.inc = { table := s.inc.table.set n o, governing := governingOf (s.inc.table.set n o) } ∧
      (u.recomputeGoverning.handOff s.inc.table s.inc.governing).eng.Follows (v.evaluate rerun).eng := by
  have ui : u.inc = { s.inc with table := s.inc.table.set n o } := hu.inc
  have fr := Frame.recomputeGoverning u
  have re : u.recomputeGoverning.eng = u.eng := by
    unfold State.recomputeGoverning
    dsimp only
    split <;> rfl
  obtain ⟨d, z, a, hh⟩ := State.handOff_follows u.recomputeGoverning s.inc.table s.inc.governing (by
    intro i x y h1 h2
    unfold State.incident at h2
    rw [fr.inc, ui] at h2
    dsimp only at h2
    by_cases hi : i = n
    · subst hi
      by_cases hlt : i < s.inc.table.length
      · simp [List.getD_eq_getElem?_getD, hlt] at h2
        exact h x y h1 h2
      · have hge : s.inc.table.length ≤ i := by omega
        simp [List.getD_eq_getElem?_getD, hge] at h1
    · rw [List.getD_eq_getElem?_getD, List.getElem?_set_ne (by omega), ← List.getD_eq_getElem?_getD] at h2
      rw [h1] at h2
      cases h2
      exact ⟨rfl, rfl⟩)
  refine ⟨d, z, a, _, rfl, ?_, ?_, hh⟩
  · show (State.matcherTakesIncident _ _ _).eng = _
    rw [State.matcherTakesIncident_eng, re, he]
  · rw [((Frame.matcherTakesIncident _ _ _).trans (Frame.handRow _)).inc, fr.inc, ui]

/-- An amendment of one record that keeps its details: the engine shows the evaluation of the table written. -/
theorem State.amend_follows (s : State) (n : Nat) (o : Option Incident) (c : Option UpdateCause)
    (h : ∀ x y, s.incident n = some x → o = some y → x.sameDetails y) :
    ∃ (v : State) (rerun : Bool), v.eng = s.eng ∧
      v.inc = { table := s.inc.table.set n o, governing := governingOf (s.inc.table.set n o) } ∧
      (s.amend n o c).eng.Follows (v.evaluate rerun).eng := by
  unfold State.amend
  cases c with
  | none =>
    obtain ⟨d, z, a, v, _, hv⟩ := State.handOff_written s (s.setIncident n o) n o (.refl _) rfl h
    exact ⟨v, a, hv⟩
  | some k =>
    obtain ⟨d, z, a, v, _, hv⟩ :=
      State.handOff_written s ((s.setIncident n o).raise (.incidentUpdated n k 0)) n o (Frame.raise _ _) rfl h
    exact ⟨v, a, hv⟩

/-! ### The governing index of a first CONFIRMED record (R14) -/

/-- A CONFIRMED best so far stands against entries that are SUSPECTED or absent. -/
theorem better_keeps_confirmed (k : Nat) (r : Incident) (hr : r.cls = .confirmed) : ∀ l : List (Option Incident × Nat),
    (∀ p ∈ l, ∀ x, p.1 = some x → x.cls = .suspected) → l.foldl better (some (k, r)) = some (k, r) := by
  intro l
  induction l with
  | nil => intro _; rfl
  | cons p l ih =>
    intro h
    rw [List.foldl_cons]
    have : better (some (k, r)) p = some (k, r) := by
      unfold better
      cases hp : p.1 with
      | none => rfl
      | some x =>
        have := h p (by simp) x hp
        simp [ranksAbove, this, hr]
    rw [this]
    exact ih (fun p hp => h p (by simp [hp]))

/-- The best of entries that are SUSPECTED or absent is not CONFIRMED. -/
theorem better_of_suspected : ∀ (l : List (Option Incident × Nat)) (b : Option (Nat × Incident)),
    (∀ p ∈ l, ∀ x, p.1 = some x → x.cls = .suspected) → (∀ y, b = some y → y.2.cls = .suspected) →
    ∀ y, l.foldl better b = some y → y.2.cls = .suspected := by
  intro l
  induction l with
  | nil => intro b _ hb; exact hb
  | cons p l ih =>
    intro b h hb
    rw [List.foldl_cons]
    refine ih _ (fun p hp => h p (by simp [hp])) ?_
    intro y hy
    unfold better at hy
    cases hp : p.1 with
    | none =>
      rw [hp] at hy
      exact hb y hy
    | some x =>
      have hx := h p (by simp) x hp
      rw [hp] at hy
      cases b with
      | none => cases hy; exact hx
      | some z =>
        dsimp only at hy
        split at hy
        · cases hy; exact hx
        · cases hy; exact hb _ rfl

/-- A CONFIRMED record written into a table without one governs. -/
theorem governingOf_confirmed (l : List (Option Incident)) (k : Nat) (r : Incident) (hk : k < l.length) (hr : r.cls = .confirmed)
    (h : ∀ j x, l.getD j none = some x → x.cls = .suspected) : governingOf (l.set k (some r)) = some k := by
  unfold governingOf
  have hm : ∀ x, some x ∈ l → x.cls = .suspected := by
    intro x hx
    obtain ⟨j, hj, e⟩ := List.mem_iff_getElem.mp hx
    exact h j x (by simp [List.getD_eq_getElem?_getD, hj, e])
  rw [List.set_eq_take_append_cons_drop, if_pos hk, List.zipIdx_append, List.zipIdx_cons, List.foldl_append, List.foldl_cons]
  have sus : ∀ (m : List (Option Incident)) n, (∀ x, some x ∈ m → x.cls = .suspected) →
      ∀ p ∈ m.zipIdx n, ∀ x, p.1 = some x → x.cls = .suspected := by
    intro m n hmm p hp x hx
    obtain ⟨a, b⟩ := p
    dsimp only at hx
    subst hx
    exact hmm x (List.fst_mem_of_mem_zipIdx hp)
  have low := better_of_suspected ((l.take k).zipIdx 0) none (sus _ _ (fun x hx => hm x (List.mem_of_mem_take hx))) (by simp)
  have e : 0 + (l.take k).length = k := by
    rw [List.length_take]
    omega
  have : better (((l.take k).zipIdx 0).foldl better none) (some r, 0 + (l.take k).length) = some (k, r) := by
    rw [e]
    generalize ((l.take k).zipIdx 0).foldl better none = b at *
    unfold better
    cases b with
    | none => rfl
    | some y => simp [ranksAbove, low y rfl, hr]
  rw [this, better_keeps_confirmed k r hr _ (sus _ _ (fun x hx => hm x (List.mem_of_mem_drop hx)))]
  rfl

end Sys2Proof.Machine
end

