-- ==== Sys2Proof/Laws/Merges.lean ====
section
/-! SUPPORT. Merging (R8, R9): what one merge writes, and that three merges leave no two records of the table within the merge distance. -/

namespace Sys2Proof.Machine

open Sys2Proof

-- one theorem after another: see Laws/Frame.lean
set_option Elab.async false

/-- The first index with a property. -/
theorem find_index {p : Nat → Bool} {k : Nat} (hk : k < 4) (h : p k = true) (hb : ∀ j, j < k → p j = false) : [0, 1, 2, 3].find? p = some k := by
  match k, hk with
  | 0, _ => simp [h]
  | 1, _ => simp [h, hb 0]
  | 2, _ => simp [h, hb 0, hb 1]
  | 3, _ => simp [h, hb 0, hb 1, hb 2]

theorem State.moveLatch_inc (s : State) (l h : Nat) : (s.moveLatch l h).inc = s.inc := by
  unfold State.moveLatch
  split
  · split <;> rfl
  · rfl

theorem State.moveLatch_lib (s : State) (l h : Nat) : (s.moveLatch l h).lib = s.lib := by
  unfold State.moveLatch
  split
  · split <;> rfl
  · rfl

theorem State.moveLatch_latch (s : State) (l h : Nat) :
    (s.moveLatch l h).eng.latch = s.eng.latch.map (fun c => { c with index := if c.index = h then l else c.index }) := by
  unfold State.moveLatch
  split
  · rename_i c e
    rw [e]
    split
    · rename_i k; simp [k]
    · rename_i k; rw [e]; simp [k]
  · rename_i e; rw [e]; rfl

/-- One merge of an occupied index into another. -/
theorem State.mergeOnce_table {s : State} {l h : Nat} {x y : Incident} (hx : s.incident l = some x) (hy : s.incident h = some y) (temp : Nat) :
    (s.mergeOnce l h temp).inc.table = (s.inc.table.set l (some (x.absorb y s.uptime))).set h none := by
  unfold State.mergeOnce
  rw [hx, hy]
  dsimp only
  rw [State.moveLatch_inc]
  rfl

theorem State.mergeOnce_lib (s : State) (l h temp : Nat) : (s.mergeOnce l h temp).lib = s.lib := by
  unfold State.mergeOnce
  split
  · rw [State.moveLatch_lib]; rfl
  · rfl

/-- A pair within the merge distance is a pair of occupied indices, the lower first. -/
theorem mergePair_some {m : Nat} {table : List (Option Incident)} {l h : Nat} (e : mergePair m table = some (l, h)) :
    (l, h) ∈ indexPairs ∧ ∃ x y, table.getD l none = some x ∧ table.getD h none = some y := by
  unfold mergePair at e
  refine ⟨List.mem_of_find?_eq_some e, ?_⟩
  have k := List.find?_some e
  dsimp only at k
  split at k
  · rename_i x y hx hy; exact ⟨x, y, hx, hy⟩
  · cases k

/-- No pair within the merge distance: the records stand apart. -/
theorem apart_of_mergePair {m : Nat} {table : List (Option Incident)} (h4 : table.length = 4) (e : mergePair m table = none) : apart m table := by
  intro i j x y hij hi hj
  have bound : ∀ k z, table.getD k none = some z → k < 4 := fun k z hk => by
    by_cases h : k < table.length
    · omega
    · rw [List.getD_eq_getElem?_getD, List.getElem?_eq_none (by omega)] at hk; cases hk
  have all : ∀ j < 4, ∀ i < j, (i, j) ∈ indexPairs := by decide
  have hm := all j (bound j y hj) i hij
  have k := List.find?_eq_none.mp e (i, j) hm
  dsimp only at k
  rw [hi, hj] at k
  simpa using k

/-- Records that stand apart have no pair within the merge distance. -/
theorem mergePair_of_apart {m : Nat} {table : List (Option Incident)} (h : apart m table) : mergePair m table = none := by
  cases e : mergePair m table with
  | none => rfl
  | some p =>
    obtain ⟨l, r⟩ := p
    obtain ⟨hm, x, y, hx, hy⟩ := mergePair_some e
    have k := List.find?_some e
    dsimp only at k
    rw [hx, hy] at k
    have lt : l < r := by
      have : ∀ p ∈ indexPairs, p.1 < p.2 := by decide
      exact this _ hm
    have := h l r x y lt hx hy
    simp only [decide_eq_true_eq] at k
    omega

/-- How many entries are occupied. -/
def occupied (table : List (Option Incident)) : Nat := (table.filter Option.isSome).length

theorem occupied_le (table : List (Option Incident)) : occupied table ≤ table.length := List.length_filter_le _ _

/-- A merge frees one entry. -/
theorem occupied_merge {table : List (Option Incident)} (h4 : table.length = 4) {l h : Nat} {x y z : Incident} (hp : (l, h) ∈ indexPairs)
    (hx : table.getD l none = some x) (hy : table.getD h none = some y) :
    occupied ((table.set l (some z)).set h none) + 1 = occupied table := by
  match table, h4 with
  | [a, b, c, d], _ =>
    unfold indexPairs at hp
    simp only [List.mem_cons, Prod.mk.injEq, List.not_mem_nil, or_false] at hp
    cases a <;> cases b <;> cases c <;> cases d <;>
      rcases hp with ⟨rfl, rfl⟩ | ⟨rfl, rfl⟩ | ⟨rfl, rfl⟩ | ⟨rfl, rfl⟩ | ⟨rfl, rfl⟩ | ⟨rfl, rfl⟩ <;>
      first
      | rfl
      | (cases hy; done)
      | (cases hx; done)

/-- Two occupied entries stand in a table that has a pair. -/
theorem two_of_mergePair {m : Nat} {table : List (Option Incident)} (h4 : table.length = 4) {l h : Nat} (e : mergePair m table = some (l, h)) :
    2 ≤ occupied table := by
  obtain ⟨hp, x, y, hx, hy⟩ := mergePair_some e
  have := occupied_merge (z := x) h4 hp hx hy
  have hn : occupied ((table.set l (some x)).set h none) ≠ 0 := by
    intro k
    unfold occupied at k
    rw [List.length_eq_zero_iff, List.filter_eq_nil_iff] at k
    have lt : ∀ p ∈ indexPairs, p.1 ≠ p.2 ∧ p.1 < 4 := by decide
    obtain ⟨ne, l4⟩ := lt _ hp
    have : some x ∈ (table.set l (some x)).set h none := by
      rw [List.mem_iff_getElem?]
      exact ⟨l, by rw [List.getElem?_set_ne (fun k => ne k.symm), List.getElem?_set_self (by rw [h4]; exact l4)]⟩
    exact k _ this rfl
  omega

/-- Enough merges leave the records apart, in a table of four. -/
theorem State.mergeAll_apart : ∀ (fuel temp k : Nat) (s : State), s.inc.table.length = 4 → occupied s.inc.table ≤ fuel + 1 →
    apart (siteM s.site) (State.mergeAll fuel temp k s).1.inc.table ∧ (State.mergeAll fuel temp k s).1.inc.table.length = 4
  | 0, _, _, s, h4, ho => by
    refine ⟨apart_of_mergePair h4 ?_, h4⟩
    show mergePair (siteM s.site) s.inc.table = none
    cases e : mergePair (siteM s.site) s.inc.table with
    | none => rfl
    | some p => exact absurd (two_of_mergePair h4 e) (by omega)
  | fuel + 1, temp, k, s, h4, ho => by
    unfold State.mergeAll
    cases e : mergePair (siteM s.site) s.inc.table with
    | none => exact ⟨apart_of_mergePair h4 e, h4⟩
    | some p =>
      obtain ⟨l, h⟩ := p
      obtain ⟨hp, x, y, hx, hy⟩ := mergePair_some e
      have ht := State.mergeOnce_table (s := s) hx hy temp
      have hs : (s.mergeOnce l h temp).site = s.site := by unfold State.site; rw [State.mergeOnce_lib]
      have := State.mergeAll_apart fuel temp (if k = h then l else k) (s.mergeOnce l h temp) (by rw [ht]; simpa using h4)
        (by rw [ht]; have := occupied_merge (z := x.absorb y s.uptime) h4 hp hx hy; omega)
      rw [hs] at this
      exact this

/-- A table whose records stand apart is left as it is. -/
theorem State.mergeAll_none {s : State} (h : apart (siteM s.site) s.inc.table) (fuel temp k : Nat) : State.mergeAll fuel temp k s = (s, k) := by
  cases fuel with
  | zero => rfl
  | succ n => unfold State.mergeAll; rw [mergePair_of_apart h]

/-! ### What a placement leaves -/

theorem State.mergeOnce_plans (s : State) (l h temp : Nat) : (s.mergeOnce l h temp).plans = s.plans := by
  unfold State.mergeOnce State.moveLatch
  split
  · split
    · split <;> rfl
    · rfl
  · rfl

theorem State.mergeAll_rest : ∀ (fuel temp k : Nat) (s : State),
    (State.mergeAll fuel temp k s).1.lib = s.lib ∧ (State.mergeAll fuel temp k s).1.plans = s.plans
  | 0, _, _, _ => ⟨rfl, rfl⟩
  | fuel + 1, temp, k, s => by
    unfold State.mergeAll
    split
    · rename_i l h _
      have e := State.mergeAll_rest fuel temp (if k = h then l else k) (s.mergeOnce l h temp)
      rw [State.mergeOnce_lib, State.mergeOnce_plans] at e
      exact e
    · exact ⟨rfl, rfl⟩

/-- A placement leaves the library and the plan references. -/
theorem State.place_rest (s : State) (f : FireReport) : (s.place f).1.lib = s.lib ∧ (s.place f).1.plans = s.plans := by
  have fin : ∀ (t : State) b g, (t.recomputeGoverning.handOff b g).lib = t.lib ∧ (t.recomputeGoverning.handOff b g).plans = t.plans :=
    fun t b g => ⟨(Frame.handOff _ b g).lib.trans (Frame.recomputeGoverning t).lib,
      (Frame.handOff _ b g).plans.trans (Frame.recomputeGoverning t).plans⟩
  unfold State.place
  dsimp only
  split
  · split
    · dsimp only
      rw [(fin _ _ _).1, (fin _ _ _).2]
      have key : ∀ (t : State) (c : Prop) [Decidable c] (k : Nat), t.lib = s.lib ∧ t.plans = s.plans →
          (if c then State.mergeAll 3 f.temp k t else (t, k)).1.lib = s.lib ∧
            (if c then State.mergeAll 3 f.temp k t else (t, k)).1.plans = s.plans := by
        intro t c _ k ht
        split
        · rw [(State.mergeAll_rest _ _ _ _).1, (State.mergeAll_rest _ _ _ _).2]; exact ht
        · exact ht
      apply key
      split <;> exact ⟨rfl, rfl⟩
    · exact ⟨rfl, rfl⟩
  · split
    · dsimp only
      rw [(fin _ _ _).1, (fin _ _ _).2]
      exact ⟨rfl, rfl⟩
    · exact ⟨rfl, rfl⟩

end Sys2Proof.Machine
end

