-- ==== Sys2Proof/Laws/Alone.lean ====
section
/-! SUPPORT. A table of one record: it governs and merges with nothing; and what a hand-off in ALERT leaves in the matcher. -/

namespace Sys2Proof.Machine

open Sys2Proof

/-- One record written over the only one of a table leaves the others absent. -/
theorem others_set {l : List (Option Incident)} {g : Nat} (h : ∀ j, j ≠ g → l.getD j none = none) (o : Option Incident) (j : Nat)
    (hj : j ≠ g) : (l.set g o).getD j none = none := by
  rw [List.getD_eq_getElem?_getD, List.getElem?_set_ne (by omega), ← List.getD_eq_getElem?_getD]
  exact h j hj

/-- Absent entries change no best record. -/
theorem better_absent (o : Option (Nat × Incident)) : ∀ l : List (Option Incident × Nat), (∀ p ∈ l, p.1 = none) → l.foldl better o = o
  | [], _ => rfl
  | p :: l, h => by
    have e : better o p = o := by
      unfold better
      rw [h p List.mem_cons_self]
    rw [List.foldl_cons, e]
    exact better_absent o l (fun q hq => h q (List.mem_cons_of_mem _ hq))

/-- The only record governs (R14). -/
theorem governingOf_alone {l : List (Option Incident)} {g : Nat} {x : Incident} (hx : l.getD g none = some x)
    (h : ∀ j, j ≠ g → l.getD j none = none) : governingOf l = some g := by
  have hg : g < l.length := by
    rcases Nat.lt_or_ge g l.length with k | k
    · exact k
    · rw [List.getD_eq_getElem?_getD, List.getElem?_eq_none k] at hx
      cases hx
  have hl : l = l.take g ++ some x :: l.drop (g + 1) := by
    have e : l[g] = some x := by simpa [List.getD_eq_getElem?_getD, hg] using hx
    rw [← e, List.getElem_cons_drop, List.take_append_drop]
  have at_ : ∀ j o, l[j]? = some o → j ≠ g → o = none := fun j o e k => by
    have := h j k
    rw [List.getD_eq_getElem?_getD, e] at this
    exact this
  unfold governingOf
  rw [hl, List.zipIdx_append, List.zipIdx_cons, List.foldl_append, List.foldl_cons, better_absent none, better_absent]
  · simp [better]
    omega
  · intro p hp
    obtain ⟨j, hj, e⟩ := List.mem_iff_getElem.mp (List.fst_mem_of_mem_zipIdx hp)
    have : l[g + 1 + j]? = some p.1 := by
      rw [← List.getElem?_drop, List.getElem?_eq_getElem hj, e]
    exact at_ _ _ this (by omega)
  · intro p hp
    obtain ⟨j, hj, e⟩ := List.mem_iff_getElem.mp (List.fst_mem_of_mem_zipIdx hp)
    rw [List.length_take] at hj
    have : l[j]? = some p.1 := by
      rw [List.getElem?_eq_getElem (by omega), ← e]
      simp
    exact at_ _ _ this (by omega)

/-- The only record lies near no other. -/
theorem mergePair_alone {l : List (Option Incident)} {g : Nat} (m : Nat) (h : ∀ j, j ≠ g → l.getD j none = none) :
    mergePair m l = none := by
  refine mergePair_of_apart (fun i j x y hij hx hy => ?_)
  by_cases e : i = g
  · rw [h j (by omega)] at hy
    cases hy
  · rw [h i e] at hx
    cases hx

/-- In ALERT, details handed on leave the matcher and the state alone. -/
theorem State.engineTakesDetails_alert {s : State} (h : s.eng.state = .alert) (i : Nat) :
    (s.engineTakesDetails i).mat = s.mat ∧ (s.engineTakesDetails i).eng.state = .alert := by
  have ha : s.advise = s := by
    unfold State.advise
    rw [h]
  have hr : s.rerunBlocked = s := by
    unfold State.rerunBlocked
    rw [h]
    rfl
  unfold State.engineTakesDetails
  dsimp only
  rw [ha]
  simp only [ite_self]
  rw [hr]
  simp only [ite_self]
  have df := DemandFrame.finish s
  exact ⟨df.mat, by rw [df.eng]; exact h⟩

theorem State.details_alert : ∀ (l : List Nat) (s : State), s.eng.state = .alert → (l.foldl State.engineTakesDetails s).mat = s.mat
  | [], _, _ => rfl
  | a :: l, s, h => by
    obtain ⟨a1, a2⟩ := State.engineTakesDetails_alert h a
    exact (State.details_alert l _ a2).trans a1

/-- A table of SUSPECTED records alone keeps ALERT: the hand-off leaves the matcher as it took the record. -/
theorem State.engineTakesIncident_alert {s : State} (h : s.eng.state = .alert) (n : s.confirmedCount = 0) (e : s.tableEmpty = false)
    (rerun moved : Bool) :
    (s.engineTakesIncident rerun moved).mat = s.mat ∧ (s.engineTakesIncident rerun moved).eng.state = .alert := by
  have hev : s.evaluate rerun = { s with eng := { s.eng with confirmed := 0 } } := by
    unfold State.evaluate EngineState.live State.evaluateFull
    dsimp only
    rw [h, n, e]
    rfl
  unfold State.engineTakesIncident
  dsimp only
  rw [hev]
  have hrow := (State.rowChange_keeps { s with eng := { s.eng with confirmed := 0 } }).2.2
    (by show s.eng.state ≠ _; rw [h]; exact fun k => by cases k)
  rw [hrow]
  simp only [ite_self]
  have df := DemandFrame.finish ({ s with eng := { s.eng with confirmed := 0 } } : State)
  exact ⟨df.mat, by rw [df.eng]; exact h⟩

/-- A table of one SUSPECTED record: no CONFIRMED one, and not empty. -/
theorem State.alone_suspected {s : State} {g : Nat} {x : Incident} (hx : s.incident g = some x) (hc : x.cls = .suspected)
    (h : ∀ j, j ≠ g → s.incident j = none) : s.confirmedCount = 0 ∧ s.tableEmpty = false := by
  refine ⟨?_, ?_⟩
  · unfold State.confirmedCount
    rw [List.length_eq_zero_iff, List.filter_eq_nil_iff]
    intro o ho
    obtain ⟨j, hj, e⟩ := List.mem_iff_getElem.mp ho
    have k : s.incident j = o := by
      unfold State.incident
      simp [List.getD_eq_getElem?_getD, hj, e]
    by_cases q : j = g
    · subst q
      rw [hx] at k
      rw [← k]
      simp [hc]
    · rw [h j q] at k
      rw [← k]
      simp
  · unfold State.tableEmpty
    rw [Bool.eq_false_iff]
    intro q
    rw [List.all_eq_true] at q
    have m : some x ∈ s.inc.table := by
      unfold State.incident at hx
      rw [List.getD_eq_getElem?_getD] at hx
      cases e : s.inc.table[g]? with
      | none => rw [e] at hx; cases hx
      | some v =>
        rw [e] at hx
        simp at hx
        subst hx
        exact List.mem_of_getElem? e
    cases q _ m

end Sys2Proof.Machine
end

