-- ==== Sys2Proof/Laws/Requests.lean ====
section
/-! SUPPORT. What the taking of a request does, once: at a BUSY port, with a wrong length, without the token, and otherwise (R150 to R153). -/

namespace Sys2Proof.Machine

open Sys2Proof

theorem State.heard_busy (s : State) (i : PortId) :
    (s.heard i).setPort i { (s.heard i).port i with service := .busy } = s.taking i := by
  simp [State.heard, State.taking]

theorem State.heard_service (s : State) (i : PortId) : ((s.heard i).port i).service = (s.port i).service := by
  simp [State.heard]

/-- At an IDLE port the request is checked and taken. -/
theorem State.request_ready {s : State} {i : PortId} (h : s.Ready i) (tag : Byte) (level : Level) (ok : Bool)
    (body : State → State × Answer) :
    s.request i tag level ok body =
      (((s.taking i).taken i level ok body).1).respond i tag ((s.taking i).taken i level ok body).2 := by
  unfold State.request
  have hb : ¬ ((s.heard i).port i).service = .busy := by
    rw [State.heard_service, h]; decide
  simp only [hb, if_false, State.heard_busy]

/-- A wrong operand length is refused and nothing else happens. -/
theorem State.request_badFormat {s : State} {i : PortId} (h : s.Ready i) (tag : Byte) (level : Level)
    (body : State → State × Answer) : s.request i tag level false body = s.answered i tag (refuse .refusedFormat) := by
  rw [State.request_ready h]; rfl

/-- A COMMAND-level request without the token is refused and nothing else happens. -/
theorem State.request_noToken {s : State} {i : PortId} (h : s.Ready i) (ht : s.token ≠ some i) (tag : Byte)
    (body : State → State × Answer) : s.request i tag .command true body = s.answered i tag (refuse .refusedAuthority) := by
  rw [State.request_ready h]
  have : (s.taking i).token ≠ some i := ht
  simp [State.taken, this, State.answered]

/-- A READ- or OPERATE-level request is the owning block's. -/
theorem State.request_free {s : State} {i : PortId} (h : s.Ready i) (tag : Byte) {level : Level} (hl : level ≠ .command)
    (body : State → State × Answer) :
    s.request i tag level true body = ((body (s.taking i)).1).respond i tag (body (s.taking i)).2 := by
  rw [State.request_ready h]; simp [State.taken, hl]

/-- A COMMAND-level request of the token holder is the owning block's. -/
theorem State.request_holder {s : State} {i : PortId} (h : s.Ready i) (ht : s.token = some i) (tag : Byte)
    (body : State → State × Answer) :
    s.request i tag .command true body = ((body (s.taking i)).1).respond i tag (body (s.taking i)).2 := by
  rw [State.request_ready h]
  have : (s.taking i).token = some i := ht
  simp [State.taken, this]

/-- A frame at a BUSY port joins the refusals waiting, and nothing else happens. -/
theorem State.request_busy {s : State} {i : PortId} (h : (s.port i).service = .busy) (tag : Byte) (level : Level) (ok : Bool)
    (body : State → State × Answer) :
    s.request i tag level ok body = (s.heard i).setPort i (((s.heard i).port i).addWaiting tag) := by
  unfold State.request
  simp [State.heard_service, h]

end Sys2Proof.Machine
end

