-- ==== Sys2Proof/Laws/Keeps.lean ====
section
/-! SUPPORT. The invariants of Safety under each shared operation, in one relation: what a work on the state keeps of the token holder's
presence, the ports, the queues and the bounds. -/

namespace Sys2Proof.Machine

open Sys2Proof

/-- What every work of the 480 keeps, also in the midst of a change of the incident table: the invariants of Safety but for the governing index, and
the queue of waiting commands. -/
structure Retains (s t : State) : Prop where
  tok : s.TokenHolderPresent → t.TokenHolderPresent
  ports : s.PortsOk → t.PortsOk
  queues : s.CommandQueueOk ∧ s.StartQueueOk ∧ s.BanksDistinct → t.CommandQueueOk ∧ t.StartQueueOk ∧ t.BanksDistinct
  bounds : s.StackOk ∧ s.InRowOk ∧ s.UptimeOk ∧ s.TablesSized → t.StackOk ∧ t.InRowOk ∧ t.UptimeOk ∧ t.TablesSized
  slots : s.BanksDistinct ∧ s.SlotsOk → t.BanksDistinct ∧ t.SlotsOk
  pend : t.pending = s.pending

/-- What every work of the 480 keeps: the invariants of Safety, and the queue of waiting commands. -/
structure Keeps (s t : State) : Prop extends Retains s t where
  governing : s.GoverningOk → t.GoverningOk

theorem Retains.refl (s) : Retains s s := ⟨id, id, id, id, id, rfl⟩

theorem Retains.trans {s t u} (h : Retains s t) (k : Retains t u) : Retains s u :=
  ⟨k.tok ∘ h.tok, k.ports ∘ h.ports, k.queues ∘ h.queues, k.bounds ∘ h.bounds, k.slots ∘ h.slots, k.pend.trans h.pend⟩

theorem Keeps.refl (s) : Keeps s s := ⟨.refl s, id⟩

theorem Keeps.trans {s t u} (h : Keeps s t) (k : Keeps t u) : Keeps s u :=
  ⟨h.toRetains.trans k.toRetains, k.governing ∘ h.governing⟩

theorem Keeps.after {s t u} (k : Keeps t u) (h : Keeps s t) : Keeps s u := h.trans k

theorem Keeps.lib {s t} (h : LibFrame s t) : Keeps s t := by
  refine ⟨⟨?_, ?_, ?_, ?_, fun ⟨d, f⟩ => ⟨h.banks d, h.fits d f⟩, h.pending⟩, fun k => by unfold State.GoverningOk; rw [h.inc]; exact k⟩
  · intro k i hi; rw [(h.ports i).present]; exact k i (by rw [← h.token]; exact hi)
  · intro k i; exact (h.ports i).ok (k i)
  · rintro ⟨a, b, c⟩; exact ⟨h.commands a, h.starts b, h.banks c⟩
  · rintro ⟨a, b, c, d⟩
    refine ⟨h.stack a, ?_, ?_, ?_⟩
    · unfold State.InRowOk; rw [h.line]; exact b
    · unfold State.UptimeOk; rw [h.uptime]; exact c
    · unfold State.TablesSized; rw [h.inc, h.trains]; exact d

theorem Keeps.frame {s t} (h : Frame s t) : Keeps s t := .lib h.toLib

theorem Keeps.setPort (s : State) (i : PortId) (q : Port) (hp : (s.port i).present = true → q.present = true ∨ s.token ≠ some i) (hq : (s.port i).ok → q.ok) : Keeps s (s.setPort i q) := by
  refine ⟨⟨?_, ?_, id, id, id, rfl⟩, id⟩
  · intro k j hj
    by_cases e : j = i
    · subst e; rw [State.port_setPort_same]
      rcases hp (k j hj) with h | h
      · exact h
      · exact absurd hj h
    · rw [State.port_setPort_other _ _ _ _ e]; exact k j hj
  · intro k j
    by_cases e : j = i
    · subst e; rw [State.port_setPort_same]; exact hq (k j)
    · rw [State.port_setPort_other _ _ _ _ e]; exact k j

/-- Registers that no invariant reads. -/
theorem Keeps.same (s : State) (strap keys det lib eng mat vel freeIx) (h : eng.trains = s.eng.trains) : Keeps s { s with strap := strap, keys := keys, det := det, lib := lib, eng := eng, mat := mat, vel := vel, freeIx := freeIx } :=
  ⟨⟨id, id, id, fun ⟨a, b, c, d⟩ => ⟨a, b, c, by unfold State.TablesSized at *; dsimp only; rw [h]; exact d⟩, id, rfl⟩, id⟩

theorem Keeps.heard (s i) : Keeps s (s.heard i) := Keeps.setPort s i _ (fun _ => .inl rfl) (fun ⟨a, b, c, d⟩ => ⟨a, b, c, d⟩)

theorem Keeps.taking (s i) : Keeps s (s.taking i) := Keeps.setPort s i _ (fun _ => .inl rfl) (fun ⟨a, b, c, d⟩ => ⟨a, b, c, by intro h; cases h⟩)

theorem Keeps.respond (s : State) (i tag a) (h : (s.port i).service = .busy) : Keeps s (s.respond i tag a) :=
  Keeps.setPort s i _ (fun h => .inl h) (fun ⟨x, b, c, d⟩ => ⟨x, b, c, by intro hh; rw [h] at hh; cases hh⟩)

theorem Port.ok_addWaiting {q : Port} (tag) (hb : q.service = .busy) (h : q.ok) : (q.addWaiting tag).ok := by
  obtain ⟨x, b, c, d⟩ := h
  unfold Port.addWaiting
  split
  · exact ⟨x, b, by simp; omega, by intro hh; rw [hb] at hh; cases hh⟩
  · exact ⟨x, b, c, d⟩

theorem Port.addWaiting_present (q : Port) (t) : (q.addWaiting t).present = q.present := by unfold Port.addWaiting; split <;> rfl

/-- A port after a break holds an empty set, and nothing in hand unless a frame is still being sent. -/
theorem Port.ok_broken (q : Port) (sending) : (q.broken sending).ok := by
  refine ⟨rfl, fun e he => (by cases he), Nat.zero_le _, fun h => ⟨?_, rfl⟩⟩
  unfold Port.broken at *
  dsimp only at *
  split at h
  · cases h
  · rename_i hn; exact Option.not_isSome_iff_eq_none.mp hn

/-- What an owning block's work on a request of port `i` is asked to keep. -/
def Body (i : PortId) (body : State → State × Answer) : Prop :=
  ∀ s : State, (s.port i).service = .busy → (s.port i).present = true →
    Keeps s (body s).1 ∧ ((body s).1.port i).service = .busy

theorem Keeps.request (s i tag lv ok) {body} (hb : Body i body) : Keeps s (s.request i tag lv ok body) := by
  unfold State.request
  dsimp only
  split
  · rename_i h
    refine (Keeps.heard s i).trans (Keeps.setPort _ i _ (fun hp => .inl ?_) (Port.ok_addWaiting tag h))
    rw [Port.addWaiting_present]; exact hp
  · have e : (s.heard i).setPort i { (s.heard i).port i with service := .busy } = s.taking i := State.heard_busy s i
    rw [e]
    have hs : ((s.taking i).port i).service = .busy := by unfold State.taking; rw [State.port_setPort_same]
    have hpr : ((s.taking i).port i).present = true := by unfold State.taking; rw [State.port_setPort_same]
    unfold State.taken
    split
    · exact (Keeps.taking s i).trans (Keeps.respond _ _ _ _ hs)
    · split
      · exact (Keeps.taking s i).trans (Keeps.respond _ _ _ _ hs)
      · obtain ⟨h1, h2⟩ := hb _ hs hpr
        exact ((Keeps.taking s i).trans h1).trans (Keeps.respond _ _ _ _ h2)

theorem Body.read (i) (f : State → Answer) : Body i (fun t => (t, f t)) := fun s h _ => ⟨.refl s, h⟩

theorem LibFrame.service {s t} (h : LibFrame s t) : ∀ j, (t.port j).service = (s.port j).service := fun j => (h.ports j).service

theorem Frame.service {s t} (h : Frame s t) : ∀ j, (t.port j).service = (s.port j).service := fun j => (h.ports j).service

/-- The same, with the service state of every port. -/
structure Kept (s t : State) : Prop where
  keeps : Keeps s t
  service : ∀ j, (t.port j).service = (s.port j).service

/-- A work that keeps every port's service state is such a work. -/
theorem Body.mk' {i} {body : State → State × Answer} (h : ∀ s : State, (s.port i).present = true → Kept s (body s).1) : Body i body :=
  fun s hb hp => ⟨(h s hp).keeps, (h s hp).service i ▸ hb⟩

theorem Kept.lib {s t} (h : LibFrame s t) : Kept s t := ⟨.lib h, LibFrame.service h⟩

theorem Kept.frame {s t} (h : Frame s t) : Kept s t := ⟨.frame h, Frame.service h⟩

theorem Kept.refl (s) : Kept s s := ⟨.refl s, fun _ => rfl⟩

theorem Kept.trans {s t u} (h : Kept s t) (k : Kept t u) : Kept s u := ⟨h.keeps.trans k.keeps, fun j => (k.service j).trans (h.service j)⟩

theorem Kept.after {s t u} (k : Kept t u) (h : Kept s t) : Kept s u := h.trans k

theorem Kept.same (s : State) (strap keys det lib eng mat vel freeIx) (h : eng.trains = s.eng.trains) : Kept s { s with strap := strap, keys := keys, det := det, lib := lib, eng := eng, mat := mat, vel := vel, freeIx := freeIx } := ⟨.same s _ _ _ _ _ _ _ _ h, fun _ => rfl⟩

/-- A work in the midst of a change of the incident table, with the service state of every port. -/
structure Retained (s t : State) : Prop where
  retains : Retains s t
  service : ∀ j, (t.port j).service = (s.port j).service

theorem Kept.retained {s t} (h : Kept s t) : Retained s t := ⟨h.keeps.toRetains, h.service⟩

theorem Retained.trans {s t u} (h : Retained s t) (k : Retained t u) : Retained s u :=
  ⟨h.retains.trans k.retains, fun j => (k.service j).trans (h.service j)⟩

theorem Retained.inc (s : State) (inc : IncidentRegister) (h : inc.table.length = s.inc.table.length) : Retained s { s with inc := inc } :=
  ⟨⟨id, id, id, fun ⟨a, b, c, d⟩ => ⟨a, b, c, by unfold State.TablesSized at *; dsimp only; rw [h]; exact d⟩, id, rfl⟩, fun _ => rfl⟩

/-- Once the governing index is recomputed, all is kept. -/
theorem Retained.kept {s t} (h : Retained s t) (g : t.GoverningOk) : Kept s t := ⟨⟨h.retains, fun _ => g⟩, h.service⟩

theorem Kept.plans (s : State) (p) (h : s.plans.stack.length ≤ 8 → p.stack.length ≤ 8) : Kept s { s with plans := p } :=
  ⟨⟨⟨id, id, id, fun ⟨a, b, c, d⟩ => ⟨h a, b, c, d⟩, id, rfl⟩, id⟩, fun _ => rfl⟩

theorem Kept.trains (s : State) (l) (h : l.length = s.eng.trains.length) : Kept s (s.setTrains l) :=
  ⟨⟨⟨id, id, id, fun ⟨a, b, c, d⟩ => ⟨a, b, c, by unfold State.TablesSized State.setTrains at *; dsimp only; rw [h]; exact d⟩, id, rfl⟩, id⟩,
    fun _ => rfl⟩

theorem Kept.token (s : State) (h : Option PortId) (hp : ∀ i, h = some i → (s.port i).present = true) : Kept s { s with token := h } :=
  ⟨⟨⟨fun _ i hi => hp i hi, id, id, id, id, rfl⟩, id⟩, fun _ => rfl⟩

theorem Kept.fl (s : State) (f : FieldLine) (hq : (s.fl.queue.map CommandEntry.address).Nodup → (f.queue.map CommandEntry.address).Nodup) (hr : s.fl.inRow ≤ 4 → f.inRow ≤ 4) : Kept s { s with fl := f } :=
  ⟨⟨⟨id, id, fun ⟨a, b, c⟩ => ⟨hq a, b, c⟩, fun ⟨a, b, c, d⟩ => ⟨a, hr b, c, d⟩, id, rfl⟩, id⟩, fun _ => rfl⟩

theorem Retained.setIncident (s : State) (i o) : Retained s (s.setIncident i o) := Retained.inc s _ (by simp)

theorem Kept.raise (s : State) (n) : Kept s (s.raise n) := .frame (Frame.raise s n)

theorem Retained.raise {s t} (h : Retained s t) (n) : Retained s (t.raise n) := h.trans (Kept.raise t n).retained

/-- The governing index recomputed after a change of the incident table. -/
theorem Retained.governed {s t} (h : Retained s t) : Kept s t.recomputeGoverning := by
  have k := Frame.recomputeGoverning t
  refine Retained.kept (h.trans ((Retained.inc t { t.inc with governing := governingOf t.inc.table } rfl).trans (Kept.frame k).retained)) ?_
  unfold State.GoverningOk
  rw [k.inc]

theorem Kept.amend (s : State) (i o c) : Kept s (s.amend i o c) := by
  have k := Frame.amend s i o c
  refine Retained.kept ((Retained.inc s { table := s.inc.table.set i o, governing := governingOf (s.inc.table.set i o) } (by simp)).trans
    (Kept.frame k).retained) ?_
  unfold State.GoverningOk
  rw [k.inc]

theorem Kept.moveLatch (s : State) (l h) : Kept s (s.moveLatch l h) := by
  unfold State.moveLatch
  split
  · split
    · exact Kept.same _ _ _ _ _ _ _ _ _ rfl
    · exact .refl _
  · exact .refl _

theorem Retained.mergeOnce (s : State) (l h t) : Retained s (s.mergeOnce l h t) := by
  unfold State.mergeOnce
  split
  · exact (((Retained.setIncident s _ _).trans (Retained.setIncident _ _ _)).raise _).trans (Kept.moveLatch _ _ _).retained
  · exact (Kept.refl s).retained

theorem Retained.mergeAll : ∀ (f t a : Nat) (s : State), Retained s (State.mergeAll f t a s).1
  | 0, _, _, s => (Kept.refl s).retained
  | f + 1, t, a, s => by
    unfold State.mergeAll
    split
    · exact (Retained.mergeOnce s _ _ _).trans (Retained.mergeAll f t _ _)
    · exact (Kept.refl s).retained

theorem Kept.place (s : State) (f) : Kept s (s.place f).1 := by
  unfold State.place
  dsimp only
  split
  · split
    · dsimp only
      refine Kept.after (.frame (Frame.handOff _ _ _)) (Retained.governed ?_)
      have key : ∀ (t : State) (c : Prop) [Decidable c] (k : Nat), Retained s t →
          Retained s (if c then State.mergeAll 3 f.temp k t else (t, k)).1 := by
        intro t c _ k ht; split
        · exact ht.trans (Retained.mergeAll _ _ _ _)
        · exact ht
      apply key
      split
      · exact (Retained.setIncident s _ _).raise _
      · exact Retained.setIncident s _ _
    · exact .refl s
  · split
    · exact Kept.after (.frame (Frame.handOff _ _ _)) ((Retained.setIncident s _ _).raise _).governed
    · exact Kept.raise _ _

theorem Kept.takeReport (s : State) (f) : Kept s (s.takeReport f).1 := (Kept.lib (LibFrame.abortEdit s _)).trans (Kept.place _ _)

theorem Kept.changeToken (s : State) (h : Option PortId) (c) (hp : ∀ i, h = some i → (s.port i).present = true) : Kept s (s.changeToken h c) :=
  (Kept.token s h hp).trans (.lib (LibFrame.changeToken s h c))

theorem Kept.setActive (s : State) (p) : Kept s (s.setActive p) := .lib (LibFrame.setActive s p)

theorem Kept.recordTrain (s : State) (t) : Kept s (s.recordTrain t).1 := by
  unfold State.recordTrain; dsimp only; split
  · dsimp only
    have e := fun k => Kept.trains s (s.eng.trains.set k (some t)) (by simp)
    split
    · exact e _
    · exact (e _).trans (.frame (Frame.engineTakesOccupancy _))
  · split
    · exact (Kept.trains s _ (by simp)).trans (.frame (Frame.engineTakesOccupancy _))
    · exact .refl s

theorem Kept.bankWork (s : State) {n b} (o : BankOut) (hb : s.bank n = some b) (ho : o.bank.fixed = b.fixed)
    (ha : b.state.placed (s.arb.queued n) → o.agrees b.state (s.arb.queued n)) : Kept s (s.commitBank o).engineTakesBanks :=
  .frame ((Frame.commitBank s o hb ho ha).trans (Frame.engineTakesBanks _))

theorem numbers_setBank (c : Bank) (l : List Bank) : (setBank c l).map Bank.number = l.map Bank.number := by
  unfold setBank; rw [List.map_map]; refine List.map_congr_left fun x _ => ?_
  dsimp only [Function.comp]; split
  · symm; assumption
  · rfl

theorem Kept.coastExpiry (s : State) (n) : Kept s (s.coastExpiry n) := by
  unfold State.coastExpiry; split
  · rename_i hb; split
    · exact Kept.bankWork s _ hb (fixed_coastExpires _ _) (agrees_coastExpires _ _ _ rfl)
    · exact .refl s
  · exact .refl s

theorem Kept.startExpiry (s : State) (n) : Kept s (s.startExpiry n) := by
  unfold State.startExpiry; split
  · rename_i hb; split
    · exact Kept.bankWork s _ hb (fixed_startTimeout _ _) (agrees_startTimeout _ _ _)
    · exact .refl s
  · exact .refl s

/-- The slots after a free one has been taken by a bank that holds none. -/
theorem slots_taken {l : List (Option Nat)} {i n : Nat} (h : l[i]? = some none) (hn : some n ∉ l) (d : (l.filterMap id).Nodup) :
    (∀ m, some m ∈ l.set i (some n) ↔ m = n ∨ some m ∈ l) ∧ ((l.set i (some n)).filterMap id).Nodup := by
  induction l generalizing i with
  | nil => simp at h
  | cons o l ih =>
    cases i with
    | zero =>
      simp only [List.getElem?_cons_zero, Option.some.injEq] at h
      subst h
      simp only [List.mem_cons, reduceCtorEq, false_or] at hn
      refine ⟨fun m => by simp, ?_⟩
      rw [List.set_cons_zero, List.filterMap_cons_some (by rfl), List.nodup_cons]
      refine ⟨fun hm => hn ?_, by simpa using d⟩
      obtain ⟨a, ha, e⟩ := List.mem_filterMap.mp hm
      rw [← show a = some n from e]; exact ha
    | succ i =>
      simp only [List.getElem?_cons_succ] at h
      simp only [List.mem_cons, not_or] at hn
      cases o with
      | none =>
        obtain ⟨h1, h2⟩ := ih h hn.2 (by simpa using d)
        refine ⟨fun m => ?_, by simpa using h2⟩
        rw [List.set_cons_succ, List.mem_cons, List.mem_cons, h1 m]; simp
      | some v =>
        rw [List.filterMap_cons_some (by rfl), List.nodup_cons] at d
        obtain ⟨h1, h2⟩ := ih h hn.2 d.2
        refine ⟨fun m => ?_, ?_⟩
        · rw [List.set_cons_succ, List.mem_cons, List.mem_cons, h1 m]
          constructor
          · rintro (h | h | h)
            · exact .inr (.inl h)
            · exact .inl h
            · exact .inr (.inr h)
          · rintro (h | h | h)
            · exact .inr (.inl h)
            · exact .inl h
            · exact .inr (.inr h)
        · rw [List.set_cons_succ, List.filterMap_cons_some (by rfl), List.nodup_cons]
          refine ⟨fun hm => ?_, h2⟩
          obtain ⟨a, ha, e⟩ := List.mem_filterMap.mp hm
          rw [show a = some v from e, h1 v] at ha
          rcases ha with rfl | ha
          · exact hn.1 rfl
          · exact d.1 (List.mem_filterMap.mpr ⟨some v, ha, rfl⟩)

/-- A grant's changes of the arbiter and of the bank's record, taken together, leave the arbiter fitting. -/
theorem fits_granted {s : State} {q : QueueEntry} {qs : List QueueEntry} {i : Nat} {b : Bank} (hg : s.arb.grantOrder = q :: qs)
    (hi : s.arb.freeSlot = some i) (hb : s.bank q.bank = some b) (hd : s.BanksDistinct) (h : s.SlotsOk) :
    Arbiter.fits { slots := s.arb.slots.set i (some q.bank), queue := (s.arb.leave q.bank).queue }
      (bankStates (setBank (granted (s.bankContext q.bank) b).bank s.banks)) := by
  have hn : (granted (s.bankContext q.bank) b).bank.number = q.bank :=
    (Bank.fixed_number (fixed_granted _ _)).trans (State.bank_mem hb).2
  have hq : s.arb.queued q.bank = true := by
    have : q ∈ s.arb.grantOrder := by rw [hg]; simp
    have : q ∈ s.arb.queue := by
      unfold Arbiter.grantOrder at this
      rcases List.mem_append.mp this with k | k <;> exact (List.mem_filter.mp k).1
    exact List.any_eq_true.mpr ⟨q, this, by simp⟩
  have hs := (h.placed hb hd).1 hq
  have hslot : some q.bank ∉ s.arb.slots := by
    rw [h.2.1]
    rintro ⟨d, k⟩
    rw [← (bankStates_unique hb hd).mp k] at hs
    cases hs
  have hfree : s.arb.slots[i]? = some none := by
    unfold Arbiter.freeSlot at hi
    obtain ⟨hl, hn, -⟩ := List.findIdx?_eq_some_iff_getElem.mp hi
    rw [List.getElem?_eq_getElem hl]
    exact congrArg some (Option.isNone_iff_eq_none.mp hn)
  obtain ⟨t1, t2⟩ := slots_taken hfree hslot h.1
  have hst : (granted (s.bankContext q.bank) b).bank.state.isStarting = true := by
    obtain ⟨d, e | e⟩ := mayQueue_iff.mp hs <;> unfold granted <;> rw [← e]
    · rfl
    · cases d <;> rfl
  have hqd : ∀ m, Arbiter.queued { slots := s.arb.slots.set i (some q.bank), queue := (s.arb.leave q.bank).queue } m =
      if m = q.bank then false else s.arb.queued m := fun m => by
    have := Arbiter.queued_tell { b with number := q.bank } s.arb .leave m
    exact this
  refine Arbiter.fits_change hb hn h t2 (fun m e => ?_) ?_ (fun m e => ?_) ?_ ?_
  · rw [t1]; simp [e]
  · rw [t1]; simp [hst]
  · rw [hqd, if_neg e]
  · rw [hqd, if_pos rfl]; intro k; cases k
  · intro k
    obtain ⟨d, e⟩ := isStarting_iff.mp hst
    rw [← e] at k; cases k

theorem granted_words (x : BankContext) (b : Bank) : (granted x b).words = [] ∧ (granted x b).notices = [] := by
  unfold granted
  (repeat' split) <;> exact ⟨rfl, rfl⟩

theorem Kept.grant (s : State) : Kept s s.grant := by
  unfold State.grant; split
  · rename_i q qs i hg hi
    split
    · rename_i b hb
      dsimp only
      refine Kept.after (.frame (Frame.engineTakesBanks _)) ?_
      obtain ⟨hw, hz⟩ := granted_words (s.bankContext q.bank) b
      have hfix := fixed_granted (s.bankContext q.bank) b
      unfold State.commitBank
      dsimp only
      rw [hw, hz]
      simp only [List.foldl_nil, State.raiseAll]
      have key : ∀ fl : FieldLine, ((s.fl.queue.map CommandEntry.address).Nodup → (fl.queue.map CommandEntry.address).Nodup) →
          fl.inRow = s.fl.inRow →
          Kept s { s with
            banks := setBank (granted (s.bankContext q.bank) b).bank s.banks
            fl := fl
            arb := { slots := s.arb.slots.set i (some q.bank), queue := (s.arb.leave q.bank).queue } } := fun fl h1 h2 =>
        have dist : s.BanksDistinct → ((setBank (granted (s.bankContext q.bank) b).bank s.banks).map Bank.number).Nodup := fun d => by
          rw [numbers_setBank]; exact d
        ⟨⟨⟨id, id, fun ⟨a, k, c⟩ => ⟨h1 a, k.sublist (List.Sublist.map _ List.filter_sublist), dist c⟩,
          fun ⟨a, k, c, d⟩ => ⟨a, by unfold State.InRowOk at *; dsimp only; rw [h2]; exact k, c, d⟩,
          fun ⟨d, f⟩ => ⟨dist d, fits_granted hg hi hb d f⟩, rfl⟩, id⟩, fun _ => rfl⟩
      have base := key
        (match (granted (s.bankContext q.bank) b).command with
        | some c => s.fl.enqueue { address := (granted (s.bankContext q.bank) b).bank.address, command := c }
        | none => s.fl)
        (by intro h; split
            · exact nodup_enqueueCommand _ h
            · exact h)
        (by split <;> rfl)
      split
      · exact base
      · exact base.trans (.frame (Frame.formThrust _))
    · exact .refl s
  · exact .refl s

theorem Kept.setPhase (s : State) (p) : Kept s (s.setPhase p) := Kept.fl s _ id id

theorem Kept.sendPoll (s : State) : Kept s s.sendPoll := by
  unfold State.sendPoll; split
  · exact Kept.after (Kept.setPhase _ _) (Kept.fl s _ id (fun _ => Nat.zero_le _))
  · exact .refl s

theorem takeOut_sublist (ok) : ∀ (l : List CommandEntry) c r, takeOut ok l = some (c, r) → r.Sublist l
  | [], _, _, h => by cases h
  | e :: es, c, r, h => by
    unfold takeOut at h; split at h
    · cases h; exact List.sublist_cons_self _ _
    · exact (takeOut_sublist ok es c r h).trans (List.sublist_cons_self _ _)

theorem Kept.lineDecision (s : State) : Kept s s.lineDecision := by
  unfold State.lineDecision; split
  · exact Kept.sendPoll s
  · split
    · exact Kept.sendPoll s
    · unfold State.sendCommand; split
      · rename_i c r h
        exact Kept.after (Kept.setPhase _ _) (Kept.fl s _ (fun hh => hh.sublist (List.Sublist.map _ (takeOut_sublist _ _ _ _ h))) (fun _ => Nat.min_le_left _ _))
      · exact Kept.after (Kept.sendPoll _) (Kept.fl s _ (fun _ => by simp) id)

theorem Kept.startEnumeration (s : State) : Kept s s.startEnumeration := by
  unfold State.startEnumeration
  exact Kept.after (Kept.setPhase _ _) (Kept.after (Kept.fl s.clearMarks _ id id) (.frame (Frame.clearMarks s)))

theorem Frame.banksAfterEnumeration (l : List Nat) : ∀ s : State, Frame s (l.foldl State.bankAfterEnumeration s) := by
  induction l with
  | nil => exact fun s => .refl s
  | cons n l ih =>
    intro s
    refine Frame.trans ?_ (ih _)
    unfold State.bankAfterEnumeration
    split
    · exact .refl s
    · rename_i hb
      exact Frame.commitBank _ _ hb rfl (fun _ => agrees_withdraw _ _ _ (by split <;> rfl) (by split <;> rfl))

theorem Kept.raiseTo (s : State) (i n) : Kept s (s.raiseTo i n) := by
  unfold State.raiseTo
  refine ⟨Keeps.setPort s i _ (fun h => .inl ?_) (fun h => Port.ok_offer h _ _), ?_⟩
  · rw [(Port.offer_rest _ _ _).2.2.2.2.1]; exact h
  · intro j
    by_cases e : j = i
    · subst e; rw [State.port_setPort_same, (Port.offer_rest _ _ _).2.1]
    · rw [State.port_setPort_other _ _ _ _ e]

theorem Kept.recordOperation (s : State) (a b c d e f i) : Kept s (s.recordOperation a b c d e f i) :=
  Kept.after (Kept.raiseTo _ _ _) (Kept.same s _ _ _ _ _ _ _ _ rfl)

theorem Kept.clearReadings (t : State) :
    Kept t { t with vel := { t.vel with stations := t.vel.stations.map (fun (x : Station) => { x with reading := none }) } }.clearMarks :=
  Kept.after (.frame (Frame.clearMarks _)) (Kept.same t _ _ _ _ _ _ _ _ rfl)

theorem Kept.endEnumeration (s : State) (r d) : Kept s (s.endEnumeration r d) := by
  unfold State.endEnumeration
  dsimp only
  refine Kept.after (Kept.fl _ _ id id) ?_
  cases s.inFlightOf .enumerate with
  | none =>
    exact Kept.after (Kept.clearReadings _) (Kept.after (.frame ((Frame.banksAfterEnumeration _ _).trans (Frame.engineTakesBanks _)))
      (Kept.fl s _ (fun h => h.sublist (List.Sublist.map _ List.filter_sublist)) id))
  | some o =>
    exact Kept.after (Kept.recordOperation _ _ _ _ _ _ _ _) (Kept.after (Kept.clearReadings _)
      (Kept.after (.frame ((Frame.banksAfterEnumeration _ _).trans (Frame.engineTakesBanks _)))
        (Kept.fl s _ (fun h => h.sublist (List.Sublist.map _ List.filter_sublist)) id)))

theorem Kept.stationPolled (s : State) (n r) : Kept s (s.stationPolled n r) := .frame (Frame.stationPolled s n r)

theorem Kept.bankReport (s : State) (n r w) : Kept s (s.bankReport n r w) := by
  unfold State.bankReport; split
  · exact .refl s
  · rename_i hb; exact Kept.bankWork s _ hb (fixed_takeReport _ _ _ _) (agrees_takeReport _ _ _ _ _ rfl)

theorem Kept.bankLost (s : State) (n) : Kept s (s.bankLost n) := by
  unfold State.bankLost; split
  · exact .refl s
  · rename_i hb; exact Kept.bankWork s _ hb (fixed_unreachable _) (agrees_unreachable _ _)

theorem Kept.afterExchange (s : State) : Kept s s.afterExchange := by
  unfold State.afterExchange; split
  · exact Kept.startEnumeration s
  · exact .refl s

theorem Kept.unitReplied (s : State) (a p hi lo) : Kept s (s.unitReplied a p hi lo) := by
  unfold State.unitReplied; split
  · exact .refl s
  · rename_i u _
    have h : Kept s { s with fl := s.fl.setUnit a u.replied } := Kept.fl s _ id id
    dsimp only; split
    · split
      · exact h.trans (Kept.bankReport _ _ _ _)
      · exact h
    · split
      · exact h.trans (Kept.stationPolled _ _ _)
      · exact h

theorem Kept.unitMissed (s : State) (a p) : Kept s (s.unitMissed a p) := by
  unfold State.unitMissed; split
  · exact .refl s
  · rename_i u _
    have h : Kept s { s with fl := s.fl.setUnit a u.missedOne } := Kept.fl s _ id id
    dsimp only; split
    · split
      · exact h.trans (Kept.bankLost _ _)
      · exact h
    · have k : ∀ b : Bool, Kept s (if b then State.raise { s with fl := s.fl.setUnit a u.missedOne } (.unitUnreachable a .station u.number) else { s with fl := s.fl.setUnit a u.missedOne }) := by
        intro b; split
        · exact h.trans (Kept.raise _ _)
        · exact h
      split
      · exact (k _).trans (Kept.stationPolled _ _ _)
      · exact k _

theorem Kept.identified (s : State) (n k) : Kept s (s.identified n k) := by
  unfold State.identified; split
  · exact Kept.endEnumeration _ _ _
  · split
    · exact Kept.setPhase _ _
    · exact Kept.endEnumeration _ _ _

theorem Kept.assignedTo (s : State) (n) : Kept s (s.assignedTo n) := by
  unfold State.assignedTo; split
  · exact .refl s
  · exact Kept.after (Kept.setPhase _ _) (Kept.fl s _ id id)

theorem Kept.takeReply (s : State) (a h l) : Kept s (s.takeReply a h l) := by
  unfold State.takeReply; split
  · split
    · exact Kept.after (Kept.afterExchange _) (Kept.after (Kept.unitReplied _ _ _ _ _) (Kept.setPhase s _))
    · exact .refl s
  · split
    · exact Kept.after (Kept.afterExchange _) (Kept.after (Kept.unitReplied _ _ _ _ _) (Kept.setPhase s _))
    · exact .refl s
  · split
    · split
      · exact Kept.identified _ _ _
      · exact .refl s
    · exact .refl s
  · split
    · exact Kept.assignedTo _ _
    · exact .refl s
  · exact .refl s

theorem Kept.windowExpires (s : State) : Kept s s.windowExpires := by
  unfold State.windowExpires; split
  · exact Kept.after (Kept.afterExchange _) (Kept.after (Kept.unitMissed _ _ _) (Kept.setPhase s _))
  · exact Kept.after (Kept.afterExchange _) (Kept.after (Kept.unitMissed _ _ _) (Kept.setPhase s _))
  · unfold State.identifyMissed; split <;> exact Kept.endEnumeration _ _ _
  · exact Kept.endEnumeration _ _ _
  · exact .refl s

theorem Kept.requestSent (s : State) : Kept s s.requestSent := by
  unfold State.requestSent; split <;> exact Kept.setPhase _ _

theorem Kept.silenceOver (s : State) : Kept s s.silenceOver := by
  unfold State.silenceOver; split
  · exact Kept.after (Kept.setPhase _ _) (Kept.fl s _ id id)
  · exact .refl s

theorem Kept.library (s : State) (l : Library) : Kept s { s with lib := l } := Kept.same s _ _ _ _ _ _ _ _ rfl

theorem Kept.longRequest (s : State) (a b o) : Kept s (s.longRequest a b o).1 := by
  unfold State.longRequest
  split
  · exact .refl s
  split
  · exact .refl s
  split
  · exact .refl s
  split
  · exact .refl s
  exact Kept.library s _

theorem Kept.endOperation (s : State) (o a r d e) : Kept s (s.endOperation o a r d e) := by
  unfold State.endOperation
  dsimp only
  have h : Kept s (s.clearMarker.recordOperation o.kind a o.subjB r d e o.initiator) := Kept.after (Kept.recordOperation _ _ _ _ _ _ _ _) (Kept.library s _)
  split
  · exact Kept.after (.lib (LibFrame.installPlan _ _)) (Kept.after (Kept.library _ _) h)
  · exact h

theorem Kept.damageSlot (s : State) (k n p) : Kept s (s.damageSlot k n p) := Kept.same s _ _ _ _ _ _ _ _ rfl

theorem Kept.setSlot (s : State) (k n) : Kept s (s.setSlot k n) := Kept.library s _

theorem Kept.endErase (s : State) (o c) : Kept s (s.endErase o c) := by
  unfold State.endErase; split
  · exact Kept.after (Kept.endOperation _ _ _ _ _ _) (Kept.setSlot _ _ _)
  · exact Kept.after (Kept.endOperation _ _ _ _ _ _) (Kept.damageSlot _ _ _ _)

theorem Kept.endWrite (s : State) (o c) : Kept s (s.endWrite o c) := by
  unfold State.endWrite; split
  · exact Kept.after (Kept.endOperation _ _ _ _ _ _) (Kept.setSlot _ _ _)
  · exact Kept.after (Kept.endOperation _ _ _ _ _ _) (Kept.damageSlot _ _ _ _)

theorem Kept.endSeal (s : State) (o c) : Kept s (s.endSeal o c) := by
  unfold State.endSeal; split
  · exact Kept.endOperation _ _ _ _ _ _
  · split
    · exact Kept.after (Kept.endOperation _ _ _ _ _ _) (Kept.setSlot _ _ _)
    · exact Kept.after (Kept.endOperation _ _ _ _ _ _) (Kept.damageSlot _ _ _ _)

theorem Kept.endEraseLibrary (s : State) (o c) : Kept s (s.endEraseLibrary o c) := by
  unfold State.endEraseLibrary; dsimp only; split
  · exact Kept.after (Kept.endOperation _ _ _ _ _ _) (Kept.library s _)
  · split
    · exact Kept.after (Kept.endOperation _ _ _ _ _ _) (Kept.after (Kept.damageSlot _ _ _ _) (Kept.library s _))
    · exact Kept.after (Kept.endOperation _ _ _ _ _ _) (Kept.same s _ _ _ _ _ _ _ _ rfl)

theorem distinct_buildBanks (r) : ((buildBanks r).map Bank.number).Nodup := by
  unfold buildBanks
  have : ∀ l : List Nat, l.Nodup → ((l.filterMap (fun n => ((siteBanks r).find? (fun e => e.number == n)).map (freshBank r))).map Bank.number).Nodup ∧ ∀ x ∈ ((l.filterMap (fun n => ((siteBanks r).find? (fun e => e.number == n)).map (freshBank r))).map Bank.number), x ∈ l := by
    intro l
    induction l with
    | nil => simp
    | cons a l ih =>
      intro h
      obtain ⟨h1, h2⟩ := List.nodup_cons.mp h
      obtain ⟨i1, i2⟩ := ih h2
      rw [List.filterMap_cons]
      cases hf : (siteBanks r).find? (fun e => e.number == a) with
      | none => simp only [Option.map_none]; exact ⟨i1, fun x hx => List.mem_cons_of_mem _ (i2 x hx)⟩
      | some e =>
        have en : e.number = a := by have := List.find?_some hf; simpa using this
        simp only [Option.map_some, List.map_cons, List.nodup_cons]
        refine ⟨⟨?_, i1⟩, ?_⟩
        · intro hm; have := i2 _ hm; rw [show (freshBank r e).number = e.number from rfl, en] at this; exact h1 this
        · intro x hx
          rcases List.mem_cons.mp hx with rfl | hx
          · rw [show (freshBank r e).number = e.number from rfl, en]; simp
          · exact List.mem_cons_of_mem _ (i2 x hx)
  exact (this _ List.nodup_range').1

/-- Freshly built slots and banks fit one another. -/
theorem fits_built (r : List (List Byte)) : Arbiter.fits { slots := buildSlots r, queue := [] } (bankStates (buildBanks r)) := by
  have hv : ∀ n st, (n, st) ∈ bankStates (buildBanks r) → st = .verify := by
    intro n st h
    obtain ⟨b, hb, -, rfl⟩ := mem_bankStates.mp h
    unfold buildBanks at hb
    obtain ⟨a, -, ha⟩ := List.mem_filterMap.mp hb
    obtain ⟨e, -, rfl⟩ := Option.map_eq_some_iff.mp ha
    rfl
  have hs : ∀ n : Nat, some n ∉ buildSlots r := fun n h => by
    have := List.eq_of_mem_replicate h
    cases this
  refine ⟨?_, fun n => ⟨fun h => absurd h (hs n), fun ⟨d, h⟩ => (by cases hv _ _ h)⟩, fun n h => (by cases h), fun n d h => (by cases hv _ _ h)⟩
  unfold buildSlots
  rw [List.filterMap_replicate_of_none (by rfl)]
  exact List.nodup_nil

theorem Kept.rebuild (s : State) : Kept s s.rebuild := by
  unfold State.rebuild
  refine Kept.after (.frame ((Frame.formThrust _).trans (Frame.finishAll _))) ?_
  exact ⟨⟨⟨id, id, fun _ => ⟨List.nodup_nil, List.nodup_nil, distinct_buildBanks _⟩, fun ⟨a, b, c, d⟩ => ⟨a, Nat.zero_le _, c, d⟩,
    fun _ => ⟨distinct_buildBanks _, fits_built _⟩, rfl⟩, id⟩, fun _ => rfl⟩

theorem Kept.endClose (s : State) (o c) : Kept s (s.endClose o c) := by
  unfold State.endClose; dsimp only; split
  · refine Kept.after (Kept.recordOperation _ _ _ _ _ _ _ _) (Kept.after (.lib (LibFrame.installDefault _ _)) (Kept.after (Kept.library _ _) ?_))
    split
    · exact Kept.library s _
    · exact Kept.after (Kept.rebuild _) (Kept.library s _)
  · exact Kept.after (Kept.recordOperation _ _ _ _ _ _ _ _) (Kept.after (.lib (LibFrame.installDefault _ _)) (Kept.library s _))

theorem Kept.endOf (s : State) (k) (f : State → InFlight → State) (h : ∀ o, Kept s (f s o)) : Kept s (s.endOf k f) := by
  unfold State.endOf; split
  · exact h _
  · exact .refl s

theorem kindsRise_filter (f : NoticeEntry → Bool) : ∀ l, kindsRise l = true → kindsRise (l.filter f) = true
  | [], _ => rfl
  | e :: es, h => by
    unfold kindsRise at h
    simp only [Bool.and_eq_true, List.all_eq_true] at h
    have ih := kindsRise_filter f es h.2
    rw [List.filter_cons]; split
    · unfold kindsRise; simp only [Bool.and_eq_true, List.all_eq_true]
      exact ⟨fun x hx => h.1 x ((List.mem_filter.mp hx).1), ih⟩
    · exact ih

theorem Kept.setPort (s : State) (i : PortId) (q : Port) (hp : (s.port i).present = true → q.present = true ∨ s.token ≠ some i) (hq : (s.port i).ok → q.ok) (hs : q.service = (s.port i).service) : Kept s (s.setPort i q) :=
  ⟨Keeps.setPort s i q hp hq, fun j => by
    by_cases e : j = i
    · subst e; rw [State.port_setPort_same]; exact hs
    · rw [State.port_setPort_other _ _ _ _ e]⟩

theorem Keeps.lapse (s s0 : State) (i c) (h : s.token ≠ some i → Keeps s0 s) (h2 : s.token = some i → Keeps s0 { s with token := none }) : Keeps s0 (s.lapseToken i c) := by
  unfold State.lapseToken; split
  · rename_i e
    have := Keeps.lib (LibFrame.changeToken s none c)
    exact (h2 e).trans this
  · rename_i e; exact h e

theorem Keeps.lapsed (s : State) (i : PortId) (q : Port) (c) (hq : (s.port i).ok → q.ok) : Keeps s ((s.setPort i q).lapseToken i c) := by
  apply Keeps.lapse
  · intro h
    exact Keeps.setPort s i q (fun _ => .inr h) hq
  · intro _
    have hpp : s.PortsOk → (s.setPort i q).PortsOk := by
      intro k j
      by_cases e : j = i
      · subst e; rw [State.port_setPort_same]; exact hq (k j)
      · rw [State.port_setPort_other _ _ _ _ e]; exact k j
    exact ⟨⟨fun _ j hj => (by cases hj), hpp, id, id, id, rfl⟩, id⟩

/-- The token lapses, and then the port is put in another state. -/
theorem Keeps.lapsedThen (s : State) (i : PortId) (f : Port → Port) (c) (hq : ∀ q : Port, (f q).ok) :
    Keeps s ((s.lapseToken i c).setPort i (f ((s.lapseToken i c).port i))) := by
  have hl : Keeps s (s.lapseToken i c) :=
    Keeps.lapse s s i c (fun _ => .refl s) (fun _ => ⟨⟨fun _ j hj => (by cases hj), id, id, id, id, rfl⟩, id⟩)
  refine hl.trans (Keeps.setPort _ i _ (fun _ => .inr ?_) (fun _ => hq _))
  unfold State.lapseToken
  split
  · rw [(LibFrame.changeToken s none c).token]; intro h; cases h
  · assumption

theorem Keeps.boot (s : State) (st) : Keeps s (s.boot st) := by
  unfold State.boot
  dsimp only
  have ports0 : ∀ i, (State.reset.port i).ok := by
    intro i; cases i <;> exact ⟨rfl, (by intro e he; cases he), Nat.zero_le _, fun _ => ⟨rfl, rfl⟩⟩
  split
  · exact ⟨⟨fun _ j hj => (by cases hj), fun _ => ports0, fun _ => ⟨List.nodup_nil, List.nodup_nil, List.nodup_nil⟩,
      fun _ => ⟨Nat.zero_le _, Nat.zero_le _, Nat.zero_le _, rfl, rfl⟩,
      fun _ => ⟨List.nodup_nil, List.nodup_nil, fun n => ⟨fun h => (by cases h), fun ⟨d, h⟩ => (by cases h)⟩, fun n h => (by cases h), fun n d h => (by cases h)⟩,
      rfl⟩, fun _ => rfl⟩
  · refine Keeps.after (.frame (Frame.engineTakesBanks _)) ?_
    exact ⟨⟨fun _ j hj => (by cases hj), fun _ => ports0, fun _ => ⟨List.nodup_nil, List.nodup_nil, distinct_buildBanks _⟩,
      fun _ => ⟨Nat.zero_le _, Nat.zero_le _, Nat.zero_le _, rfl, rfl⟩, fun _ => ⟨distinct_buildBanks _, fits_built _⟩, rfl⟩, fun _ => rfl⟩

theorem Keeps.second (s : State) : Keeps s s.second := by
  have nums : (s.second.banks.map Bank.number) = s.banks.map Bank.number := by
    show ((s.banks.map _).map Bank.number) = _
    rw [List.map_map]; rfl
  have sts : bankStates s.second.banks = bankStates s.banks := by
    show bankStates (s.banks.map _) = _
    unfold bankStates
    rw [List.map_map]; rfl
  refine ⟨⟨?_, ?_, ?_, ?_, fun ⟨d, f⟩ => ⟨by unfold State.BanksDistinct; rw [nums]; exact d, by unfold State.SlotsOk; rw [sts]; exact f⟩, rfl⟩, id⟩
  · intro k i hi
    have := k i hi
    show ((s.ports.map Port.tick).get i).present = true
    rw [Ports.get_map]; exact this
  · intro k i
    show ((s.ports.map Port.tick).get i).ok
    rw [Ports.get_map]; exact k i
  · rintro ⟨a, b, c⟩
    refine ⟨a, b, ?_⟩
    show ((s.banks.map _).map Bank.number).Nodup
    rw [List.map_map]; exact c
  · rintro ⟨a, b, c, d⟩
    exact ⟨a, b, Nat.min_le_right _ _, d⟩

theorem Kept.setCondition (s : State) (c b) : Kept s (s.setCondition c b) := Kept.after (.frame (Frame.setCondition s c b)) (Kept.same s _ _ _ _ _ _ _ _ rfl)

theorem Kept.detection (s : State) (d) : Kept s { s with det := d } := Kept.same s _ _ _ _ _ _ _ _ rfl

theorem Kept.lineAlive (s : State) : Kept s s.lineAlive := Kept.after (.frame (Frame.lineAlive s)) (Kept.detection s _)

theorem Kept.passHotspot (s : State) (a b t) : Kept s (s.passHotspot a b t) := by
  unfold State.passHotspot; split
  · exact .refl s
  · dsimp only
    have h : ∀ f, Kept s (State.takeReport { s with det := { s.det with refix := false } } f).1 := fun f => (Kept.detection s _).trans (Kept.takeReport _ _)
    split
    · exact (h _).trans (.frame (Frame.takeRefix _))
    · exact h _

end Sys2Proof.Machine
end

