-- ==== Sys2Proof/Laws/Bodies.lean ====
section
/-! SUPPORT. What an owning block's work on each request keeps (`Body`): the lemmas that the request commands and the receivers' hunts cite. -/

namespace Sys2Proof.Machine

open Sys2Proof

theorem Body.confirmIncident (i n) : Body i (State.confirmIncident i n) := Body.mk' fun s _ => by
  unfold State.confirmIncident; split
  · exact .refl s
  · split
    · exact .refl s
    · (dsimp only; exact Kept.amend s n _ _)

theorem Body.setEvacuation (i n c) : Body i (State.setEvacuation n c) := Body.mk' fun s _ => by
  unfold State.setEvacuation; split
  · exact .refl s
  · split
    · exact .refl s
    · split
      · exact .refl s
      · split
        · exact .refl s
        · (dsimp only; exact Kept.amend s n _ _)

theorem Body.linkTrain (i n c) : Body i (State.linkTrain n c) := Body.mk' fun s _ => by
  unfold State.linkTrain; split
  · exact .refl s
  · split
    · exact .refl s
    · split
      · exact .refl s
      · split
        · exact .refl s
        · (dsimp only; exact Kept.amend s n _ _)

theorem Body.clearIncident (i n) : Body i (State.clearIncident n) := Body.mk' fun s _ => by
  unfold State.clearIncident; split
  · exact .refl s
  · split
    · exact .refl s
    · (dsimp only; exact Kept.amend s n _ _)

theorem Body.lodge (i ops) : Body i (State.lodge i ops) := Body.mk' fun s _ => by
  unfold State.lodge; split
  · exact .refl s
  · split
    · exact .refl s
    · rename_i f _
      have h := Kept.takeReport s f
      generalize s.takeReport f = r at *
      dsimp only
      split <;> exact h

theorem Body.selectPlan (i n) : Body i (State.selectPlan n) := Body.mk' fun s _ => by
  unfold State.selectPlan; (repeat' split) <;> first | exact .refl s | skip
  refine Kept.after (Kept.setActive _ _) ?_
  unfold State.pushActive; split
  · exact .refl s
  · dsimp only
    have h : ∀ a, Kept s { s with plans := { s.plans with stack := (a :: s.plans.stack).take 8 } } := fun a => Kept.plans s _ (fun _ => List.length_take_le _ _)
    split
    · exact (h _).trans (Kept.raise _ _)
    · exact h _

theorem Body.revertPlan (i) : Body i State.revertPlan := Body.mk' fun s _ => by
  unfold State.revertPlan; split
  · exact .refl s
  · rename_i p ps hp
    exact Kept.after (Kept.setActive _ _) (Kept.plans s _ (fun h => by rw [hp] at h; simp at h ⊢; omega))

theorem Body.swapPlan (i) : Body i State.swapPlan := Body.mk' fun s _ => by
  unfold State.swapPlan; split
  · rename_i hp
    exact Kept.after (Kept.setActive _ _) (Kept.plans s _ (fun h => by rw [hp] at h; simpa using h))
  · exact .refl s

theorem Body.setDirection (i c) : Body i (State.setDirection c) := Body.mk' fun s _ => by
  have im : ∀ (t : State) d k, (∃ r, (State.imposeDirection t d k).1 = ((t.latchDirection d (k.getD 0) r).advise.finish)) ∨ (State.imposeDirection t d k).1 = t := by
    intro t d k; unfold State.imposeDirection; split
    · exact .inl ⟨_, rfl⟩
    · exact .inr rfl
  have im2 : ∀ (t : State) d k, Kept t (State.imposeDirection t d k).1 := by
    intro t d k; rcases im t d k with ⟨r, h⟩ | h
    · rw [h]; exact .frame (((Frame.latchDirection _ _ _ _).trans (Frame.advise _)).trans (Frame.finish _))
    · rw [h]; exact .refl t
  unfold State.setDirection; split
  · exact .refl s
  · split
    · dsimp only; split
      · exact (Kept.frame ((Frame.freshMatch s).trans (Frame.handRow _))).trans (im2 _ _ _)
      · exact .refl s
    · split
      · exact .refl s
      · exact im2 _ _ _
    · exact .refl s

theorem Body.resumeQuiet (i) : Body i State.resumeQuiet := Body.mk' fun s _ => by
  unfold State.resumeQuiet; split
  · exact .frame ((Frame.enterQuiet s).trans (Frame.finish _))
  · exact .refl s

theorem Body.setTrain (i ops) : Body i (State.setTrain ops) := Body.mk' fun s _ => by
  unfold State.setTrain; (repeat' split) <;> first | exact .refl s | exact Kept.recordTrain _ _

theorem Body.removeTrain (i n) : Body i (State.removeTrain n) := Body.mk' fun s _ => by
  unfold State.removeTrain; (repeat' split) <;> first | exact .refl s | exact (Kept.trains s _ (by simp)).trans (.frame (Frame.engineTakesOccupancy _))

theorem Body.setTarget (i v) : Body i (State.setTarget v) := Body.mk' fun s _ => by
  unfold State.setTarget; (repeat' split) <;> first | exact .refl s | exact Kept.after (.frame (Frame.formTarget _)) (Kept.same s _ _ _ _ _ _ _ _ rfl)

/-- A new forcing changes the class of an entry alone: who stands in the queue, and the slots, stay. -/
theorem Arbiter.forced_same (a : Arbiter) (n m) :
    (a.forced n m).slots = a.slots ∧ (a.forced n m).queue.map QueueEntry.bank = a.queue.map QueueEntry.bank := by
  unfold Arbiter.forced Arbiter.setClass
  split
  · exact ⟨rfl, rfl⟩
  · refine ⟨rfl, ?_⟩
    dsimp only
    rw [List.map_map]
    refine List.map_congr_left fun q _ => ?_
    dsimp only [Function.comp]
    split <;> rfl

theorem Arbiter.queued_map (a : Arbiter) (n : Nat) : a.queued n = (a.queue.map QueueEntry.bank).any (fun m => m == n) := by
  unfold Arbiter.queued
  rw [List.any_map]
  rfl

/-- A bank's record written with the state it had leaves the banks' states. -/
theorem states_setBank {s : State} {n : Nat} {b c : Bank} (hb : s.bank n = some b) (hd : s.BanksDistinct) (hn : c.number = b.number)
    (hs : c.state = b.state) : bankStates (setBank c s.banks) = bankStates s.banks := by
  unfold bankStates setBank
  rw [List.map_map]
  refine List.map_congr_left fun x hx => ?_
  dsimp only [Function.comp]
  split
  · rename_i e
    rw [Bank.eq_of_distinct hd hx (State.bank_mem hb).1 (e.trans hn), hn, hs]
  · rfl

theorem Body.setForcing (i n c) : Body i (State.setForcing n c) := Body.mk' fun s _ => by
  unfold State.setForcing; (repeat' split) <;> first | exact .refl s | skip
  rename_i b hb _ m _ _ _
  refine Kept.after (.frame (Frame.finish _)) ?_
  obtain ⟨e1, e2⟩ := s.arb.forced_same n m
  have dist : s.BanksDistinct → ((setBank { b with forcing := m } s.banks).map Bank.number).Nodup := fun d => by
    rw [numbers_setBank]; exact d
  refine ⟨⟨⟨id, id, fun ⟨a, q, d⟩ => ⟨a, ?_, dist d⟩, id, fun ⟨d, f⟩ => ⟨dist d, ?_⟩, rfl⟩, id⟩, fun _ => rfl⟩
  · unfold State.StartQueueOk; dsimp only; rw [e2]; exact q
  · unfold State.SlotsOk Arbiter.fits
    dsimp only
    rw [states_setBank (c := { b with forcing := m }) hb d rfl rfl, e1]
    simp only [Arbiter.queued_map, e2]
    simpa only [State.SlotsOk, Arbiter.fits, Arbiter.queued_map] using f

theorem Body.releaseBank (i n) : Body i (State.releaseBank n) := Body.mk' fun s _ => by
  unfold State.releaseBank; split
  · exact .refl s
  · split
    · exact .refl s
    · rename_i b hb
      split
      · rename_i e
        exact Kept.bankWork s _ hb (fixed_released _ _) (agrees_released _ b _ e)
      · exact .refl s

theorem Body.enumerateUnits (i) : Body i (State.enumerateUnits i) := Body.mk' fun s _ => by
  unfold State.enumerateUnits
  split
  · exact .refl s
  split
  · exact .refl s
  split
  · exact .refl s
  split
  · exact .refl s
  split
  · exact .refl s
  dsimp only
  unfold State.takeLine
  split
  · exact Kept.after (Kept.startEnumeration _) (Kept.library s _)
  · exact Kept.after (Kept.fl _ _ id id) (Kept.library s _)

theorem Body.openEdit (i) : Body i (State.openEdit i) := Body.mk' fun s _ => by
  unfold State.openEdit
  split
  · exact .refl s
  split
  · exact .refl s
  split
  · exact .refl s
  dsimp only
  exact Kept.after (Kept.setActive _ _) (.lib (LibFrame.registers s _ _ (fun _ => Nat.zero_le _)))

theorem Body.stagePart (i ops) : Body i (State.stagePart ops) := Body.mk' fun s _ => by
  unfold State.stagePart
  split
  · exact .refl s
  split
  · exact .refl s
  exact Kept.library s _

theorem Body.lockReadback (i c) : Body i (State.lockReadback c) := Body.mk' fun s _ => by
  unfold State.lockReadback
  split
  · exact .refl s
  split
  · exact .refl s
  exact Kept.library s _

theorem Body.closeEdit (i) : Body i (State.closeEdit i) := Body.mk' fun s _ => by
  unfold State.closeEdit
  split
  · exact .refl s
  split
  · exact .refl s
  split
  · exact .refl s
  exact Kept.library s _

theorem Body.claim (i k) : Body i (State.claim i k) := Body.mk' fun s hp => by
  unfold State.claim
  have h0 : Kept s { s with keys := s.keys.sample i k } := Kept.same s _ _ _ _ _ _ _ _ rfl
  have hc : ∀ c, Kept s (State.changeToken { s with keys := s.keys.sample i k } (some i) c) := fun c =>
    h0.trans (Kept.changeToken _ _ _ (by intro j hj; cases hj; exact hp))
  dsimp only
  split
  · exact hc _
  · split
    · exact h0
    · split
      · exact hc _
      · exact h0

theorem Body.yieldTo (i t) : Body i (State.yieldTo i t) := Body.mk' fun s hp => by
  unfold State.yieldTo
  split
  · split
    · exact Kept.changeToken _ _ _ (by intro j hj; cases hj)
    · exact .refl s
  · split
    · exact .refl s
    · split
      · exact .refl s
      · split
        · exact .refl s
        · split
          · exact .refl s
          · rename_i hx
            refine Kept.changeToken _ _ _ (by intro j hj; cases hj; simpa using hx)

theorem Body.collectNotices (i) : Body i (State.collectNotices i) := Body.mk' fun s hp => by
  unfold State.collectNotices
  exact Kept.setPort _ _ _ (fun h => .inl h) (fun ⟨a, b, c, d⟩ => ⟨rfl, by simp, c, d⟩) rfl

theorem Body.acknowledge (i v) : Body i (State.acknowledge i v) := Body.mk' fun s hp => by
  unfold State.acknowledge; split
  · exact Kept.setPort _ _ _ (fun h => .inl h) (fun ⟨a, b, c, d⟩ => ⟨kindsRise_filter _ _ a, fun e he => b e ((List.mem_filter.mp he).1), c, d⟩) rfl
  · exact .refl s

theorem Body.setMask (i v) : Body i (State.setMask i v) := Body.mk' fun s hp => by
  unfold State.setMask; split
  · refine Kept.setPort _ _ _ (fun h => .inl h) (fun ⟨a, b, c, d⟩ => ⟨kindsRise_filter _ _ a, fun e he => ⟨?_, (b e ((List.mem_filter.mp he).1)).2⟩, c, d⟩) rfl
    have := (List.mem_filter.mp he).2
    simpa using this
  · exact .refl s

end Sys2Proof.Machine
end

