-- ==== Sys2Proof/Laws/Checks.lean ====
section
/-! SUPPORT. What the checks of SEAL_SLOT and CLOSE_EDIT ask, one by one (R180, R182): when each finds no violation, and which violations name a
slot. -/

namespace Sys2Proof.Machine

open Sys2Proof

theorem require_eq_none (b : Bool) (p f : Nat) : require b p f = none ↔ b = true := by
  unfold require
  cases b <;> simp

theorem firstViolation_eq_none (l : List (Option Violation)) : firstViolation l = none ↔ ∀ o ∈ l, o = none := by
  unfold firstViolation
  rw [List.findSome?_eq_none_iff]
  rfl

theorem within_iff (a n b : Nat) : within a n b = true ↔ a ≤ n ∧ n ≤ b := by
  unfold within
  simp

theorem noRepeats_iff (l : List Nat) : noRepeats l = true ↔ l.Nodup := by
  induction l with
  | nil => simp [noRepeats]
  | cons x l ih => simp [noRepeats, ih]

theorem siteListsBank_iff (r : List (List Byte)) (x : Nat) : siteListsBank r x = true ↔ x ≠ 0 ∧ ∃ e ∈ siteBanks r, e.number = x := by
  unfold siteListsBank
  simp

/-- A slice of zeros, read character by character; a character that is not there reads 0. -/
theorem slice_zeros (l : List Byte) (a n : Nat) : (slice l a n).all (fun b => b == 0) = true ↔ ∀ j, j < n → getU8 l (a + j) = 0 := by
  unfold slice getU8
  rw [List.all_eq_true]
  constructor
  · intro h j hj
    by_cases q : a + j < l.length
    · have m : l[a + j] ∈ (l.drop a).take n := by
        rw [List.mem_take_iff_getElem]
        exact ⟨j, by simp; omega, by simp⟩
      have e := h _ m
      simp at e
      simp [List.getD_eq_getElem?_getD, q, e]
    · simp [List.getD_eq_getElem?_getD, show l.length ≤ a + j by omega]
  · intro h x hx
    rw [List.mem_take_iff_getElem] at hx
    obtain ⟨j, hj, e⟩ := hx
    simp at hj
    have z := h j (by omega)
    simp [List.getD_eq_getElem?_getD, show a + j < l.length by omega] at z
    simp at e
    rw [← e]
    have k : l[a + j] = 0 := by
      apply BitVec.eq_of_toNat_eq
      simpa using z
    simp [k]

/-- A list of a row passes: no number twice, each one with the property, and zeros after it. -/
theorem listOk_iff (f : Nat → Bool) {P : Nat → Prop} (hP : ∀ x, f x = true ↔ P x) (l : List Byte) (a size : Nat) :
    listOk f l a (a + 1) size = true ↔
      (rowList l a (a + 1)).Nodup ∧ (∀ x ∈ rowList l a (a + 1), P x) ∧
        ∀ j, getU8 l a ≤ j → j < size → getU8 l (a + 1 + j) = 0 := by
  unfold listOk
  dsimp only
  rw [Bool.and_eq_true, Bool.and_eq_true, noRepeats_iff, slice_zeros, List.all_eq_true, and_assoc]
  simp only [hP]
  refine and_congr_right (fun _ => and_congr_right (fun _ => ?_))
  constructor
  · intro h j h1 h2
    rw [← h (j - getU8 l a) (by omega)]
    congr 1
    omega
  · intro h j hj
    rw [← h (getU8 l a + j) (by omega) (by omega)]
    congr 1
    omega

/-- The members of a list made by index are distinct when no earlier index gives the same. -/
theorem nodup_map_range {α : Type} (f : Nat → α) (n : Nat) : ((List.range n).map f).Nodup ↔ ∀ i < n, ∀ j < i, f j ≠ f i := by
  unfold List.Nodup
  rw [List.pairwise_map, List.pairwise_iff_getElem]
  constructor
  · intro h i hi j hj
    have k := h j i (by simp; omega) (by simpa using hi) hj
    rw [List.getElem_range, List.getElem_range] at k
    exact k
  · intro h i j _ hj hij
    simp at hj
    rw [List.getElem_range, List.getElem_range]
    exact h j hj i hij

/-- The SEALED slots pass: every bank of their lists is listed. -/
theorem checkSealedSlot_eq_none (r : List (List Byte)) (n : Nat) (p : PlanSlot) :
    checkSealedSlot r n p = none ↔
      (p.state = .sealed → ∀ k, k ≤ p.segmentCount → ∀ x, x ∈ (p.row k).west ∨ x ∈ (p.row k).east ∨ x ∈ (p.row k).inhibit →
        x ≠ 0 ∧ ∃ e ∈ siteBanks r, e.number = x) := by
  unfold checkSealedSlot
  split
  · rename_i hs
    rw [List.findSome?_eq_none_iff]
    simp only [hs, true_imp_iff, List.mem_range]
    constructor
    · intro h k hk x hx
      have := h k (by omega)
      rw [← siteListsBank_iff]
      split at this
      · cases this
      · split at this
        · cases this
        · split at this
          · cases this
          · rename_i a b c
            simp only [Bool.not_eq_true', Bool.not_eq_false, List.all_eq_true] at a b c
            rcases hx with hx | hx | hx
            · exact a x hx
            · exact b x hx
            · exact c x hx
    · intro h k hk
      have ok : ∀ l : List Nat, (∀ x ∈ l, x ∈ (p.row k).west ∨ x ∈ (p.row k).east ∨ x ∈ (p.row k).inhibit) →
          l.all (siteListsBank r) = true :=
        fun l hl => List.all_eq_true.mpr fun x hx => (siteListsBank_iff r x).mpr (h k (by omega) x (hl x hx))
      rw [ok _ (fun _ hx => .inl hx), ok _ (fun _ hx => .inr (.inl hx)), ok _ (fun _ hx => .inr (.inr hx))]
      rfl
  · rename_i hs
    simp [hs]

/-- A violation of a SEALED slot names that slot. -/
theorem checkSealedSlot_slot {r : List (List Byte)} {n : Nat} {p : PlanSlot} {v : Violation} (h : checkSealedSlot r n p = some v) :
    v.slot = some n := by
  unfold checkSealedSlot at h
  split at h
  · obtain ⟨k, _, e⟩ := List.exists_of_findSome?_eq_some h
    dsimp only at e
    split at e
    · cases e; rfl
    · split at e
      · cases e; rfl
      · split at e
        · cases e; rfl
        · cases e
  · cases h

theorem require_slot {b : Bool} {p f : Nat} {v : Violation} (h : require b p f = some v) : v.slot = none := by
  unfold require at h
  split at h
  · cases h
  · cases h; rfl

theorem firstViolation_slot {l : List (Option Violation)} (hl : ∀ o ∈ l, ∀ v, o = some v → v.slot = none) {v : Violation}
    (h : firstViolation l = some v) : v.slot = none := by
  unfold firstViolation at h
  obtain ⟨o, ho, q⟩ := List.exists_of_findSome?_eq_some h
  exact hl o ho v q

/-- A violation of the record itself names no slot. -/
theorem siteViolation_slot {r : List (List Byte)} {v : Violation} (h : siteViolation r = some v) : v.slot = none := by
  unfold siteViolation at h
  refine firstViolation_slot (fun o ho w hw => ?_) h
  simp only [List.mem_append, List.mem_singleton, List.mem_map, List.mem_range] at ho
  rcases ho with ((rfl | ⟨i, _, rfl⟩) | ⟨i, _, rfl⟩) | ⟨i, _, rfl⟩
  · unfold checkPart0 at hw
    refine firstViolation_slot (fun o ho x hx => ?_) hw
    simp only [List.mem_cons, List.not_mem_nil, or_false] at ho
    rcases ho with rfl | rfl | rfl | rfl | rfl | rfl | rfl | rfl | rfl | rfl | rfl | rfl | rfl | rfl | rfl | rfl | rfl | rfl <;>
      exact require_slot hx
  · unfold checkBankEntry at hw
    refine firstViolation_slot (fun o ho x hx => ?_) hw
    simp only [List.mem_cons, List.not_mem_nil, or_false] at ho
    rcases ho with rfl | rfl | rfl | rfl | rfl <;> exact require_slot hx
  · unfold checkStationEntry at hw
    refine firstViolation_slot (fun o ho x hx => ?_) hw
    simp only [List.mem_cons, List.not_mem_nil, or_false] at ho
    rcases ho with rfl | rfl | rfl <;> exact require_slot hx
  · unfold checkChainEntry at hw
    exact require_slot hw

end Sys2Proof.Machine
end

