-- ==== Sys2Proof/Laws/Hands.lean ====
section
/-! SUPPORT. What a recomputation of the demands leaves of one bank: its record is acted on once, with its own demand, and no other bank's hand-off
reaches it or its place in the start queue. -/

namespace Sys2Proof.Machine

open Sys2Proof

/-! ### One demand -/

/-- Words about one bank leave another's place in the start queue. -/
theorem Arbiter.queued_words (b : Bank) {n : Nat} (h : b.number ≠ n) : ∀ (ws : List ArbiterWord) (a : Arbiter),
    (ws.foldl (Arbiter.tell b) a).queued n = a.queued n
  | [], _ => rfl
  | w :: ws, a => (Arbiter.queued_words b h ws _).trans ((Arbiter.queued_tell b a w n).trans (if_neg h.symm))

theorem State.arb_formThrust (s : State) : s.formThrust.arb = s.arb := by
  unfold State.formThrust
  split
  · rfl
  · dsimp only
    split
    · rfl
    · unfold State.setLimit
      split <;> rfl

theorem State.arb_raiseAll (s : State) (ns : List Notice) : (s.raiseAll ns).arb = s.arb := by
  induction ns generalizing s with
  | nil => rfl
  | cons n ns ih => exact ih _

/-- The arbiter after an event is carried out. -/
theorem State.arb_commitBank (s : State) (o : BankOut) : (s.commitBank o).arb = o.words.foldl (Arbiter.tell o.bank) s.arb := by
  unfold State.commitBank
  dsimp only
  split
  · exact State.arb_raiseAll _ _
  · rw [State.arb_formThrust]
    exact State.arb_raiseAll _ _

theorem State.fl_formThrust (s : State) : s.formThrust.fl = s.fl := by
  unfold State.formThrust
  split
  · rfl
  · dsimp only
    split
    · rfl
    · unfold State.setLimit
      split <;> rfl

theorem State.fl_raiseAll (s : State) (ns : List Notice) : (s.raiseAll ns).fl = s.fl := by
  induction ns generalizing s with
  | nil => rfl
  | cons n ns ih => exact ih _

/-- The field line after an event is carried out: the command, if there is one, enqueued. -/
theorem State.fl_commitBank (s : State) (o : BankOut) :
    (s.commitBank o).fl =
      match o.command with
      | some c => s.fl.enqueue { address := o.bank.address, command := c }
      | none => s.fl := by
  unfold State.commitBank
  dsimp only
  split
  · exact State.fl_raiseAll _ _
  · rw [State.fl_formThrust]
    exact State.fl_raiseAll _ _

/-- A demand acted on leaves the demand itself. -/
theorem demand_actOnDemand (x : BankContext) (b : Bank) : (actOnDemand x b).bank.demand = b.demand := by
  unfold actOnDemand
  split <;> try rfl
  all_goals (split <;> try rfl)
  all_goals (split <;> rfl)

theorem number_actOnDemand (x : BankContext) (b : Bank) : (actOnDemand x b).bank.number = b.number :=
  Bank.fixed_number (fixed_actOnDemand x b)

/-- The record of bank `n` after a demand is handed to it. -/
def State.handed (s : State) (b : Bank) (m : Demand) : Bank :=
  if s.eng.state.live then (actOnDemand (s.bankContext b.number) { b with demand := m }).bank else { b with demand := m }

theorem State.bank_handDemand {s : State} {n : Nat} {b : Bank} (h : s.bank n = some b) (m : Demand) :
    (s.handDemand n m).bank n = some (s.handed b m) := by
  have hn := (State.bank_mem h).2
  unfold State.handDemand
  rw [h]
  dsimp only
  unfold State.handed
  subst hn
  split
  · exact State.bank_commitBank h _ (number_actOnDemand _ _)
  · exact State.bank_commitBank h _ rfl

/-- Another bank's record, and its place in the start queue, after a demand is handed. -/
theorem State.handDemand_other (s : State) {n k : Nat} (hk : k ≠ n) (m : Demand) :
    (s.handDemand k m).bank n = s.bank n ∧ (s.handDemand k m).arb.queued n = s.arb.queued n := by
  unfold State.handDemand
  split
  · exact ⟨rfl, rfl⟩
  · rename_i b h
    have hb := (State.bank_mem h).2
    have e : ∀ o : BankOut, o.bank.number = k → (s.commitBank o).bank n = s.bank n ∧ (s.commitBank o).arb.queued n = s.arb.queued n :=
      fun o ho => ⟨State.bank_commitBank_other s o (by rw [ho]; exact hk),
        by rw [State.arb_commitBank]; exact Arbiter.queued_words _ (by rw [ho]; exact hk) _ _⟩
    dsimp only
    split
    · exact e _ ((number_actOnDemand _ _).trans hb)
    · exact e _ hb

/-! ### A recomputation -/

/-- A list of demands handed where they differ: bank `n`, for which the list names one demand, has been handed it. -/
theorem State.bank_handOnes {n : Nat} {m : Demand} : ∀ (l : List (Nat × Demand)) (s : State) (b : Bank), s.bank n = some b →
    (∀ p ∈ l, p.1 = n → p.2 = m) →
    (l.foldl (State.handOne false) s).bank n = some (if (∃ p ∈ l, p.1 = n) ∧ b.demand ≠ m then s.handed b m else b)
  | [], s, b, h, _ => by simpa using h
  | p :: l, s, b, h, hl => by
    have hn := (State.bank_mem h).2
    have hl' : ∀ q ∈ l, q.1 = n → q.2 = m := fun q hq => hl q (List.mem_cons_of_mem _ hq)
    rw [List.foldl_cons]
    by_cases e : p.1 = n
    · have em := hl p List.mem_cons_self e
      have ex : ∃ q ∈ p :: l, q.1 = n := ⟨p, List.mem_cons_self, e⟩
      by_cases hd : b.demand = m
      · have : State.handOne false s p = s := by
          unfold State.handOne
          rw [e, em, h]
          simp [hd]
        rw [this, State.bank_handOnes l s b h hl']
        simp [hd]
      · have : State.handOne false s p = s.handDemand n m := by
          unfold State.handOne
          rw [e, em, h]
          simp [hd]
        have dm : (s.handed b m).demand = m := by
          unfold State.handed
          split
          · exact demand_actOnDemand _ _
          · rfl
        rw [this, State.bank_handOnes l _ _ (State.bank_handDemand h m) hl', if_neg (fun k => k.2 dm), if_pos ⟨ex, hd⟩]
    · have ho : (State.handOne false s p).bank n = s.bank n ∧ (State.handOne false s p).arb.queued n = s.arb.queued n := by
        unfold State.handOne
        split
        · exact State.handDemand_other s e _
        · exact ⟨rfl, rfl⟩
      have df : DemandFrame s (State.handOne false s p) := by
        unfold State.handOne
        split
        · exact DemandFrame.handDemand _ _ _
        · exact .refl s
      have fr : Frame s (State.handOne false s p) := by
        unfold State.handOne
        split
        · exact Frame.handDemand _ _ _
        · exact .refl s
      have hh : (State.handOne false s p).handed b m = s.handed b m := by
        unfold State.handed State.bankContext State.site
        rw [df.eng, fr.lib, hn, ho.2]
      rw [State.bank_handOnes l _ b (ho.1.trans h) hl', hh]
      have : (∃ q ∈ l, q.1 = n) ↔ ∃ q ∈ p :: l, q.1 = n := by
        constructor
        · rintro ⟨q, hq, k⟩
          exact ⟨q, List.mem_cons_of_mem _ hq, k⟩
        · rintro ⟨q, hq, k⟩
          rcases List.mem_cons.mp hq with rfl | hq
          · exact absurd k e
          · exact ⟨q, hq, k⟩
      simp only [this]

/-- A record of a table that holds each number once is the one its number finds. -/
theorem State.bank_of_mem {s : State} (d : s.BanksDistinct) {b : Bank} (h : b ∈ s.banks) : s.bank b.number = some b := by
  unfold State.bank
  unfold State.BanksDistinct at d
  generalize s.banks = l at d h
  induction l with
  | nil => cases h
  | cons x l ih =>
    rw [List.map_cons, List.nodup_cons] at d
    rcases List.mem_cons.mp h with rfl | h
    · simp
    · have : x.number ≠ b.number := fun e => d.1 (List.mem_map.mpr ⟨b, h, e.symm⟩)
      rw [List.find?_cons_of_neg (by simpa using this)]
      exact ih d.2 h

/-- Every demand that a recomputation lists is the one of the record with that number. -/
theorem State.demandList_mem {s : State} (d : s.BanksDistinct) {p : Nat × Demand} (h : p ∈ s.demandList) :
    ∃ b, s.bank p.1 = some b ∧ p.2 = s.demandOf (s.takenList.map Bank.number) b := by
  unfold State.demandList at h
  dsimp only at h
  obtain ⟨b, hb, rfl⟩ := List.mem_map.mp h
  refine ⟨b, ?_, rfl⟩
  rcases List.mem_append.mp hb with hb | hb
  · rcases List.mem_append.mp hb with hb | hb
    · exact State.bank_of_mem d (List.mem_filter.mp hb).1
    · have := List.mem_of_mem_take hb
      unfold State.eligibleOrder at this
      split at this
      · obtain ⟨k, _, hk⟩ := List.mem_filterMap.mp this
        have hs := (Option.filter_eq_some_iff.mp hk).1
        rw [(State.bank_mem hs).2]
        exact hs
      · cases this
  · exact State.bank_of_mem d (List.mem_filter.mp hb).1

/-- A recomputation lists every bank. -/
theorem State.demandList_all {s : State} {n : Nat} {b : Bank} (h : s.bank n = some b) : ∃ p ∈ s.demandList, p.1 = n := by
  have hn := (State.bank_mem h).2
  have hb : b ∈ s.banks := List.mem_of_find?_eq_some h
  unfold State.demandList
  dsimp only
  by_cases hf : b.forcing = .auto
  · by_cases ht : (s.takenList.map Bank.number).contains b.number = true
    · obtain ⟨c, hc, e⟩ := List.mem_map.mp (List.contains_iff_mem.mp ht)
      exact ⟨_, List.mem_map.mpr ⟨c, List.mem_append_left _ (List.mem_append_right _ hc), rfl⟩, e.trans hn⟩
    · refine ⟨_, List.mem_map.mpr ⟨b, List.mem_append_right _ (List.mem_filter.mpr ⟨hb, ?_⟩), rfl⟩, hn⟩
      simp only [hf, decide_true, Bool.true_and, Bool.not_eq_true', Bool.not_eq_true] at ht ⊢
      exact ht
  · exact ⟨_, List.mem_map.mpr ⟨b, List.mem_append_left _ (List.mem_append_left _ (List.mem_filter.mpr ⟨hb, by simpa using hf⟩)), rfl⟩, hn⟩

/-- The end of a hand-off for one bank: its heat-inhibited flag set, and its own demand handed when it differs (R62, R69, R75). -/
theorem State.bank_finish {s : State} (hl : s.eng.state.live = true) (d : s.BanksDistinct) {n : Nat} {b : Bank} (h : s.bank n = some b) :
    let z := s.refreshHeat
    let c := { b with heatInhibited := inHeat z.eng.heat b.chainage }
    let m := z.demandOf (z.takenList.map Bank.number) c
    z.bank n = some c ∧ s.finish.bank n = some (if c.demand = m then c else s.handed c m) := by
  dsimp only
  have zb : s.refreshHeat.bank n = some { b with heatInhibited := inHeat s.refreshHeat.eng.heat b.chainage } := by
    unfold State.bank at *
    show (flagHeat s.refreshHeat.eng.heat s.banks).find? _ = _
    unfold flagHeat
    rw [List.find?_map]
    have : ((fun x : Bank => x.number == n) ∘ fun x : Bank => { x with heatInhibited := inHeat s.refreshHeat.eng.heat x.chainage }) =
        fun x : Bank => x.number == n := rfl
    rw [this, h]
    rfl
  refine ⟨zb, ?_⟩
  have zd : s.refreshHeat.BanksDistinct := (Frame.refreshHeat s).distinct d
  unfold State.finish
  rw [if_pos hl]
  unfold State.handDemands
  have hs : ∀ x m, s.refreshHeat.handed x m = s.handed x m := fun _ _ => rfl
  rw [State.bank_handOnes (m := s.refreshHeat.demandOf (s.refreshHeat.takenList.map Bank.number)
    { b with heatInhibited := inHeat s.refreshHeat.eng.heat b.chainage }) _ _ _ zb]
  · have ex := State.demandList_all zb
    rw [hs]
    by_cases e : ({ b with heatInhibited := inHeat s.refreshHeat.eng.heat b.chainage } : Bank).demand =
        s.refreshHeat.demandOf (s.refreshHeat.takenList.map Bank.number)
          { b with heatInhibited := inHeat s.refreshHeat.eng.heat b.chainage }
    · rw [if_neg (fun k => k.2 e), if_pos e]
    · rw [if_pos ⟨ex, e⟩, if_neg e]
  · intro p hp hpn
    obtain ⟨c, hc, e⟩ := State.demandList_mem zd hp
    rw [hpn, zb] at hc
    rw [e, Option.some.inj hc]

end Sys2Proof.Machine
end

