-- ==== Sys2Proof/Laws/Lines.lean ====
section
/-! SUPPORT. The line condition that the matcher holds stands through every hand-off: only a change of the line's condition writes it (R37); and
what the re-fix leaves in the matcher (R39). -/

namespace Sys2Proof.Machine

open Sys2Proof

/-- Working F and governing index after a fresh match, with the flags and the match when a plan and a governing index are there (R36). -/
theorem State.freshMatch_mat (s : State) :
    s.freshMatch.mat.condition = s.mat.condition ∧ s.freshMatch.mat.frozen = s.mat.frozen ∧ s.freshMatch.mat.workF = s.mat.workF ∧
      s.freshMatch.mat.governing = s.mat.governing ∧
      ∀ n g f, s.plans.active = some n → s.mat.governing = some g → s.mat.workF = some f →
        s.freshMatch.mat.flags = rawFlags (s.slot n) f ∧ s.freshMatch.mat.matched = some ((rawFlags (s.slot n) f).headD 0) := by
  unfold State.freshMatch
  split
  · rename_i n g f h1 h2 h3
    dsimp only
    have k : ∀ n' g' f', s.plans.active = some n' → s.mat.governing = some g' → s.mat.workF = some f' → n' = n ∧ f' = f := by
      intro n' g' f' q1 _ q3
      rw [h1] at q1
      rw [h3] at q3
      cases q1
      cases q3
      exact ⟨rfl, rfl⟩
    split <;>
    · refine ⟨rfl, rfl, rfl, rfl, fun n' g' f' q1 q2 q3 => ?_⟩
      obtain ⟨rfl, rfl⟩ := k n' g' f' q1 q2 q3
      exact ⟨rfl, rfl⟩
  · rename_i h
    refine ⟨rfl, rfl, rfl, rfl, fun n g f h1 h2 h3 => ?_⟩
    exact absurd h3 (h n g f h1 h2)

theorem State.condition_ordinaryEvaluation (s : State) (f : Nat) : (s.ordinaryEvaluation f).mat.condition = s.mat.condition := by
  unfold State.ordinaryEvaluation
  split
  · rfl
  · dsimp only
    split <;> rfl

theorem State.condition_settleFreeze (s : State) : s.settleFreeze.mat.condition = s.mat.condition := by
  unfold State.settleFreeze
  split <;> rfl

theorem State.condition_matcherTakesIncident (s : State) (d z : Bool) :
    (s.matcherTakesIncident d z).mat.condition = s.mat.condition := by
  unfold State.matcherTakesIncident
  split
  · split
    · rw [State.condition_settleFreeze, (State.freshMatch_mat _).1]
    · split
      · rfl
      · split
        · rfl
        · split
          · exact State.condition_ordinaryEvaluation _ _
          · rfl
  · rfl

theorem State.mat_enterHold (s : State) (r : HoldReason) : (s.enterHold r).mat = s.mat := by
  unfold State.enterHold
  dsimp only
  rw [State.setEngine_mat]
  split <;> rfl

/-- The commit attempt leaves the matcher as it is, or with a fresh match handed on (R48). -/
theorem State.mat_commitAttempt (s : State) : s.commitAttempt.mat = s.mat ∨ s.commitAttempt.mat = s.freshMatch.handRow.mat := by
  unfold State.commitAttempt
  split
  · exact .inl (State.mat_enterHold _ _)
  · split
    · exact .inl (State.mat_enterHold _ _)
    · dsimp only
      generalize s.freshMatch.handRow = t
      split
      · split
        · exact .inr (State.latchDirection_registers t _ _ _).2.2.2.2.2
        · exact .inr (State.mat_enterHold _ _)
      · exact .inr rfl

theorem State.condition_commitAttempt (s : State) : s.commitAttempt.mat.condition = s.mat.condition := by
  rcases State.mat_commitAttempt s with h | h
  · rw [h]
  · rw [h]
    exact (State.freshMatch_mat s).1

theorem State.mat_rowChange (s : State) : s.rowChange.mat = s.mat := by
  unfold State.rowChange
  split
  · dsimp only
    rw [(State.formTarget_rest _).2.1]
    split <;> rfl
  · rfl

theorem State.mat_returnActive (s : State) : s.returnActive.mat = s.mat := by
  unfold State.returnActive
  dsimp only
  rw [(DemandFrame.formThrust _).mat, (State.formTarget_rest _).2.1]
  show (State.setEngine _ _).mat = _
  rw [State.setEngine_mat]

theorem State.condition_evaluate (s : State) (rerun : Bool) : (s.evaluate rerun).mat.condition = s.mat.condition := by
  have alert : ∀ t : State, t.enterAlert.mat = t.mat := fun t => State.setEngine_mat _ _
  have quiet : ∀ t : State, t.enterQuiet.mat = t.mat := fun t => State.setEngine_mat _ _
  have full : ∀ (t : State) (n : Nat) (a b : Bool), (t.evaluateFull n a b).mat.condition = t.mat.condition := by
    intro t n a b
    have drop : t.dropLatch.mat = t.mat := rfl
    unfold State.evaluateFull
    repeat' split
    all_goals simp only [alert, drop, State.condition_commitAttempt, State.mat_enterHold, State.mat_returnActive]
  unfold State.evaluate
  split
  · dsimp only
    split
    · split
      · rfl
      · exact congrArg Matcher.condition (quiet _)
    · exact full _ _ _ _
  · rfl

theorem State.condition_rerunBlocked (s : State) : s.rerunBlocked.mat.condition = s.mat.condition := by
  unfold State.rerunBlocked
  split
  · exact State.condition_commitAttempt _
  · rfl

theorem State.mat_advise (s : State) : s.advise.mat = s.mat := by
  unfold State.advise
  split
  · split
    · dsimp only
      split <;> split <;> rfl
    · rfl
  · rfl

theorem State.mat_rowThenFinish (s : State) (moved : Bool) : (if moved then s.rowChange else s).finish.mat = s.mat := by
  rw [(DemandFrame.finish _).mat]
  split
  · exact State.mat_rowChange s
  · rfl

theorem State.condition_engineTakesIncident (s : State) (rerun moved : Bool) :
    (s.engineTakesIncident rerun moved).mat.condition = s.mat.condition :=
  (congrArg Matcher.condition (State.mat_rowThenFinish _ _)).trans (State.condition_evaluate s rerun)

theorem State.condition_engineTakesDetails (s : State) (i : Nat) : (s.engineTakesDetails i).mat.condition = s.mat.condition := by
  unfold State.engineTakesDetails
  dsimp only
  rw [(DemandFrame.finish _).mat]
  have k : (if s.eng.latch.any (fun c => c.index == i) then s.advise else s).mat.condition = s.mat.condition := by
    split
    · exact congrArg Matcher.condition (State.mat_advise s)
    · rfl
  split
  · rw [State.condition_rerunBlocked]
    exact k
  · exact k

theorem State.condition_handOff (s : State) (before : List (Option Incident)) (g : Option Nat) :
    (s.handOff before g).mat.condition = s.mat.condition := by
  have details : ∀ (l : List Nat) (t : State), (l.foldl State.engineTakesDetails t).mat.condition = t.mat.condition := by
    intro l
    induction l with
    | nil => exact fun _ => rfl
    | cons a l ih => exact fun t => (ih _).trans (State.condition_engineTakesDetails t a)
  unfold State.handOff State.handDetails
  dsimp only
  rw [details, State.condition_engineTakesIncident]
  exact State.condition_matcherTakesIncident s _ _

theorem State.mat_recomputeGoverning (s : State) : s.recomputeGoverning.mat = s.mat := by
  unfold State.recomputeGoverning
  dsimp only
  split <;> rfl

theorem State.mat_mergeAll : ∀ (fuel temp k : Nat) (s : State), (State.mergeAll fuel temp k s).1.mat = s.mat
  | 0, _, _, _ => rfl
  | fuel + 1, temp, k, s => by
    unfold State.mergeAll
    split
    · rename_i l h _
      have one : (s.mergeOnce l h temp).mat = s.mat := by
        unfold State.mergeOnce
        split
        · unfold State.moveLatch
          split
          · split <;> rfl
          · rfl
        · rfl
      exact (State.mat_mergeAll fuel temp _ _).trans one
    · rfl

theorem State.condition_place (s : State) (f : FireReport) : (s.place f).1.mat.condition = s.mat.condition := by
  have go : ∀ (t : State) (b : List (Option Incident)) (g : Option Nat), t.mat = s.mat →
      (t.recomputeGoverning.handOff b g).mat.condition = s.mat.condition := fun t b g h => by
    rw [State.condition_handOff, State.mat_recomputeGoverning, h]
  unfold State.place
  dsimp only
  split
  · split
    · refine go _ _ _ ?_
      split
      · rw [State.mat_mergeAll]
        split <;> rfl
      · split <;> rfl
    · rfl
  · split
    · exact go _ _ _ rfl
    · rfl

theorem State.condition_setActive (s : State) (p : Option Nat) : (s.setActive p).mat.condition = s.mat.condition := by
  unfold State.setActive
  split
  · rfl
  · dsimp only
    unfold State.engineTakesPlan
    dsimp only
    rw [State.mat_rowThenFinish]
    have fr : ∀ t : State, t.freshMatch.handRow.mat.condition = t.mat.condition := fun t => (State.freshMatch_mat t).1
    split
    · split
      · rw [State.condition_commitAttempt, fr]
      · rw [fr]
    · rw [State.condition_commitAttempt, fr]
    · rw [fr]

theorem State.condition_abortEdit (s : State) (c : AbortCause) : (s.abortEdit c).mat.condition = s.mat.condition := by
  unfold State.abortEdit
  split
  · split
    · unfold State.installPlan
      exact State.condition_setActive _ _
    · rfl
  · rfl

/-- A re-fix keeps the governing index that the matcher holds. -/
theorem State.takeRefix_governing (s : State) : s.takeRefix.mat.governing = s.mat.governing := by
  have fm : ∀ t : State, t.freshMatch.mat.governing = t.mat.governing := fun t => (State.freshMatch_mat t).2.2.2.1
  have rf : s.matcherTakesRefix.mat.governing = s.mat.governing := by
    unfold State.matcherTakesRefix
    split
    · unfold State.settleFreeze
      split <;> exact fm _
    · rfl
  unfold State.takeRefix
  split
  · unfold State.engineTakesRow
    dsimp only
    rw [State.mat_rowThenFinish]
    generalize s.matcherTakesRefix = t at *
    unfold State.rerunBlocked
    split
    · rcases State.mat_commitAttempt t.handRow with h | h
      · rw [h]
        exact rf
      · rw [h]
        exact (fm t.handRow).trans rf
    · exact rf
  · rfl

/-- A re-fix on an OK line, with a governing record that the matcher holds and a plan: no freeze, and a fresh match on the record's F, handed to the
engine, which leaves it (R39, R41). -/
theorem State.takeRefix_mat {s : State} {r : Incident} {n : Nat} {g : Nat} (hr : s.governingRecord = some r) (hc : s.mat.condition = .ok)
    (hp : s.plans.active = some n) (hg : s.mat.governing = some g) :
    s.takeRefix.mat.governing = some g ∧ s.takeRefix.mat.frozen = false ∧ s.takeRefix.mat.workF = some r.zone.fire ∧
      s.takeRefix.mat.flags = rawFlags (s.slot n) r.zone.fire ∧
      s.takeRefix.mat.matched = some ((rawFlags (s.slot n) r.zone.fire).headD 0) := by
  have rf : s.matcherTakesRefix = ({ s with mat := { s.mat with workF := some r.zone.fire, frozen := false } } : State).freshMatch := by
    unfold State.matcherTakesRefix State.settleFreeze
    rw [hr]
    dsimp only
    rw [if_neg]
    rintro ⟨_, k⟩
    exact k ((State.freshMatch_mat _).1.trans hc)
  obtain ⟨_, m2, m3, m4, m5⟩ := State.freshMatch_mat ({ s with mat := { s.mat with workF := some r.zone.fire, frozen := false } } : State)
  obtain ⟨m6, m7⟩ := m5 n g r.zone.fire hp hg rfl
  have fr := (Frame.mat s { s.mat with workF := some r.zone.fire, frozen := false }).trans (Frame.freshMatch _)
  generalize ht : ({ s with mat := { s.mat with workF := some r.zone.fire, frozen := false } } : State).freshMatch = t at *
  have tm : t.mat.governing = some g ∧ t.mat.frozen = false ∧ t.mat.workF = some r.zone.fire ∧
      t.mat.flags = rawFlags (s.slot n) r.zone.fire ∧ t.mat.matched = some ((rawFlags (s.slot n) r.zone.fire).headD 0) :=
    ⟨m4.trans hg, m2, m3, m6, m7⟩
  unfold State.takeRefix
  rw [hr, rf]
  simp only [Option.isSome_some, if_true]
  unfold State.engineTakesRow
  dsimp only
  rw [State.mat_rowThenFinish]
  unfold State.rerunBlocked
  split
  · rcases State.mat_commitAttempt t.handRow with h | h
    · rw [h]
      exact tm
    · rw [h]
      obtain ⟨_, q2, q3, q4, q5⟩ := State.freshMatch_mat t.handRow
      obtain ⟨q6, q7⟩ := q5 n g r.zone.fire (fr.plans ▸ hp) tm.1 tm.2.2.1
      have sl : t.handRow.slot n = s.slot n := by
        show t.slot n = _
        unfold State.slot
        rw [fr.lib]
      rw [sl] at q6 q7
      exact ⟨q4.trans tm.1, q2.trans tm.2.1, q3.trans tm.2.2.1, q6, q7⟩
  · exact tm

end Sys2Proof.Machine
end

