-- ==== Sys2Proof/Laws/Stays.lean ====
section
/-! SUPPORT. What stays true of one bank's record while the engine responds: a property that demands, heat flags, cleared failures and the act on a
demand keep is kept by the engine's end of a hand-off and by the end of STARTUP. -/

namespace Sys2Proof.Machine

open Sys2Proof

-- one theorem after another: see Laws/Frame.lean
set_option Elab.async false

/-- Bank `n` is listed and its record has the property. -/
def State.bankHas (s : State) (n : Nat) (P : Bank → Prop) : Prop := ∃ b, s.bank n = some b ∧ P b

/-- A property of a bank record that neither a demand, nor the heat flag, nor the act on a demand ends. -/
structure Resting (P : Bank → Prop) : Prop where
  demand : ∀ b m, P b → P { b with demand := m }
  heat : ∀ b z, P b → P { b with heatInhibited := z }
  act : ∀ x b, P b → P (actOnDemand x b).bank

/-- Records changed one by one, their numbers kept. -/
theorem find_mapBank {l : List Bank} {n : Nat} {b : Bank} (f : Bank → Bank) (hf : ∀ x, (f x).number = x.number)
    (h : l.find? (fun x => x.number == n) = some b) : (l.map f).find? (fun x => x.number == n) = some (f b) := by
  rw [List.find?_map]
  have e : ((fun x : Bank => x.number == n) ∘ f) = fun x => x.number == n := funext fun x => by dsimp only [Function.comp]; rw [hf]
  rw [e, h]
  rfl

theorem State.bankHas.mapped {s t : State} {n : Nat} {P : Bank → Prop} (h : s.bankHas n P) (f : Bank → Bank) (hf : ∀ x, (f x).number = x.number)
    (hp : ∀ x, P x → P (f x)) (e : t.banks = s.banks.map f) : t.bankHas n P := by
  obtain ⟨b, hb, k⟩ := h
  refine ⟨f b, ?_, hp b k⟩
  unfold State.bank at *
  rw [e]
  exact find_mapBank f hf hb

theorem State.bankHas.same {s t : State} {n : Nat} {P : Bank → Prop} (h : s.bankHas n P) (e : t.banks = s.banks) : t.bankHas n P :=
  h.mapped id (fun _ => rfl) (fun _ k => k) (by rw [e, List.map_id])

theorem State.bankHas.handDemand {s : State} {n : Nat} {P : Bank → Prop} (hP : Resting P) (h : s.bankHas n P) (k : Nat) (m : Demand) :
    (s.handDemand k m).bankHas n P := by
  obtain ⟨b, hb, p⟩ := h
  unfold State.handDemand
  split
  · exact ⟨b, hb, p⟩
  · rename_i c hc
    have hk := (State.bank_mem hc).2
    by_cases e : k = n
    · rw [e] at hc
      rw [hc] at hb
      cases hb
      split
      · exact ⟨_, State.bank_commitBank hc _ ((Bank.fixed_number (fixed_actOnDemand _ _)).trans (hk.trans e)), hP.act _ _ (hP.demand _ _ p)⟩
      · exact ⟨_, State.bank_commitBank hc (BankOut.only _) (hk.trans e), hP.demand _ _ p⟩
    · refine ⟨b, ?_, p⟩
      rw [State.bank_commitBank_other _ _ ?_]
      · exact hb
      · split
        · rw [Bank.fixed_number (fixed_actOnDemand _ _)]; exact fun h => e (hk.symm.trans h)
        · exact fun h => e (hk.symm.trans h)

theorem State.bankHas.handDemands {s : State} {n : Nat} {P : Bank → Prop} (hP : Resting P) (h : s.bankHas n P) (every : Bool) :
    (s.handDemands every).bankHas n P := by
  unfold State.handDemands
  generalize s.demandList = l
  induction l generalizing s with
  | nil => exact h
  | cons p l ih =>
    refine ih ?_
    unfold State.handOne
    split
    · exact h.handDemand hP _ _
    · exact h

theorem State.bankHas.refreshHeat {s : State} {n : Nat} {P : Bank → Prop} (hP : Resting P) (h : s.bankHas n P) : s.refreshHeat.bankHas n P :=
  h.mapped (fun b => { b with heatInhibited := inHeat (heatZone s.site s.eng s.inc.table) b.chainage }) (fun _ => rfl)
    (fun _ k => hP.heat _ _ k) rfl

/-- The engine's end of a hand-off keeps it. -/
theorem State.bankHas.finish {s : State} {n : Nat} {P : Bank → Prop} (hP : Resting P) (h : s.bankHas n P) : s.finish.bankHas n P := by
  unfold State.finish
  split
  · exact (h.refreshHeat hP).handDemands hP _
  · exact h

theorem State.bankHas.finishAll {s : State} {n : Nat} {P : Bank → Prop} (hP : Resting P) (h : s.bankHas n P) : s.finishAll.bankHas n P := by
  unfold State.finishAll
  split
  · exact (h.refreshHeat hP).handDemands hP _
  · exact h

/-! ### Works that leave the bank table -/

theorem State.banks_formTarget (s : State) : s.formTarget.banks = s.banks := (State.formTarget_rest s).2.2.1

theorem State.banks_latchDirection (s : State) (d : Dir) (g : Nat) (r : Row) : (s.latchDirection d g r).banks = s.banks := by
  unfold State.latchDirection
  rw [State.banks_formThrust, State.banks_formTarget]
  exact State.setEngine_banks _ _

theorem State.banks_enterHold (s : State) (r : HoldReason) : (s.enterHold r).banks = s.banks := by
  unfold State.enterHold
  dsimp only
  split
  · exact State.setEngine_banks _ _
  · exact State.setEngine_banks _ _

theorem State.banks_enterAlert (s : State) : s.enterAlert.banks = s.banks := State.setEngine_banks _ _

theorem State.banks_freshMatch (s : State) : s.freshMatch.banks = s.banks := by
  unfold State.freshMatch
  split
  · dsimp only; split <;> rfl
  · rfl

theorem State.banks_commitAttempt (s : State) : s.commitAttempt.banks = s.banks := by
  unfold State.commitAttempt
  split
  · exact State.banks_enterHold _ _
  · split
    · exact State.banks_enterHold _ _
    · dsimp only
      split
      · split
        · exact (State.banks_latchDirection _ _ _ _).trans (State.banks_freshMatch s)
        · exact (State.banks_enterHold _ _).trans (State.banks_freshMatch s)
      · exact State.banks_freshMatch s

theorem State.banks_returnActive (s : State) : s.returnActive.banks = s.banks := by
  unfold State.returnActive
  rw [State.banks_formThrust, State.banks_formTarget]
  exact State.setEngine_banks _ _

/-! ### The evaluation and the end of STARTUP -/

theorem State.bankHas.enterQuiet {s : State} {n : Nat} {P : Bank → Prop} (h : s.bankHas n P)
    (hf : ∀ b, P b → P { b with failures := 0, lockoutPending := false }) : s.enterQuiet.bankHas n P :=
  h.mapped (fun b => { b with failures := 0, lockoutPending := false }) (fun _ => rfl) hf (State.setEngine_banks _ _)

theorem State.bankHas.evaluateFull {s : State} {n : Nat} {P : Bank → Prop} (h : s.bankHas n P) (c : Nat) (rerun rose : Bool) :
    (s.evaluateFull c rerun rose).bankHas n P := by
  unfold State.evaluateFull
  split <;> (repeat' split) <;>
    first
    | with_reducible exact h
    | with_reducible exact h.same (State.banks_enterAlert _)
    | with_reducible exact h.same (State.banks_commitAttempt _)
    | with_reducible exact h.same (State.banks_returnActive _)
    | exact h.same (State.banks_commitAttempt s.dropLatch)
    | with_reducible exact h.same (State.banks_enterHold s _)
    | exact h.same (State.banks_enterHold { s with eng := { s.eng with kept := s.eng.stage } } _)
    | exact h.same rfl

theorem State.bankHas.evaluate {s : State} {n : Nat} {P : Bank → Prop} (h : s.bankHas n P)
    (hf : ∀ b, P b → P { b with failures := 0, lockoutPending := false }) (rerun : Bool) : (s.evaluate rerun).bankHas n P := by
  unfold State.evaluate
  split
  · dsimp only
    have k : State.bankHas { s with eng := { s.eng with confirmed := s.confirmedCount } } n P := h.same rfl
    split
    · split
      · exact k
      · exact k.enterQuiet hf
    · exact k.evaluateFull _ _ _
  · exact h

/-- The end of STARTUP keeps it, when cleared failures do too. -/
theorem State.bankHas.leaveStartup {s : State} {n : Nat} {P : Bank → Prop} (hP : Resting P)
    (hf : ∀ b, P b → P { b with failures := 0, lockoutPending := false }) (h : s.bankHas n P) : s.leaveStartup.bankHas n P := by
  unfold State.leaveStartup
  dsimp only
  refine State.bankHas.finishAll hP ?_
  have k : (if s.banks.any (fun b => b.state.foundTurning) then s.setEngine .resetHold else s.enterQuiet).bankHas n P := by
    split
    · exact h.same (State.setEngine_banks _ _)
    · exact h.enterQuiet hf
  revert k
  generalize (if s.banks.any (fun b => b.state.foundTurning) then s.setEngine .resetHold else s.enterQuiet) = t
  intro k
  have w : t.writeDemands.bankHas n P := k.mapped (fun b => { b with demand := snapshotDemand (some t.demandList) b.number })
    (fun _ => rfl) (fun b p => hP.demand b _ p) rfl
  split
  · exact w
  · exact w.evaluate hf _

/-- The engine told of bank states keeps it. -/
theorem State.bankHas.engineTakesBanks {s : State} {n : Nat} {P : Bank → Prop} (hP : Resting P)
    (hf : s.eng.state = .startup → ∀ b, P b → P { b with failures := 0, lockoutPending := false }) (h : s.bankHas n P) :
    s.engineTakesBanks.bankHas n P := by
  unfold State.engineTakesBanks
  split
  · rename_i e
    split
    · exact h
    · exact h.leaveStartup hP (hf e)
  · exact h.finish hP

end Sys2Proof.Machine
end

