-- ==== Sys2Proof/Laws/Rebuilds.lean ====
section
/-! SUPPORT. A bank table just rebuilt rests: every bank is in VERIFY, where a demand is written and not acted on, so that the end of a CLOSE_EDIT
write leaves the field line, the arbiter, the stations and all of each record but demand and heat flag as built (R95, R75). -/

namespace Sys2Proof.Machine

open Sys2Proof

/-- A record without the demand and the heat flag. -/
def Bank.stripped (b : Bank) : Bank := { b with demand := .off, heatInhibited := false }

/-- The tables of a site record as built, but for demands and heat flags, beside a field line, an arbiter and a station table. -/
structure Rebuilt (r : List (List Byte)) (f : FieldLine) (a : Arbiter) (l : List Station) (s : State) : Prop where
  fl : s.fl = f
  arb : s.arb = a
  stations : s.vel.stations = l
  banks : s.banks.map Bank.stripped = buildBanks r

theorem buildBanks_fresh {r : List (List Byte)} {b : Bank} (h : b ∈ buildBanks r) : ∃ e, b = freshBank r e := by
  unfold buildBanks at h
  obtain ⟨_, _, e⟩ := List.mem_filterMap.mp h
  obtain ⟨x, _, e⟩ := Option.map_eq_some_iff.mp e
  exact ⟨x, e.symm⟩

theorem buildBanks_stripped (r : List (List Byte)) : (buildBanks r).map Bank.stripped = buildBanks r := by
  have h : ∀ b ∈ buildBanks r, b.stripped = b := fun b hb => by
    obtain ⟨e, rfl⟩ := buildBanks_fresh hb
    rfl
  exact (List.map_congr_left h).trans (List.map_id _)

/-- A table as built holds each number once. -/
theorem buildBanks_distinct (r : List (List Byte)) : ((buildBanks r).map Bank.number).Nodup := by
  have sub : ∀ l : List Nat,
      ((l.filterMap (fun n => ((siteBanks r).find? (fun e => e.number == n)).map (freshBank r))).map Bank.number).Sublist l := by
    intro l
    induction l with
    | nil => exact .slnil
    | cons x l ih =>
      rw [List.filterMap_cons]
      split
      · exact ih.cons _
      · rename_i b hb
        obtain ⟨e, he, q⟩ := Option.map_eq_some_iff.mp hb
        have k := List.find?_some he
        simp at k
        rw [List.map_cons, ← q]
        show (e.number :: _).Sublist _
        rw [k]
        exact ih.cons_cons _
  exact (sub _).nodup List.nodup_range'

namespace Rebuilt

variable {r : List (List Byte)} {f : FieldLine} {a : Arbiter} {l : List Station} {s : State}

/-- Every bank is in VERIFY at its reset values. -/
theorem verify (h : Rebuilt r f a l s) :
    ∀ b ∈ s.banks, b.state = .verify ∧ b.forcing = .auto ∧ b.failures = 0 ∧ b.lockoutPending = false ∧ b.latest = none := by
  intro b hb
  obtain ⟨e, k⟩ := buildBanks_fresh (r := r) (by rw [← h.banks]; exact List.mem_map.mpr ⟨b, hb, rfl⟩)
  exact ⟨congrArg Bank.state k, congrArg Bank.forcing k, congrArg Bank.failures k, congrArg Bank.lockoutPending k,
    congrArg Bank.latest k⟩

theorem distinct (h : Rebuilt r f a l s) : s.BanksDistinct := by
  unfold State.BanksDistinct
  have e : s.banks.map Bank.number = (s.banks.map Bank.stripped).map Bank.number := by
    rw [List.map_map]
    rfl
  rw [e, h.banks]
  exact buildBanks_distinct r

/-- A state with the same tables. -/
theorem same {t : State} (h : Rebuilt r f a l s) (e1 : t.fl = s.fl) (e2 : t.arb = s.arb) (e3 : t.vel.stations = s.vel.stations)
    (e4 : t.banks = s.banks) : Rebuilt r f a l t :=
  ⟨e1.trans h.fl, e2.trans h.arb, e3.trans h.stations, by rw [e4]; exact h.banks⟩

theorem setLimit (h : Rebuilt r f a l s) (x : LimitFlag) : Rebuilt r f a l (s.setLimit x) := by
  unfold State.setLimit
  split
  · exact h
  · exact h.same rfl rfl rfl rfl

theorem formThrust (h : Rebuilt r f a l s) : Rebuilt r f a l s.formThrust :=
  h.same (State.fl_formThrust s) (State.arb_formThrust s) (by rw [(DemandFrame.formThrust s).vel]) (State.banks_formThrust s)

theorem formTarget (h : Rebuilt r f a l s) : Rebuilt r f a l s.formTarget := by
  unfold State.formTarget
  split
  · dsimp only
    split
    · exact h.same rfl rfl rfl rfl
    · refine setLimit ?_ _
      exact h.same rfl rfl rfl rfl
  · exact h

theorem handDemand (h : Rebuilt r f a l s) (n : Nat) (m : Demand) : Rebuilt r f a l (s.handDemand n m) := by
  unfold State.handDemand
  split
  · exact h
  · rename_i b hb
    obtain ⟨hm, _⟩ := State.bank_mem hb
    have hv := (h.verify b hm).1
    have e : (if s.eng.state.live then actOnDemand (s.bankContext n) { b with demand := m } else BankOut.only { b with demand := m }) =
        BankOut.only { b with demand := m } := by
      split
      · unfold actOnDemand
        simp only [hv]
      · rfl
    dsimp only
    rw [e]
    refine ⟨?_, ?_, ?_, ?_⟩
    · rw [State.fl_commitBank]
      exact h.fl
    · rw [State.arb_commitBank]
      exact h.arb
    · rw [(DemandFrame.commitBank s _).vel]
      exact h.stations
    · rw [State.banks_commitBank, ← h.banks]
      unfold setBank
      rw [List.map_map]
      refine List.map_congr_left (fun x hx => ?_)
      dsimp only [Function.comp]
      split
      · rename_i q
        rw [Bank.eq_of_distinct h.distinct hx hm q]
        rfl
      · rfl

theorem handDemands (h : Rebuilt r f a l s) (every : Bool) : Rebuilt r f a l (s.handDemands every) := by
  unfold State.handDemands
  generalize s.demandList = ds
  induction ds generalizing s with
  | nil => exact h
  | cons p ds ih =>
    refine ih ?_
    unfold State.handOne
    split
    · exact h.handDemand _ _
    · exact h

theorem refreshHeat (h : Rebuilt r f a l s) : Rebuilt r f a l s.refreshHeat := by
  refine ⟨h.fl, h.arb, h.stations, ?_⟩
  rw [← h.banks]
  show (flagHeat _ s.banks).map Bank.stripped = _
  unfold flagHeat
  rw [List.map_map]
  rfl

theorem finish (h : Rebuilt r f a l s) : Rebuilt r f a l s.finish := by
  unfold State.finish
  split
  · exact h.refreshHeat.handDemands _
  · exact h

theorem finishAll (h : Rebuilt r f a l s) : Rebuilt r f a l s.finishAll := by
  unfold State.finishAll
  split
  · exact h.refreshHeat.handDemands _
  · exact h

theorem setEngine (h : Rebuilt r f a l s) (x : EngineState) : Rebuilt r f a l (s.setEngine x) := by
  unfold State.setEngine
  split
  · exact h
  · exact h.same rfl rfl rfl rfl

theorem enterHold (h : Rebuilt r f a l s) (x : HoldReason) : Rebuilt r f a l (s.enterHold x) := by
  unfold State.enterHold
  dsimp only
  refine setEngine ?_ _
  split
  · exact h
  · exact h.same rfl rfl rfl rfl

theorem freshMatch (h : Rebuilt r f a l s) : Rebuilt r f a l s.freshMatch := by
  unfold State.freshMatch
  split
  · dsimp only
    split <;> exact h.same rfl rfl rfl rfl
  · exact h.same rfl rfl rfl rfl

theorem commitAttempt (h : Rebuilt r f a l s) : Rebuilt r f a l s.commitAttempt := by
  unfold State.commitAttempt
  split
  · exact h.enterHold _
  · split
    · exact h.enterHold _
    · have k : Rebuilt r f a l s.freshMatch.handRow := h.freshMatch.same rfl rfl rfl rfl
      dsimp only
      split
      · split
        · unfold State.latchDirection
          refine formThrust (formTarget ?_)
          dsimp only
          generalize hy : State.setEngine _ _ = y
          have q : Rebuilt r f a l y := by
            rw [← hy]
            refine setEngine ?_ _
            exact k.same rfl rfl rfl rfl
          exact q.same rfl rfl rfl rfl
        · exact k.enterHold _
      · exact k

theorem rowChange (h : Rebuilt r f a l s) : Rebuilt r f a l s.rowChange := by
  unfold State.rowChange
  split
  · dsimp only
    refine formTarget ?_
    split
    · exact h
    · exact h.same rfl rfl rfl rfl
  · exact h

theorem engineTakesPlan (h : Rebuilt r f a l s) (moved : Bool) : Rebuilt r f a l (s.engineTakesPlan moved) := by
  unfold State.engineTakesPlan
  refine finish ?_
  have k : Rebuilt r f a l
      (match s.eng.state with
      | .hold .noPlan => if s.plans.active.isSome then s.commitAttempt else s
      | .hold .directionBlocked => s.commitAttempt
      | _ => s) := by
    split
    · split
      · exact h.commitAttempt
      · exact h
    · exact h.commitAttempt
    · exact h
  split
  · exact k.rowChange
  · exact k

theorem installPlan (h : Rebuilt r f a l s) (p : Option Nat) : Rebuilt r f a l (s.installPlan p) := by
  unfold State.installPlan State.setActive
  split
  · exact h.same rfl rfl rfl rfl
  · dsimp only
    refine engineTakesPlan ?_ _
    generalize hy : State.freshMatch _ = y
    have q : Rebuilt r f a l y := by
      rw [← hy]
      refine freshMatch ?_
      exact h.same rfl rfl rfl rfl
    exact q.same rfl rfl rfl rfl

end Rebuilt

/-- The tables right after they are rebuilt (R183). -/
theorem State.rebuild_rebuilt (s : State) :
    Rebuilt s.site { s.fl with units := buildUnits s.site, queue := [], inRow := 0, rota := none }
      { slots := buildSlots s.site, queue := [] } (buildStations s.site) s.rebuild := by
  unfold State.rebuild
  exact Rebuilt.finishAll (Rebuilt.formThrust ⟨rfl, rfl, rfl, buildBanks_stripped _⟩)

/-! ### A table rebuilt in QUIET -/

/-- A table as built, in QUIET. -/
structure Settled (r : List (List Byte)) (s : State) : Prop where
  quiet : s.eng.state = .quiet
  banks : s.banks = buildBanks r

theorem Settled.distinct {r : List (List Byte)} {s : State} (h : Settled r s) : s.BanksDistinct := by
  unfold State.BanksDistinct
  rw [h.banks]
  exact buildBanks_distinct r

theorem Settled.handDemand {r : List (List Byte)} {s : State} (h : Settled r s) (n : Nat) : Settled r (s.handDemand n .off) := by
  unfold State.handDemand
  split
  · exact h
  · rename_i b hb
    obtain ⟨hm, _⟩ := State.bank_mem hb
    obtain ⟨e, he⟩ := buildBanks_fresh (by rw [← h.banks]; exact hm)
    have hl : s.eng.state.live = true := by rw [h.quiet]; rfl
    have hd : ({ b with demand := .off } : Bank) = b := by rw [he]; rfl
    have hv : b.state = .verify := by rw [he]; rfl
    dsimp only
    rw [hl, hd]
    have e : (if true = true then actOnDemand (s.bankContext n) b else BankOut.only b) = BankOut.only b := by
      unfold actOnDemand
      simp only [hv, if_true]
    rw [e]
    refine ⟨?_, ?_⟩
    · have := (DemandFrame.commitBank s (BankOut.only b)).eng
      rw [this]
      exact h.quiet
    · rw [State.banks_commitBank]
      show setBank b s.banks = _
      rw [← h.banks]
      unfold setBank
      refine (List.map_congr_left (fun x hx => ?_)).trans (List.map_id _)
      split
      · rename_i q
        exact (Bank.eq_of_distinct h.distinct hx hm q).symm
      · rfl

theorem Settled.handDemands {r : List (List Byte)} {s : State} (h : Settled r s) (e : Bool) : Settled r (s.handDemands e) := by
  unfold State.handDemands
  have hd : ∀ p ∈ s.demandList, p.2 = .off := by
    intro p hp
    unfold State.demandList at hp
    have ht : s.takenList = [] := by unfold State.takenList State.eligibleOrder; rw [h.quiet]; simp
    rw [ht] at hp
    obtain ⟨b, hb, rfl⟩ := List.mem_map.mp hp
    have hm : b ∈ s.banks := by simp at hb; rcases hb with hb | hb <;> exact hb.1
    obtain ⟨e, he⟩ := buildBanks_fresh (by rw [← h.banks]; exact hm)
    show s.demandOf _ b = _
    unfold State.demandOf
    rw [h.quiet, he]
    rfl
  generalize s.demandList = ds at hd
  induction ds generalizing s with
  | nil => exact h
  | cons p ds ih =>
    refine ih ?_ (fun q hq => hd q (List.mem_cons_of_mem _ hq))
    unfold State.handOne
    rw [hd p (List.mem_cons_self ..)]
    split
    · exact h.handDemand _
    · exact h

theorem Settled.refreshHeat {r : List (List Byte)} {s : State} (h : Settled r s) : Settled r s.refreshHeat := by
  unfold State.refreshHeat
  have hz : heatZone s.site s.eng s.inc.table = [] := by
    unfold heatZone heatStretches
    rw [h.quiet]
    rfl
  rw [hz]
  refine ⟨h.quiet, ?_⟩
  show flagHeat [] s.banks = _
  rw [h.banks]
  unfold flagHeat
  refine (List.map_congr_left (fun x hx => ?_)).trans (List.map_id _)
  obtain ⟨e, he⟩ := buildBanks_fresh hx
  rw [he]
  rfl

theorem Settled.finish {r : List (List Byte)} {s : State} (h : Settled r s) : Settled r s.finish := by
  unfold State.finish
  split
  · exact h.refreshHeat.handDemands _
  · exact h

theorem Settled.finishAll {r : List (List Byte)} {s : State} (h : Settled r s) : Settled r s.finishAll := by
  unfold State.finishAll
  split
  · exact h.refreshHeat.handDemands _
  · exact h

theorem Settled.freshMatch {r : List (List Byte)} {s : State} (h : Settled r s) : Settled r s.freshMatch := by
  unfold State.freshMatch
  split
  · dsimp only
    split <;> exact ⟨h.quiet, h.banks⟩
  · exact ⟨h.quiet, h.banks⟩

theorem Settled.installPlan {r : List (List Byte)} {s : State} (h : Settled r s) (p : Option Nat) : Settled r (s.installPlan p) := by
  unfold State.installPlan State.setActive
  split
  · exact ⟨h.quiet, h.banks⟩
  · dsimp only
    generalize hy : State.freshMatch _ = y
    have k : Settled r y := by rw [← hy]; refine Settled.freshMatch ?_; exact ⟨h.quiet, h.banks⟩
    have k2 : Settled r y.handRow := ⟨k.quiet, k.banks⟩
    unfold State.engineTakesPlan
    rw [k2.quiet]
    dsimp only
    refine Settled.finish ?_
    split
    · unfold State.rowChange
      rw [k2.quiet]
      exact k2
    · exact k2

/-- The table at the end of a CLOSE_EDIT write that was read back in QUIET: as built, no demand and no heat flag (R95, R183). -/
theorem State.banks_endClose_quiet {s : State} {r : List (List Byte)} (o : InFlight) (h : s.lib.staged = some r) (q : s.eng.state = .quiet) :
    (s.endClose o true).banks = buildBanks r := by
  unfold State.endClose
  rw [h]
  dsimp only [Option.getD]
  simp only [if_true, q, reduceCtorEq, if_false]
  show (State.installPlan _ _).banks = _
  refine Settled.banks (Settled.installPlan ?_ _)
  generalize hw : ({ s with lib := _ } : State) = w
  have ws : w.site = r := by
    unfold State.site
    rw [← hw]
  have k : Settled r w.rebuild := by
    unfold State.rebuild
    dsimp only
    rw [ws]
    refine Settled.finishAll ⟨?_, ?_⟩
    · rw [(DemandFrame.formThrust _).eng, ← hw]
      exact q
    · rw [State.banks_formThrust]
  exact ⟨k.quiet, k.banks⟩

/-! ### The stations through a plan change -/

theorem State.stations_enterHold (s : State) (r : HoldReason) : (s.enterHold r).vel.stations = s.vel.stations := by
  unfold State.enterHold
  dsimp only
  rw [State.setEngine_vel]
  split <;> rfl

theorem State.vel_freshMatch (s : State) : s.freshMatch.vel = s.vel := by
  unfold State.freshMatch
  split
  · dsimp only
    split <;> rfl
  · rfl

theorem State.stations_formTarget (s : State) : s.formTarget.vel.stations = s.vel.stations := by
  rw [(State.formTarget_rest s).2.2.2]

theorem State.stations_commitAttempt (s : State) : s.commitAttempt.vel.stations = s.vel.stations := by
  unfold State.commitAttempt
  split
  · exact State.stations_enterHold _ _
  · split
    · exact State.stations_enterHold _ _
    · dsimp only
      have k : s.freshMatch.handRow.vel = s.vel := State.vel_freshMatch s
      split
      · split
        · unfold State.latchDirection
          dsimp only
          rw [(DemandFrame.formThrust _).vel]
          dsimp only
          rw [State.stations_formTarget]
          show (State.setEngine _ _).vel.stations = _
          rw [State.setEngine_vel]
          show s.freshMatch.handRow.vel.stations = _
          rw [k]
        · rw [State.stations_enterHold, k]
      · rw [k]

theorem State.stations_rowChange (s : State) : s.rowChange.vel.stations = s.vel.stations := by
  unfold State.rowChange
  split
  · dsimp only
    rw [State.stations_formTarget]
    split <;> rfl
  · rfl

theorem State.stations_engineTakesPlan (s : State) (moved : Bool) : (s.engineTakesPlan moved).vel.stations = s.vel.stations := by
  unfold State.engineTakesPlan
  dsimp only
  rw [(DemandFrame.finish _).vel]
  dsimp only
  have k :
      (match s.eng.state with
      | .hold .noPlan => if s.plans.active.isSome then s.commitAttempt else s
      | .hold .directionBlocked => s.commitAttempt
      | _ => s).vel.stations = s.vel.stations := by
    split
    · split
      · exact State.stations_commitAttempt s
      · rfl
    · exact State.stations_commitAttempt s
    · rfl
  split
  · rw [State.stations_rowChange]
    exact k
  · exact k

/-- A plan installed leaves the station table as it stands. -/
theorem State.stations_installPlan (s : State) (p : Option Nat) : (s.installPlan p).vel.stations = s.vel.stations := by
  unfold State.installPlan State.setActive
  split
  · rfl
  · dsimp only
    rw [State.stations_engineTakesPlan]
    show (State.freshMatch _).vel.stations = _
    rw [State.vel_freshMatch]

end Sys2Proof.Machine
end

