-- ==== Sys2Proof/Laws/Receivers.lean ====
section
/-! SUPPORT. The receivers: what a frame found by a receiver keeps, what it does (the command's own meaning), and where a hunt through a string of
characters comes to. -/

namespace Sys2Proof.Machine

open Sys2Proof

/-! ### Frames found inside a discarded one -/

/-- A frame found by a receiver keeps what every work of the 480 keeps. -/
theorem execFrame_keeps (c : Instr) (s : State) : ∃ t, execFrame c s = .next t ∧ Keeps s t := by
  cases c with
  | unknownRequest i tag code ops =>
    refine ⟨_, rfl, ?_⟩
    split
    · exact .refl s
    · exact Keeps.request _ _ _ _ _ (Body.read _ _)
  | readIncidents i t o => exact ⟨_, rfl, Keeps.request _ _ _ _ _ (Body.read _ _)⟩
  | readDetection i t o => exact ⟨_, rfl, Keeps.request _ _ _ _ _ (Body.read _ _)⟩
  | readPlans i t o => exact ⟨_, rfl, Keeps.request _ _ _ _ _ (Body.read _ _)⟩
  | readEngine i t o => exact ⟨_, rfl, Keeps.request _ _ _ _ _ (Body.read _ _)⟩
  | readTrains i t o => exact ⟨_, rfl, Keeps.request _ _ _ _ _ (Body.read _ _)⟩
  | readBanks i t o => exact ⟨_, rfl, Keeps.request _ _ _ _ _ (Body.read _ _)⟩
  | readStarts i t o => exact ⟨_, rfl, Keeps.request _ _ _ _ _ (Body.read _ _)⟩
  | readVelocity i t o => exact ⟨_, rfl, Keeps.request _ _ _ _ _ (Body.read _ _)⟩
  | readField i t o => exact ⟨_, rfl, Keeps.request _ _ _ _ _ (Body.read _ _)⟩
  | readPorts i t o w e =>
    exact ⟨_, rfl, Keeps.request _ _ _ _ _ (Body.mk' fun s _ => Kept.same s _ _ _ _ _ _ _ _ rfl)⟩
  | readLibrary i t o => exact ⟨_, rfl, Keeps.request _ _ _ _ _ (Body.read _ _)⟩
  | readSlot i t o => exact ⟨_, rfl, Keeps.request _ _ _ _ _ (Body.read _ _)⟩
  | lodge i t o => exact ⟨_, rfl, Keeps.request _ _ _ _ _ (Body.lodge _ _)⟩
  | confirm i t o => exact ⟨_, rfl, Keeps.request _ _ _ _ _ (Body.confirmIncident _ _)⟩
  | setEvacuation i t o => exact ⟨_, rfl, Keeps.request _ _ _ _ _ (Body.setEvacuation _ _ _)⟩
  | linkTrain i t o => exact ⟨_, rfl, Keeps.request _ _ _ _ _ (Body.linkTrain _ _ _)⟩
  | clear i t o => exact ⟨_, rfl, Keeps.request _ _ _ _ _ (Body.clearIncident _ _)⟩
  | status => exact ⟨_, rfl, ((Kept.detection s _).trans (Kept.lineAlive _)).keeps⟩
  | hotspot a b t =>
    refine ⟨_, rfl, ?_⟩
    split
    · exact (((Kept.detection s _).trans (Kept.lineAlive _)).trans (Kept.passHotspot _ _ _ _)).keeps
    · exact .refl s
  | lineFault c => exact ⟨_, rfl, ((Kept.detection s _).trans (Kept.setCondition _ _ _)).keeps⟩
  | lineOk => exact ⟨_, rfl, ((Kept.detection s _).trans (Kept.setCondition _ _ _)).keeps⟩
  | selectPlan i t o => exact ⟨_, rfl, Keeps.request _ _ _ _ _ (Body.selectPlan _ _)⟩
  | revertPlan i t o => exact ⟨_, rfl, Keeps.request _ _ _ _ _ (Body.revertPlan _)⟩
  | swapPlan i t o => exact ⟨_, rfl, Keeps.request _ _ _ _ _ (Body.swapPlan _)⟩
  | setDirection i t o => exact ⟨_, rfl, Keeps.request _ _ _ _ _ (Body.setDirection _ _)⟩
  | resume i t o => exact ⟨_, rfl, Keeps.request _ _ _ _ _ (Body.resumeQuiet _)⟩
  | setTrain i t o => exact ⟨_, rfl, Keeps.request _ _ _ _ _ (Body.setTrain _ _)⟩
  | removeTrain i t o => exact ⟨_, rfl, Keeps.request _ _ _ _ _ (Body.removeTrain _ _)⟩
  | setForcing i t o => exact ⟨_, rfl, Keeps.request _ _ _ _ _ (Body.setForcing _ _ _)⟩
  | releaseBank i t o => exact ⟨_, rfl, Keeps.request _ _ _ _ _ (Body.releaseBank _ _)⟩
  | setTarget i t o => exact ⟨_, rfl, Keeps.request _ _ _ _ _ (Body.setTarget _ _)⟩
  | enumerate i t o => exact ⟨_, rfl, Keeps.request _ _ _ _ _ (Body.enumerateUnits _)⟩
  | claim i t o k => exact ⟨_, rfl, Keeps.request _ _ _ _ _ (Body.claim _ _)⟩
  | yield i t o => exact ⟨_, rfl, Keeps.request _ _ _ _ _ (Body.yieldTo _ _)⟩
  | readNotices i t o => exact ⟨_, rfl, Keeps.request _ _ _ _ _ (Body.collectNotices _)⟩
  | ackNotices i t o => exact ⟨_, rfl, Keeps.request _ _ _ _ _ (Body.acknowledge _ _)⟩
  | setNoticeMask i t o => exact ⟨_, rfl, Keeps.request _ _ _ _ _ (Body.setMask _ _)⟩
  | openEdit i t o => exact ⟨_, rfl, Keeps.request _ _ _ _ _ (Body.openEdit _)⟩
  | writeSitePart i t o => exact ⟨_, rfl, Keeps.request _ _ _ _ _ (Body.stagePart _ _)⟩
  | lockReadback i t o c => exact ⟨_, rfl, Keeps.request _ _ _ _ _ (Body.lockReadback _ _)⟩
  | eraseSlot i t o => exact ⟨_, rfl, Keeps.request _ _ _ _ _ (Body.mk' fun s _ => Kept.longRequest s _ _ _)⟩
  | writePart i t o => exact ⟨_, rfl, Keeps.request _ _ _ _ _ (Body.mk' fun s _ => Kept.longRequest s _ _ _)⟩
  | sealSlot i t o => exact ⟨_, rfl, Keeps.request _ _ _ _ _ (Body.mk' fun s _ => Kept.longRequest s _ _ _)⟩
  | eraseLibrary i t o => exact ⟨_, rfl, Keeps.request _ _ _ _ _ (Body.mk' fun s _ => Kept.longRequest s _ _ _)⟩
  | closeEdit i t o => exact ⟨_, rfl, Keeps.request _ _ _ _ _ (Body.closeEdit _)⟩
  | _ => exact ⟨s, rfl, .refl s⟩

theorem State.takeFrame_eq {s t : State} {c : Instr} (h : execFrame c s = .next t) : s.takeFrame c = t := by
  unfold State.takeFrame; rw [h]

theorem Keeps.takeFrame (s : State) (c : Instr) : Keeps s (s.takeFrame c) := by
  obtain ⟨t, h, k⟩ := execFrame_keeps c s
  rw [State.takeFrame_eq h]; exact k

theorem Keeps.takeFrames : ∀ (l : List Instr) (s : State), Keeps s (s.takeFrames l)
  | [], s => .refl s
  | c :: l, s => (Keeps.takeFrame s c).trans (Keeps.takeFrames l _)

theorem Keeps.huntInside (s : State) (i d) : Keeps s (s.huntInside i d) :=
  (Keeps.takeFrames _ s).trans (Keeps.setPort _ i _ (fun h => .inl h) (fun h => h))

/-- Replies found inside a damaged one are taken one after another. -/
theorem Kept.takeReplies : ∀ (l : List FieldReply) (s : State), Kept s (l.foldl (fun t r => t.takeReply r.addr r.hi r.lo) s)
  | [], s => .refl s
  | r :: l, s => (Kept.takeReply s r.addr r.hi r.lo).trans (Kept.takeReplies l _)

/-! ### What a found frame does -/

/-- The request that a CODE names takes, inside a damaged frame, the effect of its own command. -/
theorem execFrame_requestOf (i tag code ops w e c s) :
    execFrame (requestOf i tag code ops w e c) s = exec (requestOf i tag code ops w e c) s := by
  unfold requestOf
  split <;> rfl

/-- A detection frame takes, inside a damaged one, the effect of its own command. -/
theorem execFrame_detectionIn {f : List Byte} {c : Instr} (h : detectionIn f = some c) (s : State) : execFrame c s = exec c s := by
  unfold detectionIn at h
  split at h <;> cases h <;> rfl

/-! ### Hunts -/

/-- Characters already taken are passed over. -/
theorem pcpHunt_skip : ∀ l : List Byte, ∀ m : List Byte, pcpHunt l.length (l ++ m) = pcpHunt 0 m
  | [], _ => rfl
  | _ :: l, m => pcpHunt_skip l m

/-- Characters that are not SYNC are passed over. -/
theorem pcpHunt_noSync : ∀ l : List Byte, (0xA5 : Byte) ∉ l → ∀ m : List Byte, pcpHunt 0 (l ++ m) = pcpHunt 0 m
  | [], _, _ => rfl
  | c :: l, h, m => by
    rw [List.cons_append, pcpHunt, if_pos (fun e => h (by rw [e]; exact List.mem_cons_self))]
    exact pcpHunt_noSync l (fun k => h (List.mem_cons_of_mem _ k)) m

/-- A valid frame after a SYNC is found, and the hunt goes on after its CRC. -/
theorem pcpHunt_frame {f : List Byte} (h1 : f.length = getU8 f 0 + 3) (h2 : 2 ≤ getU8 f 0) (h3 : getU8 f 0 ≤ 250) (h4 : pcpCrcOk f = true)
    (m : List Byte) : pcpHunt 0 (0xA5 :: (f ++ m)) = (f :: (pcpHunt 0 m).1, (pcpHunt 0 m).2) := by
  have hne : f ≠ [] := fun e => by subst e; cases h1
  have hg : getU8 (f ++ m) 0 = getU8 f 0 := by
    obtain ⟨a, l, rfl⟩ := List.exists_cons_of_ne_nil hne
    rfl
  have ht : (f ++ m).take (getU8 f 0 + 3) = f := by rw [← h1, List.take_left]
  rw [pcpHunt, if_neg (by decide), if_neg (by simp [hne]), hg, if_neg (by omega), if_neg (by rw [List.length_append]; omega), ht, if_pos h4,
    ← h1, pcpHunt_skip]

theorem detectionHunt_skip : ∀ l : List Byte, ∀ m : List Byte, detectionHunt l.length (l ++ m) = detectionHunt 0 m
  | [], _ => rfl
  | _ :: l, m => detectionHunt_skip l m

theorem detectionHunt_noSync : ∀ l : List Byte, (0x96 : Byte) ∉ l → ∀ m : List Byte, detectionHunt 0 (l ++ m) = detectionHunt 0 m
  | [], _, _ => rfl
  | c :: l, h, m => by
    rw [List.cons_append, detectionHunt, if_pos (fun e => h (by rw [e]; exact List.mem_cons_self))]
    exact detectionHunt_noSync l (fun k => h (List.mem_cons_of_mem _ k)) m

/-- A valid detection frame after a SYNC is found, and the hunt goes on after its CRC. -/
theorem detectionHunt_frame {f : List Byte} {c : Instr} (h : detectionFrameOk f = true) (hc : detectionIn f = some c) (m : List Byte) :
    detectionHunt 0 (0x96 :: (f ++ m)) = c :: detectionHunt 0 m := by
  have hk : detectionCrcOk f = true := by
    unfold detectionFrameOk at h
    exact (Bool.and_eq_true _ _ ▸ h).1
  have hk' := hk
  unfold detectionCrcOk at hk'
  split at hk'
  · cases hk'
  · rename_i n hn
    have hl : f.length = n + 2 := by
      have := (Bool.and_eq_true _ _ ▸ hk').1
      simpa using this
    have hg : getU8 (f ++ m) 0 = getU8 f 0 := by
      obtain ⟨a, l, rfl⟩ := List.exists_cons_of_ne_nil (l := f) (fun e => by subst e; cases hl)
      rfl
    have ht : (f ++ m).take (n + 2) = f := by rw [← hl, List.take_left]
    rw [detectionHunt, if_neg (by decide), hg]
    simp only [hn, ht, h, hk, hc, if_true, Bool.not_true, Bool.false_eq_true, if_false]
    rw [if_neg (by rw [List.length_append]; omega), ← hl, detectionHunt_skip]
    rfl

theorem replyHunt_skip : ∀ l : List Byte, ∀ m : List Byte, replyHunt l.length (l ++ m) = replyHunt 0 m
  | [], _ => rfl
  | _ :: l, m => replyHunt_skip l m

theorem replyHunt_noSync : ∀ l : List Byte, (0x3C : Byte) ∉ l → ∀ m : List Byte, replyHunt 0 (l ++ m) = replyHunt 0 m
  | [], _, _ => rfl
  | c :: l, h, m => by
    rw [List.cons_append, replyHunt, if_pos (fun e => h (by rw [e]; exact List.mem_cons_self))]
    exact replyHunt_noSync l (fun k => h (List.mem_cons_of_mem _ k)) m

/-- A reply with a correct CRC is found, and the hunt goes on after it. -/
theorem replyHunt_frame (r : FieldReply) (m : List Byte) : replyHunt 0 (r.frame ++ m) = r :: replyHunt 0 m := by
  show replyHunt 0 (0x3C :: ([r.addr, r.hi, r.lo, crc8 [r.addr, r.hi, r.lo]] ++ m)) = _
  have ht : ([r.addr, r.hi, r.lo, crc8 [r.addr, r.hi, r.lo]] ++ m).take 4 = [r.addr, r.hi, r.lo, crc8 [r.addr, r.hi, r.lo]] := rfl
  have hk : replyCrcOk [r.addr, r.hi, r.lo, crc8 [r.addr, r.hi, r.lo]] = true := by
    unfold replyCrcOk; exact (Bool.and_eq_true _ _).mpr ⟨rfl, beq_iff_eq.mpr rfl⟩
  rw [replyHunt, if_neg (by decide), if_neg (by rw [List.length_append]; simp), ht, if_pos hk]
  exact congrArg _ (replyHunt_skip [r.addr, r.hi, r.lo, crc8 [r.addr, r.hi, r.lo]] m)

/-! ### Frames written out -/

theorem u16_length (n : Nat) : (u16 n).length = 2 := rfl

/-- A request frame with at most 248 operand characters is one that a receiver takes whole, with a correct CRC. -/
theorem requestFrame_valid (tag code : Byte) (ops : List Byte) (h : ops.length ≤ 248) :
    getU8 (requestFrame tag code ops) 0 = ops.length + 2 ∧ (requestFrame tag code ops).length = getU8 (requestFrame tag code ops) 0 + 3 ∧
      pcpCrcOk (requestFrame tag code ops) = true := by
  have h0 : getU8 (requestFrame tag code ops) 0 = ops.length + 2 := by
    show (byteOf (ops.length + 2)).toNat = _
    unfold byteOf
    rw [BitVec.toNat_ofNat]
    exact Nat.mod_eq_of_lt (by omega)
  have hl : (requestFrame tag code ops).length = (byteOf (ops.length + 2) :: tag :: code :: ops).length + 2 := by
    unfold requestFrame; rw [List.length_append, u16_length]
  refine ⟨h0, by rw [hl, h0]; rfl, ?_⟩
  unfold pcpCrcOk
  dsimp only
  rw [hl, Nat.add_sub_cancel]
  unfold requestFrame
  dsimp only
  rw [List.take_left, List.drop_left]
  exact beq_iff_eq.mpr rfl

end Sys2Proof.Machine
end

