-- ==== Sys2Proof/Laws/Startup.lean ====
section
/-! SUPPORT. The end of STARTUP (R45): the state it enters, what the evaluation of a table that holds reports then gives, and when it comes. -/

namespace Sys2Proof.Machine

open Sys2Proof

/-- The state that the end of STARTUP enters, before a table that holds reports is evaluated. -/
def State.startupLeft (s : State) : State :=
  (if s.banks.any (fun b => b.state.foundTurning) then s.setEngine .resetHold else s.enterQuiet).writeDemands

theorem State.leaveStartup_eq (s : State) :
    s.leaveStartup = (if s.startupLeft.tableEmpty then s.startupLeft else s.startupLeft.evaluate true).finishAll := rfl

/-- RESET_HOLD when a bank is found turning, QUIET otherwise; reports, plans, matches, library and trains stand. -/
theorem State.startupLeft_registers (s : State) :
    s.startupLeft.eng.state = (if s.banks.any (fun b => b.state.foundTurning) then .resetHold else .quiet) ∧
      s.startupLeft.inc = s.inc ∧ s.startupLeft.plans = s.plans ∧ s.startupLeft.mat = s.mat ∧ s.startupLeft.lib = s.lib ∧
      s.startupLeft.eng.trains = s.eng.trains := by
  unfold State.startupLeft
  have q : s.enterQuiet.eng.state = .quiet := by
    unfold State.enterQuiet
    rw [State.setEngine_eng]
  have m : s.enterQuiet.mat = s.mat := by
    unfold State.enterQuiet
    rw [State.setEngine_mat]
    rfl
  split
  · have f := Frame.setEngine s .resetHold
    refine ⟨?_, f.inc, f.plans, State.setEngine_mat s _, f.lib, f.trains⟩
    show (s.setEngine .resetHold).eng.state = _
    rw [State.setEngine_eng]
  · have f := Frame.enterQuiet s
    exact ⟨q, f.inc, f.plans, m, f.lib, f.trains⟩

/-- STARTUP stays while a bank is in VERIFY. -/
theorem State.engineTakesBanks_verify {s : State} (h : s.eng.state = .startup) (hv : ∃ b ∈ s.banks, b.state = .verify) :
    s.engineTakesBanks = s := by
  unfold State.engineTakesBanks
  rw [h]
  dsimp only
  rw [if_pos]
  simpa using hv

/-- STARTUP ends when no bank is in VERIFY. -/
theorem State.engineTakesBanks_leaves {s : State} (h : s.eng.state = .startup) (hv : ∀ b ∈ s.banks, b.state ≠ .verify) :
    s.engineTakesBanks = s.leaveStartup := by
  unfold State.engineTakesBanks
  rw [h]
  dsimp only
  rw [if_neg]
  simpa using hv

/-- A bank found turning is one RUNNING or STOPPING. -/
theorem BankState.foundTurning_iff (x : BankState) : x.foundTurning = true ↔ (∃ d, x = .running d) ∨ ∃ y, x = .stopping y := by
  cases x <;> simp [BankState.foundTurning]

/-- The state at the end of STARTUP over an empty table. -/
theorem State.leaveStartup_empty {s : State} (h : s.tableEmpty = true) : s.leaveStartup.eng.state = s.startupLeft.eng.state := by
  have k : s.startupLeft.tableEmpty = true := by
    unfold State.tableEmpty
    rw [(State.startupLeft_registers s).2.1]
    exact h
  rw [State.leaveStartup_eq, if_pos k, (DemandFrame.finishAll _).eng]

/-- The state at the end of STARTUP over a table that holds reports: the one its evaluation gives. -/
theorem State.leaveStartup_evaluates {s : State} (h : s.tableEmpty = false) :
    s.leaveStartup.eng.state = (s.startupLeft.evaluate true).eng.state := by
  have k : s.startupLeft.tableEmpty = false := by
    unfold State.tableEmpty
    rw [(State.startupLeft_registers s).2.1]
    exact h
  rw [State.leaveStartup_eq, if_neg (by rw [k]; decide), (DemandFrame.finishAll _).eng]

/-- That evaluation: ALERT without a CONFIRMED entry, and the commit attempt with one. -/
theorem State.startupLeft_evaluate {s : State} (h : s.tableEmpty = false) :
    s.startupLeft.evaluate true =
      (let t := { s.startupLeft with eng := { s.startupLeft.eng with confirmed := s.confirmedCount } }
       if s.confirmedCount = 0 then t.enterAlert else t.commitAttempt) := by
  obtain ⟨r1, r2, _⟩ := State.startupLeft_registers s
  have k : s.startupLeft.tableEmpty = false := by
    unfold State.tableEmpty
    rw [r2]
    exact h
  have c : s.startupLeft.confirmedCount = s.confirmedCount := by
    unfold State.confirmedCount
    rw [r2]
  have live : s.startupLeft.eng.state.live = true := by
    rw [r1]
    split <;> rfl
  unfold State.evaluate
  rw [if_pos live, c]
  dsimp only
  rw [if_neg (by rw [k]; decide)]
  generalize hw : ({ s.startupLeft with eng := _ } : State) = w
  have we : w.eng.state = .quiet ∨ w.eng.state = .resetHold := by
    have e : w.eng.state = s.startupLeft.eng.state := by rw [← hw]
    rw [e, r1]
    split
    · exact .inr rfl
    · exact .inl rfl
  unfold State.evaluateFull
  rcases we with e | e <;> rw [e]

end Sys2Proof.Machine
end

