-- ==== Sys2Proof/Laws/Velocity.lean ====
section
/-! SUPPORT. The target and the committed thrust: what forming each leaves, where each is formed, and that the thrust stands as formed through a
recomputation of the demands (R117, R119, R125). -/

namespace Sys2Proof.Machine

open Sys2Proof

/-! ### The limit record -/

theorem LimitRecord.setFlag_get (l : LimitRecord) (f : LimitFlag) (h : l.get f = true) : l.setFlag f = l := by
  cases l
  cases f <;> cases h <;> rfl

/-- The loop after a flag of the limit record is set. -/
theorem State.vel_setLimit (s : State) (f : LimitFlag) : (s.setLimit f).vel = { s.vel with limits := s.vel.limits.setFlag f } := by
  unfold State.setLimit
  split
  · rename_i h
    rw [LimitRecord.setFlag_get _ _ h]
  · rfl

/-! ### The target (R117) -/

/-- The target formed from an unclamped value. -/
def State.targetOf (s : State) (u : Nat) : Target := { value := clampTarget s.site u, unclamped := u, fromHeld := s.vel.held.isSome }

theorem State.vel_formTarget {s : State} {r : Row} (ha : s.eng.state = .active) (hr : s.row = some r) :
    s.formTarget.vel =
      { s.vel with
        target := some (s.targetOf (s.vel.held.getD r.target))
        limits :=
          { s.vel.limits with
            clamped :=
              s.vel.limits.clamped || decide (clampTarget s.site (s.vel.held.getD r.target) ≠ s.vel.held.getD r.target) } } := by
  unfold State.formTarget
  rw [ha, hr]
  dsimp only
  split
  · rename_i h
    simp only [ne_eq, h, not_true, decide_false, Bool.or_false]
    unfold State.targetOf
    rw [h]
  · rename_i h
    rw [State.vel_setLimit]
    simp only [ne_eq, h, not_false_eq_true, decide_true, Bool.or_true]
    rfl

theorem State.formTarget_rests {s : State} (h : s.eng.state ≠ .active) : s.formTarget = s := by
  unfold State.formTarget
  split
  · rename_i k _
    exact absurd k h
  · rfl

/-! ### The committed thrust (R119) -/

/-- The thrust that R119 gives for a latch and a bank table. -/
def thrustOf (c : Option Latch) (l : List Bank) : Option Int := c.map (fun c => bounded (thrustSum l c.dir))

/-- The committed thrust stands as R119 forms it. -/
def State.ThrustFormed (s : State) : Prop := s.vel.thrust = thrustOf s.eng.latch s.banks

theorem State.vel_formThrust (s : State) :
    s.formThrust.vel =
      { s.vel with
        thrust := thrustOf s.eng.latch s.banks
        limits :=
          { s.vel.limits with
            saturated := s.vel.limits.saturated ||
              s.eng.latch.any (fun c => decide (bounded (thrustSum s.banks c.dir) ≠ thrustSum s.banks c.dir)) } } := by
  unfold State.formThrust thrustOf
  cases s.eng.latch with
  | none => simp
  | some c =>
    dsimp only
    split
    · rename_i h
      simp [h]
    · rename_i h
      rw [State.vel_setLimit]
      simp [h, LimitRecord.setFlag]

theorem State.eng_formThrust (s : State) : s.formThrust.eng = s.eng := by
  unfold State.formThrust
  split
  · rfl
  · dsimp only
    split
    · rfl
    · unfold State.setLimit
      split <;> rfl

theorem State.ThrustFormed.formThrust (s : State) : s.formThrust.ThrustFormed := by
  unfold State.ThrustFormed
  rw [State.vel_formThrust, State.eng_formThrust, State.banks_formThrust]

theorem State.ThrustFormed.dropLatch (s : State) : s.dropLatch.ThrustFormed := rfl

/-- A latch forms the target from the row and the thrust for its direction (R48 step 7, R117, R119). -/
theorem State.latchDirection_forms (s : State) (d : Dir) (g : Nat) {r : Row} (hr : s.row = some r) :
    (s.latchDirection d g r).ThrustFormed ∧
      (s.latchDirection d g r).vel.target = some { value := clampTarget s.site r.target, unclamped := r.target, fromHeld := false } := by
  unfold State.latchDirection
  dsimp only
  generalize ha : ({ s with
      eng := { s.eng with latch := some { dir := d, index := g }, stage := some r.base, kept := none, snapshot := none }
      vel := { s.vel with held := none } } : State) = a
  generalize hb : ((a.setEngine .active).raise (.directionCommitted d)).startDwell = b
  have fa := Frame.setEngine a .active
  have bp : b.plans = s.plans := by rw [← hb]; exact fa.plans.trans (by rw [← ha])
  have bl : b.lib = s.lib := by rw [← hb]; exact fa.lib.trans (by rw [← ha])
  have bm : b.mat = s.mat := by rw [← hb]; exact (State.setEngine_mat a .active).trans (by rw [← ha])
  have be : b.eng.state = .active := by
    rw [← hb]
    show (a.setEngine .active).eng.state = _
    rw [State.setEngine_eng]
  have bv : b.vel.held = none := by
    rw [← hb]
    show (a.setEngine .active).vel.held = _
    rw [State.setEngine_vel, ← ha]
  have br : b.row = some r := by
    rw [← hr]
    unfold State.row State.rowId State.slot
    rw [bp, bl, bm]
  have bs : b.site = s.site := by
    unfold State.site
    rw [bl]
  refine ⟨.formThrust _, ?_⟩
  rw [State.vel_formThrust]
  dsimp only
  rw [State.vel_formTarget be br]
  dsimp only
  unfold State.targetOf
  rw [bv, bs]
  rfl

/-- The return from HOLD(MULTI_FIRE) forms both (R54, R117, R119). -/
theorem State.returnActive_forms (s : State) {r : Row} (hr : s.row = some r) :
    s.returnActive.ThrustFormed ∧ s.returnActive.vel.target = some (s.targetOf (s.vel.held.getD r.target)) := by
  unfold State.returnActive
  dsimp only
  generalize ha : ({ s with
      eng := { s.eng with
        stage := some (min 24 (max (s.eng.kept.getD 0) ((s.row.map Row.base).getD 1))), kept := none, snapshot := none } } : State) = a
  generalize hb : (a.setEngine .active).startDwell = b
  have fa := Frame.setEngine a .active
  have bp : b.plans = s.plans := by rw [← hb]; exact fa.plans.trans (by rw [← ha])
  have bl : b.lib = s.lib := by rw [← hb]; exact fa.lib.trans (by rw [← ha])
  have bm : b.mat = s.mat := by rw [← hb]; exact (State.setEngine_mat a .active).trans (by rw [← ha])
  have be : b.eng.state = .active := by
    rw [← hb]
    show (a.setEngine .active).eng.state = _
    rw [State.setEngine_eng]
  have bv : b.vel.held = s.vel.held := by
    rw [← hb]
    show (a.setEngine .active).vel.held = _
    rw [State.setEngine_vel, ← ha]
  have br : b.row = some r := by
    rw [← hr]
    unfold State.row State.rowId State.slot
    rw [bp, bl, bm]
  have bs : b.site = s.site := by
    unfold State.site
    rw [bl]
  refine ⟨.formThrust _, ?_⟩
  rw [State.vel_formThrust]
  dsimp only
  rw [State.vel_formTarget be br]
  dsimp only
  unfold State.targetOf
  rw [bv, bs]

/-- A row change in ACTIVE forms the target (R70, R117). -/
theorem State.rowChange_target {s : State} {r : Row} (ha : s.eng.state = .active) (hr : s.row = some r) :
    s.rowChange.vel.target = some (s.targetOf (s.vel.held.getD r.target)) := by
  unfold State.rowChange
  rw [ha, hr]
  dsimp only
  generalize hb : (if s.eng.stage = some (min 24 (max (s.eng.stage.getD 0) r.base)) then s
    else State.startDwell { s with eng := { s.eng with stage := some (min 24 (max (s.eng.stage.getD 0) r.base)) } }) = b
  have k : b.eng.state = .active ∧ b.row = some r ∧ b.site = s.site ∧ b.vel.held = s.vel.held := by
    rw [← hb]
    split
    · exact ⟨ha, hr, rfl, rfl⟩
    · exact ⟨ha, hr, rfl, rfl⟩
  rw [State.vel_formTarget k.1 k.2.1]
  dsimp only
  unfold State.targetOf
  rw [k.2.2.1, k.2.2.2]

/-! ### The thrust through changes of banks -/

theorem State.eng_raiseAll (s : State) (ns : List Notice) : (s.raiseAll ns).eng = s.eng := by
  induction ns generalizing s with
  | nil => rfl
  | cons n ns ih => exact ih _

theorem State.vel_raiseAll (s : State) (ns : List Notice) : (s.raiseAll ns).vel = s.vel := by
  induction ns generalizing s with
  | nil => rfl
  | cons n ns ih => exact ih _

/-- A bank whose state changes has the thrust formed again (R119). -/
theorem State.ThrustFormed.commitBank_changed {s : State} {b : Bank} {o : BankOut} (h : s.bank o.bank.number = some b)
    (hs : b.state ≠ o.bank.state) : (s.commitBank o).ThrustFormed := by
  unfold State.commitBank
  dsimp only
  rw [if_neg]
  · exact .formThrust _
  · rw [h]
    simpa using hs

/-- A bank's signed thrust rests on what stands in its record and on its state. -/
theorem Bank.signedThrust_fixed {b c : Bank} (h : c.fixed = b.fixed) (hs : c.state = b.state) (d : Dir) : c.signedThrust d = b.signedThrust d := by
  simp only [Bank.fixed, Prod.mk.injEq] at h
  unfold Bank.signedThrust
  rw [hs]
  have e : ∀ y, c.air y = b.air y := fun y => by
    unfold Bank.air
    rw [h.2.2.2.2.1]
  have t : c.thrust = b.thrust := by
    unfold Bank.thrust
    rw [h.2.2.1, h.2.2.2.1]
  simp only [e, t]

/-- Tables with one list of signed thrusts have one sum. -/
theorem thrustSum_congr {l m : List Bank} {d : Dir} (h : l.map (fun b => b.signedThrust d) = m.map (fun b => b.signedThrust d)) :
    thrustSum l d = thrustSum m d := by
  unfold thrustSum
  rw [h]

/-- The thrust stands as formed through an event of one bank (R96, R119). -/
theorem State.ThrustFormed.commitBank {s : State} {b : Bank} {o : BankOut} (hf : s.ThrustFormed) (d : s.BanksDistinct)
    (h : s.bank b.number = some b) (ho : o.bank.fixed = b.fixed) : (s.commitBank o).ThrustFormed := by
  have hn := Bank.fixed_number ho
  have h' : s.bank o.bank.number = some b := by
    rw [hn]
    exact h
  by_cases hs : b.state = o.bank.state
  · have e : thrustOf s.eng.latch (setBank o.bank s.banks) = thrustOf s.eng.latch s.banks := by
      unfold thrustOf
      cases s.eng.latch with
      | none => rfl
      | some c =>
        rw [Option.map_some, Option.map_some]
        rw [thrustSum_congr (m := s.banks)]
        unfold setBank
        rw [List.map_map]
        refine List.map_congr_left (fun x hx => ?_)
        dsimp only [Function.comp]
        split
        · rename_i q
          have hxb : x = b := Bank.eq_of_distinct d hx (State.bank_mem h).1 (q.trans hn)
          rw [hxb]
          exact Bank.signedThrust_fixed ho hs.symm _
        · rfl
    unfold State.ThrustFormed
    rw [State.banks_commitBank]
    unfold State.commitBank
    dsimp only
    rw [if_pos (by rw [h']; simpa using hs), State.eng_raiseAll, State.vel_raiseAll]
    show s.vel.thrust = thrustOf s.eng.latch _
    rw [e]
    exact hf
  · exact .commitBank_changed h' hs

theorem State.ThrustFormed.handDemand {s : State} (hf : s.ThrustFormed) (d : s.BanksDistinct) (n : Nat) (m : Demand) :
    (s.handDemand n m).ThrustFormed := by
  unfold State.handDemand
  split
  · exact hf
  · rename_i b h
    have hb := (State.bank_mem h).2
    subst hb
    dsimp only
    refine hf.commitBank d h ?_
    split
    · exact fixed_actOnDemand _ _
    · rfl

theorem State.ThrustFormed.handDemands {s : State} (hf : s.ThrustFormed) (d : s.BanksDistinct) (every : Bool) :
    (s.handDemands every).ThrustFormed := by
  unfold State.handDemands
  generalize s.demandList = l
  induction l generalizing s with
  | nil => exact hf
  | cons p ps ih =>
    have k : (s.handOne every p).ThrustFormed ∧ (s.handOne every p).BanksDistinct := by
      unfold State.handOne
      split
      · exact ⟨hf.handDemand d _ _, (Frame.handDemand s _ _).distinct d⟩
      · exact ⟨hf, d⟩
    exact ih k.1 k.2

theorem State.ThrustFormed.refreshHeat {s : State} (hf : s.ThrustFormed) : s.refreshHeat.ThrustFormed := by
  have e : thrustOf s.eng.latch (flagHeat (heatZone s.site s.eng s.inc.table) s.banks) = thrustOf s.eng.latch s.banks := by
    unfold thrustOf
    cases s.eng.latch with
    | none => rfl
    | some c =>
      rw [Option.map_some, Option.map_some, thrustSum_congr (m := s.banks)]
      unfold flagHeat
      rw [List.map_map]
      rfl
  exact Eq.trans hf e.symm

/-- The thrust stands as formed through the engine's end of a hand-off. -/
theorem State.ThrustFormed.finish {s : State} (hf : s.ThrustFormed) (d : s.BanksDistinct) : s.finish.ThrustFormed := by
  unfold State.finish
  split
  · exact hf.refreshHeat.handDemands ((Frame.refreshHeat s).distinct d) _
  · exact hf

end Sys2Proof.Machine
end

