-- ==== Sys2Proof/Tests/Slice0.lean ====
section
/-! SUPPORT. Tests: the well-formedness checks, the CRC check values, a few single commands, and for each obligation with hypotheses a state
and operands that meet them, at the ends of their ranges. -/

namespace Sys2Proof.Tests

open Sys2Proof Sys2Proof.Machine

-- one theorem after another: a kernel decision waits for every earlier proof, and waiting ones would each hold a thread
set_option Elab.async false

/-! ### Well-formedness: one ill-formed command for each check -/

/-- A damaged frame with both key inputs off, whose NV write would read back as written. -/
def damaged (chars : List Byte) : DamagedFrame := { chars := chars, keyW := false, keyE := false, compares := true }

theorem test_wf_refuses_long_operands : (Instr.lodge .a 0 (List.replicate 249 0)).wf = false := by decide +kernel
theorem test_wf_accepts_longest_operands : (Instr.lodge .a 0 (List.replicate 248 0)).wf = true := by decide +kernel
theorem test_wf_refuses_break_past_the_fourth_refusal : (Instr.portBreak .a (some 5)).wf = false := by decide
theorem test_wf_accepts_break_at_the_fourth_refusal : (Instr.portBreak .a (some 4)).wf = true := by decide
theorem test_wf_refuses_a_correct_crc : (Instr.pcpFrameBadCrc .a (damaged [0x02, 0x07, 0x01, 0x2B, 0x4A])).wf = false := by decide +kernel
theorem test_wf_accepts_a_wrong_crc : (Instr.pcpFrameBadCrc .a (damaged [0x02, 0x07, 0x01, 0x2B, 0x4B])).wf = true := by decide +kernel
theorem test_wf_refuses_an_incomplete_frame : (Instr.pcpFrameBadCrc .a (damaged [0x02, 0x07])).wf = false := by decide
theorem test_wf_refuses_a_known_code : (Instr.unknownRequest .a 0 0x01 []).wf = false := by decide
theorem test_wf_accepts_an_unknown_code : (Instr.unknownRequest .a 0 0x0D []).wf = true := by decide
theorem test_wf_refuses_a_valid_detection_frame : (Instr.detectionFrameDiscarded [0x01, 0x07]).wf = false := by decide +kernel
theorem test_wf_accepts_an_unknown_type : (Instr.detectionFrameDiscarded [0x05]).wf = true := by decide
theorem test_wf_refuses_class_0 : (Instr.hotspot 0 0 0).wf = false := by decide
theorem test_wf_refuses_class_4 : (Instr.hotspot 0 0 4).wf = false := by decide
theorem test_wf_refuses_bank_0 : (Instr.coastTimerExpiry 0).wf = false := by decide
theorem test_wf_refuses_bank_49 : (Instr.startTimerExpiry 49).wf = false := by decide
theorem test_wf_refuses_drive_address_0 : (Instr.driveReport 0 0 0).wf = false := by decide
theorem test_wf_refuses_a_status_without_report : (Instr.driveReport 1 0xFF 0).wf = false := by decide
theorem test_wf_refuses_station_address_57 : (Instr.stationReading 57 0 0).wf = false := by decide
theorem test_wf_refuses_characters_past_an_unknown_type : (Instr.detectionFrameDiscarded [0x05, 0x00]).wf = false := by decide
theorem test_wf_refuses_reply_length : (Instr.fieldReplyDiscarded [0, 0]).wf = false := by decide
theorem test_wf_refuses_identify_address : (Instr.identifyReply 1 1 0).wf = false := by decide
theorem test_wf_refuses_kind_3 : (Instr.assignReply 1 3 0).wf = false := by decide
theorem test_wf_refuses_failed_slot_18 : (Instr.eraseLibraryDone (some 18)).wf = false := by decide
theorem test_wf_refuses_a_valid_len : (Instr.pcpLenInvalid .a 2).wf = false := by decide
theorem test_wf_accepts_len_251 : (Instr.pcpLenInvalid .a 251).wf = true := by decide

/-! ### CRC check values (R201) -/

theorem test_crc16_of_123456789 : crc16 [0x31, 0x32, 0x33, 0x34, 0x35, 0x36, 0x37, 0x38, 0x39] = 0x29B1 := by decide +kernel
theorem test_crc8_of_123456789 : crc8 [0x31, 0x32, 0x33, 0x34, 0x35, 0x36, 0x37, 0x38, 0x39] = 0xF4 := by decide +kernel

/-! ### Frames, written out character by character (chapter 11) -/

theorem test_request_frame_of_READ_INCIDENTS : 0xA5 :: requestFrame 7 0x01 [] = [0xA5, 0x02, 0x07, 0x01, 0x2B, 0x4A] := by decide +kernel
theorem test_hunt_takes_READ_INCIDENTS :
    (pcpHunt 0 [0x00, 0xA5, 0x02, 0x07, 0x01, 0x2B, 0x4A, 0xA5]) = ([[0x02, 0x07, 0x01, 0x2B, 0x4A]], .receiving) := by decide +kernel
theorem test_request_in_READ_INCIDENTS : requestIn .a false false true [0x02, 0x07, 0x01, 0x2B, 0x4A] = .readIncidents .a 7 [] := by decide
theorem test_request_code_60_is_CLAIM : requestOf .w 1 0x60 [] true false true = .claim .w 1 [] true := by decide
theorem test_request_code_0D_is_unknown : requestOf .w 1 0x0D [] true false true = .unknownRequest .w 1 0x0D [] := by decide
theorem test_hunt_leaves_an_invalid_len : pcpHunt 0 [0xA5, 0xFB, 0xA5, 0x01, 0x00] = ([], .hunting) := by decide +kernel
theorem test_hunt_takes_STATUS : detectionHunt 0 [0x00, 0x96, 0x01, 0x07] = [.status] := by decide +kernel
theorem test_hunt_goes_on_in_an_unknown_type : detectionHunt 0 [0x96, 0x96, 0x04, 0x1C] = [.lineOk] := by decide +kernel
theorem test_hunt_drops_a_hotspot_of_class_0 :
    detectionHunt 0 (0x96 :: detectionFrame 0x02 [0, 100, 0, 200, 0]) = [] := by decide +kernel
theorem test_hunt_takes_a_hotspot :
    detectionHunt 0 (0x96 :: detectionFrame 0x02 [0x01, 0x2C, 0x01, 0x90, 2]) = [.hotspot 300 400 2] := by decide +kernel
theorem test_hunt_takes_a_reply :
    replyHunt 0 (0x3C :: { addr := 5, hi := 1, lo := 0 : FieldReply }.frame) = [{ addr := 5, hi := 1, lo := 0 }] := by decide +kernel

/-! ### A small tunnel: 5,000 m, one bank at 1,000 m facing EAST, one station at 1,500 m, a chain of the two -/

/-- Its site record. -/
def site : List (List Byte) :=
  [ u16 5000 ++ u16 120 ++ u8 25 ++ u16 90 ++ u8 20 ++ u16 250 ++ u16 500 ++ u8 30 ++ u16 100 ++ u16 600 ++ u16 200 ++ u8 2 ++ u8 10 ++
      u8 1 ++ u8 1 ++ u8 1 ++ u8 2,
    fitTo 56 (u8 1 ++ u16 1000 ++ u8 2 ++ u16 50 ++ u8 2), List.replicate 56 0, List.replicate 56 0, List.replicate 56 0,
    List.replicate 56 0, List.replicate 56 0, fitTo 32 (u8 1 ++ u16 1500 ++ u8 1), fitTo 112 (u8 1 ++ u8 1 ++ u8 2 ++ u8 1) ]

/-- A row whose lists name bank 1, for fire positions 0 to 5,000, with target 300 cm/s. -/
def rowPart : List Byte :=
  u16 0 ++ u16 5000 ++ u8 2 ++ u8 1 ++ u8 1 ++ u16 300 ++ u16 0 ++ (u8 1 ++ fitTo 24 (u8 1)) ++ (u8 1 ++ fitTo 24 (u8 1)) ++
    (u8 0 ++ fitTo 8 [])

/-- A sealed plan of one segment. -/
def plan : PlanSlot where
  state := .sealed
  parts := some (fitTo 8 [] ++ u8 1 ++ u8 1 ++ rowPart) :: some rowPart :: List.replicate 31 none
  crc := 0

/-- The tunnel's 480 in an engine state, its record in use, slot 1 sealed, port CP-A present with the token. -/
def tunnel (st : EngineState) : State :=
  { State.reset with
    token := some .a
    ports := { State.reset.ports with a := { Port.afterReset with present := true, silence := .running 10 } }
    lib := { State.reset.lib with
      inUse := some { parts := site, crc := 0 }
      nv := { NvLibrary.neverWritten with slots := plan :: List.replicate 15 .blank } }
    plans := { active := some 1, stack := [] }
    eng := { State.reset.eng with state := st }
    banks := (buildBanks site).map (fun b => { b with state := .off })
    arb := { slots := buildSlots site, queue := [] }
    vel := { State.reset.vel with stations := buildStations site }
    fl := { State.reset.fl with units := buildUnits site } }

theorem test_site_is_valid : siteViolation site = none := by decide +kernel
theorem test_plan_passes_the_seal : sealViolation plan site none = none := by decide +kernel
theorem test_bank_1_stands_at_1000 : (buildBanks site).map (fun b => (b.number, b.chainage, b.address)) = [(1, 1000, 1)] := by decide +kernel
theorem test_station_1_has_address_2 : (buildStations site).map (fun t => (t.number, t.address)) = [(1, 2)] := by decide +kernel

/-! ### Single commands -/

/-- What a command leaves in a port's response. -/
def answerOf (r : Result) (i : PortId) : Option Response :=
  match r with
  | .next t => (t.port i).response
  | _ => none

/-- A reading of the state after a command. -/
def after {α : Type} (f : State → α) (r : Result) : Option α :=
  match r with
  | .next t => some (f t)
  | _ => none

theorem test_step_idles_after_reset : step State.reset = .next State.reset := rfl
theorem test_no_word_spells_a_command : decodeTableWord 8 1 = none := rfl
theorem test_claim_takes_a_vacant_token :
    answerOf (exec (.claim .w 7 [] false) State.reset) .w = some { tag := 7, completion := .done, result := some [3] } := by decide +kernel
theorem test_read_detection_after_reset :
    answerOf (exec (.readDetection .b 9 []) State.reset) .b =
      some { tag := 9, completion := .done, result := some [3, 0xFF, 0xFF, 0xFF, 0xFF, 0] } := by decide +kernel
theorem test_lodge_in_unconfigured_is_refused :
    answerOf (exec (.lodge .a 1 [1, 0, 0, 0, 0, 0, 0, 0]) State.reset) .a =
      some { tag := 1, completion := .refusedState, result := none } := by decide +kernel
theorem test_confirmed_report_commits_east :
    after (fun t => (t.eng.state, t.eng.latch)) (exec (.lodge .a 1 [2, 0, 100, 0, 100, 0, 0, 0]) (tunnel .quiet)) =
      some (.active, some { dir := .east, index := 0 }) := by decide +kernel
theorem test_commit_queues_the_bank :
    after (fun t => (t.banks.map Bank.state, t.arb.queue.map QueueEntry.bank)) (exec (.lodge .a 1 [2, 0, 100, 0, 100, 0, 0, 0]) (tunnel .quiet)) =
      some ([.queued .fwd], [1]) := by decide +kernel
theorem test_suspected_report_alerts :
    after (fun t => t.eng.state) (exec (.lodge .a 1 [1, 0, 100, 0, 100, 0, 0, 0]) (tunnel .quiet)) = some .alert := by decide +kernel
theorem test_fire_downstream_inhibits_the_bank :
    after (fun t => t.banks.map Bank.heatInhibited) (exec (.lodge .a 1 [2, 0x02, 0x58, 0x02, 0x58, 0, 0, 0]) (tunnel .quiet)) =
      some [true] := by decide +kernel

theorem test_a_frame_inside_a_damaged_one_is_taken :
    answerOf (exec (.pcpFrameBadCrc .a (damaged [0x07, 0xA5, 0x02, 0x07, 0x63, 0x67, 0xAE, 0x00, 0x00, 0x00])) (tunnel .quiet)) .a =
      some { tag := 7, completion := .refusedFormat, result := none } := by decide +kernel
theorem test_an_incomplete_frame_inside_is_being_received :
    after (fun t => (t.port .a).receive) (exec (.pcpFrameBadCrc .a (damaged [0x03, 0x07, 0x01, 0x00, 0xA5, 0x02])) (tunnel .quiet)) =
      some .receiving := by decide +kernel
/-! ### Witnesses: states and operands that meet the hypotheses of each obligation -/

/-- `p` holds of every record of an incident table's first four entries. -/
theorem each_incident (s : State) (p : Incident → Bool)
    (h : (List.range 4).all (fun j => (s.incident j).all p) = true) (j : Nat) (r : Incident) (hj : j < 4) (hr : s.incident j = some r) :
    p r = true := by
  have hm := List.all_eq_true.mp h j (List.mem_range.mpr hj)
  rw [hr] at hm
  simpa using hm

/-- A record of class CONFIRMED with no train, no evacuation and one reporter. -/
def fire (lo hi : Nat) : Incident :=
  { cls := .confirmed, zone := { lo := lo, hi := hi }, sources := [.port .b], firstReport := 0, lastUpdate := 0, train := none,
    evacuation := none }

/-- The tunnel with the given incident table, index 0 governing and handed to the matcher. -/
def burning (st : EngineState) (table : List (Option Incident)) : State :=
  { tunnel st with
    inc := { table := table, governing := some 0 }
    mat :=
      { workF := some 100, governing := some 0, flags := [1], matched := some 1, frozen := false, condition := .ok,
        handed := some (1, 1) } }

/-- The tunnel in ACTIVE, running toward EAST at the given stage. -/
def active (stage : Nat) : State :=
  let s := burning .active [some (fire 100 100), none, none, none]
  { s with
    eng := { s.eng with latch := some { dir := .east, index := 0 }, stage := some stage, confirmed := 1 }
    vel :=
      { s.vel with
        projected := some 200, target := some { value := 300, unclamped := 300, fromHeld := false }, thrust := some 0,
        dwell := .expired } }

/-- The tunnel in EDIT, the record in use staged, with an operation in flight or none. -/
def editing (o : Option InFlight) : State :=
  let s := tunnel .quiet
  { s with
    lib := { s.lib with mode := .edit, opener := some .a, staged := some site, inFlight := o }
    plans := { active := none, stack := [] } }

/-- A library that has the given site record stored and the given marker. -/
def storing (x : NvSite) (m : Option Marker) : State :=
  { State.reset with lib := { State.reset.lib with nv := { NvLibrary.neverWritten with site := x, marker := m } } }

/-- A valid site record without banks: one station, and a chain of it. -/
def noBanks : List (List Byte) :=
  (site.set 0 (((sitePart site 0).take 22) ++ u8 0 ++ u8 1 ++ u8 1)).set 8 (fitTo 112 (u8 2 ++ u8 1))

/-- A stored site record with its CRC. -/
def whole (r : List (List Byte)) : SiteStore := { parts := r, crc := siteCrc r }
theorem whole_crc (r : List (List Byte)) : siteCrc (whole r).parts = (whole r).crc := rfl

/-- A record of class SUSPECTED. -/
def suspect (lo hi : Nat) : Incident := { fire lo hi with cls := .suspected }

/-- The tunnel latched toward EAST on index 0, with the count of CONFIRMED entries last seen. -/
def latched (st : EngineState) (table : List (Option Incident)) (seen : Nat) : State :=
  let s := burning st table
  { s with eng := { s.eng with latch := some { dir := .east, index := 0 }, stage := some 1, confirmed := seen } }

/-- The field line in a phase. -/
def onLine (s : State) (p : LinePhase) : State := { s with fl := { s.fl with phase := p } }

/-- Bank 1 changed. -/
def withBank (s : State) (f : Bank → Bank) : State := { s with banks := s.banks.map f }

/-- Bank 1 of the tunnel. -/
def bank1 : Bank := { freshBank site (bankEntry site 0) with state := .off }

theorem test_coast_at_0_reads_0 : Timer.coastBytes .expired = [0, 0] := by decide
theorem test_an_absent_trip_code_reads_FF : (bank1.latest, tripCodeOf bank1.latest, optU8 (tripCodeOf bank1.latest)) = (none, none, [0xFF]) := by
  decide +kernel
/-- A DETECTION_FAULT of OK names no break: its subject carries the absent value there, and 0 beyond its fields (R189, R193). -/
theorem test_a_detection_fault_of_ok_carries_no_break :
    (Notice.detectionFault .ok none).subject = [1, 0, 0xFF, 0xFF, 0, 0] := by decide +kernel
theorem test_bank1_is_the_tunnels : (tunnel .quiet).banks = [bank1] := by decide +kernel

theorem test_meets_StepRunsFront : State.reset.pending = [] := rfl

theorem test_meets_ResetsRebuild_valid :
    (storing (.stored (whole site)) none).lib.nv.marker = none ∧
      (storing (.stored (whole site)) none).lib.nv.site = .stored (whole site) ∧ siteViolation (whole site).parts = none ∧
      buildBanks (whole site).parts ≠ [] ∧ siteCrc (whole site).parts = (whole site).crc := by
  refine ⟨rfl, rfl, ?_, ?_, ?_⟩
  · show siteViolation site = none
    decide +kernel
  · show buildBanks site ≠ []
    decide +kernel
  · simp only [whole]
theorem test_meets_ResetsRebuild_invalid :
    State.reset.lib.nv.marker = none ∧ (∃ r, State.reset.lib.nv.site = .stored r ∧ siteViolation r.parts ≠ none) :=
  ⟨rfl, _, rfl, by decide +kernel⟩
theorem test_meets_ResetsRebuild_crc :
    siteViolation site = none ∧ siteCrc site ≠ siteCrc site + 1 := by
  refine ⟨by decide +kernel, ?_⟩
  generalize siteCrc site = x
  simp
/-- A record that lists no bank, and one more that fails its CRC alone. -/
theorem test_meets_ResetsRebuild_no_banks :
    (storing (.stored (whole noBanks)) none).lib.nv.site = .stored (whole noBanks) ∧ siteViolation noBanks = none ∧
      buildBanks noBanks = [] ∧ siteCrc noBanks ≠ siteCrc noBanks + 1 := by
  refine ⟨rfl, by decide +kernel, by decide +kernel, ?_⟩
  generalize siteCrc noBanks = x
  simp
theorem test_meets_ResetsRebuild_marker :
    (storing .unusable none).lib.nv.marker = none ∧ (storing .unusable none).lib.nv.site = .unusable ∧
      (storing (.stored (whole site)) (some { kind := .closeEdit, slot := 0, part := 0 })).lib.nv.marker =
        some { kind := .closeEdit, slot := 0, part := 0 } ∧
      (storing (.stored (whole site)) (some { kind := .eraseSlot, slot := 16, part := 0 })).lib.nv.slots.length = 16 :=
  ⟨rfl, rfl, rfl, by decide⟩

theorem test_meets_ResetsRebuild_erase_library :
    let m : Marker := { kind := .eraseLibrary, slot := 0, part := 0 }
    (storing (.stored (whole site)) (some m)).lib.nv.marker = some m ∧ m.kind = .eraseLibrary ∧
      (storing (.stored (whole site)) (some m)).lib.nv.slots.length = 16 :=
  ⟨rfl, rfl, by decide⟩
theorem test_meets_PresenceLost :
    ((tunnel .quiet).token = some .a ∧ ((tunnel .quiet).port .a).silence = .running 10) ∧
      (let s := (tunnel .quiet).setPort .b { Port.afterReset with present := true, silence := .running 0 }
       s.token ≠ some .b ∧ (s.port .b).silence = .running 0) := by decide +kernel
/-- A break while the response, the first refusal or the fourth is being sent. -/
theorem test_meets_PresenceLost_sending :
    let r : Response := { tag := 7, completion := .done, result := none }
    let s := (tunnel .quiet).setPort .b { Port.afterReset with service := .busy, response := some r, waiting := [1, 2, 3, 4] }
    s.token ≠ some .b ∧ (s.port .b).service = .busy ∧ (s.port .b).response = some r ∧ (s.port .b).waiting[0]? = some 1 ∧
      (s.port .b).waiting[3]? = some 4 := by decide +kernel
/-- A damaged frame without a SYNC, one around READ_NOTICES, and ones that end at a SYNC or inside a frame. -/
theorem test_meets_BadFramesDiscarded_pcp :
    let plain := [0x02, 0x07, 0x01, 0x2B, 0x4B]
    let around := [0x08, 0xA5, 0x02, 0x07, 0x62, 0x77, 0x8F, 0x00, 0x00, 0x00, 0x00]
    let atSync := [0x02, 0x07, 0x01, 0x00, 0xA5]
    let inside := [0x04, 0x07, 0x01, 0x00, 0x00, 0xA5, 0xFA]
    (pcpComplete plain = true ∧ pcpCrcOk plain = false ∧ 0xA5 ∉ plain) ∧
      (pcpComplete around = true ∧ pcpCrcOk around = false ∧
        around = [0x08] ++ 0xA5 :: (requestFrame 0x07 0x62 [] ++ [0x00, 0x00, 0x00, 0x00]) ∧ ([] : List Byte).length ≤ 248) ∧
      (pcpComplete atSync = true ∧ pcpCrcOk atSync = false ∧ atSync = [0x02, 0x07, 0x01, 0x00] ++ 0xA5 :: []) ∧
      pcpComplete inside = true ∧ pcpCrcOk inside = false ∧ getU8 [(0xFA : Byte)] 0 = 250 ∧
        [(0xFA : Byte)].length < getU8 [(0xFA : Byte)] 0 + 3 := by decide +kernel
/-- An unknown TYPE, a HOTSPOT of class 0, and a LINE_FAULT with a wrong CRC around STATUS. -/
theorem test_meets_BadFramesDiscarded_detection :
    (detectionFrameOk [0x05] = false ∧ 0x96 ∉ ([0x05] : List Byte)) ∧
      (detectionFrameOk (detectionFrame 0x02 [0, 100, 0, 200, 0]) = false ∧
        detectionCrcOk (detectionFrame 0x02 [0, 100, 0, 200, 0]) = true) ∧
      detectionCrcOk ([0x03] ++ 0x96 :: (detectionFrame 0x01 [] ++ [])) = false ∧ detectionFrameOk (detectionFrame 0x01 []) = true ∧
      detectionIn (detectionFrame 0x01 []) = some .status ∧ 0x96 ∉ ([0x03] : List Byte) := by decide +kernel
/-- A reply of another address in position 1's window, and a reply inside and after a damaged one. -/
theorem test_meets_BadFramesDiscarded_reply :
    let r : FieldReply := { addr := 2, hi := 1, lo := 0 }
    (onLine (tunnel .quiet) (.window (.poll 1))).fl.phase = .window (.poll 1) ∧ r.addr.toNat ≠ 1 ∧
      replyCrcOk (([] ++ r.frame).take 4) = false ∧ 0x3C ∉ ([1, 1, 0, 0] : List Byte) ∧
      replyCrcOk (([1, 1, 0, 0] ++ r.frame).take 4) = false := by decide +kernel
theorem test_meets_FramesReadBack :
    (List.replicate 248 (0xA5 : Byte)).length ≤ 248 ∧ requestCodes.contains (0x77 : Byte).toNat = true ∧
      requestCodes.contains (0x78 : Byte).toNat = false ∧ (1 : Byte).toNat = 1 ∧ (3 : Byte).toNat ≤ 3 := by decide +kernel
theorem test_meets_BusyPortRefuses :
    ((tunnel .quiet).setPort .b { Port.afterReset with service := .busy, waiting := [1, 2, 3] }).port .b =
        { Port.afterReset with service := .busy, waiting := [1, 2, 3] } ∧
      ((tunnel .quiet).setPort .b { Port.afterReset with service := .busy, waiting := [1, 2, 3, 4] }).port .b =
        { Port.afterReset with service := .busy, waiting := [1, 2, 3, 4] } := by decide +kernel
theorem test_meets_MalformedRequestsRefused :
    State.reset.Ready .e ∧ requestCodes.contains 0x0D = false ∧ requestCodes.contains 0xFF = false :=
  ⟨rfl, by decide, by decide⟩
/-- Lengths one short of or one past those each request allows. -/
theorem test_meets_MalformedRequestsRefused_lengths :
    let l (n : Nat) : List Byte := List.replicate n 0
    (l 1).length ≠ 0 ∧ (l 0).length ≠ 1 ∧ (l 3).length ≠ 2 ∧ (l 2).length ≠ 3 ∧ (l 8).length ≠ 7 ∧ (l 7).length ≠ 8 ∧
      ((l 2).length ≠ 0 ∧ (l 2).length ≠ 1) ∧ ((l 3).length ≠ 1 ∧ (l 3).length ≠ 2) ∧
      (l 81).length ≠ (if getU8 (l 81) 1 = 0 then 82 else 72) ∧
      (0 :: 32 :: l 80).length ≠ (if getU8 (0 :: 32 :: l 80) 1 = 0 then 82 else 72) ∧
      (getU8 (8 :: l 111) 0 ≤ 8 ∧ (8 :: l 111).length ≠ 1 + siteLengths.getD (getU8 (8 :: l 111) 0) 0) ∧
      getU8 (l 27) 0 ≤ 8 ∧ (l 27).length ≠ 1 + siteLengths.getD (getU8 (l 27) 0) 0 := by decide +kernel
theorem test_meets_CommandLevelNeedsToken :
    (tunnel .quiet).Ready .w ∧ (tunnel .quiet).token ≠ some .w ∧
      (List.replicate 80 (0 : Byte)).length = (if (0 : Byte).toNat = 0 then 80 else 70) ∧
      (List.replicate 70 (0 : Byte)).length = (if (32 : Byte).toNat = 0 then 80 else 70) ∧
      (List.replicate 25 (0 : Byte)).length = siteLengths.getD (0 : Byte).toNat 0 ∧
      (List.replicate 112 (0 : Byte)).length = siteLengths.getD (8 : Byte).toNat 0 :=
  ⟨rfl, by decide +kernel, by decide +kernel, by decide +kernel, by decide +kernel, by decide +kernel⟩
/-- ReadsChangeNothing and ReadNoticesEmptiesSet. -/
theorem test_meets_reads : State.reset.Ready .a ∧ (tunnel .quiet).Ready .a := ⟨rfl, rfl⟩
/-- READ_BANKS of a bank that is listed and of one that is not, and READ_SLOT at the ends of its slots and parts, locked and not. -/
theorem test_meets_ReadsChangeNothing :
    let s := tunnel .quiet
    let t := { s with lib := { s.lib with nv := { s.lib.nv with lock := true, slots := { plan with state := .invalid } :: s.lib.nv.slots } } }
    s.bank (1 : Byte).toNat = some bank1 ∧ s.bank (2 : Byte).toNat = none ∧ State.reset.eng.state = .unconfigured ∧
      16 < (17 : Byte).toNat ∧ 32 < (33 : Byte).toNat ∧ 8 < (9 : Byte).toNat ∧ s.lib.nv.lock = false ∧ t.lib.nv.lock = true ∧
      (t.slot 1).state = .invalid ∧ (s.slot 16).part 32 = none ∧ (s.slot 1).part 1 = some rowPart ∧ (s.slot 1).state ≠ .invalid ∧
      (editing none).lib.staged = some site ∧ s.lib.staged = none ∧ s.lib.inUse.isSome = true ∧ State.reset.lib.inUse = none := by
  decide +kernel

/-! Incidents and the detection line -/

theorem test_meets_LodgePlacesReport_added :
    let s := burning .active [some (fire 100 100), none, none, none]
    let f : FireReport :=
      { zone := { lo := 301, hi := 301 }, cls := .confirmed, source := .port .a, evacuation := none, train := none, temp := 0 }
    s.Ready .a ∧ s.eng.state ≠ .unconfigured ∧ lodgeReport .a (siteL s.site) [2, 0x01, 0x2D, 0x01, 0x2D, 0, 0, 0] = some f ∧
      (∀ j r, j < 4 → s.incident j = some r → siteM s.site < r.zone.gap f.zone) ∧ 1 < s.inc.table.length ∧ s.incident 1 = none ∧
      ∀ j, j < 1 → s.incident j ≠ none :=
  ⟨rfl, by decide +kernel, by decide +kernel,
    fun j r hj hr =>
      of_decide_eq_true (each_incident _ (fun r => decide (siteM site < r.zone.gap { lo := 301, hi := 301 })) (by decide +kernel) j r hj hr),
    by decide, by decide, by decide⟩
theorem test_meets_LodgePlacesReport_full :
    let s := burning .active [some (fire 0 0), some (fire 1000 1000), some (fire 2000 2000), some (fire 3000 3000)]
    (∀ j r, j < 4 → s.incident j = some r → siteM s.site < r.zone.gap { lo := 5000, hi := 5000 }) ∧ ∀ j, j < 4 → s.incident j ≠ none :=
  ⟨fun j r hj hr =>
      of_decide_eq_true (each_incident _ (fun r => decide (siteM site < r.zone.gap { lo := 5000, hi := 5000 })) (by decide +kernel) j r hj hr),
    by decide⟩
theorem test_meets_LodgePlacesReport_updated :
    let s := burning .active [none, none, none, some (fire 100 200)]
    s.incident 3 = some (fire 100 200) ∧ (fire 100 200).zone.gap { lo := 150, hi := 200 } ≤ siteM s.site ∧
      (∀ j x, j < 3 → s.incident j = some x → siteM s.site < x.zone.gap { lo := 150, hi := 200 }) ∧
      lodgeReport .a (siteL s.site) [1, 0, 200, 0, 150, 1, 0x27, 0x0F] =
        some { zone := { lo := 150, hi := 200 }, cls := .suspected, source := .port .a, evacuation := some .west, train := some 9999,
               temp := 0 } :=
  ⟨rfl, by decide +kernel, fun j x hj hx => by
    have h : ∀ j < 3, (burning .active [none, none, none, some (fire 100 200)]).incident j = none := by decide
    exact absurd (hx.symm.trans (h j hj)) (by simp), by decide +kernel⟩
theorem test_meets_HotspotAddsRecord :
    (tunnel .quiet).eng.state ≠ .unconfigured ∧ (∀ j r, j < 4 → (tunnel .quiet).incident j = some r → False) ∧
      0 < (tunnel .quiet).inc.table.length ∧ (tunnel .quiet).incident 0 = none ∧ (1 : Byte).toNat = 1 ∧ (3 : Byte).toNat = 3 :=
  ⟨by decide, fun j r hj hr => by simpa using each_incident (tunnel .quiet) (fun _ => false) (by decide) j r hj hr, by decide, by decide, rfl, rfl⟩
/-- A zone grown by a metre and by a report at the merge distance, in a table of one record; and two records 200 m apart that one merge joins. -/
theorem test_meets_GrowthMerges :
    let s := burning .active [none, none, none, some (fire 100 200)]
    let t := burning .active [some (fire 100 200), none, none, some (fire 400 400)]
    s.Ready .a ∧ s.eng.state ≠ .unconfigured ∧
      lodgeReport .a (siteL s.site) [2, 0, 201, 0, 201, 0, 0, 0] =
        some { zone := { lo := 201, hi := 201 }, cls := .confirmed, source := .port .a, evacuation := none, train := none, temp := 0 } ∧
      s.inc.table.length = 4 ∧ s.incident 3 = some (fire 100 200) ∧ (∀ j, j < 3 → s.incident j = none) ∧
      (fire 100 200).zone.gap { lo := 201, hi := 201 } ≤ siteM s.site ∧ (fire 100 200).zone.hi < 201 ∧
      (fire 100 200).zone.gap { lo := 400, hi := 400 } = siteM s.site ∧ (fire 100 200).zone.gap { lo := 401, hi := 401 } > siteM s.site ∧
      t.incident 0 = some (fire 100 200) ∧ t.incident 3 = some (fire 400 400) :=
  ⟨rfl, by decide, by decide +kernel, by decide, by decide +kernel, by decide +kernel, by decide +kernel, by decide, by decide +kernel,
    by decide +kernel, by decide +kernel, by decide +kernel⟩
theorem test_a_record_alone_lies_apart : apart 200 [none, none, none, some (fire 100 400)] := by
  intro i j x y h hx hy
  rcases i with _ | _ | _ | _ | i <;> rcases j with _ | _ | _ | _ | j <;> simp at h hx hy
theorem test_growth_joins_two_records :
    after (fun t => t.inc.table.map (Option.map Incident.zone))
        (exec (.hotspot 300 250 3) (burning .active [none, some (fire 100 200), none, some (fire 500 500)])) =
      some [none, some { lo := 100, hi := 500 }, none, none] := by decide +kernel
theorem test_meets_AmendmentsWriteEntry :
    let s := burning .active [some (fire 0 0), none, none, some (fire 5000 5000)]
    s.Ready .a ∧ s.token = some .a ∧ (3 : Byte).toNat < s.inc.table.length ∧ s.incident (3 : Byte).toNat = some (fire 5000 5000) ∧
      (fire 5000 5000).evacuation ≠ some .east ∧ (0x27 : Byte).toNat * 256 + (0x0F : Byte).toNat = 9999 ∧
      (fire 5000 5000).train ≠ some 9999 :=
  ⟨rfl, rfl, by decide, rfl, by decide, rfl, by decide⟩
theorem test_meets_GoverningRanksFirst :
    governingOf [none, some (fire 1 1)] = some 1 ∧ governingOf [none, none, none, none] = none := by decide
theorem test_meets_LineConditionTable :
    ({ State.reset.det with silence := .running 0 } : Detection).silence = .running 0 ∧ State.reset.det.condition = .silent :=
  ⟨rfl, rfl⟩
theorem test_meets_MatchFollowsFire :
    let r := { fire 100 100 with sources := [.detection] }
    let s := burning .active [some r, none, none, none]
    let t := { s with det := { s.det with condition := .ok, silence := .running 0 }, mat := { s.mat with frozen := true } }
    let u := { s with mat := { s.mat with governing := some 3 } }
    let v := { s with mat := { s.mat with condition := .fault } }
    t.det.condition ≠ .fault ∧ t.det.silence = .running 0 ∧ t.det.condition ≠ .silent ∧ State.reset.det.condition ≠ .ok ∧
      t.governingDetected = true ∧ t.inc.governing = some 0 ∧ t.governingRecord.isSome = true ∧ t.mat.governing = some 0 ∧
      t.mat.frozen = true ∧ s.governingRecord = some r ∧ s.mat.frozen = false ∧ u.mat.governing ≠ some 0 ∧ v.mat.condition ≠ .ok ∧
      s.mat.condition = .ok ∧ s.plans.active = some 1 ∧ s.mat.workF = some 100 ∧ s.mat.matched = some 1 := by decide +kernel
/-- A segment of 0 to 100 m, H 30 m: at 130 m the match is kept, at 131 m left; and a match that is the default row. -/
theorem test_meets_MatchFollowsFire_margin :
    let p := { plan with parts := plan.parts.set 1 (some (u16 0 ++ u16 100 ++ rowPart.drop 4)) }
    let s := burning .alert [some (fire 100 160), none, none, none]
    let t := { s with mat := { s.mat with matched := some 0 } }
    siteSegmentHysteresis s.site = 30 ∧ (fire 100 160).zone.fire = 130 ∧ (fire 100 162).zone.fire = 131 ∧
      130 ≤ (p.row 1).stop + 30 ∧ (p.row 1).stop + 30 < 131 ∧ (rawFlags p 131).headD 0 = 0 ∧ (rawFlags p 100).headD 0 = 1 ∧
      t.mat.matched = some 0 := by decide +kernel
/-- A LODGE that grows the one SUSPECTED record of ALERT, from 100 m to a fire position of 200 m. -/
theorem test_meets_MatchFollowsFire_lodge :
    let s := burning .alert [some (suspect 100 100), none, none, none]
    let f : FireReport :=
      { zone := { lo := 100, hi := 300 }, cls := .suspected, source := .port .a, evacuation := none, train := none, temp := 0 }
    s.Ready .a ∧ lodgeReport .a (siteL s.site) [1, 0x01, 0x2C, 0, 100, 0, 0, 0] = some f ∧ s.lib.mode ≠ .edit ∧ s.eng.state = .alert ∧
      0 < s.inc.table.length ∧ s.incident 0 = some (suspect 100 100) ∧ (∀ j, j ≠ 0 → s.incident j = none) ∧
      (suspect 100 100).zone.gap f.zone ≤ siteM s.site ∧ (suspect 100 100).zone.hi < f.zone.hi ∧ s.inc.governing = some 0 ∧
      s.mat.governing = some 0 ∧ s.mat.frozen = false ∧ s.plans.active = some 1 ∧ s.mat.matched = some 1 ∧
      after (fun t => t.mat.workF) (exec (.lodge .a 1 [1, 0x01, 0x2C, 0, 100, 0, 0, 0]) s) = some (some 200) := by
  refine ⟨rfl, by decide +kernel, by decide, rfl, by decide, rfl, ?_, by decide +kernel, by decide, rfl, rfl, rfl, rfl, rfl,
    by decide +kernel⟩
  intro j hj
  rcases j with _ | _ | _ | _ | j
  case zero => exact absurd rfl hj
  all_goals rfl
/-- A HOTSPOT on a SILENT line, and on one with the re-fix mark set; the record then governs in the register and in the matcher. -/
theorem test_meets_MatchFollowsFire_refix :
    let s := burning .active [some (fire 100 100), none, none, none]
    let t := { s with det := { s.det with condition := .ok, refix := true } }
    s.det.condition = .silent ∧ s.eng.state ≠ .unconfigured ∧ t.det.condition ≠ .silent ∧ t.det.refix = true ∧
      t.mat.condition = .ok ∧ (1 : Byte).toNat = 1 ∧ (3 : Byte).toNat = 3 ∧
      ∀ u ∈ [s, t],
        after (fun v => (v.governingRecord.isSome, v.plans.active, v.mat.governing, v.inc.governing)) (exec (.hotspot 300 200 3) u) =
          some (true, some 1, some 0, some 0) := by decide +kernel

/-! Plans and the engine -/

theorem test_meets_PlanReferencesMove_select :
    let s := tunnel .quiet
    let t := { s with lib := { s.lib with nv := { s.lib.nv with slots := List.replicate 16 plan } },
                      plans := { active := some 2, stack := [3, 4, 5, 6, 7, 8, 9, 10] } }
    s.Ready .a ∧ t.Ready .a ∧ s.token = some .a ∧ s.lib.mode = .service ∧ (s.slot 1).state = .sealed ∧ s.plans.active = some 1 ∧
      (t.slot (16 : Byte).toNat).state = .sealed ∧ t.plans.active = some 2 :=
  ⟨rfl, rfl, rfl, rfl, rfl, rfl, rfl, rfl⟩
theorem test_meets_PlanReferencesMove :
    let s := { tunnel .quiet with plans := { active := some 1, stack := [2, 3] } }
    s.Ready .a ∧ s.token = some .a ∧ s.plans.stack = 2 :: [3] ∧ s.plans.active = some 1 ∧ (tunnel .quiet).plans.stack = [] ∧
      s.token ≠ some .b ∧ (editing none).plans.active = none :=
  ⟨rfl, rfl, rfl, rfl, rfl, by decide, rfl⟩
theorem test_meets_CommitAttemptOutcomes_holds :
    2 ≤ (burning .active [some (fire 100 100), some (fire 900 900), none, none]).confirmedCount ∧
      State.reset.confirmedCount ≤ 1 ∧ State.reset.plans.active = none := by decide
theorem test_meets_CommitAttemptOutcomes_latches :
    let s := burning .alert [some (fire 100 100), none, none, none]
    s.confirmedCount ≤ 1 ∧ s.plans.active = some 1 ∧ s.mat.workF = some 100 ∧ s.incident 0 = some (fire 100 100) ∧
      (rawFlags (s.slot 1) 100).headD 0 = 1 ∧ s.commitDir (fire 100 100) ((s.slot 1).row 1) = some .east := by decide +kernel
theorem test_meets_CommitAttemptOutcomes_blocked :
    let s := burning .alert [some (fire 100 100), none, none, none]
    let t := { s with eng := { s.eng with trains := some { number := 7, head := 0, tail := 300, moving := true } :: List.replicate 7 none } }
    let r := { fire 100 100 with evacuation := some .west }
    t.blocked r .east = true ∧ t.blocked r .west = true ∧ t.commitDir r ((t.slot 1).row 1) = none ∧
      t.commitDir (fire 100 100) ((t.slot 1).row 1) = none ∧ s.commitDir r ((s.slot 1).row 1) = some .east := by decide +kernel
theorem test_meets_SetDirectionLatches :
    (active 1).Ready .a ∧ (active 1).token = some .a ∧ (active 1).eng.state = .active ∧
      (active 1).eng.latch = some { dir := .east, index := 0 } ∧ (active 1).row = some ((active 1).slot 1 |>.row 1) :=
  ⟨rfl, rfl, rfl, rfl, rfl⟩
/-- HOLD with a plan and without, a state that is neither ACTIVE nor HOLD, and values that are no direction. -/
theorem test_meets_SetDirectionLatches_hold :
    let s := burning (.hold .directionBlocked) [some (fire 100 100), none, none, none]
    let t := { s with plans := { active := none, stack := [] } }
    s.Ready .a ∧ s.token = some .a ∧ s.eng.state = .hold .directionBlocked ∧ s.plans.active = some 1 ∧ s.inc.governing = some 0 ∧
      s.mat.governing = some 0 ∧ s.mat.workF = some 100 ∧ (rawFlags (s.slot 1) 100).headD 0 = 1 ∧ t.plans.active = none ∧
      t.eng.state = .hold .directionBlocked ∧ (tunnel .alert).eng.state ≠ .active ∧ (∀ h, (tunnel .alert).eng.state ≠ .hold h) ∧
      ((0 : Byte).toNat ≠ 1 ∧ (0 : Byte).toNat ≠ 2) ∧ (3 : Byte).toNat ≠ 1 ∧ (3 : Byte).toNat ≠ 2 :=
  ⟨rfl, rfl, rfl, rfl, rfl, rfl, rfl, by decide +kernel, rfl, rfl, by decide, fun h e => (by cases e), by decide, by decide, by decide⟩
/-- An empty table in every state, and entries that are SUSPECTED alone, with the latched one cleared in ACTIVE. -/
theorem test_meets_EngineStatesMove_calm :
    let none4 : List (Option Incident) := [none, none, none, none]
    let one := [none, some (suspect 100 100), none, none]
    (tunnel .startup).eng.state = .startup ∧ (tunnel .unconfigured).eng.state = .unconfigured ∧ (tunnel .quiet).tableEmpty = true ∧
      (tunnel .resetHold).tableEmpty = true ∧ (tunnel .alert).tableEmpty = true ∧ (latched .active none4 1).tableEmpty = true ∧
      (latched (.hold .multiFire) none4 2).tableEmpty = true ∧ (burning .quiet one).tableEmpty = false ∧
      (burning .alert one).confirmedCount = 0 ∧ (burning .resetHold one).confirmedCount = 0 ∧
      (latched (.hold .noPlan) one 1).confirmedCount = 0 ∧ (latched .active one 1).latchedCleared = true ∧
      (latched .active one 1).confirmedCount = 0 := by decide
/-- STARTUP with the bank in VERIFY, found turning, stopping and at rest, over no report, a SUSPECTED one, and one and two CONFIRMED ones. -/
theorem test_meets_EngineStatesMove_startup :
    let put (x : BankState) (l : List (Option Incident)) : State := withBank (burning .startup l) (fun b => { b with state := x })
    let none4 : List (Option Incident) := [none, none, none, none]
    let one := [some (fire 100 100), none, none, none]
    let s := onLine (put .verify none4) (.window (.poll 1))
    (put .off none4).eng.state = .startup ∧ (put .verify none4).banks.map Bank.state = [.verify] ∧
      (put (.running .fwd) none4).banks.map Bank.state = [.running .fwd] ∧ (put (.stopping .unknown) none4).tableEmpty = true ∧
      (put .off [some (suspect 9 9), none, none, none]).confirmedCount = 0 ∧ (put .off one).confirmedCount = 1 ∧
      (put .off one).tableEmpty = false ∧ (put .off [some (fire 100 100), some (fire 900 900), none, none]).confirmedCount = 2 ∧
      { put .off one with plans := { active := none, stack := [] } }.plans.active = none ∧
      s.fl.phase = .window (.poll (1 : Byte).toNat) ∧ s.fl.enumeration = .idle ∧ (s.fl.unit 1).map FieldUnit.kind = some .drive ∧
      s.fl.commandWaits 1 = false ∧ Report.ofStatus 1 0 = some .stopped ∧ Report.ofStatus 4 0 = some (.run .fwd) ∧
      Report.ofStatus 6 0 = some .decel ∧ (s.bank 1).map Bank.state = some .verify ∧
      after (fun t => t.eng.state) (exec (.driveReport 1 1 0) s) = some .quiet ∧
      after (fun t => t.eng.state) (exec (.driveReport 1 4 0) s) = some .resetHold := by decide +kernel
theorem test_meets_EngineStatesMove_startup_distinct : (withBank (burning .startup []) (fun b => { b with state := .verify })).BanksDistinct := by
  unfold State.BanksDistinct
  decide +kernel
/-- CONFIRMED entries in ACTIVE: the latched one cleared, the count risen to 2, at 2 as before, and at 1; and in QUIET, ALERT and RESET_HOLD. -/
theorem test_meets_EngineStatesMove_active :
    let one := [some (fire 100 100), none, none, none]
    let two := [some (fire 100 100), some (fire 900 900), none, none]
    let other := [none, some (fire 900 900), none, none]
    (burning .quiet one).confirmedCount = 1 ∧ (burning .alert one).tableEmpty = false ∧ (burning .resetHold two).confirmedCount = 2 ∧
      (latched .active other 1).incident 0 = none ∧ (latched .active other 1).confirmedCount = 1 ∧
      (latched .active two 1).incident 0 ≠ none ∧ (latched .active two 1).eng.confirmed < (latched .active two 1).confirmedCount ∧
      (latched .active two 2).confirmedCount ≤ (latched .active two 2).eng.confirmed ∧ (latched .active one 1).confirmedCount = 1 := by
  decide
/-- CONFIRMED entries in HOLD: the count at 1 with the latch on that entry and elsewhere, at 2 with the latched one cleared and present. -/
theorem test_meets_EngineStatesMove_hold :
    let one := [some (fire 100 100), none, none, none]
    let two := [some (fire 100 100), some (fire 900 900), none, none]
    let rest := [none, some (fire 900 900), some (fire 2000 2000), none]
    (latched (.hold .multiFire) one 2).inc.governing = some 0 ∧ (latched (.hold .multiFire) one 2).confirmedCount = 1 ∧
      (burning (.hold .multiFire) one).eng.latch = none ∧ (latched (.hold .multiFire) rest 3).incident 0 = none ∧
      (latched (.hold .multiFire) rest 3).confirmedCount = 2 ∧ (latched (.hold .multiFire) two 3).incident 0 ≠ none ∧
      (burning (.hold .directionBlocked) one).confirmedCount = 1 ∧ (burning (.hold .directionBlocked) two).confirmedCount = 2 ∧
      (burning (.hold .noPlan) one).confirmedCount = 1 ∧ (burning (.hold .noPlan) two).confirmedCount = 2 := by decide
/-- A LODGE beside a SUSPECTED record 1,000 m away, of either class, with a plan and without, with both directions free and blocked. -/
theorem test_meets_EngineStatesMove_lodge :
    let s := burning .alert [some (suspect 1100 1100), none, none, none]
    let z : Zone := { lo := 100, hi := 100 }
    let f : FireReport := { zone := z, cls := .confirmed, source := .port .a, evacuation := none, train := none, temp := 0 }
    let row := (s.slot 1).row ((rawFlags (s.slot 1) z.fire).headD 0)
    let t := { s with eng := { s.eng with trains := some { number := 7, head := 0, tail := 300, moving := true } :: List.replicate 7 none } }
    s.Ready .a ∧ lodgeReport .a (siteL s.site) [2, 0, 100, 0, 100, 0, 0, 0] = some f ∧
      lodgeReport .a (siteL s.site) [1, 0, 100, 0, 100, 0, 0, 0] = some { f with cls := .suspected } ∧ s.lib.mode ≠ .edit ∧
      (∀ j r, s.incident j = some r → r.cls = .suspected ∧ siteM s.site < r.zone.gap z) ∧ 1 < s.inc.table.length ∧ s.incident 1 = none ∧
      (∀ j, j < 1 → s.incident j ≠ none) ∧ s.mat.governing ≠ some 1 ∧ (tunnel .quiet).mat.governing ≠ some 0 ∧
      s.commitDir (f.record s.uptime) row = some .east ∧ t.commitDir (f.record t.uptime) row = none ∧ s.plans.active = some 1 ∧
      State.reset.plans.active = none := by
  refine ⟨rfl, by decide +kernel, by decide +kernel, by decide, ?_, by decide, by decide, by decide, by decide, by decide,
    by decide +kernel, by decide +kernel, rfl, rfl⟩
  intro j r hr
  rcases j with _ | _ | _ | _ | j
  · cases (show some (suspect 1100 1100) = some r from hr)
    decide +kernel
  all_goals exact absurd hr (by simp [State.incident, burning])
theorem test_meets_EngineStatesMove_amended :
    let s := latched .active [some (fire 100 100), none, none, some (suspect 900 900)] 1
    let t := burning .alert [none, none, none, some (suspect 900 900)]
    s.Ready .b ∧ (3 : Byte).toNat < s.inc.table.length ∧ s.incident (3 : Byte).toNat = some (suspect 900 900) ∧
      s.incident 0 ≠ none ∧ s.eng.confirmed = s.confirmedCount ∧ 1 ≤ s.confirmedCount ∧ t.Ready .a ∧ t.token = some .a ∧
      t.incident (3 : Byte).toNat = some (suspect 900 900) ∧ (∀ j, j ≠ (3 : Byte).toNat → t.incident j = none) := by
  refine ⟨rfl, by decide, by decide, by decide, by decide, by decide, rfl, rfl, by decide, ?_⟩
  intro j hj
  rcases j with _ | _ | _ | _ | j
  case succ.succ.succ.zero => exact absurd rfl hj
  all_goals rfl
theorem test_meets_EngineStatesMove_resume :
    (tunnel .resetHold).Ready .a ∧ (tunnel .resetHold).token = some .a ∧ (tunnel .resetHold).eng.state = .resetHold ∧
      (tunnel .resetHold).tableEmpty = true ∧ (tunnel .quiet).eng.state ≠ .resetHold :=
  ⟨rfl, rfl, rfl, by decide, by decide⟩
theorem test_meets_TrainsRecorded :
    let s := tunnel .quiet
    let t : Train := { number := 9999, head := 5000, tail := 0, moving := true }
    let u := { s with eng := { s.eng with trains := List.replicate 7 none ++ [some t] } }
    s.Ready .b ∧ (0x13 : Byte).toNat * 256 + (0x88 : Byte).toNat = siteL s.site ∧ movingOfCode 2 = some true ∧
      trainSlot s.eng.trains 1 = none ∧ s.eng.trains.findIdx? Option.isNone = some 0 ∧ trainSlot u.eng.trains 9999 = some 7 :=
  ⟨rfl, by decide +kernel, by decide, by decide, by decide, by decide⟩
/-- The stretches about a latched fire at 100 m toward EAST and WEST (U 100, D 600 and L 5,000), of another fire, and in HOLD and QUIET. -/
theorem test_meets_HeatZoneIsUnion :
    let s := latched .active [some (fire 100 100), none, none, some (fire 5000 5000)] 1
    let w : Engine := { s.eng with latch := some { dir := .west, index := 0 } }
    s.eng.state = .active ∧ s.inc.table.getD 0 none = some (fire 100 100) ∧ s.inc.table.getD 3 none = some (fire 5000 5000) ∧
      inHeat (heatZone s.site s.eng s.inc.table) (100 + siteD s.site) = true ∧
      inHeat (heatZone s.site s.eng s.inc.table) (101 + siteD s.site) = false ∧
      inHeat (heatZone s.site w s.inc.table) (100 + siteU s.site) = true ∧
      inHeat (heatZone s.site w s.inc.table) (101 + siteU s.site) = false ∧
      inHeat (heatZone s.site { s.eng with state := .hold .multiFire } s.inc.table) (5000 - siteD s.site) = true ∧
      (tunnel .quiet).eng.state ≠ .active := by decide +kernel
theorem test_meets_DemandsFollowState_inhibited :
    { bank1 with heatInhibited := true, forcing := .fwd }.forcing ≠ .auto ∧ (tunnel (.hold .noPlan)).eng.state = .hold .noPlan ∧
      (withBank (active 1) (fun b => { b with heatInhibited := true })).bank 1 = some { bank1 with heatInhibited := true } := by
  decide +kernel

/-- A forced bank, one QUEUED, one in a queued resume, one in a HOLD snapshot, and the states of the last clause. -/
theorem test_meets_DemandsFollowState :
    let s := tunnel (.hold .multiFire)
    let t := { s with eng := { s.eng with snapshot := some [(1, .run .rev)] } }
    let q := { tunnel .alert with arb := { slots := [none, none], queue := [{ bank := 1, cls := 1, kind := .resume }] } }
    ({ bank1 with forcing := .rev } : Bank).heatInhibited = false ∧ bank1.forcing = .auto ∧ (tunnel .quiet).eng.state = .quiet ∧
      (tunnel .resetHold).eng.state = .resetHold ∧ (∃ x ∈ q.arb.queue, x.bank = bank1.number) ∧ t.eng.state = .hold .multiFire ∧
      t.eng.snapshot = some [(1, .run .rev)] ∧ bank1.heatInhibited = false ∧ bank1.state = .off ∧
      [(1, Demand.run .rev)].find? (fun p => p.1 == bank1.number) = some (bank1.number, .run .rev) ∧
      (tunnel .startup).eng.state = .startup ∧ (tunnel .unconfigured).eng.state = .unconfigured :=
  ⟨rfl, rfl, rfl, rfl, ⟨_, List.mem_singleton.mpr rfl, rfl⟩, rfl, rfl, rfl, rfl, by decide +kernel, rfl, rfl⟩
/-- The tunnel in ACTIVE at stage 1: its bank on the run order, eligible, and in a table that holds its number once. -/
theorem test_meets_DemandsFollowState_active :
    let s := active 1
    s.eng.state = .active ∧ s.eng.latch = some { dir := .east, index := 0 } ∧ s.row = some ((s.slot 1).row 1) ∧ s.eng.stage = some 1 ∧
      s.bank bank1.number = some bank1 ∧ bank1.number ∈ ((s.slot 1).row 1).east ∧ s.eligibleOrder = [bank1] ∧ bank1 ∈ s.banks ∧
      s.BanksDistinct :=
  ⟨rfl, rfl, rfl, rfl, by decide +kernel, by decide +kernel, by decide +kernel, by decide +kernel,
    by unfold State.BanksDistinct; decide +kernel⟩

/-! Velocity -/

theorem test_meets_TargetAndThrustFormed :
    (active 1).Ready .a ∧ (active 1).token = some .a ∧ (active 1).eng.state = .active ∧ (active 1).row ≠ none ∧
      (0 : Byte).toNat * 256 + (100 : Byte).toNat = 100 ∧ (3 : Byte).toNat * 256 + (32 : Byte).toNat = 800 ∧
      ({ (active 1).vel with dwell := .running 0 } : Velocity).dwell = .running 0 :=
  ⟨rfl, rfl, rfl, by decide +kernel, rfl, rfl, rfl⟩
/-- A thrust that stands as formed with a bank that pushes the latched way, one against it and none; a clamp below and above; and no latch. -/
theorem test_meets_TargetAndThrustFormed_thrust :
    let s := active 1
    let running (x : Spin) : State := withBank s (fun b => { b with state := .running x })
    let b := { bank1 with state := .running .fwd }
    s.eng.latch = some { dir := .east, index := 0 } ∧ s.BanksDistinct ∧ s.vel.thrust = some (bounded (thrustSum s.banks .east)) ∧
      b.signedThrust .east = (b.thrust : Int) ∧ b.signedThrust .west = -(b.thrust : Int) ∧
      (running .fwd).formThrust.vel.thrust = some (bank1.thrust : Int) ∧ (running .rev).formThrust.vel.thrust = some (-(bank1.thrust : Int)) ∧
      (tunnel .quiet).eng.latch = none ∧ bounded 57600 = 32767 ∧ bounded (-57600) = -32767 ∧ bounded 32767 = 32767 ∧
      clampTarget site 100 = siteFloor site ∧ clampTarget site 800 = siteCeiling site ∧ (tunnel .quiet).eng.state ≠ .active := by
  refine ⟨rfl, by unfold State.BanksDistinct; decide +kernel, by decide +kernel, ?_⟩
  decide +kernel
/-- A grant in ACTIVE to a bank queued the latched way. -/
theorem test_meets_TargetAndThrustFormed_grant :
    let q : QueueEntry := { bank := 1, cls := 1, kind := .start }
    let b := { bank1 with state := .queued .fwd }
    let s := { withBank (active 1) (fun _ => b) with arb := { slots := [none, none], queue := [q] } }
    s.arb.grantOrder = [q] ∧ s.arb.freeSlot = some 0 ∧ s.bank q.bank = some b ∧ b.state = .queued .fwd ∧ s.eng.state ≠ .startup ∧
      s.BanksDistinct ∧ after (fun t => t.vel.thrust) (exec .startGrant s) = some (some (bank1.thrust : Int)) := by
  refine ⟨by decide +kernel, by decide +kernel, by decide +kernel, rfl, by decide, by unfold State.BanksDistinct; decide +kernel,
    by decide +kernel⟩
theorem test_meets_StagingMovesStage_up :
    let s := active 0
    s.eng.state = .active ∧ s.vel.dwell = .expired ∧ s.vel.projected = some 200 ∧ s.eng.stage = some 0 ∧
      (200 : Int) < (300 : Int) - (siteVelocityHysteresis s.site : Int) ∧ s.nextBank = some bank1 ∧
      (s.row.map Row.ceiling = some 0) ∧ (active 1).nextBank = none := by decide +kernel
theorem test_meets_StagingMovesStage_down :
    (300 : Int) + (siteVelocityHysteresis (active 2).site : Int) < 321 ∧ ((active 2).row.map Row.base = some 1) ∧
      (300 : Int) - (siteVelocityHysteresis (active 2).site : Int) ≤ 280 ∧ (280 : Int) ≤ 300 + 20 := by decide +kernel
theorem test_meets_StagingMovesStage_rests :
    (tunnel .quiet).eng.state ≠ .active ∧ (active 1).vel.dwell = .expired ∧
      ({ (active 1).vel with projected := none } : Velocity).projected = none := by decide
theorem test_meets_EstimateBetween :
    let t : Station := { number := 1, chainage := 1500, weight := 1, address := 2, reading := none, polled := true, used := true }
    0 < t.weight ∧ t.velocity ≤ t.velocity ∧ estimateOf [t] = some t.velocity := by decide

/-! Banks and starts -/

theorem test_meets_BankRequestsAct :
    let s := tunnel .quiet
    let t := withBank s (fun b => { b with state := .lockedOut })
    s.Ready .a ∧ s.token = some .a ∧ s.eng.state ≠ .unconfigured ∧ s.bank (1 : Byte).toNat = some bank1 ∧
      bank1.state ≠ .unassigned ∧ bank1.forcing ≠ .rev ∧ bank1.forcing = .auto ∧
      t.bank 1 = some { bank1 with state := .lockedOut } ∧ bank1.demand = .off :=
  ⟨rfl, rfl, by decide, by decide +kernel, by decide +kernel, by decide +kernel, by decide +kernel, by decide +kernel, by decide +kernel⟩
/-- A bank at every refusal, and LOCKED_OUT banks with demand FWD and in STARTUP. -/
theorem test_meets_BankRequestsAct_clauses :
    let s := tunnel .quiet
    (tunnel .unconfigured).eng.state = .unconfigured ∧ s.bank (0 : Byte).toNat = none ∧ s.bank (2 : Byte).toNat = none ∧
      3 < (4 : Byte).toNat ∧ (withBank s (fun b => { b with state := .unassigned })).bank 1 = some { bank1 with state := .unassigned } ∧
      (withBank s (fun b => { b with state := .lockedOut, demand := .run .fwd })).bank 1 =
        some { bank1 with state := .lockedOut, demand := .run .fwd } ∧
      s.eng.state ≠ .startup ∧ (tunnel .startup).eng.state = .startup ∧ (tunnel .startup).eng.state ≠ .unconfigured := by decide +kernel
/-- A STOPPING bank whose coast runs out with a trip reported, a lockout pending, a demand, or no report at all. -/
theorem test_meets_BankTimersExpire_clauses :
    let a := { bank1 with state := .stopping .fwd, stopCause := some .commanded, coast := .running 0, latest := some (.tripped 3) }
    let l := { a with lockoutPending := true }
    let d := { a with demand := .run .rev }
    let n := { a with latest := none }
    (withBank (tunnel .quiet) (fun _ => a)).bank 1 = some a ∧ a.lockoutPending = false ∧ a.demand = .off ∧
      (withBank (tunnel .quiet) (fun _ => l)).bank 1 = some l ∧ l.lockoutPending = true ∧
      (withBank (tunnel .quiet) (fun _ => d)).bank 1 = some d ∧ d.demand = .run .rev ∧
      (withBank (tunnel .quiet) (fun _ => n)).bank 1 = some n ∧ n.latest = none ∧ (∃ trip, a.latest = some (.tripped trip)) :=
  ⟨by decide +kernel, by decide +kernel, by decide +kernel, by decide +kernel, by decide +kernel, by decide +kernel, by decide +kernel,
    by decide +kernel, by decide +kernel, 3, rfl⟩
theorem test_meets_BankTimersExpire :
    let a := { bank1 with state := .stopping .unknown, stopCause := some .found, coast := .running 0, latest := some .stopped }
    let b := { a with latest := some .decel }
    let c := { bank1 with state := .starting .fwd, start := .running 0 }
    (withBank (tunnel .quiet) (fun _ => a)).bank 1 = some a ∧ a.lockoutPending = false ∧ a.demand = .off ∧
      (withBank (tunnel .quiet) (fun _ => b)).bank 1 = some b ∧ (withBank (tunnel .quiet) (fun _ => c)).bank 1 = some c ∧
      (tunnel .quiet).fl.enumeration = .idle := by decide +kernel
theorem test_meets_GrantStartsHead :
    let q : QueueEntry := { bank := 1, cls := 1, kind := .start }
    let s := withBank (tunnel .quiet) (fun b => { b with state := .queued .rev })
    let t := { s with arb := { s.arb with queue := [q] } }
    t.arb.grantOrder = q :: [] ∧ t.arb.freeSlot = some 0 ∧ t.bank q.bank = some { bank1 with state := .queued .rev } := by decide +kernel
theorem test_meets_GrantStartsHead_resume :
    let q : QueueEntry := { bank := 1, cls := 0, kind := .resume }
    let b := { bank1 with state := .stopping .fwd, stopCause := some .commanded, coast := .running 5 }
    let t := { withBank (tunnel .quiet) (fun _ => b) with arb := { slots := [none, none], queue := [q] } }
    t.arb.grantOrder = q :: [] ∧ t.arb.freeSlot = some 0 ∧ t.bank q.bank = some b ∧ b.state = .stopping (Spin.turn .fwd) := by
  decide +kernel
/-- A bank in each state of the table, with its coast running and run out, its lockout pending and not, and each demand. -/
theorem test_meets_ReconciliationOutcomes :
    let z : Bank := { bank1 with state := .stopping .fwd, coast := .expired }
    let y : Bank := { bank1 with state := .verify, demand := .run .rev }
    ({ bank1 with state := .starting .fwd } : Bank).state = .starting .fwd ∧ ({ bank1 with state := .running .rev } : Bank).state = .running .rev ∧
      bank1.state = .off ∧ ({ bank1 with state := .queued .fwd } : Bank).state = .queued .fwd ∧
      ({ z with coast := .running 0 } : Bank).coast ≠ .expired ∧ z.coast = .expired ∧ z.lockoutPending = false ∧ z.demand = .off ∧
      ({ z with lockoutPending := true } : Bank).lockoutPending = true ∧ ({ z with demand := .run .fwd } : Bank).demand = .run .fwd ∧
      ({ bank1 with state := .lockedOut } : Bank).state = .lockedOut ∧ y.state = .verify ∧ y.lockoutPending = false ∧
      y.demand = .run .rev ∧ y.demand ≠ .run .fwd ∧ ({ y with lockoutPending := true } : Bank).lockoutPending = true ∧
      ({ y with demand := .off } : Bank).demand = .off ∧ ((tunnel .quiet).bankContext 1).live = true ∧
      ((tunnel .startup).bankContext 1).live = false ∧ ({ bank1 with state := .atLocal } : Bank).state = .atLocal ∧
      ({ bank1 with state := .unreachable } : Bank).state = .unreachable ∧ bank1.state ≠ .atLocal ∧ bank1.state ≠ .unreachable ∧
      Report.stopped ≠ .atLocal := by
  decide +kernel

/-- A bank in each state, with the demands it meets, outside a live engine and in ACTIVE. -/
theorem test_meets_DemandsActedOn :
    (tunnel .startup).bank 1 = some bank1 ∧ (active 1).eng.state ≠ .startup ∧
      (∀ x ∈ [BankState.off, .queued .fwd, .starting .rev, .running .fwd, .stopping .fwd, .stopping .unknown, .unassigned, .verify,
          .lockedOut, .unreachable, .atLocal],
        (withBank (active 1) (fun b => { b with state := x })).bank 1 = some { bank1 with state := x }) ∧
      Demand.off ≠ .run .fwd ∧ Demand.run .rev ≠ .run .fwd ∧ Spin.turn .fwd = .fwd ∧
      ({ bank1 with stopCause := some .commanded } : Bank).lockoutPending = false ∧
      ({ bank1 with stopCause := some .fault } : Bank).stopCause ≠ some .commanded := by decide +kernel
/-- SET_FORCING of a RUNNING bank and of one at OFF, which stands at 1,000 m, past the heat zone's end at 700 m. -/
theorem test_meets_DemandsActedOn_forcing :
    let s := withBank (active 1) (fun b => { b with state := .running .fwd, demand := .run .fwd })
    s.Ready .a ∧ s.token = some .a ∧ s.eng.state = .active ∧ s.BanksDistinct ∧
      s.bank (1 : Byte).toNat = some { bank1 with state := .running .fwd, demand := .run .fwd } ∧ bank1.forcing = .auto ∧
      bank1.demand = .off ∧ (active 1).bank (1 : Byte).toNat = some bank1 ∧
      inHeat (heatZone (active 1).site (active 1).eng (active 1).inc.table) bank1.chainage = false :=
  ⟨rfl, rfl, rfl, by unfold State.BanksDistinct; decide +kernel, by decide +kernel, rfl, rfl, by decide +kernel, by decide +kernel⟩

/-! The field line -/

theorem test_meets_LineDecisionChooses_poll :
    let s := tunnel .quiet
    let t := { s with fl := { s.fl with inRow := 4, queue := [{ address := 1, command := .stop }], rota := some 2 } }
    s.fl.phase = .idle ∧ s.fl.enumeration = .idle ∧ s.eng.state ≠ .unconfigured ∧ s.fl.nextPoll = some 1 ∧ s.fl.queue = [] ∧
      t.fl.nextPoll = some 1 ∧ t.fl.inRow = 4 := by decide +kernel
/-- NoRunToBarredBank too. -/
theorem test_meets_LineDecisionChooses_command :
    let s := withBank (tunnel .quiet) (fun b => { b with state := .starting .fwd })
    let t := { s with fl := { s.fl with inRow := 3, queue := [{ address := 1, command := .run .fwd }] } }
    t.fl.inRow ≤ 3 ∧ t.commandStands { address := 1, command := .run .fwd } = true ∧
      after (fun u => u.fl.phase) (exec .lineDecision t) = some (.sending (.command 1 (.run .fwd))) := by decide +kernel
theorem test_meets_LineDecisionChooses_sent :
    (onLine (tunnel .quiet) (.sending .identify)).fl.phase = .sending .identify ∧ FieldRequest.identify ≠ .clearAddresses ∧
      (onLine (tunnel .quiet) (.sending .clearAddresses)).fl.phase = .sending .clearAddresses := by decide
theorem test_meets_RepliesTaken :
    let s := tunnel .quiet
    (onLine s (.window (.poll 1))).fl.phase = .window (.poll (1 : Byte).toNat) ∧ s.fl.enumeration = .idle ∧
      s.fl.unit 1 = some { kind := .drive, number := 1, assigned := true, reachable := true, missed := 0 } ∧
      s.fl.unit 2 = some { kind := .station, number := 1, assigned := true, reachable := true, missed := 0 } ∧
      Report.ofStatus 1 0 = some .stopped ∧ Report.ofStatus 8 0 = some .atLocal ∧ s.bank 1 = some bank1 := by decide +kernel
/-- A round with its one station unmarked, and marked with a reading in use. -/
theorem test_meets_RepliesTaken_rounds :
    let s := tunnel .quiet
    let m (x : Station) : Station := { x with polled := true, reading := some { velocity := -150, quality := .good, at_ := 0 } }
    let t := { s with vel := { s.vel with stations := s.vel.stations.map m } }
    s.vel.stations.map (fun x => (x.polled, s.stationReachable x.number)) = [(false, true)] ∧
      t.vel.stations.map (fun x => (x.polled, t.stationUsed x)) = [(true, true)] ∧ t.roundComplete = true ∧
      t.completeRound.vel.estimate = some (-150) ∧ t.vel.estimate = none := by decide +kernel
theorem test_meets_MissCounted :
    let u : FieldUnit := { kind := .drive, number := 1, assigned := true, reachable := true, missed := 1 }
    let v := { u with missed := 2 }
    let s := onLine (tunnel .quiet) (.window (.poll 1))
    let t := { s with fl := { s.fl with units := s.fl.units.set 0 u } }
    let x := { s with fl := { s.fl with units := s.fl.units.set 0 v } }
    t.fl.unit 1 = some u ∧ x.fl.unit 1 = some v ∧ x.bank v.number = some bank1 ∧ bank1.state ≠ .unassigned ∧
      bank1.state ≠ .unreachable ∧ x.eng.state = .quiet := by decide +kernel
/-- The third miss in STARTUP and in ACTIVE, of a bank that is LOCKED_OUT. -/
theorem test_meets_MissCounted_states :
    let v : FieldUnit := { kind := .drive, number := 1, assigned := true, reachable := true, missed := 2 }
    let third (s : State) : State :=
      let t := withBank s (fun b => { b with state := .lockedOut, failures := 2 })
      { t with fl := { t.fl with phase := .window (.poll 1), units := t.fl.units.set 0 v } }
    (third (tunnel .startup)).fl.unit 1 = some v ∧ (third (tunnel .startup)).eng.state = .startup ∧
      (third (active 1)).bank 1 = some { bank1 with state := .lockedOut, failures := 2 } ∧ (third (active 1)).eng.state ≠ .startup ∧
      (third (active 1)).fl.enumeration = .idle := by decide +kernel
/-- A station at its first and third miss, and a drive that is unreachable already. -/
theorem test_meets_MissCounted_station :
    let v : FieldUnit := { kind := .station, number := 1, assigned := true, reachable := true, missed := 2 }
    let s := onLine (tunnel .quiet) (.window (.poll 2))
    let t := { s with fl := { s.fl with units := s.fl.units.set 1 v } }
    let w : FieldUnit := { kind := .drive, number := 1, assigned := true, reachable := false, missed := 3 }
    let d := onLine { s with fl := { s.fl with units := s.fl.units.set 0 w } } (.window (.poll 1))
    s.fl.unit 2 = some { v with missed := 0 } ∧ t.fl.unit 2 = some v ∧ t.fl.enumeration = .idle ∧ d.fl.unit 1 = some w ∧
      d.fl.phase = .window (.poll 1) := by decide +kernel
theorem test_meets_EnumerationRuns_start :
    (tunnel .quiet).Ready .a ∧ (tunnel .quiet).token = some .a ∧ (tunnel .quiet).lib.inFlight = none ∧
      (tunnel .quiet).lib.mode = .service ∧ (tunnel .quiet).banks.all (fun b => b.state.allowsEnumeration) = true ∧
      (tunnel .quiet).fl.phase = .idle :=
  ⟨rfl, rfl, rfl, rfl, by decide +kernel, rfl⟩
theorem test_meets_EnumerationRuns_exchanges :
    let s := tunnel .quiet
    let o := operation .enumerate 0 0 .a
    let t := { s with fl := { s.fl with enumeration := .running 3, phase := .window .identify }, lib := { s.lib with inFlight := some o } }
    s.fl.unit 1 = some { kind := .drive, number := 1, assigned := true, reachable := true, missed := 0 } ∧
      UnitKind.ofCode (1 : Byte).toNat = some .drive ∧ t.fl.enumeration = .running (3 : Byte).toNat ∧ t.fl.unit 3 = none ∧
      t.inFlightOf .enumerate = some o := by decide +kernel

/-! The token, notices and the library -/

theorem test_meets_ClaimTable :
    State.reset.token = none ∧ (tunnel .quiet).token = some .a ∧ PortId.isPortal .w = true ∧ PortId.isPortal .a = false ∧
      (tunnel .quiet).Ready .w ∧ (PortId.isPortal .b && true && !PortId.isPortal .a) = false :=
  ⟨rfl, rfl, rfl, rfl, rfl, rfl⟩
theorem test_meets_YieldTable :
    let t := (tunnel .quiet).setPort .e { Port.afterReset with present := true }
    t.Ready .a ∧ t.token = some .a ∧ (t.port .e).present = true ∧ (t.port .b).present = false ∧ t.token ≠ some .e ∧
      (0 : Byte).toNat = 0 ∧ 4 < (5 : Byte).toNat :=
  ⟨rfl, rfl, rfl, rfl, by decide, rfl, by decide⟩
/-- AckAndMaskNotices, at the two sides of the bound. -/
theorem test_meets_kind_sets : getU24 [0x01, 0xFF, 0xFF] 0 < 2 ^ 17 ∧ 2 ^ 17 ≤ getU24 [0x02, 0, 0] 0 := by decide
/-- A port with two entries, in kind order, and a mask. -/
theorem test_meets_ReadNoticesEmptiesSet :
    let q : Port :=
      { Port.afterReset with
        notices := [{ notice := .engineState .alert, at_ := 0, count := 255 }, { notice := .stackDropped 1, at_ := 0, count := 1 }]
        mask := [17] }
    ((tunnel .quiet).setPort .b q).Ready .b ∧ ((tunnel .quiet).setPort .b q).port .b = q ∧ kindsRise q.notices = true ∧
      (∀ e ∈ q.notices, q.mask.contains e.notice.kind = false ∧ 1 ≤ e.count ∧ e.count ≤ 255) :=
  ⟨rfl, rfl, by decide, by decide⟩
/-- A port with an entry of count 254 and one of 255, which masks a third kind; and an ERASE_SLOT in flight. -/
theorem test_meets_NoticesEnterSets :
    let q : Port :=
      { Port.afterReset with
        present := true
        silence := .running 10
        notices := [{ notice := .engineState .alert, at_ := 0, count := 255 }, { notice := .stackDropped 1, at_ := 0, count := 254 }]
        mask := [17] }
    let s := (tunnel .quiet).setPort .a q
    let o := operation .eraseSlot 16 0 .a
    (s.port .a).mask.contains 17 = true ∧ (s.port .a).mask.contains (Notice.engineState .quiet).kind = false ∧
      (q.notices.find? (fun e => e.notice.kind == (Notice.engineState .quiet).kind)).map NoticeEntry.count = some 255 ∧
      (q.notices.find? (fun e => e.notice.kind == (Notice.stackDropped 2).kind)).map NoticeEntry.count = some 254 ∧
      q.notices.find? (fun e => e.notice.kind == (Notice.tokenChanged none .yielded).kind) = none ∧ kindsRise q.notices = true ∧
      (tunnel .quiet).det.condition ≠ .fault ∧ (editing (some o)).lib.inFlight = some o ∧ (editing (some o)).lib.mode = .edit := by
  decide +kernel
theorem test_meets_EditRequests_open :
    (tunnel .quiet).Ready .a ∧ (tunnel .quiet).token = some .a ∧ (tunnel .quiet).eng.state = .quiet ∧
      (tunnel .unconfigured).eng.state = .unconfigured ∧ (tunnel .unconfigured).lib.mode = .service :=
  ⟨rfl, rfl, rfl, rfl, rfl⟩
theorem test_meets_EditRequests_short :
    (editing none).Ready .a ∧ (editing none).token = some .a ∧ (editing none).lib.mode = .edit ∧ (editing none).lib.staged = some site ∧
      siteLengths.getD 0 0 = 25 ∧ siteLengths.getD 8 0 = 112 ∧ (editing none).lib.nv.lock = false :=
  ⟨rfl, rfl, rfl, rfl, rfl, rfl, rfl⟩
/-- EDIT open with CP-A its opener and the token's holder: with nothing in flight and with a seal; and a CLOSING one. -/
theorem test_meets_EditAborted :
    let s := editing none
    let t := editing (some (operation .sealSlot 1 0 .a))
    let c := { t with lib := { t.lib with mode := .closing, opener := none, staged := none } }
    s.lib.mode = .edit ∧ s.lib.opener = some .a ∧ s.token = some .a ∧ s.lib.inFlight = none ∧ s.eng.state ≠ .unconfigured ∧
      t.lib.inFlight = some (operation .sealSlot 1 0 .a) ∧
      (lodgeReport .b (siteL s.site) [1, 0, 0, 0, 0, 0, 0, 0]).isSome = true ∧ s.Ready .b ∧ s.Ready .a ∧ s.Ready .w ∧
      (s.port .a).silence = .running 10 ∧ ((s.setPort .e { Port.afterReset with present := true }).port .e).present = true ∧
      PortId.isPortal .w = true ∧ PortId.isPortal .a = false ∧ c.lib.mode = .closing ∧
      c.lib.inFlight = some (operation .sealSlot 1 0 .a) :=
  ⟨rfl, rfl, rfl, rfl, by decide, rfl, by decide +kernel, rfl, rfl, rfl, rfl, rfl, rfl, rfl, rfl, rfl⟩
/-- The NV record unusable; valid with its default slot, slot 1, SEALED and not, and the one in use; failing its CRC; breaking a rule of its own; and taken
as invalid after a cut write. -/
theorem test_meets_EditAborted_defaults :
    let s := storing (.stored (whole site)) none
    let t := { s with lib := { s.lib with nv := { s.lib.nv with slots := plan :: List.replicate 15 .blank } } }
    let bad : SiteStore := { parts := site, crc := siteCrc site + 1 }
    (storing .unusable none).lib.nv.site = .unusable ∧ s.lib.nv.site = .stored (whole site) ∧ siteCrc (whole site).parts = (whole site).crc ∧
      siteViolation (whole site).parts = none ∧ siteDefaultSlot (whole site).parts = 1 ∧ (s.slot 1).state ≠ .sealed ∧
      (t.slot 1).state = .sealed ∧ siteCrc bad.parts ≠ bad.crc ∧ siteViolation (whole blankSiteRecord).parts ≠ none ∧
      s.lib.siteCut = false ∧ { s.lib with siteCut := true }.siteCut = true ∧ s.lib.inUse = none ∧
      { s.lib with inUse := some (whole site) }.inUse = some (whole site) := by
  have h : ∀ x : Word16, x ≠ x + 1 := fun x => by bv_omega
  exact ⟨rfl, rfl, whole_crc site, test_site_is_valid, by decide +kernel, by decide +kernel, by decide +kernel, h (siteCrc site),
    by decide +kernel, rfl, rfl, rfl, rfl⟩
/-- A staged bank count above 48 lists nothing outside parts 1 to 6: the station of part 7 and the chain of part 8 are no banks (R200). -/
theorem test_a_bank_count_above_48_lists_48 :
    let r := (site.set 0 (((sitePart site 0).take 22) ++ u8 255 ++ u8 1 ++ u8 2)).set 7 (fitTo 32 (u8 9 ++ u16 1500 ++ u8 1))
    siteBankCount r = 255 ∧ (siteBanks r).length = 48 ∧ siteListsBank r 1 = true ∧ siteListsBank r 9 = false := by decide +kernel
/-- Slots that a write and a seal may begin on: one that passes the checks, one of no part, and one whose list repeats a bank. -/
theorem test_meets_LongRequestsStart :
    let s := editing none
    let twice := rowPart.take 11 ++ (u8 2 ++ fitTo 24 (u8 1 ++ u8 1)) ++ rowPart.drop 36
    let put (p : PlanSlot) : State := { s with lib := { s.lib with nv := s.lib.nv.setSlot 16 { p with state := .written } } }
    s.lib.inFlight = none ∧ (s.slot 16).writable 0 = true ∧ (s.slot 16).writable 32 = true ∧ ((put .blank).slot 16).state = .written ∧
      s.lib.staged = some site ∧ (put plan).sealOutcome 16 = none ∧ (put .blank).sealOutcome 16 ≠ none ∧
      (put { plan with parts := plan.parts.set 1 (some twice) }).sealOutcome 16 = some { slot := none, part := 1, field := 12 } := by
  decide +kernel
/-- A record and slots that pass, a SEALED slot that names a bank the record does not list, and records with no length and a chain entry twice. -/
theorem test_meets_CloseEditValidates :
    let twice := site.set 8 (fitTo 112 (u8 1 ++ u8 1 ++ u8 1 ++ u8 1))
    closeViolation site (editing none).lib.nv.slots = none ∧
      closeViolation noBanks (editing none).lib.nv.slots = some { slot := some 1, part := 0, field := 12 } ∧
      closeViolation blankSiteRecord (editing none).lib.nv.slots = some { slot := none, part := 0, field := 1 } ∧
      closeViolation twice [] = some { slot := none, part := 8, field := 2 } ∧ (siteChain twice).count { kind := 1, number := 1 } = 2 := by
  decide +kernel
theorem test_meets_SlotOperationsEnd :
    (editing (some (operation .eraseSlot 16 0 .a))).lib.inFlight = some (operation .eraseSlot 16 0 .a) ∧
      (editing none).lib.mode = .edit ∧ (operation .eraseSlot 16 0 .a).subjA = 16 ∧ (operation .writePart 1 32 .a).subjA = 1 ∧
      (editing none).lib.nv.slots.length = 16 ∧ (operation .sealSlot 1 0 .a).sealOutcome = none ∧
      { operation .sealSlot 1 0 .a with sealOutcome := some { slot := none, part := 0, field := 0 } }.sealOutcome ≠ none ∧
      (editing (some (operation .eraseLibrary 0 0 .a))).lib.inFlight = some (operation .eraseLibrary 0 0 .a) :=
  ⟨rfl, rfl, rfl, rfl, rfl, rfl, by decide, rfl⟩
/-- With the default plan slot, slot 1, SEALED and not; with a record in use and without; in UNCONFIGURED. -/
theorem test_meets_CloseWriteEnds :
    let s := editing (some (operation .closeEdit 0 0 .a))
    let t := { s with eng := { s.eng with state := .unconfigured }, lib := { s.lib with inUse := none } }
    let u := { s with lib := { s.lib with nv := NvLibrary.neverWritten } }
    s.lib.inFlight = some (operation .closeEdit 0 0 .a) ∧ s.lib.staged = some site ∧ s.eng.state ≠ .unconfigured ∧
      t.eng.state = .unconfigured ∧ siteDefaultSlot site = 1 ∧ (s.slot 1).state = .sealed ∧ (u.slot 1).state ≠ .sealed ∧
      s.lib.inUse.isSome = true ∧ t.lib.inUse = none ∧ s.eng.state = .quiet ∧ s.BanksDistinct :=
  ⟨rfl, rfl, by decide, rfl, by decide +kernel, rfl, by decide, rfl, rfl, rfl, by unfold State.BanksDistinct; decide +kernel⟩
theorem test_meets_RequestFrames : (tunnel .quiet).Ready .e ∧ (tunnel .quiet).lib.mode ≠ .edit := ⟨rfl, by decide⟩
theorem test_meets_EventFrames :
    (tunnel .quiet).lib.mode ≠ .edit ∧ (onLine (tunnel .quiet) (.window (.poll 0))).fl.phase = .window (.poll 0) ∧
      (onLine (tunnel .quiet) (.window (.command 56 .stop))).fl.phase = .window (.command 56 .stop) ∧
      (tunnel .quiet).fl.enumeration = .idle :=
  ⟨by decide, rfl, rfl, rfl⟩

/-! The invariants, on the tunnel with a command waiting that answers a next state -/

/-- The tunnel with a tick of its uptime waiting. -/
def waitingTick : State := { tunnel .quiet with pending := [.uptimeTick] }

theorem test_invariants_hold_in_the_tunnel :
    waitingTick.TokenHolderPresent ∧ waitingTick.PortsOk ∧ waitingTick.CommandQueueOk ∧ waitingTick.StartQueueOk ∧
      waitingTick.BanksDistinct ∧ waitingTick.StackOk ∧ waitingTick.InRowOk ∧ waitingTick.UptimeOk ∧ waitingTick.TablesSized := by
  refine ⟨?_, ?_, by unfold State.CommandQueueOk; decide +kernel, by unfold State.StartQueueOk; decide +kernel,
    by unfold State.BanksDistinct; decide +kernel, by unfold State.StackOk; decide, by unfold State.InRowOk; decide,
    by unfold State.UptimeOk; decide, by unfold State.TablesSized; decide⟩
  · intro i hi
    have : i = .a := by
      have h : some PortId.a = some i := hi
      exact (Option.some.inj h).symm
    subst this
    rfl
  · intro i
    cases i <;> exact ⟨rfl, fun _ he => (List.not_mem_nil he).elim, Nat.zero_le _, fun _ => ⟨rfl, rfl⟩⟩
/-- The tunnel with its bank STARTING in the first start slot, its governing record as R14 gives it, and a tick waiting. -/
def starting : State :=
  let s := withBank (burning .active [some (fire 100 100), none, none, none]) (fun b => { b with state := .starting .fwd })
  { s with arb := { slots := [some 1, none], queue := [] }, pending := [.uptimeTick] }

theorem test_meets_GoverningKept : starting.GoverningOk := by unfold State.GoverningOk; decide +kernel
theorem test_meets_StartSlotsKept : starting.BanksDistinct ∧ starting.SlotsOk := by
  have hb : bankStates starting.banks = [(1, .starting .fwd)] := by decide +kernel
  refine ⟨by unfold State.BanksDistinct; decide +kernel, ?_⟩
  unfold State.SlotsOk
  rw [hb]
  refine ⟨by decide, ?_, ?_, ?_⟩ <;> simp [starting, Arbiter.queued]
theorem test_the_starting_bank_goes_on : ∃ t, step starting = .next t := ⟨_, rfl⟩
theorem test_the_waiting_tick_is_taken : after State.uptime (step waitingTick) = some 1 := by decide +kernel

end Sys2Proof.Tests
end

section
/-! The blocking test of R49, said once for a train and once for the occupancy list, and the obligation read off from the two. -/

namespace Sys2Proof.Machine

open Sys2Proof

/-! ### One train -/

theorem trainBlocks_east_iff (len : Nat) (r : Incident) (t : Train) :
    trainBlocks len r .east t = true ↔ r.train ≠ some t.number ∧ r.zone.hi < max t.head t.tail ∧ r.zone.hi < len := by
  simp only [trainBlocks, Bool.and_eq_true, decide_eq_true_eq]

theorem trainBlocks_west_iff (len : Nat) (r : Incident) (t : Train) :
    trainBlocks len r .west t = true ↔ r.train ≠ some t.number ∧ min t.head t.tail < r.zone.lo := by
  simp only [trainBlocks, Bool.and_eq_true, decide_eq_true_eq]

/-! ### The occupancy list -/

/-- An empty slot of the list blocks nothing, so the test asks for one train that does. -/
theorem State.blocked_iff_exists_train (s : State) (r : Incident) (d : Dir) :
    s.blocked r d = true ↔ ∃ t, some t ∈ s.eng.trains ∧ trainBlocks (siteL s.site) r d t = true := by
  unfold State.blocked
  rw [List.any_eq_true]
  constructor
  · rintro ⟨slot, hslot, hblocks⟩
    obtain ⟨t, rfl, ht⟩ := (Option.any_eq_true _ _).mp hblocks
    exact ⟨t, hslot, ht⟩
  · rintro ⟨t, hmem, ht⟩
    exact ⟨some t, hmem, ht⟩

/-- Settles O27: a train in the list blocks, and R49 says for each direction when a train does. -/
theorem blockedMeansTrainDownstream : Obligations.BlockedMeansTrainDownstream := by
  intro s r
  constructor
  · simp only [State.blocked_iff_exists_train, trainBlocks_east_iff]
  · simp only [State.blocked_iff_exists_train, trainBlocks_west_iff]

end Sys2Proof.Machine
end

section
/-! The hand-over of the command token row by row of R160: each row is an equation of the owning block's work, and one lemma takes the request to it. -/

namespace Sys2Proof.Machine

open Sys2Proof

/-! ### Port numbers as operands -/

theorem PortId.ofCode_code (p : PortId) : PortId.ofCode p.code = some p := by cases p <;> rfl

theorem byteOf_code_toNat (p : PortId) : (byteOf p.code).toNat = p.code := by cases p <;> rfl

theorem PortId.ofCode_outOfRange : ∀ {c : Nat}, c = 0 ∨ 4 < c → PortId.ofCode c = none
  | 0, _ => rfl
  | 1, h | 2, h | 3, h | 4, h => by omega
  | _ + 5, _ => rfl

/-! ### The state at work, and the holder after a change -/

@[simp] theorem State.taking_token (s : State) (i : PortId) : (s.taking i).token = s.token := rfl

theorem State.taking_port_other (s : State) {i p : PortId} (h : p ≠ i) : (s.taking i).port p = s.port p :=
  State.port_setPort_other s i p _ h

@[simp] theorem State.changeToken_token (s : State) (h : Option PortId) (c : TokenCause) : (s.changeToken h c).token = h :=
  (LibFrame.changeToken s h c).token

theorem State.holderResult_changeToken (s : State) (h : Option PortId) (c : TokenCause) :
    (s.changeToken h c).holderResult = u8 (optPortCode h) := by
  rw [State.holderResult, State.changeToken_token]

/-! ### The rows of R160 -/

section Rows
variable {s : State} {i p : PortId}

theorem State.yieldTo_noPort {c : Nat} (hc : c = 0 ∨ 4 < c) : State.yieldTo i (some c) s = (s, refuse .refusedRange) := by
  simp [State.yieldTo, PortId.ofCode_outOfRange hc]

theorem State.yieldTo_none_notHolder (ht : s.token ≠ some i) : State.yieldTo i none s = (s, refuse .refusedState) := by
  simp [State.yieldTo, ht]

theorem State.yieldTo_port_notHolder (ht : s.token ≠ some i) :
    State.yieldTo i (some p.code) s = (s, refuse .refusedState) := by
  simp [State.yieldTo, PortId.ofCode_code, ht]

theorem State.yieldTo_absent (ht : s.token = some i) (hp : p ≠ i) (ha : (s.port p).present = false) :
    State.yieldTo i (some p.code) s = (s, refuse .refusedState) := by
  simp [State.yieldTo, PortId.ofCode_code, ht, hp, ha]

theorem State.yieldTo_none_holder (ht : s.token = some i) :
    State.yieldTo i none s = (s.changeToken none .yielded, done (u8 0)) := by
  simp [State.yieldTo, ht, State.holderResult_changeToken, optPortCode]

theorem State.yieldTo_present (ht : s.token = some i) (hp : p ≠ i) (ha : (s.port p).present = true) :
    State.yieldTo i (some p.code) s = (s.changeToken (some p) .yielded, done (u8 p.code)) := by
  simp [State.yieldTo, PortId.ofCode_code, ht, hp, ha, State.holderResult_changeToken, optPortCode]

theorem State.yieldTo_self (ht : s.token = some i) : State.yieldTo i (some i.code) s = (s, done (u8 i.code)) := by
  simp [State.yieldTo, PortId.ofCode_code, ht, State.holderResult, optPortCode]

/-! ### The request -/

/-- YIELD is of OPERATE level, so at an IDLE port a frame of the right length comes to the token whoever holds it (R151, R156). -/
theorem exec_yield {ops : List Byte} {tag : Byte} {t : State} {a : Answer} (hready : s.Ready i)
    (hlen : lengthEither ops 0 1 = true) (hwork : State.yieldTo i (optionalOperand ops) (s.taking i) = (t, a)) :
    exec (.yield i tag ops) s = .next (t.respond i tag a) := by
  change Host.Outcome.next (s.request i tag .operate (lengthEither ops 0 1) (State.yieldTo i (optionalOperand ops))) = _
  rw [hlen, State.request_free hready tag (by decide), hwork]

theorem exec_yield_target {tag : Byte} {t : State} {a : Answer} (hready : s.Ready i)
    (hwork : State.yieldTo i (some p.code) (s.taking i) = (t, a)) :
    exec (.yield i tag [byteOf p.code]) s = .next (t.respond i tag a) := by
  refine exec_yield hready rfl ?_
  rw [optionalOperand, byteOf_code_toNat, hwork]

end Rows

/-- Settles O42: one row of R160 for each conjunct, in the state in which the owning block works. -/
theorem yieldTable : Obligations.YieldTable := by
  intro s i p tag x hready
  refine ⟨fun hx => ?noPort, fun ht => ⟨?noneNotHolder, ?portNotHolder⟩, fun ht hp ha => ?absent, fun ht => ⟨?noneHolder, ?vacant⟩,
    fun ht hp ha => ⟨?present, ?handed⟩, fun ht => ?self⟩
  case noPort => exact exec_yield hready rfl (State.yieldTo_noPort hx)
  case noneNotHolder => exact exec_yield hready rfl (State.yieldTo_none_notHolder ht)
  case portNotHolder => exact exec_yield_target hready (State.yieldTo_port_notHolder ht)
  case absent =>
    exact exec_yield_target hready (State.yieldTo_absent ht hp (by rw [State.taking_port_other s hp, ha]))
  case noneHolder => exact exec_yield hready rfl (State.yieldTo_none_holder ht)
  case vacant => exact State.changeToken_token _ _ _
  case present =>
    exact exec_yield_target hready (State.yieldTo_present ht hp (by rw [State.taking_port_other s hp, ha]))
  case handed => exact State.changeToken_token _ _ _
  case self => exact exec_yield_target hready (State.yieldTo_self ht)

end Sys2Proof.Machine
end

section
/-! A port's own notice set read and emptied (R170): emptying it commutes with the taking of the request, and the result reads the set as it stood. -/

namespace Sys2Proof.Machine

open Sys2Proof

/-! ### The order of a set -/

/-- The rise of the kinds (R166) as a relation between any two entries, the earlier and the later. -/
theorem kindsRise_iff_pairwise : ∀ l : List NoticeEntry,
    kindsRise l = true ↔ l.Pairwise (fun x y => x.notice.kind < y.notice.kind)
  | [] => iff_of_true rfl .nil
  | e :: es => by
    simp only [kindsRise, Bool.and_eq_true, List.all_eq_true, decide_eq_true_eq, List.pairwise_cons,
      kindsRise_iff_pairwise es]

/-! ### The requesting port -/

@[simp] theorem State.taking_port_same (s : State) (i : PortId) :
    (s.taking i).port i =
      { s.port i with receive := .hunting, service := .busy, present := true, silence := .running s.silenceLimit } :=
  State.port_setPort_same s i _

/-- The response in hand leaves the attention line as the owning block's work has left it. -/
theorem State.respond_attention (s : State) (i : PortId) (tag : Byte) (a : Answer) :
    ((s.respond i tag a).port i).attention = (s.port i).attention := by
  rw [State.respond, State.port_setPort_same]; rfl

theorem State.answered_attention (s : State) (i : PortId) (tag : Byte) (a : Answer) :
    ((s.answered i tag a).port i).attention = (s.port i).attention := by
  rw [State.answered, State.respond_attention, State.taking_port_same]; rfl

/-! ### The owning block's work -/

/-- The site's silence limit is no part of a port, so the port taken with its set emptied is the emptied port taken. -/
theorem State.taking_emptied (s : State) (i : PortId) :
    (s.taking i).setPort i { (s.taking i).port i with notices := [] } =
      (s.setPort i { s.port i with notices := [] }).taking i := by
  have hlimit : (s.setPort i { s.port i with notices := [] }).silenceLimit = s.silenceLimit := rfl
  rw [State.taking_port_same, State.taking, State.taking, State.setPort_setPort, State.setPort_setPort,
    State.port_setPort_same, hlimit]

/-- The taking of a request changes neither mask nor set, so the result is that of the port before it. -/
theorem noticesResult_taking (now : Nat) (s : State) (i : PortId) :
    noticesResult now ((s.taking i).port i) = noticesResult now (s.port i) := by
  rw [State.taking_port_same]; rfl

theorem State.collectNotices_taking (s : State) (i : PortId) :
    State.collectNotices i (s.taking i) =
      ((s.setPort i { s.port i with notices := [] }).taking i, done (noticesResult s.uptime (s.port i))) := by
  have huptime : (s.taking i).uptime = s.uptime := rfl
  rw [State.collectNotices, State.taking_emptied, noticesResult_taking, huptime]

/-! ### The request -/

/-- READ_NOTICES is of OPERATE level, so at an IDLE port it comes to the set whoever holds the token (R151, R156). -/
theorem exec_readNotices {s : State} {i : PortId} (hready : s.Ready i) (tag : Byte) :
    exec (.readNotices i tag []) s =
      .next ((s.setPort i { s.port i with notices := [] }).answered i tag (done (noticesResult s.uptime (s.port i)))) := by
  change Host.Outcome.next (s.request i tag .operate true (State.collectNotices i)) = _
  rw [State.request_free hready tag (by decide), State.collectNotices_taking]
  rfl

/-- Settles O44: the work on the set, its order by the ports' invariant, and the attention line of an empty set. -/
theorem readNoticesEmptiesSet : Obligations.ReadNoticesEmptiesSet := by
  intro s i tag hready hports
  obtain ⟨hrise, -⟩ := hports i
  refine ⟨_, rfl, exec_readNotices hready tag, (kindsRise_iff_pairwise _).mp hrise, ?deasserted⟩
  case deasserted =>
    rw [State.answered_attention, State.port_setPort_same]
    rfl

end Sys2Proof.Machine
end

section
/-! Every command keeps the invariants of Safety: the frames by `execFrame_keeps`, the other commands by the rule of their own work, and a step as the
command it runs. -/

namespace Sys2Proof.Machine

open Sys2Proof

/-! ### Commands that are no frames -/

/-- What stands in hand while the port is BUSY leaves with the port IDLE (R153). -/
theorem Port.ok_sent {q : Port} (h : q.ok) : Port.ok { q with service := .idle, response := none, waiting := [] } := by
  obtain ⟨hrise, hcounts, -, -⟩ := h
  exact ⟨hrise, hcounts, Nat.zero_le 4, fun _ => ⟨rfl, rfl⟩⟩

/-- A frame at a BUSY port restarts its timer and waits, or is dropped (R152). -/
theorem Keeps.busyFrame {s : State} {i : PortId} (h : (s.port i).service = .busy) (tag : Byte) :
    Keeps s ((s.heard i).setPort i (((s.heard i).port i).addWaiting tag)) := by
  have hbusy : ((s.heard i).port i).service = .busy := by rw [State.heard_service, h]
  refine (Keeps.heard s i).trans (Keeps.setPort _ i _ (fun hp => .inl ?_) (Port.ok_addWaiting tag hbusy))
  rw [Port.addWaiting_present, hp]

/-- A command that a receiver may find keeps what the found frame keeps. -/
theorem exec_keeps_of_frame {c : Instr} {s : State} (h : exec c s = execFrame c s) : ∃ t, exec c s = .next t ∧ Keeps s t := by
  rw [h]
  exact execFrame_keeps c s

/-- Every command answers a next state and keeps the invariants. -/
theorem exec_keeps (c : Instr) (s : State) : ∃ t, exec c s = .next t ∧ Keeps s t := by
  cases c with
  | coldStart strap => exact ⟨_, rfl, Keeps.boot s strap⟩
  | warmReset => exact ⟨_, rfl, Keeps.boot s s.strap⟩
  | portBreak i sending =>
    exact ⟨_, rfl, Keeps.lapsedThen s i (fun q => q.broken (if q.service = .busy then sending else none)) .broken
      (fun q => Port.ok_broken q _)⟩
  | portSilenceExpiry i =>
    refine ⟨_, rfl, ?_⟩
    split
    · exact Keeps.lapsed s i _ .lapsed id
    · exact .refl s
  | pcpFrameBadCrc i d =>
    refine ⟨_, rfl, ?_⟩
    split
    · exact Keeps.huntInside s i d
    · exact .refl s
  | refusedPortBusyFrame i tag =>
    refine ⟨_, rfl, ?_⟩
    split
    next h => exact Keeps.busyFrame h tag
    next => exact .refl s
  | responseSent i =>
    refine ⟨_, rfl, ?_⟩
    split
    · exact Keeps.setPort s i _ .inl Port.ok_sent
    · exact .refl s
  | detectionFrameDiscarded chars =>
    refine ⟨_, rfl, ?_⟩
    split
    · exact .refl s
    · exact Keeps.takeFrames _ s
  | detectionSilenceExpiry =>
    refine ⟨_, rfl, ?_⟩
    split
    · exact ((Kept.detection s _).trans (Kept.setCondition _ _ _)).keeps
    · exact .refl s
  | coastTimerExpiry n => exact ⟨_, rfl, (Kept.coastExpiry s n).keeps⟩
  | startTimerExpiry n => exact ⟨_, rfl, (Kept.startExpiry s n).keeps⟩
  | startGrant => exact ⟨_, rfl, (Kept.grant s).keeps⟩
  | lineDecision =>
    refine ⟨_, rfl, ?_⟩
    split
    · exact (Kept.lineDecision s).keeps
    · exact .refl s
  | fieldRequestSent => exact ⟨_, rfl, (Kept.requestSent s).keeps⟩
  | fieldReplyDiscarded chars => exact ⟨_, rfl, (Kept.takeReplies _ s).keeps⟩
  | replyWindowExpiry => exact ⟨_, rfl, (Kept.windowExpires s).keeps⟩
  | driveReport a hi lo | stationReading a hi lo | identifyReply a hi lo | assignReply a hi lo =>
    exact ⟨_, rfl, (Kept.takeReply s a hi lo).keeps⟩
  | dwellExpiry =>
    refine ⟨_, rfl, ?_⟩
    split
    · exact Keeps.same s _ _ _ _ _ _ _ _ rfl
    · exact .refl s
  | clearAddressesSilenceExpiry => exact ⟨_, rfl, (Kept.silenceOver s).keeps⟩
  | eraseSlotDone b => exact ⟨_, rfl, (Kept.endOf s _ _ fun o => Kept.endErase s o b).keeps⟩
  | writePartDone b => exact ⟨_, rfl, (Kept.endOf s _ _ fun o => Kept.endWrite s o b).keeps⟩
  | sealSlotDone b => exact ⟨_, rfl, (Kept.endOf s _ _ fun o => Kept.endSeal s o b).keeps⟩
  | eraseLibraryDone failed => exact ⟨_, rfl, (Kept.endOf s _ _ fun o => Kept.endEraseLibrary s o failed).keeps⟩
  | closeEditWriteDone b => exact ⟨_, rfl, (Kept.endOf s _ _ fun o => Kept.endClose s o b).keeps⟩
  | uptimeTick => exact ⟨_, rfl, Keeps.second s⟩
  | pcpLenInvalid i len => exact ⟨_, rfl, Keeps.setPort s i _ .inl id⟩
  | _ => exact exec_keeps_of_frame rfl

/-! ### A step -/

theorem step_idle {s : State} (h : s.pending = []) : step s = .next s := by rw [step, h]

theorem step_front (c : Instr) (rest : List Instr) (s : State) :
    step { s with pending := c :: rest } = exec c { s with pending := rest } := rfl

/-- A step keeps what a command keeps on the state with the queue's rest; no invariant reads the queue. -/
theorem step_keeps {s t : State} (h : step s = .next t) : ∃ l, Keeps { s with pending := l } t := by
  cases hp : s.pending with
  | nil =>
    rw [step_idle hp] at h
    cases h
    exact ⟨s.pending, .refl s⟩
  | cons c rest =>
    obtain ⟨u, hu, hkeeps⟩ := exec_keeps c { s with pending := rest }
    have hstep : step s = exec c { s with pending := rest } := by rw [step, hp]
    rw [hstep, hu] at h
    cases h
    exact ⟨rest, hkeeps⟩

/-- Settles O54: the holder's presence is among what every step keeps (`step_keeps`). -/
theorem tokenHolderPresentKept : Obligations.TokenHolderPresentKept := by
  intro s t hs h
  obtain ⟨_, hkeeps⟩ := step_keeps h
  exact hkeeps.tok hs

/-- Settles O55: every port's consistency is among what every step keeps (`step_keeps`). -/
theorem portsOkKept : Obligations.PortsOkKept := by
  intro s t hs h
  obtain ⟨_, hkeeps⟩ := step_keeps h
  exact hkeeps.ports hs

/-- Settles O56: the three queues' distinctness is among what every step keeps (`step_keeps`). -/
theorem queuesDistinctKept : Obligations.QueuesDistinctKept := by
  intro s t hc hq hb h
  obtain ⟨_, hkeeps⟩ := step_keeps h
  exact hkeeps.queues ⟨hc, hq, hb⟩

/-- Settles O57: the four bounds are among what every step keeps (`step_keeps`). -/
theorem boundsKept : Obligations.BoundsKept := by
  intro s t hstack hrow huptime htables h
  obtain ⟨_, hkeeps⟩ := step_keeps h
  exact hkeeps.bounds ⟨hstack, hrow, huptime, htables⟩

/-- Settles O58: the governing index is among what every step keeps (`step_keeps`). -/
theorem governingKept : Obligations.GoverningKept := by
  intro s t hs h
  obtain ⟨_, hkeeps⟩ := step_keeps h
  exact hkeeps.governing hs

/-- Settles O59: the start slots are among what every step keeps, with the bank numbers distinct. -/
theorem startSlotsKept : Obligations.StartSlotsKept := by
  intro s t hb hs h
  obtain ⟨_, hkeeps⟩ := step_keeps h
  exact (hkeeps.slots ⟨hb, hs⟩).2

/-- Settles O2: the queue is among what every command keeps. -/
theorem commandsAnswerAndKeepQueue : Obligations.CommandsAnswerAndKeepQueue := by
  intro c s
  obtain ⟨t, ht, hkeeps⟩ := exec_keeps c s
  exact ⟨t, ht, hkeeps.pend⟩

/-- Settles O1: by the two equations of a step, with a command waiting and without. -/
theorem stepRunsFront : Obligations.StepRunsFront := ⟨step_front, fun _ => step_idle⟩

/-! ### The state after reset -/

theorem Port.ok_afterReset : Port.afterReset.ok :=
  ⟨rfl, fun _ he => absurd he List.not_mem_nil, Nat.zero_le 4, fun _ => ⟨rfl, rfl⟩⟩

theorem State.reset_port (i : PortId) : State.reset.port i = .afterReset := by cases i <;> rfl

/-- Settles O60: at reset the queues and the bank table are empty, so nothing is there to repeat or to fit. -/
theorem invariantsAtReset : Obligations.InvariantsAtReset := by
  refine ⟨fun _ h => (nomatch h), fun i => ?_, List.nodup_nil, List.nodup_nil, List.nodup_nil, Nat.zero_le 8, Nat.zero_le 4, Nat.zero_le _, ⟨rfl, rfl⟩, rfl, ?_⟩
  · rw [State.reset_port]
    exact Port.ok_afterReset
  · exact ⟨List.nodup_nil, fun n => ⟨fun h => absurd h List.not_mem_nil, fun ⟨_, h⟩ => absurd h List.not_mem_nil⟩, fun _ h => (nomatch h),
      fun _ _ h => absurd h List.not_mem_nil⟩

/-- Settles O3: each register is the reset value as defined. -/
theorem resetValues : Obligations.ResetValues :=
  ⟨rfl, rfl, fun i => by rw [State.reset_port]; exact ⟨rfl, rfl, rfl, rfl, rfl, rfl, rfl⟩, rfl, rfl, rfl, rfl, rfl, rfl, rfl, rfl⟩

end Sys2Proof.Machine
end

section
/-! The second's tick, the end of a port's presence, and the service of a BUSY port (R152 to R155, R161, R202). -/

namespace Sys2Proof.Machine

open Sys2Proof

/-! ### A second -/

theorem Bank.tick_held (held : Bool) (b : Bank) :
    b.tick (!held) = { b with coast := b.coast.tick, start := if held then b.start else b.start.tick } := by
  cases held <;> rfl

/-- Settles O5: the model's tick of a bank is the one written out in the statement. -/
theorem secondPasses : Obligations.SecondPasses := by
  intro s
  have hbanks : s.banks.map (Bank.tick (!s.fl.enumeration.holdsLine)) = s.banks.map (fun b =>
      { b with coast := b.coast.tick, start := if s.fl.enumeration.holdsLine then b.start else b.start.tick }) :=
    List.map_congr_left fun b _ => Bank.tick_held _ b
  change Host.Outcome.next s.second = _
  rw [State.second, hbanks]
  rfl

/-! ### A port after a break -/

theorem Port.broken_none (q : Port) : q.broken none = .afterReset := rfl

theorem Port.broken_response {q : Port} {r : Response} (h : q.response = some r) :
    q.broken (some 0) = { Port.afterReset with service := .busy, response := some r } := by
  simp [Port.broken, Port.beingSent, h, Port.afterReset]

theorem Port.broken_refusal {q : Port} {k : Nat} {tag : Byte} (h : q.waiting[k]? = some tag) :
    q.broken (some (k + 1)) = { Port.afterReset with service := .busy, response := some (portBusyResponse tag) } := by
  simp [Port.broken, Port.beingSent, h, Port.afterReset]

/-! ### The token at the end of presence -/

theorem State.lapseToken_other {s : State} {i : PortId} (h : s.token ≠ some i) (c : TokenCause) : s.lapseToken i c = s := if_neg h

theorem State.lapseToken_holder {s : State} {i : PortId} (h : s.token = some i) (c : TokenCause) :
    s.lapseToken i c = s.changeToken none c := if_pos h

/-- A holder's token lapses through the library's frame, with the token vacant. -/
theorem LibFrame.lapseToken {s : State} {i : PortId} (h : s.token = some i) (c : TokenCause) :
    LibFrame { s with token := none } (s.lapseToken i c) := by
  rw [State.lapseToken_holder h]
  exact LibFrame.changeToken s none c

theorem LibFrame.units {s t : State} (h : LibFrame s t) : t.fl.units = s.fl.units := by rw [h.line]

theorem exec_portBreak_none (s : State) (i : PortId) :
    exec (.portBreak i none) s = .next ((s.lapseToken i .broken).setPort i .afterReset) := by
  change Host.Outcome.next (State.setPort _ i (Port.broken _ (if _ then none else none))) = _
  rw [ite_self, Port.broken_none]

theorem exec_portBreak_sending {s : State} {i : PortId} (ht : s.token ≠ some i) (hbusy : (s.port i).service = .busy) (k : Nat) :
    exec (.portBreak i (some k)) s = .next (s.setPort i ((s.port i).broken (some k))) := by
  change Host.Outcome.next ((s.lapseToken i .broken).setPort i
    (((s.lapseToken i .broken).port i).broken (if ((s.lapseToken i .broken).port i).service = .busy then some k else none))) = _
  rw [State.lapseToken_other ht, if_pos hbusy]

theorem exec_portSilenceExpiry {s : State} {i : PortId} {n : Nat} (h : (s.port i).silence = .running n) :
    exec (.portSilenceExpiry i) s =
      .next ((s.setPort i { s.port i with present := false, silence := .stopped }).lapseToken i .lapsed) := by
  have hrunning : (s.port i).silence.isRunning = true := by rw [h]; rfl
  exact congrArg Host.Outcome.next (if_pos hrunning)

/-- Settles O6: a port that does not hold the token is cleared alone; the holder's token lapses through the library's frame. -/
theorem presenceLost : Obligations.PresenceLost := by
  intro s i
  refine ⟨fun ht => ⟨?broken, ?response, ?refusal, ?silent⟩, ?holderSilent, ?holderBroken⟩
  case broken => rw [exec_portBreak_none, State.lapseToken_other ht]
  case response =>
    intro r hbusy hr
    rw [exec_portBreak_sending ht hbusy, Port.broken_response hr]
  case refusal =>
    intro k tag hbusy hk
    rw [exec_portBreak_sending ht hbusy, Port.broken_refusal hk]
  case silent =>
    intro n hn
    rw [exec_portSilenceExpiry hn, State.lapseToken_other (by exact ht)]
  case holderSilent =>
    intro n ht hn
    have hlapse := LibFrame.lapseToken (s := s.setPort i { s.port i with present := false, silence := .stopped }) ht .lapsed
    have hport := hlapse.ports i
    refine ⟨_, exec_portSilenceExpiry hn, hlapse.token, ?_, ?_, hlapse.inc, hlapse.trains, hlapse.units⟩
    · rw [hport.present]
      exact congrArg Port.present (State.port_setPort_same s i _)
    · rw [hport.silence]
      exact congrArg Port.silence (State.port_setPort_same s i _)
  case holderBroken =>
    intro ht
    have hlapse := LibFrame.lapseToken ht .broken
    exact ⟨_, exec_portBreak_none s i, hlapse.token, State.port_setPort_same _ i _, hlapse.inc, hlapse.trains, hlapse.units⟩

/-! ### A BUSY port -/

theorem State.heard_port_same (s : State) (i : PortId) :
    (s.heard i).port i = { s.port i with receive := .hunting, present := true, silence := .running s.silenceLimit } :=
  State.port_setPort_same s i _

theorem Port.addWaiting_eq (q : Port) (tag : Byte) :
    q.addWaiting tag = { q with waiting := if q.waiting.length < 4 then q.waiting ++ [tag] else q.waiting } := by
  unfold Port.addWaiting
  split <;> rfl

/-- Settles O8: both commands take their branch for a BUSY port. -/
theorem busyPortRefuses : Obligations.BusyPortRefuses := by
  intro s i tag hbusy
  constructor
  · change Host.Outcome.next (if (s.port i).service = .busy then (s.heard i).setPort i (((s.heard i).port i).addWaiting tag) else s) = _
    rw [if_pos hbusy, Port.addWaiting_eq, State.heard_port_same, State.heard, State.setPort_setPort]
  · change Host.Outcome.next (if (s.port i).service = .busy then _ else s) = _
    rw [if_pos hbusy]

end Sys2Proof.Machine
end

section
/-! Requests, taken through one equation each: the malformed ones, those without the token, and those that only read (R151, R156, R186, R188). -/

namespace Sys2Proof.Machine

open Sys2Proof

/-! ### A command that is a request -/

section Request
variable {s t : State} {i : PortId} {tag : Byte} {c : Instr} {level : Level} {ok : Bool} {body : State → State × Answer} {a : Answer}

theorem exec_request_badFormat (hc : exec c s = .next (s.request i tag level ok body)) (hready : s.Ready i) (hok : ok = false) :
    exec c s = .next (s.answered i tag (refuse .refusedFormat)) := by
  rw [hc, hok, State.request_badFormat hready]

theorem exec_request_noToken (hc : exec c s = .next (s.request i tag .command true body)) (hready : s.Ready i)
    (ht : s.token ≠ some i) : exec c s = .next (s.answered i tag (refuse .refusedAuthority)) := by
  rw [hc, State.request_noToken hready ht]

theorem exec_request_free (hc : exec c s = .next (s.request i tag level true body)) (hready : s.Ready i) (hl : level ≠ .command)
    (hwork : body (s.taking i) = (t, a)) : exec c s = .next (t.respond i tag a) := by
  rw [hc, State.request_free hready tag hl, hwork]

theorem exec_request_holder (hc : exec c s = .next (s.request i tag .command true body)) (hready : s.Ready i)
    (ht : s.token = some i) (hwork : body (s.taking i) = (t, a)) : exec c s = .next (t.respond i tag a) := by
  rw [hc, State.request_holder hready ht, hwork]

/-- A request that only reads is answered from the state as taken. -/
theorem exec_request_reads {answer : State → Answer} (hc : exec c s = .next (s.readRequest i tag true answer)) (hready : s.Ready i)
    (ha : answer (s.taking i) = a) : exec c s = .next (s.answered i tag a) :=
  exec_request_free hc hready (by decide) (by rw [ha])

end Request

/-! ### Lengths -/

theorem lengthIs_eq_false {ops : List Byte} {n : Nat} (h : ops.length ≠ n) : lengthIs ops n = false := beq_eq_false_iff_ne.mpr h

theorem lengthEither_eq_false {ops : List Byte} {n m : Nat} (h : ops.length ≠ n ∧ ops.length ≠ m) : lengthEither ops n m = false := by
  simp [lengthEither, h]

theorem writePartFormat_eq_false {ops : List Byte} (h : ops.length ≠ if getU8 ops 1 = 0 then 82 else 72) :
    writePartFormat ops = false := by
  rw [writePartFormat, beq_eq_false_iff_ne.mpr h, Bool.and_false]

theorem writeSitePartFormat_eq_false {ops : List Byte}
    (h : ops = [] ∨ getU8 ops 0 ≤ 8 ∧ ops.length ≠ 1 + siteLengths.getD (getU8 ops 0) 0) : writeSitePartFormat ops = false := by
  obtain rfl | ⟨hpart, hlen⟩ := h
  · rfl
  · rw [writeSitePartFormat, beq_eq_false_iff_ne.mpr hlen, decide_eq_false (Nat.not_lt.mpr hpart), Bool.or_false, Bool.and_false]

/-- Settles O10: every request of a kind of operands fails the same format test. -/
theorem malformedRequestsRefused : Obligations.MalformedRequestsRefused := by
  intro s i tag code ops w e c hready
  refine ⟨fun hcode => ?unknown, ?known⟩
  case unknown =>
    change Host.Outcome.next (if requestCodes.contains code.toNat then s else _) = _
    rw [hcode, if_neg Bool.false_ne_true, State.request_free hready tag (by decide)]
    rfl
  case known =>
    simp only [List.mem_cons, List.not_mem_nil, or_false]
    rintro r (⟨hlen, hr⟩ | ⟨hlen, hr⟩ | ⟨hlen, hr⟩ | ⟨hlen, hr⟩ | ⟨hlen, rfl⟩ | ⟨hlen, rfl⟩ | ⟨hlen, hr⟩ | ⟨hlen, rfl⟩ | ⟨hlen, rfl⟩ |
      ⟨hlen, rfl⟩)
    · obtain rfl | rfl | rfl | rfl | rfl | rfl | rfl | rfl | rfl | rfl | rfl | rfl | rfl | rfl | rfl | rfl | rfl | rfl | rfl | rfl := hr
      all_goals exact exec_request_badFormat rfl hready (lengthIs_eq_false hlen)
    · obtain rfl | rfl | rfl | rfl | rfl | rfl | rfl := hr
      all_goals exact exec_request_badFormat rfl hready (lengthIs_eq_false hlen)
    · obtain rfl | rfl | rfl | rfl := hr
      all_goals exact exec_request_badFormat rfl hready (lengthIs_eq_false hlen)
    · obtain rfl | rfl | rfl := hr
      all_goals exact exec_request_badFormat rfl hready (lengthIs_eq_false hlen)
    · exact exec_request_badFormat rfl hready (lengthIs_eq_false hlen)
    · exact exec_request_badFormat rfl hready (lengthIs_eq_false hlen)
    · obtain rfl | rfl := hr
      all_goals exact exec_request_badFormat rfl hready (lengthEither_eq_false hlen)
    · exact exec_request_badFormat rfl hready (lengthEither_eq_false hlen)
    · exact exec_request_badFormat rfl hready (writePartFormat_eq_false hlen)
    · exact exec_request_badFormat rfl hready (writeSitePartFormat_eq_false hlen)

/-! ### Authority -/

theorem writePartFormat_cons {x y : Byte} {content : List Byte} (h : content.length = if y.toNat = 0 then 80 else 70) :
    writePartFormat (x :: y :: content) = true := by
  have hpart : getU8 (x :: y :: content) 1 = y.toNat := rfl
  rw [writePartFormat, hpart, List.length_cons, List.length_cons, h]
  split <;> rfl

theorem writeSitePartFormat_cons {p : Byte} {content : List Byte} (h : content.length = siteLengths.getD p.toNat 0) :
    writeSitePartFormat (p :: content) = true := by
  have hpart : getU8 (p :: content) 0 = p.toNat := rfl
  rw [writeSitePartFormat, hpart, List.length_cons, h, Nat.add_comm 1, beq_self_eq_true, Bool.or_true, Bool.and_true]
  exact decide_eq_true (Nat.le_add_left 1 _)

/-- Settles O11: each request is one of COMMAND level, refused without the token once its length passes. -/
theorem commandLevelNeedsToken : Obligations.CommandLevelNeedsToken := by
  intro s i tag x y c hready ht
  refine ⟨?plain, fun content hlen => ?part, fun content _ hlen => ?sitePart⟩
  case plain =>
    simp only [List.mem_cons, List.not_mem_nil, or_false]
    rintro r (rfl | rfl | rfl | rfl | rfl | rfl | rfl | rfl | rfl | rfl | rfl | rfl | rfl | rfl | rfl | rfl)
    all_goals exact exec_request_noToken rfl hready ht
  case part =>
    have hformat : exec (.writePart i tag (x :: y :: content)) s = .next (s.request i tag .command true _) :=
      congrArg (fun ok => Host.Outcome.next (s.request i tag .command ok _)) (writePartFormat_cons hlen)
    exact exec_request_noToken hformat hready ht
  case sitePart =>
    have hformat : exec (.writeSitePart i tag (x :: content)) s = .next (s.request i tag .command true _) :=
      congrArg (fun ok => Host.Outcome.next (s.request i tag .command ok _)) (writeSitePartFormat_cons hlen)
    exact exec_request_noToken hformat hready ht

/-! ### READ_BANKS and READ_SLOT by their operands -/

section Answers
variable (s : State)

theorem State.banksAnswer_unconfigured (h : s.eng.state = .unconfigured) (n : Nat) : s.banksAnswer (some n) = refuse .refusedState :=
  if_pos h

theorem State.banksAnswer_unlisted {n : Nat} (h : s.eng.state ≠ .unconfigured) (hb : s.bank n = none) :
    s.banksAnswer (some n) = refuse .refusedRange := by
  simp only [State.banksAnswer, if_neg h, hb]

theorem State.banksAnswer_listed {n : Nat} {b : Bank} (h : s.eng.state ≠ .unconfigured) (hb : s.bank n = some b) :
    s.banksAnswer (some n) = done (u32 s.uptime ++ counted s.bankBytes [b]) := by
  simp only [State.banksAnswer, if_neg h, hb]

theorem State.slotAnswer_noSlot {n : Nat} (h : 16 < n) (part : Option Nat) : s.slotAnswer n part = refuse .refusedRange :=
  if_pos (.inl h)

theorem State.slotAnswer_noPart {n k : Nat} (h : (if n = 0 then 8 else 32) < k) : s.slotAnswer n (some k) = refuse .refusedRange :=
  if_pos (.inr (decide_eq_true h))

/-- A part of the site record that is one of its nine. -/
theorem State.slotAnswer_site {k : Nat} (h : k ≤ 8) : s.slotAnswer 0 (some k) = s.sitePartRead k := by
  have hrange : ¬ (16 < 0 ∨ (some k).any (fun k => decide ((if 0 = 0 then 8 else 32) < k)) = true) := by
    simp only [Option.any_some, if_true, decide_eq_true_eq]
    omega
  exact if_neg hrange

/-- A part of a plan slot that is one of its 33. -/
theorem State.slotAnswer_part {n k : Nat} (h1 : 1 ≤ n) (h16 : n ≤ 16) (h : k ≤ 32) :
    s.slotAnswer n (some k) =
      if s.lib.nv.lock then refuse .refusedLocked
      else if (s.slot n).state = .invalid then refuse .refusedState
      else
        match (s.slot n).part k with
        | some l => done l
        | none => refuse .refusedState := by
  have hn : n ≠ 0 := by omega
  have hrange : ¬ (16 < n ∨ (some k).any (fun k => decide ((if n = 0 then 8 else 32) < k)) = true) := by
    simp only [Option.any_some, if_neg hn, decide_eq_true_eq]
    omega
  exact (if_neg hrange).trans (if_neg hn)

end Answers

/-- Settles O12: each READ request is one answer of the state as taken, and no answer reads the port. -/
theorem readsChangeNothing : Obligations.ReadsChangeNothing := by
  intro s i tag n k w e hready
  have hslot (l : List Byte) (a : Answer) (hl : lengthEither (n :: l) 1 2 = true)
      (ha : s.slotAnswer n.toNat (optionalOperand l) = a) : exec (.readSlot i tag (n :: l)) s = .next (s.answered i tag a) :=
    exec_request_reads (answer := fun t => t.slotAnswer n.toNat (optionalOperand l))
      (congrArg (fun ok => Host.Outcome.next (s.readRequest i tag ok _)) hl) hready ha
  refine ⟨exec_request_reads rfl hready rfl, exec_request_reads rfl hready rfl, exec_request_reads rfl hready rfl,
    exec_request_reads rfl hready rfl, exec_request_reads rfl hready rfl, exec_request_reads rfl hready rfl,
    exec_request_reads rfl hready rfl, exec_request_reads rfl hready rfl, exec_request_reads rfl hready rfl,
    exec_request_reads rfl hready rfl, ?unconfigured, ?bank, hslot [] _ rfl rfl, hslot [k] _ rfl rfl, ?noSlot, ?noPart, ?part,
    ?sitePart, ?ports⟩
  case unconfigured => exact fun h => exec_request_reads rfl hready (State.banksAnswer_unconfigured (s.taking i) h n.toNat)
  case bank =>
    exact fun h => ⟨fun hb => exec_request_reads rfl hready (State.banksAnswer_unlisted (s.taking i) h hb),
      fun b hb => exec_request_reads rfl hready (State.banksAnswer_listed (s.taking i) h hb)⟩
  case noSlot => exact fun h => hslot [] _ rfl (s.slotAnswer_noSlot h none)
  case noPart =>
    rintro (h | ⟨hn, hk⟩ | ⟨hn, hk⟩)
    · exact hslot [k] _ rfl (s.slotAnswer_noSlot h _)
    · exact hslot [k] _ rfl (s.slotAnswer_noPart (by rw [if_neg (by omega)]; exact hk))
    · exact hslot [k] _ rfl (s.slotAnswer_noPart (by rw [if_pos hn]; exact hk))
  case part =>
    intro h1 h16 hk
    have hpart := s.slotAnswer_part h1 h16 hk
    refine ⟨fun hlock => hslot [k] _ rfl (hpart.trans (if_pos hlock)), fun hlock => ⟨?_, fun l hvalid hl => ?_⟩⟩
    · intro h
      refine hslot [k] _ rfl (hpart.trans ?_)
      rw [hlock, if_neg Bool.false_ne_true]
      obtain hinvalid | hnone := h
      · rw [if_pos hinvalid]
      · rw [hnone, ite_self]
    · refine hslot [k] _ rfl (hpart.trans ?_)
      rw [hlock, if_neg Bool.false_ne_true, if_neg hvalid, hl]
  case sitePart =>
    intro hn hk
    have hsite : s.slotAnswer n.toNat (some k.toNat) = s.sitePartRead k.toNat := by rw [hn, s.slotAnswer_site hk]
    refine ⟨fun r hr => ?_, fun u hr hu => ?_, fun hr hu => ?_⟩
    · exact hslot [k] _ rfl (hsite.trans (by simp only [State.sitePartRead, hr]))
    · exact hslot [k] _ rfl (hsite.trans (by simp only [State.sitePartRead, hr, hu]))
    · exact hslot [k] _ rfl (hsite.trans (by simp only [State.sitePartRead, hr, hu]))
  case ports => exact exec_request_free rfl hready (by decide) rfl

end Sys2Proof.Machine
end

section
/-! The claims of the token, notice sets and masks (R158, R166 to R172). -/

namespace Sys2Proof.Machine

open Sys2Proof

/-! ### CLAIM (R158) -/

section Claim
variable {s : State} {i h : PortId} {key : Bool}

/-- The state in which CLAIM is decided: the claimant's key level noted as sampled (R159). -/
def State.sampled (s : State) (i : PortId) (key : Bool) : State := { s with keys := s.keys.sample i key }

theorem State.claim_vacant (ht : s.token = none) :
    State.claim i key s = ((s.sampled i key).changeToken (some i) .claimed, done (u8 i.code)) := by
  have hclaim : State.claim i key s =
      ((s.sampled i key).changeToken (some i) .claimed, done ((s.sampled i key).changeToken (some i) .claimed).holderResult) := by
    simp only [State.claim, ht]
    rfl
  rw [hclaim, State.holderResult_changeToken]
  rfl

theorem State.claim_held (ht : s.token = some i) : State.claim i key s = (s.sampled i key, done (u8 i.code)) := by
  simp only [State.claim, State.sampled, ht, if_true]
  rfl

theorem State.claim_seizes (ht : s.token = some h) (hi : h ≠ i) (hseize : (i.isPortal && key && !h.isPortal) = true) :
    State.claim i key s = ((s.sampled i key).changeToken (some i) .seized, done (u8 i.code)) := by
  have hclaim : State.claim i key s =
      ((s.sampled i key).changeToken (some i) .seized, done ((s.sampled i key).changeToken (some i) .seized).holderResult) := by
    simp only [State.claim, ht, if_neg hi, hseize, if_true]
    rfl
  rw [hclaim, State.holderResult_changeToken]
  rfl

theorem State.claim_refused (ht : s.token = some h) (hi : h ≠ i) (hseize : (i.isPortal && key && !h.isPortal) = false) :
    State.claim i key s = (s.sampled i key, { completion := .refusedState, result := some (u8 h.code) }) := by
  simp only [State.claim, State.sampled, ht, if_neg hi, hseize, Bool.false_eq_true, if_false]
  rfl

end Claim

/-- Settles O41: one row of R158 for each conjunct, in the state in which the owning block works. -/
theorem claimTable : Obligations.ClaimTable := by
  rintro s u i h tag key hready rfl
  refine ⟨fun ht => ⟨?vacant, State.changeToken_token _ _ _⟩, fun ht => ⟨?held, ht⟩,
    fun ht hi hportal hkey hcentre => ⟨?seized, State.changeToken_token _ _ _⟩, fun ht hi hseize => ⟨?refused, ht⟩⟩
  case vacant => exact exec_request_free rfl hready (by decide) (State.claim_vacant (s := s.taking i) ht)
  case held => exact exec_request_free rfl hready (by decide) (State.claim_held (s := s.taking i) ht)
  case seized =>
    refine exec_request_free rfl hready (by decide) (State.claim_seizes (s := s.taking i) ht hi ?_)
    rw [hportal, hkey, hcentre]
    rfl
  case refused => exact exec_request_free rfl hready (by decide) (State.claim_refused (s := s.taking i) ht hi hseize)

/-! ### A notice offered to a port (R166, R167) -/

section Offers
variable {q : Port} {n : Notice}

theorem Port.offer_masked (h : q.mask.contains n.kind = true) (now : Nat) : q.offer n now = q := if_pos h

theorem Port.offer_unmasked (h : q.mask.contains n.kind = false) (now : Nat) :
    q.offer n now = { q with notices := enterNotice n now q.notices } := by
  rw [Port.offer, h, if_neg Bool.false_ne_true]

theorem Port.offer_eq (q : Port) (n : Notice) (now : Nat) : q.offer n now = { q with notices := (q.offer n now).notices } := by
  unfold Port.offer
  split <;> rfl

end Offers

theorem State.port_raiseTo_same (s : State) (i : PortId) (n : Notice) : (s.raiseTo i n).port i = (s.port i).offer n s.uptime :=
  State.port_setPort_same s i _

theorem Port.attention_of_notices {q : Port} (h : q.notices ≠ []) : q.attention = true := by
  simp [Port.attention, h]

/-! ### The notices of LINE_FAULT and of a slot's erasure -/

theorem State.ports_settleFreeze (s : State) : s.settleFreeze.ports = s.ports := by
  unfold State.settleFreeze
  split <;> rfl

theorem State.ports_matcherTakesCondition (s : State) (c : LineCondition) : (s.matcherTakesCondition c).ports = s.ports := by
  unfold State.matcherTakesCondition
  dsimp only
  split
  · exact State.ports_settleFreeze _
  · rfl

/-- A change to FAULT raises DETECTION_FAULT with its break chainage, and the matcher raises nothing. -/
theorem State.ports_setCondition_fault {s : State} (h : s.det.condition ≠ .fault) (brk : Option Nat) :
    (s.setCondition .fault brk).ports = (s.raise (.detectionFault .fault brk)).ports := by
  rw [State.setCondition, if_neg h, State.ports_matcherTakesCondition]
  rfl

theorem State.inFlightOf_some {s : State} {o : InFlight} {k : OperationKind} (h : s.lib.inFlight = some o) (hk : o.kind = k) :
    s.inFlightOf k = some o := by
  rw [State.inFlightOf, h]
  exact if_pos (decide_eq_true hk)

theorem State.endOf_some {s : State} {o : InFlight} {k : OperationKind} (h : s.lib.inFlight = some o) (hk : o.kind = k)
    (f : State → InFlight → State) : s.endOf k f = f s o := by
  rw [State.endOf, State.inFlightOf_some h hk]

/-- In EDIT the end of a slot operation writes the record and clears the marker, and installs no plan. -/
theorem State.endOperation_edit {s : State} (h : s.lib.mode = .edit) (o : InFlight) (a : Nat) (r : OperationResult) (d e : Nat) :
    s.endOperation o a r d e = s.clearMarker.recordOperation o.kind a o.subjB r d e o.initiator := by
  have hmode : (s.clearMarker.recordOperation o.kind a o.subjB r d e o.initiator).lib.mode = .edit := h
  rw [State.endOperation]
  exact if_neg (by rw [hmode]; decide)

/-- Settles O43: an offer enters the set as `find_enterNotice` says, and the two commands raise their notice once. -/
theorem noticesEnterSets : Obligations.NoticesEnterSets := by
  refine ⟨fun s n i hports => ?raised, fun s c hfault => ?lineFault, fun s o ho hkind hmode => ?erased⟩
  case raised =>
    obtain ⟨hrise, -⟩ := hports i
    obtain ⟨hnew, hold, hother, hne⟩ := find_enterNotice n s.uptime _ hrise
    refine ⟨rfl, ?_, fun hmask => ?_, fun hmask => ?_, ?_, fun j hj => State.port_setPort_other s i j _ hj⟩
    · rw [State.port_raise]
      exact Port.offer_eq _ _ _
    · rw [State.port_raise, Port.offer_masked hmask]
    · rw [State.port_raise, Port.offer_unmasked hmask]
      exact ⟨hnew, hold, hother, Port.attention_of_notices hne⟩
    · rw [State.port_raise, State.port_raiseTo_same]
  case lineFault => exact ⟨_, rfl, State.ports_setCondition_fault (s := s.detectionHeard) hfault _⟩
  case erased =>
    refine ⟨s.endErase o true, congrArg Host.Outcome.next (State.endOf_some ho hkind _), ?_⟩
    have hend : s.endErase o true = (s.setSlot o.subjA .blank).endOperation o o.subjA .done 0 0 := if_pos rfl
    rw [hend, State.endOperation_edit (by exact hmode), hkind]
    rfl

/-! ### ACK_NOTICES and SET_NOTICE_MASK (R171, R172) -/

/-- The site's silence limit is no part of a port, so the set and the mask written after the taking are those written before it. -/
theorem State.taking_written (s : State) (i : PortId) (l : List NoticeEntry) (m : List Nat) :
    (s.taking i).setPort i { (s.taking i).port i with notices := l, mask := m } =
      (s.setPort i { s.port i with notices := l, mask := m }).taking i := by
  have hlimit : (s.setPort i { s.port i with notices := l, mask := m }).silenceLimit = s.silenceLimit := rfl
  rw [State.taking_port_same, State.taking, State.taking, State.setPort_setPort, State.setPort_setPort, State.port_setPort_same, hlimit]

theorem State.taking_notices (s : State) (i : PortId) : ((s.taking i).port i).notices = (s.port i).notices := by
  rw [State.taking_port_same]

section Kinds
variable (s : State) (i : PortId) {v : Nat}

theorem kindSetOk_of_lt (hv : v < 2 ^ 17) : kindSetOk v = true := decide_eq_true hv

theorem State.acknowledge_taking (hv : v < 2 ^ 17) :
    State.acknowledge i v (s.taking i) =
      ((s.setPort i { s.port i with notices := unnamedEntries (kindsOfSet v) (s.port i).notices }).taking i,
        done (kindsResult (unnamedEntries (kindsOfSet v) (s.port i).notices))) := by
  have hwritten := State.taking_written s i (unnamedEntries (kindsOfSet v) (s.port i).notices) (s.port i).mask
  have hmask : (s.port i).mask = ((s.taking i).port i).mask := by rw [State.taking_port_same]
  rw [State.acknowledge, if_pos (kindSetOk_of_lt hv), State.taking_notices, ← hwritten, hmask]

theorem State.setMask_taking (hv : v < 2 ^ 17) :
    State.setMask i v (s.taking i) =
      ((s.setPort i
          { s.port i with mask := kindsOfSet v, notices := unnamedEntries (kindsOfSet v) (s.port i).notices }).taking i,
        done (u24 (setOfKinds (kindsOfSet v)) ++ kindsResult (namedEntries (kindsOfSet v) (s.port i).notices))) := by
  have hwritten := State.taking_written s i (unnamedEntries (kindsOfSet v) (s.port i).notices) (kindsOfSet v)
  rw [← hwritten, ← State.taking_notices s i]
  exact if_pos (kindSetOk_of_lt hv)

theorem State.acknowledge_outOfRange (hv : 2 ^ 17 ≤ v) : State.acknowledge i v s = (s, refuse .refusedRange) := by
  rw [State.acknowledge, kindSetOk, decide_eq_false (Nat.not_lt.mpr hv), if_neg Bool.false_ne_true]

theorem State.setMask_outOfRange (hv : 2 ^ 17 ≤ v) : State.setMask i v s = (s, refuse .refusedRange) := by
  rw [State.setMask, kindSetOk, decide_eq_false (Nat.not_lt.mpr hv), if_neg Bool.false_ne_true]

end Kinds

/-- Settles O45: each request is answered from what its work does to the port as taken. -/
theorem ackAndMaskNotices : Obligations.AckAndMaskNotices := by
  intro s i tag x y z hready
  refine ⟨fun hv => ⟨?ack, ?mask⟩, fun hv => ⟨?ackRange, ?maskRange⟩⟩
  case ack => exact exec_request_free rfl hready (by decide) (s.acknowledge_taking i hv)
  case mask => exact exec_request_free rfl hready (by decide) (s.setMask_taking i hv)
  case ackRange => exact exec_request_free rfl hready (by decide) ((s.taking i).acknowledge_outOfRange i hv)
  case maskRange => exact exec_request_free rfl hready (by decide) ((s.taking i).setMask_outOfRange i hv)

end Sys2Proof.Machine
end

section
/-! The requests that own a register of their own: plan references (R26 to R29), the occupancy list (R59, R60), and the staged record (R176, R177). -/

namespace Sys2Proof.Machine

open Sys2Proof

/-- What a port has in hand once a request is answered. -/
theorem State.respond_response (s : State) (i : PortId) (tag : Byte) (a : Answer) :
    ((s.respond i tag a).port i).response = some { tag := tag, completion := a.completion, result := a.result } := by
  rw [State.respond, State.port_setPort_same]

theorem State.respond_response_done (s : State) (i : PortId) (tag : Byte) {l m : List Byte} (h : l = m) :
    ((s.respond i tag (done l)).port i).response = some { tag := tag, completion := .done, result := some m } := by
  rw [State.respond_response, h]
  rfl

/-! ### Plan references -/

theorem State.setActive_plans (s : State) (p : Option Nat) : (s.setActive p).plans = { s.plans with active := p } :=
  (Frame.setActive s p).plans

theorem State.pushActive_plans {s : State} {a : Nat} (h : s.plans.active = some a) :
    s.pushActive.plans = { s.plans with stack := (a :: s.plans.stack).take 8 } := by
  simp only [State.pushActive, h]
  split <;> rfl

theorem State.stackResult_of_plans {s : State} {p : Nat} {l : List Nat} (h : s.plans = { active := some p, stack := l }) :
    s.stackResult = u8 p ++ u8 l.length := by
  rw [State.stackResult, h]
  rfl

section Plans
variable {s : State} {n p a : Nat} {ps : List Nat}

theorem State.selectPlan_sealed (h1 : 1 ≤ n) (h16 : n ≤ 16) (hmode : s.lib.mode = .service) (heng : s.eng.state ≠ .unconfigured)
    (hsealed : (s.slot n).state = .sealed) :
    State.selectPlan n s = (s.pushActive.setActive (some n), done (s.pushActive.setActive (some n)).stackResult) := by
  have hslot : slotOk n = true := by rw [slotOk, decide_eq_true h1, decide_eq_true h16]; rfl
  rw [State.selectPlan, hslot, Bool.not_true, if_neg Bool.false_ne_true, if_neg (not_not_intro hmode), if_neg heng,
    if_neg (not_not_intro hsealed)]

theorem State.revertPlan_empty (h : s.plans.stack = []) : s.revertPlan = (s, refuse .refusedState) := by
  simp only [State.revertPlan, h]

theorem State.revertPlan_pops (h : s.plans.stack = p :: ps) :
    s.revertPlan = ({ s with plans := { s.plans with stack := ps } }.setActive (some p),
      done ({ s with plans := { s.plans with stack := ps } }.setActive (some p)).stackResult) := by
  simp only [State.revertPlan, h]

theorem State.swapPlan_empty (h : s.plans.stack = []) : s.swapPlan = (s, refuse .refusedState) := by
  cases ha : s.plans.active <;> simp only [State.swapPlan, ha, h]

theorem State.swapPlan_noPlan (h : s.plans.active = none) : s.swapPlan = (s, refuse .refusedState) := by
  simp only [State.swapPlan, h]

theorem State.swapPlan_swaps (ha : s.plans.active = some a) (h : s.plans.stack = p :: ps) :
    s.swapPlan = ({ s with plans := { s.plans with stack := a :: ps } }.setActive (some p), doneBare) := by
  simp only [State.swapPlan, ha, h]

end Plans

/-- Settles O20: what each request does to the stack, and then the change of the active reference. -/
theorem planReferencesMove : Obligations.PlanReferencesMove := by
  refine ⟨?select, fun s i tag hready => ⟨?authority, ?emptyStack, ?noPlan, ?revert, ?swap⟩⟩
  case select =>
    intro s i tag n a hready ht h1 h16 hmode heng hsealed ha
    have hplans : ((s.taking i).pushActive.setActive (some n.toNat)).plans =
        { active := some n.toNat, stack := (a :: s.plans.stack).take 8 } := by
      rw [State.setActive_plans, State.pushActive_plans (s := s.taking i) ha]
      rfl
    refine ⟨_, exec_request_holder rfl hready ht (State.selectPlan_sealed (s := s.taking i) h1 h16 hmode heng hsealed), hplans,
      State.respond_response_done _ i tag (State.stackResult_of_plans hplans)⟩
  case authority => exact fun ht => ⟨exec_request_noToken rfl hready ht, exec_request_noToken rfl hready ht⟩
  case emptyStack =>
    exact fun ht h => ⟨exec_request_holder rfl hready ht (State.revertPlan_empty (s := s.taking i) h),
      exec_request_holder rfl hready ht (State.swapPlan_empty (s := s.taking i) h)⟩
  case noPlan => exact fun ht h => exec_request_holder rfl hready ht (State.swapPlan_noPlan (s := s.taking i) h)
  case revert =>
    intro p ps ht h
    have hplans : ({ s.taking i with plans := { s.plans with stack := ps } }.setActive (some p)).plans =
        { active := some p, stack := ps } := State.setActive_plans _ _
    refine ⟨_, exec_request_holder rfl hready ht (State.revertPlan_pops (s := s.taking i) h), hplans,
      State.respond_response_done _ i tag (State.stackResult_of_plans hplans)⟩
  case swap =>
    intro a p ps ht ha h
    refine ⟨_, exec_request_holder rfl hready ht (State.swapPlan_swaps (s := s.taking i) ha h), State.setActive_plans _ _, ?_⟩
    rw [State.respond_response]
    rfl

/-! ### The occupancy list -/

section Trains
variable {s : State} {k : Nat} {t : Train} {moving : Bool}

theorem trainOk_of_range {n : Nat} (h1 : 1 ≤ n) (h9999 : n ≤ 9999) : trainOk n = true := by
  rw [trainOk, decide_eq_true h1, decide_eq_true h9999]
  rfl

/-- A SET_TRAIN that passes its checks (R59). -/
theorem State.setTrain_checked {a b c d e f m : Byte} (heng : s.eng.state ≠ .unconfigured)
    (htrain : trainOk (a.toNat * 256 + b.toNat) = true) (hhead : c.toNat * 256 + d.toNat ≤ siteL s.site)
    (htail : e.toNat * 256 + f.toNat ≤ siteL s.site) (hm : movingOfCode m.toNat = some moving) :
    State.setTrain [a, b, c, d, e, f, m] s =
      s.recordTrain
        { number := a.toNat * 256 + b.toNat, head := c.toNat * 256 + d.toNat, tail := e.toNat * 256 + f.toNat, moving := moving } := by
  have hnumber : getU16 [a, b, c, d, e, f, m] 0 = a.toNat * 256 + b.toNat := rfl
  have hheadAt : getU16 [a, b, c, d, e, f, m] 2 = c.toNat * 256 + d.toNat := rfl
  have htailAt : getU16 [a, b, c, d, e, f, m] 4 = e.toNat * 256 + f.toNat := rfl
  have hmovingAt : getU8 [a, b, c, d, e, f, m] 6 = m.toNat := rfl
  have hrange : ¬ (siteL s.site < c.toNat * 256 + d.toNat ∨ siteL s.site < e.toNat * 256 + f.toNat) := by omega
  rw [State.setTrain, hnumber, hheadAt, htailAt, hmovingAt, if_neg heng, htrain, Bool.not_true, if_neg Bool.false_ne_true, if_neg hrange]
  simp only [hm]

theorem State.recordTrain_added (hslot : trainSlot s.eng.trains t.number = none)
    (hfree : s.eng.trains.findIdx? Option.isNone = some k) :
    s.recordTrain t = ((s.setTrains (s.eng.trains.set k (some t))).engineTakesOccupancy, done (u8 k ++ u8 1)) := by
  simp only [State.recordTrain, hslot, hfree]

/-- A listed train's own slot is written, whether or not the engine is told (R60). -/
theorem State.recordTrain_updated (hslot : trainSlot s.eng.trains t.number = some k) :
    ∃ u, s.recordTrain t = (u, done (u8 k ++ u8 2)) ∧ u.eng.trains = s.eng.trains.set k (some t) := by
  simp only [State.recordTrain, hslot]
  refine ⟨_, rfl, ?_⟩
  split
  · rfl
  · exact (Frame.engineTakesOccupancy _).trains

theorem State.removeTrain_listed {n : Nat} (htrain : trainOk n = true) (hslot : trainSlot s.eng.trains n = some k) :
    State.removeTrain n s = ((s.setTrains (s.eng.trains.set k none)).engineTakesOccupancy, done (u8 k)) := by
  rw [State.removeTrain, htrain, Bool.not_true, if_neg Bool.false_ne_true]
  simp only [hslot]

end Trains

/-- Settles O24: the slot taken, and then the occupancy handed on, which leaves the list as written. -/
theorem trainsRecorded : Obligations.TrainsRecorded := by
  intro s i tag a b c d e f m hready
  refine ⟨?added, ?updated, ?removed⟩
  case added =>
    intro k moving heng h1 h9999 hhead htail hm hslot hfree
    have hwork : State.setTrain [a, b, c, d, e, f, m] (s.taking i) = _ :=
      (State.setTrain_checked (s := s.taking i) heng (trainOk_of_range h1 h9999) hhead htail hm).trans
        (State.recordTrain_added hslot hfree)
    refine ⟨_, exec_request_free rfl hready (by decide) hwork, (Frame.engineTakesOccupancy _).trains, ?_⟩
    rw [State.respond_response]
    rfl
  case updated =>
    intro k moving heng h1 h9999 hhead htail hm hslot
    obtain ⟨u, hu, htrains⟩ := State.recordTrain_updated (s := s.taking i)
      (t := { number := a.toNat * 256 + b.toNat, head := c.toNat * 256 + d.toNat, tail := e.toNat * 256 + f.toNat, moving := moving }) hslot
    have hwork : State.setTrain [a, b, c, d, e, f, m] (s.taking i) = (u, done (u8 k ++ u8 2)) :=
      (State.setTrain_checked (s := s.taking i) heng (trainOk_of_range h1 h9999) hhead htail hm).trans hu
    refine ⟨_, exec_request_free rfl hready (by decide) hwork, htrains, ?_⟩
    rw [State.respond_response]
    rfl
  case removed =>
    intro k h1 h9999 hslot
    have hnumber : getU16 [a, b] 0 = a.toNat * 256 + b.toNat := rfl
    have hwork := State.removeTrain_listed (s := s.taking i) (trainOk_of_range h1 h9999) hslot
    rw [← hnumber] at hwork
    refine ⟨_, exec_request_free rfl hready (by decide) hwork, (Frame.engineTakesOccupancy _).trains, ?_⟩
    rw [State.respond_response]
    rfl

/-! ### The staged record -/

section Staging
variable {s : State} {i : PortId}

theorem State.openEdit_opens (hflight : s.lib.inFlight = none) (hmode : s.lib.mode = .service)
    (heng : s.eng.state = .quiet ∨ s.eng.state = .unconfigured) :
    State.openEdit i s =
      ({ s with
          lib := { s.lib with
            mode := .edit, opener := some i, abortCause := .none
            staged := some (match s.lib.inUse with | some r => r.parts | none => blankSiteRecord) }
          plans := { s.plans with stack := [] } }.setActive none,
        done (flag s.lib.inUse.isSome)) := by
  have hstate : ¬ (s.eng.state ≠ .quiet ∧ s.eng.state ≠ .unconfigured) := by
    rintro ⟨hquiet, hunconfigured⟩
    exact heng.elim hquiet hunconfigured
  have hidle : ¬ s.lib.inFlight.isSome = true := by rw [hflight]; decide
  rw [State.openEdit, if_neg hidle, if_neg (not_not_intro hmode)]
  exact if_neg hstate

theorem State.stagePart_staged {ops : List Byte} {r : List (List Byte)} (hmode : s.lib.mode = .edit) (hpart : getU8 ops 0 ≤ 8)
    (hr : s.lib.staged = some r) :
    State.stagePart ops s =
      ({ s with lib := { s.lib with staged := some (r.set (getU8 ops 0) (ops.drop 1)) } }, doneBare) := by
  rw [State.stagePart, if_neg (not_not_intro hmode), if_neg (Nat.not_lt.mpr hpart), hr]
  rfl

theorem State.lockReadback_sets (hmode : s.lib.mode = .edit) (hlock : s.lib.nv.lock = false) (compares : Bool) :
    State.lockReadback compares s =
      ({ s with lib := { s.lib with nv := { s.lib.nv with lock := true } } }, if compares then doneBare else done (u8 3)) := by
  rw [State.lockReadback, if_neg (not_not_intro hmode), hlock, if_neg Bool.false_ne_true]
  rfl

end Staging

/-- Settles O46: each request is answered from what its work does in its mode. -/
theorem editRequests : Obligations.EditRequests := by
  refine ⟨?opens, fun s i tag hready ht hmode => ⟨?stages, fun hlock => ⟨?locks, ?locksFaulty⟩⟩⟩
  case opens =>
    intro s i tag hready ht hflight hmode heng
    refine ⟨_, exec_request_holder rfl hready ht (State.openEdit_opens (s := s.taking i) hflight hmode heng),
      State.setActive_plans _ _, (Frame.setActive _ _).lib, ?_⟩
    rw [State.respond_response]
    rfl
  case stages =>
    intro p content r hpart hlen hr
    have hformat : exec (.writeSitePart i tag (p :: content)) s =
        .next (s.request i tag .command true (State.stagePart (p :: content))) :=
      congrArg (fun ok => Host.Outcome.next (s.request i tag .command ok _)) (writeSitePartFormat_cons hlen)
    exact exec_request_holder hformat hready ht (State.stagePart_staged (s := s.taking i) hmode hpart hr)
  case locks => exact exec_request_holder rfl hready ht (State.lockReadback_sets (s := s.taking i) hmode hlock true)
  case locksFaulty => exact exec_request_holder rfl hready ht (State.lockReadback_sets (s := s.taking i) hmode hlock false)

end Sys2Proof.Machine
end

section
/-! What the checks of SEAL_SLOT and CLOSE_EDIT come to as a whole, and the requests that start a long operation (R178, R180, R182). -/

namespace Sys2Proof.Machine

open Sys2Proof

/-! ### A row of a plan (R180) -/

/-- A list of a row: no number twice, each with the property, and zeros after it up to its size. -/
def ListChecked (P : Nat → Prop) (l : List Byte) (lengthAt size : Nat) : Prop :=
  (rowList l lengthAt (lengthAt + 1)).Nodup ∧ (∀ x ∈ rowList l lengthAt (lengthAt + 1), P x) ∧
    ∀ j, getU8 l lengthAt ≤ j → j < size → getU8 l (lengthAt + 1 + j) = 0

/-- A row's fields in range, its base stage within both run orders, and its three lists checked. -/
def RowChecked (P : Nat → Prop) (l : List Byte) : Prop :=
  (getU8 l 4 = 1 ∨ getU8 l 4 = 2) ∧ getU8 l 5 ≤ 1 ∧ 1 ≤ getU8 l 6 ∧ getU8 l 6 ≤ 24 ∧ getU8 l 6 ≤ getU8 l 11 ∧
    getU8 l 6 ≤ getU8 l 36 ∧ 100 ≤ getU16 l 7 ∧ getU16 l 7 ≤ 800 ∧ getU16 l 9 ≤ 32767 ∧ 1 ≤ getU8 l 11 ∧
    getU8 l 11 ≤ 24 ∧ ListChecked P l 11 24 ∧ 1 ≤ getU8 l 36 ∧ getU8 l 36 ≤ 24 ∧ ListChecked P l 36 24 ∧ getU8 l 61 ≤ 8 ∧
    ListChecked P l 61 8

theorem oneOrTwo_iff (n : Nat) : (1 ≤ n ∧ n ≤ 2) ↔ n = 1 ∨ n = 2 := by omega

theorem checkPlanPart_eq_none {listed : Nat → Bool} {P : Nat → Prop} (hP : ∀ x, listed x = true ↔ P x) (k : Nat) (part : List Byte) :
    checkPlanPart listed k part = none ↔
      (k = 0 → getU8 part 9 = 1 ∨ getU8 part 9 = 2) ∧ RowChecked P (rowBytes k part) := by
  have hlist (lengthAt size : Nat) : listOk listed (rowBytes k part) lengthAt (lengthAt + 1) size = true ↔
      ListChecked P (rowBytes k part) lengthAt size := listOk_iff listed hP _ _ _
  have hoption : (k != 0 || within 1 (getU8 part 9) 2) = true ↔ (k = 0 → getU8 part 9 = 1 ∨ getU8 part 9 = 2) := by
    rw [Bool.or_eq_true, bne_iff_ne, within_iff, oneOrTwo_iff, ← Decidable.imp_iff_not_or]
  simp only [checkPlanPart, firstViolation_eq_none, List.forall_mem_cons, List.not_mem_nil, false_imp_iff, implies_true,
    require_eq_none, hoption, hlist 11, hlist 36, hlist 61, within_iff, oneOrTwo_iff, Bool.and_eq_true, decide_eq_true_eq,
    Nat.zero_le, true_and, and_true, RowChecked, and_assoc]

/-! ### A whole slot (R180) -/

/-- A slot's parts: part 0 and those to its segment count are written, no other is. -/
def PlanSlot.Whole (p : PlanSlot) : Prop :=
  (p.part 0).isSome = true ∧ p.segmentCount ≤ 32 ∧ ∀ k, 1 ≤ k → k ≤ 32 → ((p.part k).isSome = true ↔ k ≤ p.segmentCount)

theorem PlanSlot.Whole.written {p : PlanSlot} (h : p.Whole) {k : Nat} (hk : k ≤ p.segmentCount) : ∃ c, p.part k = some c := by
  obtain ⟨hzero, hcount, hwritten⟩ := h
  rw [← Option.isSome_iff_exists]
  rcases Nat.eq_zero_or_pos k with rfl | hpos
  · exact hzero
  · exact (hwritten k hpos (by omega)).mpr hk

theorem writtenMarks_eq_none (p : PlanSlot) :
    (∀ k < 33, (if k = 0 then none else require ((p.part k).isSome == decide (k ≤ p.segmentCount)) k 0) = none) ↔
      ∀ k, 1 ≤ k → k ≤ 32 → ((p.part k).isSome = true ↔ k ≤ p.segmentCount) := by
  constructor
  · intro h k h1 h32
    have hk := h k (by omega)
    rw [if_neg (by omega), require_eq_none, beq_iff_eq] at hk
    rw [hk, decide_eq_true_eq]
  · intro h k hk
    split
    · rfl
    next hne => rw [require_eq_none, beq_iff_eq, Bool.eq_iff_iff, decide_eq_true_eq, h k (by omega) (by omega)]

/-- The parts that the checks read are those written, so a slot that is whole passes by its rows. -/
theorem sealViolation_eq_none {p : PlanSlot} {staged : List (List Byte)} {inUse : Option (List (List Byte))} {P : Nat → Prop}
    (hP : ∀ x, (siteListsBank staged x && inUse.all (fun r => siteListsBank r x)) = true ↔ P x) :
    sealViolation p staged inUse = none ↔
      p.Whole ∧ (getU8 ((p.part 0).getD []) 9 = 1 ∨ getU8 ((p.part 0).getD []) 9 = 2) ∧
        ∀ k c, k ≤ p.segmentCount → p.part k = some c → RowChecked P (rowBytes k c) := by
  have hrows : sealViolation p staged inUse = none ↔
      p.Whole ∧ ∀ k < p.segmentCount + 1,
        (k = 0 → getU8 ((p.part k).getD []) 9 = 1 ∨ getU8 ((p.part k).getD []) 9 = 2) ∧ RowChecked P (rowBytes k ((p.part k).getD [])) := by
    simp only [sealViolation, firstViolation_eq_none, List.forall_mem_append, List.forall_mem_cons, List.not_mem_nil, false_imp_iff,
      implies_true, and_true, List.forall_mem_map, List.mem_range, require_eq_none, decide_eq_true_eq, writtenMarks_eq_none,
      checkPlanPart_eq_none hP, PlanSlot.Whole, and_assoc]
  rw [hrows]
  refine and_congr_right fun hwhole => ⟨fun h => ⟨(h 0 (Nat.succ_pos _)).1 rfl, fun k c hk hc => ?_⟩, fun ⟨hoption, h⟩ k hk => ⟨?_, ?_⟩⟩
  · have hrow := (h k (Nat.lt_succ_of_le hk)).2
    rwa [hc] at hrow
  · rintro rfl
    exact hoption
  · obtain ⟨c, hc⟩ := hwhole.written (Nat.le_of_lt_succ hk)
    rw [hc]
    exact h k c (Nat.le_of_lt_succ hk) hc

/-- A bank listed by the staged record and by a record in use. -/
theorem listedByBoth_iff (staged : List (List Byte)) (inUse : Option SiteStore) (x : Nat) :
    (siteListsBank staged x && (inUse.map SiteStore.parts).all (fun r => siteListsBank r x)) = true ↔
      x ≠ 0 ∧ (∃ e ∈ siteBanks staged, e.number = x) ∧ ∀ u, inUse = some u → ∃ e ∈ siteBanks u.parts, e.number = x := by
  rw [Bool.and_eq_true, siteListsBank_iff]
  cases inUse with
  | none => simp
  | some u =>
    simp only [Option.map_some, Option.all_some, siteListsBank_iff, Option.some.injEq, forall_eq']
    constructor
    · rintro ⟨⟨hx, hstaged⟩, -, huse⟩
      exact ⟨hx, hstaged, huse⟩
    · rintro ⟨hx, hstaged, huse⟩
      exact ⟨⟨hx, hstaged⟩, hx, huse⟩

/-! ### The long slot requests (R178) -/

theorem State.longRequest_starts {s : State} (hmode : s.lib.mode = .edit) (hflight : s.lib.inFlight = none) (o : InFlight) :
    s.longRequest true true o = (s.startOperation o, accepted) := by
  have hidle : ¬ s.lib.inFlight.isSome = true := by rw [hflight]; decide
  rw [State.longRequest, if_neg (not_not_intro hmode), Bool.not_true, if_neg Bool.false_ne_true, if_neg hidle, if_neg Bool.false_ne_true]

/-- A long slot request whose checks pass is accepted, with the operation begun in the state as taken. -/
theorem exec_longRequest {s : State} {i : PortId} {tag : Byte} {c : Instr} {body : State → State × Answer} {o : InFlight}
    (hc : exec c s = .next (s.request i tag .command true body)) (hready : s.Ready i) (ht : s.token = some i)
    (hmode : s.lib.mode = .edit) (hflight : s.lib.inFlight = none) (hbody : body (s.taking i) = (s.taking i).longRequest true true o) :
    exec c s = .next ((s.startOperation o).answered i tag accepted) :=
  exec_request_holder hc hready ht (hbody.trans (State.longRequest_starts (s := s.taking i) hmode hflight o))

theorem slotOk_of_range {n : Nat} (h1 : 1 ≤ n) (h16 : n ≤ 16) : slotOk n = true := by
  rw [slotOk, decide_eq_true h1, decide_eq_true h16]
  rfl

theorem State.longRequest_passes {ok own : Bool} (hok : ok = true) (hown : own = true) (t : State) (o : InFlight) :
    t.longRequest ok own o = t.longRequest true true o := by rw [hok, hown]

/-- Settles O48: the requests by `exec_longRequest`, the checks by `sealViolation_eq_none`. -/
theorem longRequestsStart : Obligations.LongRequestsStart := by
  intro s i tag n k content hready ht hmode hflight h1 h16
  have hslot : slotOk n.toNat = true := slotOk_of_range h1 h16
  refine ⟨?eraseSlot, exec_longRequest rfl hready ht hmode hflight rfl, fun hk hlen hwritable => ?writePart, fun hwritten => ?sealSlot,
    ?checks⟩
  case eraseSlot =>
    exact exec_longRequest rfl hready ht hmode hflight
      (congrArg (fun ok => (s.taking i).longRequest ok true (operation .eraseSlot n.toNat 0 i)) hslot)
  case writePart =>
    have hformat : exec (.writePart i tag (n :: k :: content)) s = .next (s.request i tag .command true _) :=
      congrArg (fun ok => Host.Outcome.next (s.request i tag .command ok _)) (writePartFormat_cons hlen)
    have hrange : (slotOk n.toNat && decide (k.toNat ≤ 32)) = true := by rw [hslot, decide_eq_true hk]; rfl
    exact exec_longRequest hformat hready ht hmode hflight
      (State.longRequest_passes hrange hwritable _ _)
  case sealSlot =>
    exact exec_longRequest rfl hready ht hmode hflight
      (State.longRequest_passes hslot (decide_eq_true hwritten) _ _)
  case checks =>
    rintro p r rfl hr
    have hseal := sealViolation_eq_none (p := s.slot n.toNat) (listedByBoth_iff r s.lib.inUse)
    rw [State.sealOutcome, hr]
    refine hseal.trans ?_
    rw [PlanSlot.Whole, and_assoc, and_assoc]
    refine and_congr_right fun _ => and_congr_right fun _ => and_congr_right fun _ => and_congr_right fun _ => ?_
    exact ⟨fun h k c l hk hc hl => hl ▸ h k c hk hc, fun h k c hk hc => h k c _ hk hc rfl⟩

end Sys2Proof.Machine
end

section
/-! CLOSE_EDIT (R182): what the checks of the staged record ask of its part 0, its entries and its chain list, and of the SEALED slots. -/

namespace Sys2Proof.Machine

open Sys2Proof

/-! ### Part 0 and the entries -/

/-- Part 0 has its fields in range, and the chain is as long as the two lists together. -/
def Part0Checked (r : List (List Byte)) : Prop :=
  1000 ≤ siteL r ∧ siteL r ≤ 65000 ∧ 30 ≤ siteCoast r ∧ siteCoast r ≤ 600 ∧ 5 ≤ siteStartTimeout r ∧ siteStartTimeout r ≤ 60 ∧
    20 ≤ siteDwell r ∧ siteDwell r ≤ 600 ∧ 5 ≤ siteVelocityHysteresis r ∧ siteVelocityHysteresis r ≤ 100 ∧ 100 ≤ siteFloor r ∧
    siteFloor r ≤ 400 ∧ 200 ≤ siteCeiling r ∧ siteCeiling r ≤ 800 ∧ siteFloor r ≤ siteCeiling r ∧ siteSegmentHysteresis r ≤ 200 ∧
    siteU r ≤ 500 ∧ siteD r ≤ 2000 ∧ 50 ≤ siteM r ∧ siteM r ≤ 1000 ∧ 1 ≤ siteS r ∧ siteS r ≤ 4 ∧ 2 ≤ siteSilence r ∧
    siteSilence r ≤ 60 ∧ siteDefaultSlot r ≤ 16 ∧ siteBankCount r ≤ 48 ∧ siteStationCount r ≤ 8 ∧
    siteChainLength r = siteBankCount r + siteStationCount r

theorem checkPart0_eq_none (r : List (List Byte)) : checkPart0 r = none ↔ Part0Checked r := by
  simp only [checkPart0, firstViolation_eq_none, List.forall_mem_cons, List.not_mem_nil, false_imp_iff, implies_true, require_eq_none,
    within_iff, decide_eq_true_eq, beq_iff_eq, Nat.zero_le, true_and, and_true, Part0Checked, and_assoc]

/-- A bank entry's own fields in range. -/
def BankEntry.Checked (e : BankEntry) (len : Nat) : Prop :=
  1 ≤ e.number ∧ e.number ≤ 48 ∧ e.chainage ≤ len ∧ 1 ≤ e.fans ∧ e.fans ≤ 4 ∧ 10 ≤ e.thrustPerFan ∧ e.thrustPerFan ≤ 300 ∧
    (e.forward = 1 ∨ e.forward = 2)

/-- A station entry's own fields in range. -/
def StationEntry.Checked (e : StationEntry) (len : Nat) : Prop :=
  1 ≤ e.number ∧ e.number ≤ 8 ∧ e.chainage ≤ len ∧ e.weight ≤ 15

theorem noEarlier_iff (i : Nat) (f : Nat → Bool) : (!(List.range i).any f) = true ↔ ∀ j < i, f j = false := by
  rw [Bool.not_eq_true', List.any_eq_false]
  simp only [List.mem_range, Bool.not_eq_true]

theorem checkBankEntry_eq_none (r : List (List Byte)) (i : Nat) :
    checkBankEntry r i = none ↔
      (bankEntry r i).Checked (siteL r) ∧ ∀ j < i, (bankEntry r j).number ≠ (bankEntry r i).number := by
  simp only [checkBankEntry, firstViolation_eq_none, List.forall_mem_cons, List.not_mem_nil, false_imp_iff, implies_true, require_eq_none,
    Bool.and_eq_true, within_iff, oneOrTwo_iff, noEarlier_iff, beq_eq_false_iff_ne, decide_eq_true_eq, BankEntry.Checked, and_true]
  constructor
  · rintro ⟨⟨⟨h1, h48⟩, hown⟩, hchainage, ⟨hfans1, hfans4⟩, ⟨hthrust10, hthrust300⟩, hforward⟩
    exact ⟨⟨h1, h48, hchainage, hfans1, hfans4, hthrust10, hthrust300, hforward⟩, hown⟩
  · rintro ⟨⟨h1, h48, hchainage, hfans1, hfans4, hthrust10, hthrust300, hforward⟩, hown⟩
    exact ⟨⟨⟨h1, h48⟩, hown⟩, hchainage, ⟨hfans1, hfans4⟩, ⟨hthrust10, hthrust300⟩, hforward⟩

theorem checkStationEntry_eq_none (r : List (List Byte)) (i : Nat) :
    checkStationEntry r i = none ↔
      (stationEntry r i).Checked (siteL r) ∧ ∀ j < i, (stationEntry r j).number ≠ (stationEntry r i).number := by
  simp only [checkStationEntry, firstViolation_eq_none, List.forall_mem_cons, List.not_mem_nil, false_imp_iff, implies_true,
    require_eq_none, Bool.and_eq_true, within_iff, noEarlier_iff, beq_eq_false_iff_ne, decide_eq_true_eq, StationEntry.Checked, and_true,
    Nat.zero_le, true_and]
  constructor
  · rintro ⟨⟨⟨h1, h8⟩, hown⟩, hchainage, hweight⟩
    exact ⟨⟨h1, h8, hchainage, hweight⟩, hown⟩
  · rintro ⟨⟨h1, h8, hchainage, hweight⟩, hown⟩
    exact ⟨⟨⟨h1, h8⟩, hown⟩, hchainage, hweight⟩

theorem forall_lt_and {n : Nat} {p q : Nat → Prop} : (∀ i < n, p i ∧ q i) ↔ (∀ i < n, p i) ∧ ∀ i < n, q i :=
  ⟨fun h => ⟨fun i hi => (h i hi).1, fun i hi => (h i hi).2⟩, fun h i hi => ⟨h.1 i hi, h.2 i hi⟩⟩

/-- A list made by index, checked entry by entry against the earlier ones: each entry, and the numbers apart. -/
theorem checkedEntries_iff {α : Type} (f : Nat → α) (number : α → Nat) (P : α → Prop) (n : Nat) :
    (∀ i < n, P (f i) ∧ ∀ j < i, number (f j) ≠ number (f i)) ↔
      (∀ e ∈ (List.range n).map f, P e) ∧ (((List.range n).map f).map number).Nodup := by
  rw [List.map_map, nodup_map_range, List.forall_mem_map]
  simp only [List.mem_range, Function.comp_apply]
  exact forall_lt_and

/-! ### The chain list -/

/-- A chain entry names a listed unit. -/
def ChainEntry.Listed (c : ChainEntry) (r : List (List Byte)) : Prop :=
  (c.kind = 1 ∧ ∃ e ∈ siteBanks r, e.number = c.number) ∨ (c.kind = 2 ∧ ∃ e ∈ siteStations r, e.number = c.number)

/-- The chain entries that the two lists call for. -/
def chainCalled (r : List (List Byte)) : List ChainEntry :=
  (siteBanks r).map (fun e => { kind := 1, number := e.number }) ++ (siteStations r).map (fun e => { kind := 2, number := e.number })

theorem mem_chainCalled {r : List (List Byte)} {c : ChainEntry} : c ∈ chainCalled r ↔ c.Listed r := by
  obtain ⟨kind, number⟩ := c
  simp only [chainCalled, List.mem_append, List.mem_map, ChainEntry.mk.injEq, ChainEntry.Listed, eq_comm (a := (1 : Nat)),
    eq_comm (a := (2 : Nat))]
  constructor
  · rintro (⟨e, he, hk, hn⟩ | ⟨e, he, hk, hn⟩)
    · exact .inl ⟨hk, e, he, hn⟩
    · exact .inr ⟨hk, e, he, hn⟩
  · rintro (⟨hk, e, he, hn⟩ | ⟨hk, e, he, hn⟩)
    · exact .inl ⟨e, he, hk, hn⟩
    · exact .inr ⟨e, he, hk, hn⟩

theorem checkChainEntry_eq_none {r : List (List Byte)} (hbanks : ∀ e ∈ siteBanks r, 1 ≤ e.number) (i : Nat) :
    checkChainEntry r i = none ↔ (chainEntry r i).Listed r ∧ ∀ j < i, chainEntry r j ≠ chainEntry r i := by
  have hbank (x : Nat) : siteListsBank r x = true ↔ ∃ e ∈ siteBanks r, e.number = x := by
    rw [siteListsBank_iff, and_iff_right_iff_imp]
    rintro ⟨e, he, rfl⟩
    exact Nat.ne_of_gt (hbanks e he)
  simp only [checkChainEntry, require_eq_none, Bool.and_eq_true, noEarlier_iff, beq_eq_false_iff_ne, ChainEntry.Listed]
  refine and_congr_left fun _ => ?_
  generalize chainEntry r i = c
  obtain ⟨kind, number⟩ := c
  match kind with
  | 1 => simp [UnitKind.ofCode, hbank]
  | 2 => simp [UnitKind.ofCode]
  | 0 | _ + 3 => simp [UnitKind.ofCode]

/-- A chain of the right length that repeats nothing names each listed unit once, since it names nothing else. -/
theorem chain_nodup_iff {r : List (List Byte)} (hlength : (siteChain r).length = (chainCalled r).length)
    (hlisted : ∀ c ∈ siteChain r, c.Listed r) :
    (siteChain r).Nodup ↔ ∀ c ∈ chainCalled r, (siteChain r).count c = 1 := by
  have hsub : siteChain r ⊆ chainCalled r := fun c hc => mem_chainCalled.mpr (hlisted c hc)
  constructor
  · intro hchain c hc
    have hnamed : c ∈ siteChain r := by
      refine Classical.byContradiction fun hmissing => ?_
      have hlonger : (c :: siteChain r).length ≤ (chainCalled r).length :=
        (List.nodup_cons.mpr ⟨hmissing, hchain⟩).length_le_of_subset (List.cons_subset.mpr ⟨hc, hsub⟩)
      rw [List.length_cons, hlength] at hlonger
      omega
    rw [hchain.count, if_pos hnamed]
  · intro hcount
    rw [List.nodup_iff_count]
    intro c
    by_cases hc : c ∈ siteChain r
    · exact Nat.le_of_eq (hcount c (hsub hc))
    · rw [List.count_eq_zero_of_not_mem hc]
      exact Nat.zero_le 1

theorem chainCalled_length {r : List (List Byte)} (h : Part0Checked r) : (siteChain r).length = (chainCalled r).length := by
  obtain ⟨-, -, -, -, -, -, -, -, -, -, -, -, -, -, -, -, -, -, -, -, -, -, -, -, -, hbanks, -, hchain⟩ := h
  simp only [siteChain, chainCalled, siteBanks, siteStations, List.length_append, List.length_map, List.length_range, hchain,
    Nat.min_eq_left hbanks]

/-! ### The record -/

/-- What R182 asks of the staged record, in steps 1 to 4. -/
def RecordChecked (r : List (List Byte)) : Prop :=
  Part0Checked r ∧ (∀ e ∈ siteBanks r, e.Checked (siteL r)) ∧ ((siteBanks r).map BankEntry.number).Nodup ∧
    (∀ e ∈ siteStations r, e.Checked (siteL r)) ∧ ((siteStations r).map StationEntry.number).Nodup ∧
    (∀ c ∈ siteChain r, c.Listed r) ∧ (∀ e ∈ siteBanks r, (siteChain r).count { kind := 1, number := e.number } = 1) ∧
    ∀ e ∈ siteStations r, (siteChain r).count { kind := 2, number := e.number } = 1

theorem count_chainCalled_iff (r : List (List Byte)) :
    (∀ c ∈ chainCalled r, (siteChain r).count c = 1) ↔
      (∀ e ∈ siteBanks r, (siteChain r).count { kind := 1, number := e.number } = 1) ∧
        ∀ e ∈ siteStations r, (siteChain r).count { kind := 2, number := e.number } = 1 := by
  rw [chainCalled, List.forall_mem_append, List.forall_mem_map, List.forall_mem_map]

/-- The checks step by step: each later step is read under the earlier ones, which say where its lists end. -/
theorem siteViolation_eq_none (r : List (List Byte)) : siteViolation r = none ↔ RecordChecked r := by
  simp only [siteViolation, firstViolation_eq_none, List.forall_mem_append, List.forall_mem_map, List.mem_range, List.forall_mem_singleton,
    checkPart0_eq_none, checkBankEntry_eq_none, checkStationEntry_eq_none, and_assoc]
  rw [RecordChecked]
  refine and_congr_right fun hpart0 => ?_
  have hcount : min (siteBankCount r) 48 = siteBankCount r := by
    obtain ⟨-, -, -, -, -, -, -, -, -, -, -, -, -, -, -, -, -, -, -, -, -, -, -, -, -, hbanks, -⟩ := hpart0
    exact Nat.min_eq_left hbanks
  have hbankList : (List.range (siteBankCount r)).map (bankEntry r) = siteBanks r := by rw [siteBanks, hcount]
  rw [checkedEntries_iff (bankEntry r) BankEntry.number (fun e => e.Checked (siteL r)), hbankList,
    checkedEntries_iff (stationEntry r) StationEntry.number (fun e => e.Checked (siteL r)), and_assoc, and_assoc]
  refine and_congr_right fun hbanks => and_congr_right fun _ => and_congr_right fun _ => and_congr_right fun _ => ?_
  have hchain : (∀ i < siteChainLength r, checkChainEntry r i = none) ↔ (∀ c ∈ siteChain r, c.Listed r) ∧ (siteChain r).Nodup := by
    simp only [checkChainEntry_eq_none fun e he => (hbanks e he).1, siteChain, nodup_map_range, List.forall_mem_map, List.mem_range]
    exact forall_lt_and
  rw [hchain, ← count_chainCalled_iff]
  exact and_congr_right (chain_nodup_iff (chainCalled_length hpart0))

/-! ### The SEALED slots and the request -/

theorem closeViolation_eq_none (r : List (List Byte)) (slots : List PlanSlot) :
    closeViolation r slots = none ↔
      RecordChecked r ∧
        ∀ p ∈ slots, p.state = .sealed → ∀ k, k ≤ p.segmentCount → ∀ x, x ∈ (p.row k).west ∨ x ∈ (p.row k).east ∨ x ∈ (p.row k).inhibit →
          x ≠ 0 ∧ ∃ e ∈ siteBanks r, e.number = x := by
  rw [← siteViolation_eq_none, closeViolation]
  cases siteViolation r with
  | some v => simp
  | none =>
    simp only [true_and, List.findSome?_eq_none_iff, checkSealedSlot_eq_none, Prod.forall]
    refine ⟨fun h p hp => ?_, fun h p n hp => h p (List.fst_mem_of_mem_zipIdx hp)⟩
    obtain ⟨k, hk, rfl⟩ := List.mem_iff_getElem.mp hp
    exact h _ (1 + k) (List.mk_mem_zipIdx_iff_le_and_getElem?_sub.mpr ⟨Nat.le_add_right 1 k, by simp [hk]⟩)

/-- The slots are checked after the record, so a violation names one exactly when the record passes. -/
theorem closeViolation_slot {r : List (List Byte)} {slots : List PlanSlot} {v : Violation} (h : closeViolation r slots = some v) :
    v.slot = none ↔ ¬ RecordChecked r := by
  rw [← siteViolation_eq_none]
  rw [closeViolation] at h
  cases hsite : siteViolation r with
  | some w =>
    simp only [hsite, Option.some.injEq] at h
    simp [← h, siteViolation_slot hsite]
  | none =>
    simp only [hsite] at h
    obtain ⟨sn, -, hsn⟩ := List.exists_of_findSome?_eq_some h
    simp [checkSealedSlot_slot hsn]

section Close
variable {s : State} {i : PortId} {r : List (List Byte)}

theorem State.closeEdit_violates {v : Violation} (hmode : s.lib.mode = .edit) (hflight : s.lib.inFlight = none)
    (hr : s.lib.staged = some r) (hv : closeViolation r s.lib.nv.slots = some v) :
    State.closeEdit i s = (s, { completion := .refusedState, result := some (violationResult v) }) := by
  have hidle : ¬ s.lib.inFlight.isSome = true := by rw [hflight]; decide
  rw [State.closeEdit, if_neg (not_not_intro hmode), if_neg hidle]
  simp only [hr, Option.getD_some, hv]

theorem State.closeEdit_begins (hmode : s.lib.mode = .edit) (hflight : s.lib.inFlight = none) (hr : s.lib.staged = some r)
    (hv : closeViolation r s.lib.nv.slots = none) :
    State.closeEdit i s =
      ({ s with lib := { s.lib with mode := .closing, opener := none } }.startOperation (operation .closeEdit 0 0 i), accepted) := by
  have hidle : ¬ s.lib.inFlight.isSome = true := by rw [hflight]; decide
  rw [State.closeEdit, if_neg (not_not_intro hmode), if_neg hidle]
  simp only [hr, Option.getD_some, hv]

end Close

/-- Settles O49: the validation finds nothing exactly when each of its checks passes. -/
theorem closeEditValidates : Obligations.CloseEditValidates := by
  refine ⟨fun s i tag r hready ht hmode hflight hr => ⟨fun v hv => ?_, fun hv => ?_⟩,
    fun r slots => ⟨closeViolation_eq_none r slots, fun v => closeViolation_slot⟩⟩
  · exact exec_request_holder rfl hready ht (State.closeEdit_violates (s := s.taking i) hmode hflight hr hv)
  · exact exec_request_holder rfl hready ht (State.closeEdit_begins (s := s.taking i) hmode hflight hr hv)

end Sys2Proof.Machine
end

section
/-! The ends of the long operations (R178 to R183): the slots they leave, the operation record, and what the end of the CLOSE_EDIT write leaves. -/

namespace Sys2Proof.Machine

open Sys2Proof

/-! ### Slots written -/

theorem State.slot_setSlot_same (s : State) {n : Nat} (h1 : 1 ≤ n) (hn : n ≤ s.lib.nv.slots.length) (p : PlanSlot) :
    (s.setSlot n p).slot n = p := by
  have hlt : n - 1 < s.lib.nv.slots.length := by omega
  change (s.lib.nv.slots.set (n - 1) p).getD (n - 1) .blank = p
  rw [List.getD_eq_getElem?_getD, List.getElem?_set_self hlt, Option.getD_some]

theorem PlanSlot.damaged_state (p : PlanSlot) (k : OperationKind) (part ix : Nat) : (p.damaged k part ix).state = .invalid := by
  unfold PlanSlot.damaged
  split <;> rfl

/-- A damaged slot is INVALID, whatever its parts then hold (R174). -/
theorem State.slot_damageSlot (s : State) (k : OperationKind) {n : Nat} (h1 : 1 ≤ n) (hn : n ≤ s.lib.nv.slots.length) (part : Nat) :
    ((s.damageSlot k n part).slot n).state = .invalid := by
  have hslot : (s.damageSlot k n part).slot n = (s.slot n).damaged k part s.freeIx := s.slot_setSlot_same h1 hn _
  rw [hslot, PlanSlot.damaged_state]

/-! ### A library erased up to a slot (R181) -/

theorem eraseFirst_length (n : Nat) (l : List PlanSlot) : (eraseFirst n l).length = l.length := by
  rw [eraseFirst, List.length_append, List.length_replicate, List.length_drop]
  omega

theorem eraseFirst_below {n k : Nat} (l : List PlanSlot) (hk : k < n) : (eraseFirst n l).getD k .blank = .blank := by
  rw [eraseFirst, List.getD_eq_getElem?_getD]
  by_cases hlen : k < min n l.length
  · rw [List.getElem?_append_left (by rwa [List.length_replicate]), List.getElem?_replicate, if_pos hlen, Option.getD_some]
  · rw [List.getElem?_eq_none (by rw [List.length_append, List.length_replicate, List.length_drop]; omega), Option.getD_none]

theorem eraseFirst_above {n k : Nat} (l : List PlanSlot) (hn : n ≤ k) : (eraseFirst n l).getD k .blank = l.getD k .blank := by
  rw [eraseFirst, List.getD_eq_getElem?_getD, List.getD_eq_getElem?_getD,
    List.getElem?_append_right (by rw [List.length_replicate]; omega), List.length_replicate, List.getElem?_drop]
  by_cases hlen : n ≤ l.length
  · rw [Nat.min_eq_left hlen, Nat.add_sub_cancel' hn]
  · rw [Nat.min_eq_right (by omega), List.getElem?_eq_none (by omega), List.getElem?_eq_none (by omega)]

/-- The slots of an erase that stopped at slot `n`: blank below it, the slot put there, and the others as they were. -/
theorem eraseFirst_set {n : Nat} (l : List PlanSlot) (p : PlanSlot) (h1 : 1 ≤ n) (hn : n ≤ l.length) :
    (((eraseFirst (n - 1) l).set (n - 1) p).getD (n - 1) .blank = p) ∧
      (∀ k, 1 ≤ k → k < n → ((eraseFirst (n - 1) l).set (n - 1) p).getD (k - 1) .blank = .blank) ∧
      ∀ k, n < k → ((eraseFirst (n - 1) l).set (n - 1) p).getD (k - 1) .blank = l.getD (k - 1) .blank := by
  have hother (k : Nat) (hk : k ≠ n - 1) :
      ((eraseFirst (n - 1) l).set (n - 1) p).getD k .blank = (eraseFirst (n - 1) l).getD k .blank := by
    rw [List.getD_eq_getElem?_getD, List.getD_eq_getElem?_getD, List.getElem?_set_ne hk.symm]
  refine ⟨?_, fun k hk1 hkn => ?_, fun k hk => ?_⟩
  · rw [List.getD_eq_getElem?_getD, List.getElem?_set_self (by rw [eraseFirst_length]; omega), Option.getD_some]
  · rw [hother _ (by omega), eraseFirst_below l (by omega)]
  · rw [hother _ (by omega), eraseFirst_above l (by omega)]

/-! ### The end of a slot operation in EDIT -/

/-- What every end in EDIT leaves of the controller's registers. -/
def Library.Ended (l : Library) (o : InFlight) (now a b : Nat) (x : OperationResult) (d e : Nat) : Prop :=
  l.inFlight = none ∧ l.mode = .edit ∧ l.nv.marker = none ∧
    l.record = { kind := o.kind, subjA := a, subjB := b, result := x, detailA := d, detailB := e, initiator := some o.initiator, at_ := now }

section Ends
variable {s : State} {o : InFlight}

theorem State.endOperation_nv (h : s.lib.mode = .edit) (a : Nat) (r : OperationResult) (d e : Nat) :
    (s.endOperation o a r d e).lib.nv = { s.lib.nv with marker := none } := by
  rw [State.endOperation_edit h]
  rfl

theorem State.endOperation_slot (h : s.lib.mode = .edit) (a : Nat) (r : OperationResult) (d e n : Nat) :
    (s.endOperation o a r d e).slot n = s.slot n := by
  rw [State.endOperation_edit h]
  rfl

theorem State.endOperation_ended (h : s.lib.mode = .edit) (a : Nat) (r : OperationResult) (d e : Nat) :
    (s.endOperation o a r d e).lib.Ended o s.uptime a o.subjB r d e := by
  rw [State.endOperation_edit h]
  exact ⟨rfl, h, rfl, rfl⟩

/-- A failed comparison: the slot worked on is INVALID. -/
theorem State.damaged_ended (h : s.lib.mode = .edit) (k : OperationKind) (part : Nat) (h1 : 1 ≤ o.subjA)
    (hn : o.subjA ≤ s.lib.nv.slots.length) :
    (((s.damageSlot k o.subjA part).endOperation o o.subjA .nvFault 0 0).slot o.subjA).state = .invalid ∧
      ((s.damageSlot k o.subjA part).endOperation o o.subjA .nvFault 0 0).lib.Ended o s.uptime o.subjA o.subjB .nvFault 0 0 := by
  have hmode : (s.damageSlot k o.subjA part).lib.mode = .edit := h
  refine ⟨?_, State.endOperation_ended hmode _ _ _ _⟩
  rw [State.endOperation_slot hmode, State.slot_damageSlot s k h1 hn]

end Ends

/-- An end command of the kind in flight runs that kind's end. -/
theorem exec_endOf {s : State} {o : InFlight} {k : OperationKind} {c : Instr} {f : State → InFlight → State}
    (hc : exec c s = .next (s.endOf k f)) (ho : s.lib.inFlight = some o) (hk : o.kind = k) : exec c s = .next (f s o) := by
  rw [hc, State.endOf_some ho hk]

theorem State.endSeal_violation {s : State} {o : InFlight} {v : Violation} (h : o.sealOutcome = some v) (compares : Bool) :
    s.endSeal o compares = s.endOperation o o.subjA .violation v.part v.field := by
  simp only [State.endSeal, h]

theorem State.endSeal_sealed {s : State} {o : InFlight} (h : o.sealOutcome = none) :
    s.endSeal o true =
      (s.setSlot o.subjA (s.slot o.subjA).seal).endOperation o o.subjA .done ((s.slot o.subjA).seal.crc.toNat / 256)
        ((s.slot o.subjA).seal.crc.toNat % 256) := by
  simp only [State.endSeal, h, if_true]

theorem State.endSeal_failed {s : State} {o : InFlight} (h : o.sealOutcome = none) :
    s.endSeal o false = (s.damageSlot .sealSlot o.subjA 0).endOperation o o.subjA .nvFault 0 0 := by
  simp only [State.endSeal, h, Bool.false_eq_true, if_false]

/-- The library with its first slots erased, as an erase that failed at slot `n` has left it before that slot is damaged. -/
def State.erasedBelow (s : State) (n : Nat) : State :=
  { s with lib := { s.lib with nv := { s.lib.nv with slots := eraseFirst (n - 1) s.lib.nv.slots } } }

theorem State.endEraseLibrary_failed {s : State} {o : InFlight} {n : Nat} (h : slotOk n = true) :
    s.endEraseLibrary o (some n) = ((s.erasedBelow n).damageSlot .eraseLibrary n 0).endOperation o n .nvFault 0 0 := if_pos h

/-- Settles O50: each end command runs the end of the kind in flight, with its two outcomes. -/
theorem slotOperationsEnd : Obligations.SlotOperationsEnd := by
  intro s o ho hmode
  refine ⟨fun hk => ⟨?erased, fun h1 hn => ?eraseFailed⟩, fun hk => ⟨?written, fun h1 hn => ?writeFailed⟩,
    fun hk hout => ⟨?sealed, fun h1 hn => ?sealFailed⟩, fun hk v hv c => ?violation, fun hk => ⟨?library, fun n h1 h16 hlen => ?stopped⟩⟩
  case erased =>
    refine ⟨_, (exec_endOf rfl ho hk).trans (congrArg Host.Outcome.next (if_pos rfl)), ?_⟩
    exact ⟨State.endOperation_nv (by exact hmode) _ _ _ _, State.endOperation_ended (by exact hmode) _ _ _ _⟩
  case eraseFailed =>
    exact ⟨_, (exec_endOf rfl ho hk).trans (congrArg Host.Outcome.next (if_neg Bool.false_ne_true)), State.damaged_ended hmode _ _ h1 hn⟩
  case written =>
    refine ⟨_, (exec_endOf rfl ho hk).trans (congrArg Host.Outcome.next (if_pos rfl)), ?_⟩
    exact ⟨State.endOperation_nv (by exact hmode) _ _ _ _, State.endOperation_ended (by exact hmode) _ _ _ _⟩
  case writeFailed =>
    exact ⟨_, (exec_endOf rfl ho hk).trans (congrArg Host.Outcome.next (if_neg Bool.false_ne_true)), State.damaged_ended hmode _ _ h1 hn⟩
  case sealed =>
    refine ⟨_, (exec_endOf rfl ho hk).trans (congrArg Host.Outcome.next (State.endSeal_sealed hout)), ?_⟩
    exact ⟨State.endOperation_nv (by exact hmode) _ _ _ _, State.endOperation_ended (by exact hmode) _ _ _ _⟩
  case sealFailed =>
    exact ⟨_, (exec_endOf rfl ho hk).trans (congrArg Host.Outcome.next (State.endSeal_failed hout)), State.damaged_ended hmode _ _ h1 hn⟩
  case violation =>
    exact ⟨_, (exec_endOf rfl ho hk).trans (congrArg Host.Outcome.next (State.endSeal_violation hv c)),
      State.endOperation_nv hmode _ _ _ _, State.endOperation_ended hmode _ _ _ _⟩
  case library =>
    have hnv := State.endOperation_nv
      (s := { s with lib := { s.lib with nv := { s.lib.nv with slots := eraseFirst 16 s.lib.nv.slots, lock := false } } }) (o := o)
      hmode 0 .done 0 0
    exact ⟨_, exec_endOf rfl ho hk, congrArg NvLibrary.slots hnv, congrArg NvLibrary.lock hnv,
      State.endOperation_ended (by exact hmode) _ _ _ _⟩
  case stopped =>
    have hstop : ((s.erasedBelow n).damageSlot .eraseLibrary n 0).lib.mode = .edit := hmode
    obtain ⟨hslot, hbelow, habove⟩ := eraseFirst_set s.lib.nv.slots
      (((s.erasedBelow n).slot n).damaged .eraseLibrary 0 s.freeIx) h1 (by omega)
    refine ⟨_, (exec_endOf rfl ho hk).trans (congrArg Host.Outcome.next (State.endEraseLibrary_failed (slotOk_of_range h1 h16))),
      ?_, (congrArg NvLibrary.lock (State.endOperation_nv hstop _ _ _ _)).trans rfl, fun k hk1 hkn => ?_, fun k hk => ?_,
      State.endOperation_ended hstop _ _ _ _⟩
    · rw [State.endOperation_slot hstop]
      exact (congrArg PlanSlot.state hslot).trans (PlanSlot.damaged_state _ _ _ _)
    · rw [State.endOperation_slot hstop]
      exact hbelow k hk1 hkn
    · rw [State.endOperation_slot hstop]
      exact habove k hk

end Sys2Proof.Machine
end

section
/-! The default plan of a record (R24, R30), and what the end of the CLOSE_EDIT write leaves (R183). -/

namespace Sys2Proof.Machine

open Sys2Proof

/-! ### The default plan -/

/-- The default plan slot that a site record names, when it is SEALED. -/
def State.sealedDefault (s : State) (r : List (List Byte)) : Option Nat :=
  if 1 ≤ siteDefaultSlot r ∧ siteDefaultSlot r ≤ 16 ∧ (s.slot (siteDefaultSlot r)).state = .sealed then some (siteDefaultSlot r)
  else none

theorem NvLibrary.defaultOf_some {v : NvLibrary} {s : State} (h : v.slots = s.lib.nv.slots) (u : SiteStore) :
    v.defaultOf (some u) = s.sealedDefault u.parts := by
  have hsealed : v.sealedSlot (siteDefaultSlot u.parts) = true ↔
      1 ≤ siteDefaultSlot u.parts ∧ siteDefaultSlot u.parts ≤ 16 ∧ (s.slot (siteDefaultSlot u.parts)).state = .sealed := by
    simp only [NvLibrary.sealedSlot, slotOk, h, Bool.and_eq_true, decide_eq_true_eq, and_assoc, State.slot]
  simp only [NvLibrary.defaultOf, State.sealedDefault, hsealed]

theorem NvLibrary.defaultOf_eq_bind {v : NvLibrary} {s : State} (h : v.slots = s.lib.nv.slots) (u : Option SiteStore) :
    v.defaultOf u = u.bind (fun x => s.sealedDefault x.parts) := by
  cases u with
  | none => rfl
  | some x => exact NvLibrary.defaultOf_some h x

/-! ### The plan installed while UNCONFIGURED -/

theorem State.finish_notLive {s : State} (h : s.eng.state.live = false) : s.finish = s := by
  rw [State.finish, h, if_neg Bool.false_ne_true]

/-- Without a record in use the engine does nothing on a plan change (R45). -/
theorem State.engineTakesPlan_unconfigured {s : State} (h : s.eng.state = .unconfigured) (moved : Bool) : s.engineTakesPlan moved = s := by
  have hrest : s.rowChange = s := (State.rowChange_keeps s).2.2 (by rw [h]; decide)
  have hplan : s.engineTakesPlan moved = (if moved then s.rowChange else s).finish := by simp only [State.engineTakesPlan, h]
  rw [hplan, hrest, ite_self, State.finish_notLive (by rw [h]; rfl)]

theorem State.eng_freshMatch (s : State) : s.freshMatch.eng = s.eng := by
  unfold State.freshMatch
  split
  · dsimp only
    split <;> rfl
  · rfl

theorem State.arb_freshMatch (s : State) : s.freshMatch.arb = s.arb := by
  unfold State.freshMatch
  split
  · dsimp only
    split <;> rfl
  · rfl

theorem State.fl_freshMatch (s : State) : s.freshMatch.fl = s.fl := by
  unfold State.freshMatch
  split
  · dsimp only
    split <;> rfl
  · rfl

/-- What a plan change leaves alone while UNCONFIGURED: every running table. -/
structure SameTables (s t : State) : Prop where
  banks : t.banks = s.banks
  arb : t.arb = s.arb
  stations : t.vel.stations = s.vel.stations
  fl : t.fl = s.fl

theorem SameTables.setActive {s : State} (h : s.eng.state = .unconfigured) (p : Option Nat) : SameTables s (s.setActive p) := by
  unfold State.setActive
  split
  · exact ⟨rfl, rfl, rfl, rfl⟩
  · generalize hu : { s with plans := { s.plans with active := p } } = u
    have heng : u.freshMatch.handRow.eng.state = .unconfigured := by
      change u.freshMatch.eng.state = _
      rw [State.eng_freshMatch, ← hu]
      exact h
    dsimp only
    rw [State.engineTakesPlan_unconfigured heng]
    subst hu
    exact ⟨State.banks_freshMatch _, State.arb_freshMatch _, congrArg Velocity.stations (State.vel_freshMatch _), State.fl_freshMatch _⟩

/-! ### A write ended -/

/-- The end of a CLOSE_EDIT write, once the library's registers are written: the default of a record installed, and the operation recorded. -/
def State.closed (v : State) (x : Option SiteStore) (r : OperationResult) (i : PortId) : State :=
  (v.installDefault x).recordOperation .closeEdit 0 0 r 0 0 i

section Closed
variable (v : State) (x : Option SiteStore) (r : OperationResult) (i : PortId)

theorem State.closed_plans : (v.closed x r i).plans = { active := v.lib.nv.defaultOf x, stack := [] } := (Frame.installPlan v _).plans

theorem State.closed_inc : (v.closed x r i).inc = v.inc := (Frame.installPlan v _).inc

theorem State.closed_trains : (v.closed x r i).eng.trains = v.eng.trains := (Frame.installPlan v _).trains

theorem State.closed_lib :
    (v.closed x r i).lib =
      { v.lib with
        inFlight := none
        record :=
          { kind := .closeEdit, subjA := 0, subjB := 0, result := r, detailA := 0, detailB := 0, initiator := some i, at_ := v.uptime } } := by
  have hframe := Frame.installPlan v (v.lib.nv.defaultOf x)
  change { (v.installDefault x).lib with
    inFlight := none
    record :=
      { kind := .closeEdit, subjA := 0, subjB := 0, result := r, detailA := 0, detailB := 0, initiator := some i,
        at_ := (v.installDefault x).uptime } } = _
  rw [State.installDefault, hframe.lib, hframe.uptime]

theorem State.closed_units : (v.closed x r i).fl.units = v.fl.units ∧ (v.closed x r i).fl.rota = v.fl.rota := by
  have hline : (v.closed x r i).fl = _ := (Frame.installPlan v (v.lib.nv.defaultOf x)).line
  rw [hline]
  exact ⟨rfl, rfl⟩

theorem State.closed_stations : (v.closed x r i).vel.stations = v.vel.stations := State.stations_installPlan v _

theorem State.closed_tables (h : v.eng.state = .unconfigured) : SameTables v (v.closed x r i) := by
  obtain ⟨hbanks, harb, hstations, hfl⟩ :=
    SameTables.setActive (s := { v with plans := { v.plans with stack := [] } }) h (v.lib.nv.defaultOf x)
  exact ⟨hbanks, harb, hstations, hfl⟩

theorem State.closed_rebuilt {p : List (List Byte)} {f : FieldLine} {a : Arbiter} {l : List Station} (h : Rebuilt p f a l v) :
    Rebuilt p f a l (v.closed x r i) :=
  (h.installPlan (v.lib.nv.defaultOf x)).same rfl rfl rfl rfl

end Closed

/-! ### The three ends -/

/-- The controller's registers after a write that was read back. -/
def State.written (s : State) (store : SiteStore) (inUse : Option SiteStore) : State :=
  { s with
    lib := { s.lib with nv := { s.lib.nv with site := .stored store, marker := none }, staged := none, inUse := inUse, siteCut := false } }

/-- The mode back in SERVICE. -/
def State.served (s : State) : State := { s with lib := { s.lib with mode := .service } }

/-- The controller's registers after a write that failed its comparison. -/
def State.spoiled (s : State) : State :=
  { s with lib := { s.lib with nv := { s.lib.nv with site := .unusable, marker := none }, staged := none, mode := .service } }

section Endings
variable {s : State} {o : InFlight} {r : List (List Byte)}

theorem State.endClose_unconfigured (hr : s.lib.staged = some r) (h : s.eng.state = .unconfigured) :
    s.endClose o true =
      (s.written { parts := r, crc := siteCrc r } s.lib.inUse).served.closed (some { parts := r, crc := siteCrc r }) .done o.initiator := by
  simp only [State.endClose, hr, Option.getD_some, h, if_true]
  rfl

theorem State.endClose_configured (hr : s.lib.staged = some r) (h : s.eng.state ≠ .unconfigured) :
    s.endClose o true =
      (s.written { parts := r, crc := siteCrc r } (some { parts := r, crc := siteCrc r })).rebuild.served.closed
        (some { parts := r, crc := siteCrc r }) .done o.initiator := by
  simp only [State.endClose, hr, Option.getD_some, h, if_true, if_false]
  rfl

theorem State.endClose_failed : s.endClose o false = s.spoiled.closed s.lib.inUse .nvFault o.initiator := by
  rw [State.endClose, if_neg Bool.false_ne_true]
  rfl

/-- A rebuild leaves what the response leaves, beside the tables it writes. -/
theorem Frame.rebuild (s : State) :
    Frame
      { s with
        fl := { s.fl with units := buildUnits s.site, queue := [], inRow := 0, rota := none }
        arb := { slots := buildSlots s.site, queue := [] }
        banks := buildBanks s.site
        vel := { s.vel with stations := buildStations s.site } }
      s.rebuild :=
  (Frame.formThrust _).trans (Frame.finishAll _)

end Endings

/-- Settles O51: the end of the write by the engine's state and the outcome of the comparison. -/
theorem closeWriteEnds : Obligations.CloseWriteEnds := by
  intro s o r ho hk hr
  have hrun (b : Bool) : exec (.closeEditWriteDone b) s = .next (s.endClose o b) :=
    exec_endOf (f := fun t o => t.endClose o b) rfl ho hk
  refine ⟨fun heng => ?unconfigured, fun heng => ?configured, ?failed⟩
  case unconfigured =>
    generalize hv : (s.written { parts := r, crc := siteCrc r } s.lib.inUse).served = v
    have hend := (hrun true).trans (congrArg Host.Outcome.next (State.endClose_unconfigured hr heng))
    rw [hv] at hend
    have hlib := v.closed_lib (some { parts := r, crc := siteCrc r }) .done o.initiator
    have hplans := v.closed_plans (some { parts := r, crc := siteCrc r }) .done o.initiator
    have hinc := v.closed_inc (some { parts := r, crc := siteCrc r }) .done o.initiator
    have htrains := v.closed_trains (some { parts := r, crc := siteCrc r }) .done o.initiator
    obtain ⟨hbanks, harb, hstations, hfl⟩ :=
      v.closed_tables (some { parts := r, crc := siteCrc r }) .done o.initiator (by subst hv; exact heng)
    rw [NvLibrary.defaultOf_some (s := s) (by subst hv; rfl)] at hplans
    subst hv
    exact ⟨_, hend, congrArg (fun l => l.nv.site) hlib, congrArg (fun l => l.inUse) hlib, hbanks, harb, hstations, hfl, hplans, congrArg (fun l => l.staged) hlib, congrArg (fun l => l.mode) hlib, congrArg (fun l => l.inFlight) hlib, congrArg (fun l => l.nv.marker) hlib, congrArg (fun l => l.nv.slots) hlib,
      hinc, htrains, congrArg (fun l => l.record) hlib⟩
  case configured =>
    generalize hw : s.written { parts := r, crc := siteCrc r } (some { parts := r, crc := siteCrc r }) = w
    have hend := (hrun true).trans (congrArg Host.Outcome.next (State.endClose_configured hr heng))
    rw [hw] at hend
    have hframe := Frame.rebuild w
    have hsite : w.site = r := by subst hw; rfl
    have hrebuilt := State.rebuild_rebuilt w
    rw [hsite] at hrebuilt
    have hv : Rebuilt r _ _ _ w.rebuild.served := hrebuilt.same rfl rfl rfl rfl
    have hclosed := w.rebuild.served.closed_rebuilt (some { parts := r, crc := siteCrc r }) .done o.initiator hv
    have hlib := w.rebuild.served.closed_lib (some { parts := r, crc := siteCrc r }) .done o.initiator
    have hplans := w.rebuild.served.closed_plans (some { parts := r, crc := siteCrc r }) .done o.initiator
    have hinc := (w.rebuild.served.closed_inc (some { parts := r, crc := siteCrc r }) .done o.initiator).trans hframe.inc
    have htrains := (w.rebuild.served.closed_trains (some { parts := r, crc := siteCrc r }) .done o.initiator).trans hframe.trains
    have hnv : w.rebuild.served.lib = { w.lib with mode := .service } := congrArg (fun l => { l with mode := .service }) hframe.lib
    have huptime : w.rebuild.served.uptime = w.uptime := hframe.uptime
    rw [hnv, NvLibrary.defaultOf_some (s := s) (by subst hw; rfl)] at hplans
    rw [hnv, huptime] at hlib
    subst hw
    exact ⟨_, hend, congrArg (fun l => l.nv.site) hlib, congrArg (fun l => l.inUse) hlib, hclosed.fl, hclosed.arb, hclosed.stations,
      hclosed.banks, hclosed.verify, fun hquiet => State.endClose_configured hr heng ▸ State.banks_endClose_quiet o hr hquiet, hplans, congrArg (fun l => l.staged) hlib, congrArg (fun l => l.mode) hlib, congrArg (fun l => l.inFlight) hlib, congrArg (fun l => l.nv.marker) hlib, congrArg (fun l => l.nv.slots) hlib,
      hinc, htrains, congrArg (fun l => l.record) hlib⟩
  case failed =>
    have hlib := s.spoiled.closed_lib s.lib.inUse .nvFault o.initiator
    have hplans := s.spoiled.closed_plans s.lib.inUse .nvFault o.initiator
    obtain ⟨hunits, hrota⟩ := s.spoiled.closed_units s.lib.inUse .nvFault o.initiator
    rw [NvLibrary.defaultOf_eq_bind (v := s.spoiled.lib.nv) (s := s) rfl] at hplans
    exact ⟨_, (hrun false).trans (congrArg Host.Outcome.next State.endClose_failed), congrArg (fun l => l.nv.site) hlib,
      congrArg (fun l => l.inUse) hlib, hunits, hrota, s.spoiled.closed_stations s.lib.inUse .nvFault o.initiator,
      (Frame.installPlan s.spoiled _).banks, hplans, congrArg (fun l => l.staged) hlib, congrArg (fun l => l.mode) hlib, congrArg (fun l => l.inFlight) hlib, congrArg (fun l => l.nv.marker) hlib, congrArg (fun l => l.nv.slots) hlib,
      s.spoiled.closed_inc s.lib.inUse .nvFault o.initiator, s.spoiled.closed_trains s.lib.inUse .nvFault o.initiator, congrArg (fun l => l.record) hlib⟩

end Sys2Proof.Machine
end

section
/-! The governing record, the estimate and staging. -/

namespace Sys2Proof.Machine

open Sys2Proof

/-! ### The governing record (R14) -/

/-- The ranked entry `p` does not rank above `c`. -/
def NotAbove (c p : Nat × Incident) : Prop := ranksAbove p.1 p.2 c.1 c.2 = false

theorem ranksAbove_iff (i : Nat) (x : Incident) (j : Nat) (y : Incident) :
    ranksAbove i x j y = true ↔
      (x.cls = .confirmed ∧ y.cls ≠ .confirmed) ∨
        (x.cls = y.cls ∧ (x.firstReport < y.firstReport ∨ (x.firstReport = y.firstReport ∧ i < j))) := by
  unfold ranksAbove
  by_cases hc : x.cls = y.cls
  · by_cases hf : x.firstReport = y.firstReport
    · simp [hc, hf]
    · simp [hc, hf]
  · cases hx : x.cls <;> cases hy : y.cls <;> simp_all

theorem notAbove_iff (c p : Nat × Incident) :
    NotAbove c p ↔
      (c.2.cls = .confirmed ∧ p.2.cls ≠ .confirmed) ∨
        (c.2.cls = p.2.cls ∧ (c.2.firstReport < p.2.firstReport ∨ (c.2.firstReport = p.2.firstReport ∧ c.1 ≤ p.1))) := by
  rw [NotAbove, ← Bool.not_eq_true, ranksAbove_iff]
  cases hc : c.2.cls <;> cases hp : p.2.cls <;> simp <;> omega

theorem NotAbove.refl (c : Nat × Incident) : NotAbove c c := (notAbove_iff c c).2 (.inr ⟨rfl, .inr ⟨rfl, Nat.le_refl _⟩⟩)

theorem NotAbove.trans {c b p : Nat × Incident} (h : NotAbove c b) (k : NotAbove b p) : NotAbove c p := by
  rw [notAbove_iff] at h k ⊢
  rcases h with ⟨hc, hb⟩ | ⟨hcb, h⟩
  · rcases k with ⟨hb', -⟩ | ⟨hbp, -⟩
    · exact absurd hb' hb
    · exact .inl ⟨hc, hbp ▸ hb⟩
  · rcases k with ⟨hb, hp⟩ | ⟨hbp, k⟩
    · exact .inl ⟨hcb.trans hb, hp⟩
    · exact .inr ⟨hcb.trans hbp, by omega⟩

/-- What ranks above an entry has that entry not above it. -/
theorem NotAbove.of_ranksAbove {c p : Nat × Incident} (h : ranksAbove c.1 c.2 p.1 p.2 = true) : NotAbove c p := by
  rw [notAbove_iff]
  rcases (ranksAbove_iff ..).1 h with hcls | ⟨hcls, hlater⟩
  · exact .inl hcls
  · exact .inr ⟨hcls, by omega⟩

/-- Of two entries of different indices, the one that the other does not rank above ranks above it. -/
theorem NotAbove.ranks {c p : Nat × Incident} (h : NotAbove c p) (hi : p.1 ≠ c.1) : ranksAbove c.1 c.2 p.1 p.2 = true := by
  rw [ranksAbove_iff]
  rcases (notAbove_iff c p).1 h with hcls | ⟨hcls, hlater⟩
  · exact .inl hcls
  · exact .inr ⟨hcls, by omega⟩

/-- The better of the best and an entry is one of the two, and neither ranks above it. -/
theorem better_entry (o : Option (Nat × Incident)) (r : Incident) (i : Nat) :
    ∃ c, better o (some r, i) = some c ∧ (o = some c ∨ c = (i, r)) ∧ (∀ b, o = some b → NotAbove c b) ∧ NotAbove c (i, r) := by
  cases o with
  | none => exact ⟨(i, r), rfl, .inr rfl, fun b hb => (nomatch hb), .refl _⟩
  | some b =>
    cases hr : ranksAbove i r b.1 b.2 with
    | true => exact ⟨(i, r), by simp [better, hr], .inr rfl, fun d hd => Option.some.inj hd ▸ .of_ranksAbove hr, .refl _⟩
    | false => exact ⟨b, by simp [better, hr], .inl rfl, fun d hd => Option.some.inj hd ▸ .refl _, hr⟩

theorem foldl_better_some : ∀ (l : List (Option Incident × Nat)) (o : Option (Nat × Incident)) (c : Nat × Incident),
    l.foldl better o = some c →
      (o = some c ∨ (some c.2, c.1) ∈ l) ∧ (∀ b, o = some b → NotAbove c b) ∧ ∀ x j, (some x, j) ∈ l → NotAbove c (j, x)
  | [], o, c, h => ⟨.inl h, fun b hb => Option.some.inj (h.symm.trans hb) ▸ .refl _, fun x j hx => absurd hx List.not_mem_nil⟩
  | (none, i) :: l, o, c, h => by
    obtain ⟨hfrom, hbest, hall⟩ := foldl_better_some l o c h
    refine ⟨hfrom.imp_right (List.mem_cons_of_mem _), hbest, fun x j hx => ?_⟩
    rcases List.mem_cons.1 hx with hx | hx
    · exact nomatch congrArg Prod.fst hx
    · exact hall x j hx
  | (some r, i) :: l, o, c, h => by
    obtain ⟨d, hd, hof, hbetter, hentry⟩ := better_entry o r i
    rw [List.foldl_cons, hd] at h
    obtain ⟨hfrom, hbest, hall⟩ := foldl_better_some l (some d) c h
    have hcd := hbest d rfl
    refine ⟨?_, fun b hb => hcd.trans (hbetter b hb), fun x j hx => ?_⟩
    · rcases hfrom with hc | hc
      · obtain rfl := Option.some.inj hc
        exact hof.imp_right fun (hdi : _ = (i, r)) => by rw [hdi]; exact List.mem_cons_self
      · exact .inr (List.mem_cons_of_mem _ hc)
    · rcases List.mem_cons.1 hx with hx | hx
      · obtain ⟨hxr, rfl⟩ := Prod.mk.inj hx
        exact Option.some.inj hxr ▸ hcd.trans hentry
      · exact hall x j hx

theorem foldl_better_none : ∀ (l : List (Option Incident × Nat)) (o : Option (Nat × Incident)), l.foldl better o = none →
    ∀ p ∈ l, p.1 = none
  | [], _, _, p, hp => absurd hp List.not_mem_nil
  | (none, i) :: l, o, h, p, hp => by
    rcases List.mem_cons.1 hp with rfl | hp
    · rfl
    · exact foldl_better_none l o h p hp
  | (some r, i) :: l, o, h, p, hp => by
    obtain ⟨d, hd, -⟩ := better_entry o r i
    rw [List.foldl_cons, hd] at h
    exact absurd h (foldl_better_isSome l d)
where
  foldl_better_isSome : ∀ (l : List (Option Incident × Nat)) (d : Nat × Incident), l.foldl better (some d) ≠ none
    | [], _ => Option.some_ne_none _
    | (none, _) :: l, d => foldl_better_isSome l d
    | (some r, i) :: l, d => by
      obtain ⟨e, he, -⟩ := better_entry (some d) r i
      rw [List.foldl_cons, he]
      exact foldl_better_isSome l e

theorem mem_zipIdx_getD {l : List (Option Incident)} {x : Incident} {j : Nat} : (some x, j) ∈ l.zipIdx ↔ l.getD j none = some x := by
  rw [List.mem_zipIdx_iff_getElem?, List.getD_eq_getElem?_getD]
  cases l[j]? <;> simp

/-- Settles O17: the fold keeps an entry that no entry seen so far ranks above. -/
theorem governingRanksFirst : Obligations.GoverningRanksFirst := by
  intro table
  refine ⟨fun i hi => ?some, fun hnone j => ?none⟩
  case some =>
    obtain ⟨c, hc, rfl⟩ := Option.map_eq_some_iff.1 hi
    obtain ⟨hfrom, -, hall⟩ := foldl_better_some _ _ _ hc
    refine ⟨c.2, mem_zipIdx_getD.1 (hfrom.resolve_left (by simp)), fun j x hx hj => ?_⟩
    exact (hall x j (mem_zipIdx_getD.2 hx)).ranks hj
  case none =>
    have hall := foldl_better_none _ _ (Option.map_eq_none_iff.1 hnone)
    cases hx : table.getD j none with
    | none => rfl
    | some x => exact nomatch hall (some x, j) (mem_zipIdx_getD.2 hx)

/-! ### The estimate (R114) -/

theorem le_tdiv_of_mul_le {a n w : Int} (hw : 0 < w) (h : a * w ≤ n) : a ≤ n.tdiv w := by
  by_cases hn : 0 ≤ n
  · rw [Int.tdiv_eq_ediv_of_nonneg hn]
    exact Int.le_ediv_of_mul_le hw h
  · have hneg : (-n).tdiv w ≤ -a := by
      rw [Int.tdiv_eq_ediv_of_nonneg (by omega)]
      exact Int.ediv_le_of_le_mul hw (by rw [Int.neg_mul]; omega)
    rw [Int.neg_tdiv] at hneg
    omega

theorem tdiv_le_of_le_mul {b n w : Int} (hw : 0 < w) (h : n ≤ b * w) : n.tdiv w ≤ b := by
  have hneg := le_tdiv_of_mul_le (a := -b) (n := -n) hw (by rw [Int.neg_mul]; omega)
  rw [Int.neg_tdiv] at hneg
  omega

def totalWeight (used : List Station) : Int := (used.map (fun t => (t.weight : Int))).sum

def weightedSum (used : List Station) : Int := (used.map (fun t => (t.weight : Int) * t.velocity)).sum

theorem estimateOf_eq {used : List Station} (h : used ≠ []) : estimateOf used = some ((weightedSum used).tdiv (totalWeight used)) := by
  rw [estimateOf, if_neg (by simpa using h), ← List.sum_eq_foldl, ← List.sum_eq_foldl]
  rfl

theorem totalWeight_nonneg : ∀ used : List Station, 0 ≤ totalWeight used
  | [] => Int.le_refl 0
  | t :: l => by
    have hsum : totalWeight (t :: l) = t.weight + totalWeight l := List.sum_cons
    have hl := totalWeight_nonneg l
    omega

theorem totalWeight_pos : ∀ {used : List Station}, used ≠ [] → (∀ t ∈ used, 0 < t.weight) → 0 < totalWeight used
  | [], h, _ => absurd rfl h
  | t :: l, _, h => by
    have ht := h t List.mem_cons_self
    have hl := totalWeight_nonneg l
    have hsum : totalWeight (t :: l) = t.weight + totalWeight l := List.sum_cons
    omega

theorem weightedSum_between {lo hi : Int} : ∀ {used : List Station}, (∀ t ∈ used, lo ≤ t.velocity ∧ t.velocity ≤ hi) →
    lo * totalWeight used ≤ weightedSum used ∧ weightedSum used ≤ hi * totalWeight used
  | [], _ => by simp [totalWeight, weightedSum]
  | t :: l, h => by
    obtain ⟨hlo, hhi⟩ := h t List.mem_cons_self
    obtain ⟨ihlo, ihhi⟩ := weightedSum_between (fun x hx => h x (List.mem_cons_of_mem _ hx))
    have hw : totalWeight (t :: l) = t.weight + totalWeight l := List.sum_cons
    have hv : weightedSum (t :: l) = t.weight * t.velocity + weightedSum l := List.sum_cons
    have hnonneg : (0 : Int) ≤ t.weight := Int.natCast_nonneg _
    have hbelow : lo * t.weight ≤ t.weight * t.velocity := by
      rw [Int.mul_comm]
      exact Int.mul_le_mul_of_nonneg_left hlo hnonneg
    have habove : t.weight * t.velocity ≤ hi * t.weight := by
      rw [Int.mul_comm hi]
      exact Int.mul_le_mul_of_nonneg_left hhi hnonneg
    rw [hw, hv, Int.mul_add, Int.mul_add]
    exact ⟨Int.add_le_add hbelow ihlo, Int.add_le_add habove ihhi⟩

/-- Settles O30: the mean lies between the least and the greatest velocity, and truncation toward zero keeps it there. -/
theorem estimateBetween : Obligations.EstimateBetween := by
  refine ⟨rfl, fun used lo hi hne h => ?_⟩
  have hpos := totalWeight_pos hne (fun t ht => (h t ht).1)
  obtain ⟨hlo, hhi⟩ := weightedSum_between (fun t ht => (h t ht).2)
  exact ⟨_, estimateOf_eq hne, le_tdiv_of_mul_le hpos hlo, tdiv_le_of_le_mul hpos hhi⟩

/-! ### Staging (R121 to R124) -/

theorem State.setStage_stage (s : State) (n : Nat) :
    (s.setStage n).eng.stage = some n ∧ (s.setStage n).vel.dwell = .running (siteDwell s.site) := by
  have hframe := DemandFrame.finish (({ s with eng := { s.eng with stage := some n } }).startDwell)
  have heng : (s.setStage n).eng = _ := hframe.eng
  have hvel : (s.setStage n).vel = _ := hframe.vel
  rw [heng, hvel]
  exact ⟨rfl, rfl⟩

theorem State.evaluateStaging_rests {s : State} (h : s.eng.state ≠ .active ∨ s.vel.dwell ≠ .expired ∨ s.vel.projected = none) :
    s.evaluateStaging = s := by
  unfold State.evaluateStaging
  split
  · next hp _ _ _ =>
    rw [if_neg]
    rintro ⟨ha, hd⟩
    rcases h with h | h | h
    · exact h ha
    · exact h hd
    · exact nomatch hp.symm.trans h
  · rfl

theorem State.evaluateStaging_eq {s : State} {p : Int} {g : Target} {r : Row} {n : Nat} (ha : s.eng.state = .active)
    (hd : s.vel.dwell = .expired) (hp : s.vel.projected = some p) (hg : s.vel.target = some g) (hr : s.row = some r)
    (hn : s.eng.stage = some n) : s.evaluateStaging = s.stageOn p g.value r n := by
  simp only [State.evaluateStaging, hp, hg, hr, hn, ha, hd, and_self, if_true]

theorem State.stageUpPasses_some {s : State} {b : Bank} (h : s.nextBank = some b) (r : Row) :
    s.stageUpPasses r = true ↔ r.ceiling = 0 ∨ s.vel.thrust.getD 0 + (b.thrust : Int) ≤ (r.ceiling : Int) := by
  simp [State.stageUpPasses, h]

theorem State.stageUpPasses_fails {s : State} {r : Row}
    (h : ∀ b, s.nextBank = some b → r.ceiling ≠ 0 ∧ (r.ceiling : Int) < s.vel.thrust.getD 0 + (b.thrust : Int)) :
    s.stageUpPasses r = false := by
  cases hb : s.nextBank with
  | none => simp only [State.stageUpPasses, hb]
  | some b =>
    obtain ⟨hceiling, hover⟩ := h b hb
    rw [← Bool.not_eq_true, State.stageUpPasses_some hb]
    rintro (hzero | hunder)
    · exact hceiling hzero
    · omega

/-- Settles O29: the staging test takes one branch per position of the estimate. -/
theorem stagingMovesStage : Obligations.StagingMovesStage := by
  refine ⟨fun s => State.evaluateStaging_rests, fun s p g r n ha hd hp hg hr hn => ?_⟩
  rw [State.evaluateStaging_eq ha hd hp hg hr hn]
  refine ⟨fun hbelow => ⟨fun b hb hlt hpass => ?up, fun hfail => ?limit⟩, fun habove hbase => ?down, fun hlow hhigh => ?within⟩
  case up =>
    rw [State.stageOn, if_pos hbelow, if_pos ((State.stageUpPasses_some hb r).2 hpass), if_pos hlt]
    exact s.setStage_stage (n + 1)
  case limit =>
    rw [State.stageOn, if_pos hbelow, if_neg (by rw [State.stageUpPasses_fails hfail]; exact Bool.false_ne_true)]
  case down =>
    rw [State.stageOn, if_neg (by omega), if_pos ⟨habove, hbase⟩]
    exact s.setStage_stage (n - 1)
  case within =>
    rw [State.stageOn, if_neg (by omega), if_neg (fun h => by omega)]

end Sys2Proof.Machine
end

section
/-! The bank timers, the grant, line decisions and the enumeration. -/

namespace Sys2Proof.Machine

open Sys2Proof

/-! ### The end of STOPPING (R79) -/

theorem Report.atRest_iff (r : Report) : r.atRest = true ↔ r = .stopped ∨ ∃ trip, r = .tripped trip := by
  cases r <;> simp [Report.atRest]

section EndStopping
variable {x : BankContext} {b : Bank} {y : Turn} {r : Report}

/-- The bank as it leaves STOPPING: no coast and no stop cause. -/
def Bank.atEnd (b : Bank) : Bank := { b with stopCause := none, coast := .stopped }

theorem endStopping_lockout (hs : b.state = .stopping y) (hc : b.coast = .expired) (hl : b.latest = some r) (hr : r.atRest = true)
    (hp : b.lockoutPending = true) : endStopping x b = b.atEnd.lockOut := by
  simp only [endStopping, hs, hc, hl, hr, hp, Option.any_some, and_self, if_true, Bank.atEnd]

theorem endStopping_run {d : Spin} (hs : b.state = .stopping y) (hc : b.coast = .expired) (hl : b.latest = some r) (hr : r.atRest = true)
    (hp : b.lockoutPending = false) (hd : b.demand = .run d) :
    endStopping x b =
      { BankOut.only { b.atEnd with state := .queued d } with words := [if x.queued then .becomeStart else .join .start] } := by
  simp only [endStopping, hs, hc, hl, hr, hp, hd, Option.any_some, and_self, if_true, Bool.false_eq_true, if_false, Bank.atEnd]

/-- A bank that enters OFF with demand OFF has nothing to act on. -/
theorem endStopping_off (hs : b.state = .stopping y) (hc : b.coast = .expired) (hl : b.latest = some r) (hr : r.atRest = true)
    (hp : b.lockoutPending = false) (hd : b.demand = .off) :
    endStopping x b = { BankOut.only { b.atEnd with state := .off } with words := [.leave] } := by
  simp only [endStopping, hs, hc, hl, hr, hp, hd, Option.any_some, and_self, if_true, Bool.false_eq_true, if_false, Bank.atEnd]
  cases hx : x.live <;> simp [BankOut.thenAct, hx, actOnDemand, BankOut.only]

theorem endStopping_waits (h : b.coast ≠ .expired ∨ ∀ r, b.latest = some r → r.atRest = false) : endStopping x b = .only b := by
  unfold endStopping
  split
  · rw [if_neg]
    rintro ⟨hc, hl⟩
    obtain ⟨r, hr, hrest⟩ := (Option.any_eq_true _ _).1 hl
    rcases h with h | h
    · exact h hc
    · exact Bool.false_ne_true ((h r hr).symm.trans hrest)
  · rfl

end EndStopping

/-! ### The timers -/

theorem exec_coastTimerExpiry {s : State} {n k : Nat} {b : Bank} (hb : s.bank n = some b) (hc : b.coast = .running k) :
    exec (.coastTimerExpiry n) s = .next (s.commitBank (endStopping (s.bankContext n) { b with coast := .expired })).engineTakesBanks := by
  change Host.Outcome.next (s.coastExpiry n) = _
  simp only [State.coastExpiry, hb, hc, Timer.isRunning, if_true]
  rfl

theorem exec_startTimerExpiry {s : State} {n k : Nat} {b : Bank} (hb : s.bank n = some b) (hs : b.start = .running k)
    (he : s.fl.enumeration = .idle) :
    exec (.startTimerExpiry n) s = .next (s.commitBank (startTimeout (s.bankContext n) b)).engineTakesBanks := by
  change Host.Outcome.next (s.startExpiry n) = _
  simp only [State.startExpiry, hb, hs, he, Timer.isRunning, Enumeration.holdsLine, Bool.not_false, Bool.and_self, if_true]

/-- Settles O32: the coast timer's expiry runs the test of R79, the start timer's is a fault. -/
theorem bankTimersExpire : Obligations.BankTimersExpire := by
  intro s n k b hb
  refine ⟨fun x r hc hs hl hr => ?left, fun x hc hs hl => ?stays, fun d hst hs he => ?timeout⟩
  case left =>
    have hrest := (Report.atRest_iff r).2 hr
    rw [exec_coastTimerExpiry hb hc]
    refine ⟨fun hp => ?_, fun hp hd => ?_, fun d hp hd => ?_⟩
    · rw [endStopping_lockout (b := { b with coast := .expired }) hs rfl hl hrest hp]
      rfl
    · rw [endStopping_off (b := { b with coast := .expired }) hs rfl hl hrest hp hd]
      rfl
    · rw [endStopping_run (b := { b with coast := .expired }) hs rfl hl hrest hp hd]
      rfl
  case stays =>
    rw [exec_coastTimerExpiry hb hc, endStopping_waits (.inr fun r hr => ?_)]
    obtain ⟨hstopped, htripped⟩ := hl r hr
    rw [← Bool.not_eq_true, Report.atRest_iff]
    rintro (h | ⟨trip, h⟩)
    · exact hstopped h
    · exact htripped trip h
  case timeout =>
    rw [exec_startTimerExpiry hb hst he, startTimeout, hs]
    rfl

/-! ### The grant (R103, R80) -/

theorem granted_queued {x : BankContext} {b : Bank} {d : Spin} (h : b.state = .queued d) :
    granted x b =
      { BankOut.only { b with state := .starting d, start := .running x.startTimeout } with command := some (.run d) } := by
  rw [granted, h]

theorem granted_stopping {x : BankContext} {b : Bank} {d : Spin} (h : b.state = .stopping d.turn) :
    granted x b =
      { BankOut.only { b with state := .starting d, stopCause := none, coast := .stopped, start := .running x.startTimeout } with
        command := some (.run d) } := by
  rw [granted, h]
  cases d <;> rfl

/-- The arbiter after a grant to the head `q` in the free slot `k`. -/
def State.granting (s : State) (q : QueueEntry) (k : Nat) : State :=
  { s with arb := { slots := s.arb.slots.set k (some q.bank), queue := s.arb.queue.filter (fun e => e.bank != q.bank) } }

theorem exec_startGrant {s : State} {q : QueueEntry} {qs : List QueueEntry} {k : Nat} {b : Bank} (hq : s.arb.grantOrder = q :: qs)
    (hk : s.arb.freeSlot = some k) (hb : s.bank q.bank = some b) :
    exec .startGrant s = .next ((s.granting q k).commitBank (granted (s.bankContext q.bank) b)).engineTakesBanks := by
  change Host.Outcome.next s.grant = _
  simp only [State.grant, hq, hk, hb]
  rfl

/-- Settles O34: the grant takes the head of the queue, and acts by the bank's state. -/
theorem grantStartsHead : Obligations.GrantStartsHead := by
  intro s t q qs k b d hq hk hb ht
  obtain rfl : t = s.granting q k := ht
  refine ⟨fun hs => ?_, fun hs => ?_⟩
  · rw [exec_startGrant hq hk hb, granted_queued hs]
    rfl
  · rw [exec_startGrant hq hk hb, granted_stopping hs]
    rfl

/-! ### Line decisions (R134, R137, R138) -/

theorem State.lineFree_iff (s : State) :
    s.lineFree = true ↔ s.fl.phase = .idle ∧ s.fl.enumeration = .idle ∧ s.eng.state ≠ .unconfigured := by
  simp [State.lineFree, and_assoc]

theorem exec_lineDecision_free {s : State} (h : s.lineFree = true) : exec .lineDecision s = .next s.lineDecision :=
  congrArg Host.Outcome.next (if_pos h)

theorem State.sendPoll_some {s : State} {a : Nat} (h : s.fl.nextPoll = some a) :
    s.sendPoll = { s with fl := { s.fl with rota := some a, inRow := 0, phase := .sending (.poll a) } } := by
  rw [State.sendPoll, h]
  rfl

theorem State.sendPoll_phase (s : State) : s.sendPoll.fl.phase = s.fl.phase ∨ ∃ a, s.sendPoll.fl.phase = .sending (.poll a) := by
  cases h : s.fl.nextPoll with
  | none => rw [State.sendPoll, h]; exact .inl rfl
  | some a => rw [State.sendPoll_some h]; exact .inr ⟨a, rfl⟩

theorem State.lineDecision_polls {s : State} {a : Nat} (hp : s.fl.nextPoll = some a) (h : s.fl.queue = [] ∨ s.fl.inRow = 4) :
    s.lineDecision = s.sendPoll := by
  unfold State.lineDecision
  split
  · rfl
  · next hne =>
    have hrow : s.fl.inRow = 4 := h.resolve_left (fun hq => hne (by rw [hq]; rfl))
    rw [if_pos ⟨Nat.le_of_eq hrow.symm, by rw [hp]; rfl⟩]

theorem State.lineDecision_head {s : State} {c : CommandEntry} {rest : List CommandEntry} (hq : s.fl.queue = c :: rest)
    (hrow : s.fl.inRow ≤ 3) (hc : s.commandStands c = true) :
    s.lineDecision =
      { s with fl := { s.fl with queue := rest, inRow := s.fl.inRow + 1, phase := .sending (.command c.address c.command) } } := by
  have hmin : min 4 (s.fl.inRow + 1) = s.fl.inRow + 1 := by omega
  rw [State.lineDecision, hq, if_neg (by simp), if_neg (fun h => by omega), State.sendCommand, hq, takeOut, if_pos hc]
  simp only [hmin]
  rfl

theorem takeOut_passes {ok : CommandEntry → Bool} {c : CommandEntry} {rest : List CommandEntry} : ∀ {l : List CommandEntry},
    takeOut ok l = some (c, rest) → ok c = true
  | e :: es, h => by
    rw [takeOut] at h
    split at h
    · next he =>
      obtain ⟨rfl, -⟩ := Prod.mk.inj (Option.some.inj h)
      exact he
    · exact takeOut_passes h

/-- A line decision on an idle line that sends a command sends one that passes the check at take-out. -/
theorem State.lineDecision_command {s : State} {a : Nat} {x : DriveCommand} (hidle : s.fl.phase = .idle)
    (h : s.lineDecision.fl.phase = .sending (.command a x)) : s.commandStands { address := a, command := x } = true := by
  have hpoll (u : State) (hu : u.fl.phase = .idle) : u.sendPoll.fl.phase ≠ .sending (.command a x) := by
    rcases u.sendPoll_phase with hp | ⟨b, hp⟩
    · rw [hp, hu]; exact nofun
    · rw [hp]; exact nofun
  have hcommand (hc : s.sendCommand.fl.phase = .sending (.command a x)) : s.commandStands { address := a, command := x } = true := by
    cases ht : takeOut s.commandStands s.fl.queue with
    | none =>
      rw [State.sendCommand, ht] at hc
      exact absurd hc (hpoll { s with fl := { s.fl with queue := [] } } hidle)
    | some p =>
      rw [State.sendCommand, ht] at hc
      have hphase : LinePhase.sending (.command p.1.address p.1.command) = .sending (.command a x) := hc
      obtain ⟨rfl, rfl⟩ : p.1.address = a ∧ p.1.command = x := by simpa using hphase
      exact takeOut_passes ht
  unfold State.lineDecision at h
  split at h
  · exact absurd h (hpoll s hidle)
  · split at h
    · exact absurd h (hpoll s hidle)
    · exact hcommand h

theorem State.requestSent_sending {s : State} {r : FieldRequest} (h : s.fl.phase = .sending r) (hr : r ≠ .clearAddresses) :
    s.requestSent = s.setPhase (.window r) := by
  rw [State.requestSent, h]
  cases r with
  | clearAddresses => exact absurd rfl hr
  | _ => rfl

/-- Settles O36: the decision is the first of its cases that holds. -/
theorem lineDecisionChooses : Obligations.LineDecisionChooses := by
  intro s
  refine ⟨fun hphase henum heng => ?_, fun r hr hne => ?_, fun hclear => ?_⟩
  · have hfree := s.lineFree_iff.2 ⟨hphase, henum, heng⟩
    refine ⟨fun a ha hq => ?_, fun c rest hq hrow hc => ?_⟩
    · rw [exec_lineDecision_free hfree, State.lineDecision_polls ha hq, State.sendPoll_some ha]
    · rw [exec_lineDecision_free hfree, State.lineDecision_head hq hrow hc]
  · exact congrArg Host.Outcome.next (State.requestSent_sending hr hne)
  · change Host.Outcome.next s.requestSent = _
    rw [State.requestSent, hclear]
    rfl

/-- Settles O37: a RUN sent has passed the check at take-out. -/
theorem noRunToBarredBank : Obligations.NoRunToBarredBank := by
  intro s t a d hidle ht hsend
  obtain rfl := Host.Outcome.next.inj ht
  split at hsend
  · have hstands := State.lineDecision_command hidle hsend
    unfold State.commandStands at hstands
    split at hstands
    · exact nomatch hstands
    · next u hu =>
      obtain ⟨-, hbank⟩ := Bool.and_eq_true_iff.1 hstands
      obtain ⟨b, hb, hok⟩ := (Option.any_eq_true _ _).1 hbank
      obtain ⟨hstate, hheat⟩ := Bool.and_eq_true_iff.1 hok
      exact ⟨u, b, hu, hb, of_decide_eq_true hstate, by simpa using hheat⟩
  · exact nomatch hidle.symm.trans hsend

end Sys2Proof.Machine
end

section
/-! A drive's report by the bank's state (R81 to R87). -/

namespace Sys2Proof.Machine

open Sys2Proof

/-- The record with a report received. -/
def Bank.seen (b : Bank) (r : Report) : Bank := { b with latest := some r }

section Reports
variable {x : BankContext} {b : Bank} {r : Report}

/-- With no command waiting, a report other than LOCAL is reconciled, but for a bank at LOCAL or UNREACHABLE. -/
theorem takeReport_reconciles (hr : r ≠ .atLocal) (hu : b.state ≠ .unreachable) (hl : b.state ≠ .atLocal) :
    takeReport x b r false = reconcile x (b.seen r) r := by
  rw [takeReport, if_neg hr, if_neg (not_or.2 ⟨hu, hl⟩), if_neg Bool.false_ne_true]
  rfl

theorem takeReport_waits (hr : r ≠ .atLocal) (hu : b.state ≠ .unreachable) (hl : b.state ≠ .atLocal) :
    takeReport x b r true = endStopping x (b.seen r) := by
  rw [takeReport, if_neg hr, if_neg (not_or.2 ⟨hu, hl⟩), if_pos rfl]
  rfl

theorem takeReport_toLocal {w : Bool} :
    takeReport x b .atLocal w = if b.state = .atLocal then .only (b.seen .atLocal) else (b.seen .atLocal).withdraw .atLocal := by
  rw [takeReport, if_pos rfl]
  rfl

theorem takeReport_starting {d : Spin} (h : b.state = .starting d) (hr : r ≠ .atLocal) :
    takeReport x b r false = reconcileStarting x (b.seen r) d r := by
  rw [takeReport_reconciles hr (by rw [h]; exact nofun) (by rw [h]; exact nofun), reconcile, show (b.seen r).state = _ from h]

theorem takeReport_running {d : Spin} (h : b.state = .running d) (hr : r ≠ .atLocal) :
    takeReport x b r false = reconcileRunning x (b.seen r) d r := by
  rw [takeReport_reconciles hr (by rw [h]; exact nofun) (by rw [h]; exact nofun), reconcile, show (b.seen r).state = _ from h]

theorem takeReport_idle {d : Spin} (h : b.state = .off ∨ b.state = .queued d) (hr : r ≠ .atLocal) :
    takeReport x b r false = reconcileIdle x (b.seen r) r := by
  rcases h with h | h <;>
    rw [takeReport_reconciles hr (by rw [h]; exact nofun) (by rw [h]; exact nofun), reconcile, show (b.seen r).state = _ from h]

theorem takeReport_stopping {z : Turn} (h : b.state = .stopping z) (hr : r ≠ .atLocal) :
    takeReport x b r false = reconcileStopping x (b.seen r) r := by
  rw [takeReport_reconciles hr (by rw [h]; exact nofun) (by rw [h]; exact nofun), reconcile, show (b.seen r).state = _ from h]

theorem takeReport_lockedOut (h : b.state = .lockedOut) (hr : r ≠ .atLocal) :
    takeReport x b r false = reconcileLockedOut (b.seen r) r := by
  rw [takeReport_reconciles hr (by rw [h]; exact nofun) (by rw [h]; exact nofun), reconcile, show (b.seen r).state = _ from h]

theorem takeReport_verify (h : b.state = .verify) (hr : r ≠ .atLocal) :
    takeReport x b r false = reconcileVerify x (b.seen r) r := by
  rw [takeReport_reconciles hr (by rw [h]; exact nofun) (by rw [h]; exact nofun), reconcile, show (b.seen r).state = _ from h]

end Reports

theorem endStopping_notStopping {x : BankContext} {b : Bank} (h : ∀ y, b.state ≠ .stopping y) : endStopping x b = .only b := by
  unfold endStopping
  split
  · next y hy => exact absurd hy (h y)
  · rfl

theorem Spin.opposite_ne (d : Spin) : d.opposite ≠ d := by cases d <;> exact nofun

/-! ### What each state makes of a report -/

section Outcomes
variable {x : BankContext} {b : Bank}

theorem reconcileStarting_opposite (b : Bank) (d : Spin) {r : Report} (h : r = .run d.opposite ∨ r = .accel d.opposite) :
    reconcileStarting x b d r = faultStop x b d.turn .wrongDirection 0 (some .stop) [.release] := by
  rcases h with rfl | rfl <;> exact if_neg d.opposite_ne

theorem reconcileRunning_same (b : Bank) (d : Spin) {r : Report} (h : r = .run d ∨ r = .accel d) :
    reconcileRunning x b d r = .only b := by
  rcases h with rfl | rfl <;> exact if_pos rfl

theorem reconcileRunning_opposite (b : Bank) (d : Spin) {r : Report} (h : r = .run d.opposite ∨ r = .accel d.opposite) :
    reconcileRunning x b d r = faultStop x b .unknown .wrongDirection 0 (some .stop) [] := by
  rcases h with rfl | rfl <;> exact if_neg d.opposite_ne

/-- A bank that has just entered OFF, and holds no demand that it may act on, rests. -/
theorem thenAct_off (h : x.live = false ∨ b.demand = .off) (hs : b.state = .off) : (BankOut.only b).thenAct x = .only b := by
  unfold BankOut.thenAct
  split
  · next hlive =>
    have hd := h.resolve_left (by simp [hlive])
    simp [actOnDemand, BankOut.only, hs, hd]
  · rfl

theorem thenAct_off_run {y : Spin} (hlive : x.live = true) (hs : b.state = .off) (hd : b.demand = .run y) :
    (BankOut.only b).thenAct x = { BankOut.only { b with state := .queued y } with words := [.join .start] } := by
  simp [BankOut.thenAct, hlive, actOnDemand, BankOut.only, hs, hd]

/-- A bank that has just entered RUNNING from VERIFY keeps running on a demand of its own direction. -/
theorem thenAct_running {y : Spin} (h : x.live = false ∨ b.demand = .run y) (hs : b.state = .running y) :
    (BankOut.only b).thenAct x = .only b := by
  unfold BankOut.thenAct
  split
  · next hlive =>
    have hd := h.resolve_left (by simp [hlive])
    simp [actOnDemand, BankOut.only, hs, hd]
  · rfl

theorem thenAct_running_stops {y : Spin} (hlive : x.live = true) (hd : b.demand ≠ .run y) (hs : b.state = .running y) :
    (BankOut.only b).thenAct x = { BankOut.only (b.stopping y.turn .commanded x.coast) with command := some .stop } := by
  simp [BankOut.thenAct, hlive, actOnDemand, BankOut.only, hs, hd]

theorem reconcileVerify_run (b : Bank) (y : Spin) {r : Report} (h : r = .run y ∨ r = .accel y) : reconcileVerify x b r = verifyRuns x b y := by
  rcases h with rfl | rfl <;> rfl

theorem verifyRuns_pending {y : Spin} (h : b.lockoutPending = true) :
    verifyRuns x b y = { BankOut.only (b.stopping y.turn .fault x.coast) with command := some .stop } := if_pos h

theorem verifyRuns_free {y : Spin} (h : b.lockoutPending = false) :
    verifyRuns x b y = (BankOut.only { b with state := .running y }).thenAct x := if_neg (by simp [h])

end Outcomes

theorem mem_pair {α : Type} {r p q : α} : r ∈ [p, q] ↔ r = p ∨ r = q := by simp

/-- Settles O35: each cell is one branch of the reconciliation by state. -/
theorem reconciliationOutcomes : Obligations.ReconciliationOutcomes := by
  intro x b d trip
  refine ⟨fun hs => ?starting, fun hs => ?running, fun hs => ?idle, fun z hs => ?stopping, fun hs => ?lockedOut, fun hs => ?verify,
    fun waits => ⟨fun hs => ?toLocal, fun hs => ?stillLocal, fun r hr hs => ?returns⟩, fun r hr hl hu hc => ?waits⟩
  case starting =>
    refine ⟨?_, ?_, ?_, ?_, ?_, fun r hr => ?_⟩
    · rw [takeReport_starting hs (by nofun)]
      exact if_pos rfl
    · rw [takeReport_starting hs (by nofun)]
      exact if_pos rfl
    · rw [takeReport_starting hs (by nofun)]
      rfl
    · rw [takeReport_starting hs (by nofun)]
      rfl
    · rw [takeReport_starting hs (by nofun)]
      rfl
    · have hr' := mem_pair.1 hr
      rw [takeReport_starting hs (by rintro rfl; simp at hr), reconcileStarting_opposite _ d hr']
      rfl
  case running =>
    refine ⟨fun r hr => ?_, ?_, ?_, ?_, fun r hr => ?_⟩
    · rw [takeReport_running hs (by rintro rfl; simp at hr), reconcileRunning_same _ d (mem_pair.1 hr)]
      rfl
    · rw [takeReport_running hs (by nofun)]
      rfl
    · rw [takeReport_running hs (by nofun)]
      rfl
    · rw [takeReport_running hs (by nofun)]
      rfl
    · rw [takeReport_running hs (by rintro rfl; simp at hr), reconcileRunning_opposite _ d (mem_pair.1 hr)]
      rfl
  case idle =>
    refine ⟨?_, ?_, ?_, fun y r hr => ?_⟩
    · rw [takeReport_idle hs (by nofun)]
      rfl
    · rw [takeReport_idle hs (by nofun)]
      rfl
    · rw [takeReport_idle hs (by nofun)]
      rfl
    · rcases mem_pair.1 hr with rfl | rfl <;> rw [takeReport_idle hs (by nofun)] <;> rfl
  case stopping =>
    have hrest (r : Report) (hr : r ∈ [Report.stopped, .decel, .tripped trip]) :
        takeReport x b r false = endStopping x (b.seen r) := by
      rcases List.mem_cons.1 hr with rfl | hr
      · exact takeReport_stopping hs (by nofun)
      · rcases mem_pair.1 hr with rfl | rfl <;> exact takeReport_stopping hs (by nofun)
    refine ⟨fun y r hr => ?_, fun r hr hc => ?_, fun hc => ⟨?_, fun r hr => ?_⟩⟩
    · rcases mem_pair.1 hr with rfl | rfl <;> rw [takeReport_stopping hs (by nofun)] <;> rfl
    · rw [hrest r hr, endStopping_waits (b := b.seen r) (.inl hc)]
      rfl
    · rw [hrest .decel (by simp), endStopping_waits (b := b.seen .decel) (.inr fun r hr => Option.some.inj hr ▸ rfl)]
      rfl
    · have hatRest : r.atRest = true := by rcases mem_pair.1 hr with rfl | rfl <;> rfl
      rw [hrest r (by rcases mem_pair.1 hr with rfl | rfl <;> simp)]
      refine ⟨fun hp => ?_, fun hp hd => ?_, fun y hp hd => ?_⟩
      · rw [endStopping_lockout (b := b.seen r) hs hc rfl hatRest hp]
        rfl
      · rw [endStopping_off (b := b.seen r) hs hc rfl hatRest hp hd]
        rfl
      · rw [endStopping_run (b := b.seen r) hs hc rfl hatRest hp hd]
        rfl
  case lockedOut =>
    refine ⟨fun r hr => ?_, fun y r hr => ?_⟩
    · rcases List.mem_cons.1 hr with rfl | hr
      · rw [takeReport_lockedOut hs (by nofun)]
        rfl
      · rcases mem_pair.1 hr with rfl | rfl <;> rw [takeReport_lockedOut hs (by nofun)] <;> rfl
    · rcases mem_pair.1 hr with rfl | rfl <;> rw [takeReport_lockedOut hs (by nofun)] <;> rfl
  case verify =>
    have hruns (y : Spin) (r : Report) (hr : r ∈ [Report.run y, .accel y]) : takeReport x b r false = verifyRuns x (b.seen r) y := by
      rw [takeReport_verify hs (by rintro rfl; simp at hr), reconcileVerify_run _ y (mem_pair.1 hr)]
    have hstopped : takeReport x b .stopped false =
        if b.lockoutPending then (b.seen .stopped).lockOut else (BankOut.only { b.seen .stopped with state := .off }).thenAct x :=
      takeReport_verify hs (by nofun)
    refine ⟨?_, ?_, fun hp => ⟨?_, fun y r hr => ?_⟩, fun hp hd => ?_, fun y hp hx hd => ?_, fun y hp r hr => ⟨fun h => ?_, fun hx hd => ?_⟩⟩
    · rw [takeReport_verify hs (by nofun)]
      rfl
    · rw [takeReport_verify hs (by nofun)]
      rfl
    · rw [hstopped, if_pos hp]
      exact ⟨rfl, rfl, rfl⟩
    · rw [hruns y r hr, verifyRuns_pending (b := b.seen r) hp]
      rfl
    · rw [hstopped, if_neg (by simp [hp]), thenAct_off (b := { b.seen .stopped with state := .off }) hd rfl]
      rfl
    · rw [hstopped, if_neg (by simp [hp]), thenAct_off_run (b := { b.seen .stopped with state := .off }) hx rfl hd]
      rfl
    · rw [hruns y r hr, verifyRuns_free (b := b.seen r) hp, thenAct_running (b := { b.seen r with state := .running y }) h rfl]
      rfl
    · rw [hruns y r hr, verifyRuns_free (b := b.seen r) hp, thenAct_running_stops (b := { b.seen r with state := .running y }) hx hd rfl]
      rfl
  case toLocal => exact takeReport_toLocal.trans (if_neg hs)
  case stillLocal => exact takeReport_toLocal.trans (if_pos hs)
  case returns => exact (if_neg hr).trans (if_pos hs.symm)
  case waits =>
    rw [takeReport_waits hr hu hl]
    by_cases hy : ∃ y, b.state = .stopping y
    · exact endStopping_waits (b := b.seen r) (.inl (hc hy))
    · exact endStopping_notStopping (b := b.seen r) (fun y h => hy ⟨y, h⟩)

end Sys2Proof.Machine
end

section
/-! Exchanges with a position: replies, misses and the enumeration (R111 to R116, R129 to R132, R141 to R144). -/

namespace Sys2Proof.Machine

open Sys2Proof

/-! ### Work on a bank, and then the engine -/

theorem Frame.bankWork (s : State) {n : Nat} {b : Bank} (o : BankOut) (hb : s.bank n = some b) (ho : o.bank.fixed = b.fixed)
    (ha : b.state.placed (s.arb.queued n) → o.agrees b.state (s.arb.queued n)) : Frame s (s.commitBank o).engineTakesBanks :=
  (Frame.commitBank s o hb ho ha).trans (Frame.engineTakesBanks _)

theorem State.bankReport_some {s : State} {n : Nat} {b : Bank} (h : s.bank n = some b) (r : Report) (w : Bool) :
    s.bankReport n r w = (s.commitBank (Machine.takeReport (s.bankContext n) b r w)).engineTakesBanks := by
  rw [State.bankReport, h]

theorem Frame.bankReport (s : State) (n : Nat) (r : Report) (w : Bool) : Frame s (s.bankReport n r w) := by
  cases hb : s.bank n with
  | none => rw [State.bankReport, hb]; exact .refl s
  | some b =>
    rw [State.bankReport_some hb]
    exact Frame.bankWork s _ hb (fixed_takeReport _ b r w) (agrees_takeReport _ b r w _ rfl)

theorem State.bankLost_some {s : State} {n : Nat} {b : Bank} (h : s.bank n = some b) :
    s.bankLost n = (s.commitBank (unreachable b)).engineTakesBanks := by
  rw [State.bankLost, h]

theorem Frame.bankLost (s : State) (n : Nat) : Frame s (s.bankLost n) := by
  cases hb : s.bank n with
  | none => rw [State.bankLost, hb]; exact .refl s
  | some b =>
    rw [State.bankLost_some hb]
    exact Frame.bankWork s _ hb (fixed_unreachable b) (agrees_unreachable b _)

theorem unreachable_lost {b : Bank} (ha : b.state ≠ .unassigned) (hu : b.state ≠ .unreachable) :
    unreachable b = { b.withdraw .unreachable with notices := [.unitUnreachable b.address .drive b.number] } :=
  if_neg (not_or.2 ⟨ha, hu⟩)

/-! ### An exchange with a position -/

theorem Frame.enumeration {s t : State} (h : Frame s t) : t.fl.enumeration = s.fl.enumeration := by rw [h.line]

theorem State.afterExchange_idle {s : State} (h : s.fl.enumeration = .idle) : s.afterExchange = s :=
  if_neg (by rw [h]; exact nofun)

/-- The line at rest again, with the unit at a position changed. -/
def State.exchanged (s : State) (a : Nat) (u : FieldUnit) : State :=
  { s with fl := { s.fl with phase := .idle, units := s.fl.units.set (a - 1) u } }

theorem FieldUnit.missedOne_eq (u : FieldUnit) :
    u.missedOne = { u with missed := min 3 (u.missed + 1), reachable := u.reachable && decide (u.missed + 1 < 3) } := by
  have h : (min 3 (u.missed + 1) < 3) = (u.missed + 1 < 3) := by rw [eq_iff_iff]; omega
  simp only [FieldUnit.missedOne, h]

theorem FieldUnit.fell_iff (u : FieldUnit) :
    (u.reachable && !u.missedOne.reachable) = true ↔ 2 ≤ u.missed ∧ u.reachable = true := by
  rw [FieldUnit.missedOne_eq]
  cases u.reachable <;> simp

section Missed
variable {s : State} {a : Nat} {u : FieldUnit}

theorem State.windowExpires_poll (h : s.fl.phase = .window (.poll a)) :
    s.windowExpires = ((s.setPhase .idle).unitMissed a true).afterExchange := by
  rw [State.windowExpires, h]

theorem State.unitMissed_drive (hu : s.fl.unit a = some u) (hk : u.kind = .drive) :
    (s.setPhase .idle).unitMissed a true =
      if u.reachable && !u.missedOne.reachable then (s.exchanged a u.missedOne).bankLost u.number else s.exchanged a u.missedOne := by
  have hunit : (s.setPhase .idle).fl.unit a = some u := hu
  simp only [State.unitMissed, hunit, hk]
  rfl

theorem State.unitMissed_station (hu : s.fl.unit a = some u) (hk : u.kind = .station) :
    (s.setPhase .idle).unitMissed a true =
      (if u.reachable && !u.missedOne.reachable then (s.exchanged a u.missedOne).raise (.unitUnreachable a .station u.number)
        else s.exchanged a u.missedOne).stationPolled u.number none := by
  have hunit : (s.setPhase .idle).fl.unit a = some u := hu
  simp only [State.unitMissed, hunit, hk, if_true]
  rfl

end Missed

/-! ### A bank lost by its third miss -/

/-- The record of a bank that the field has withdrawn, with the failures and the pending lockout it had. -/
def Bank.Withdrawn (s : State) (b c : Bank) : Prop :=
  c.state = .unreachable ∧ c.coast = .stopped ∧ c.start = .stopped ∧
    (s.eng.state ≠ .startup →
      c.failures = b.failures ∧ c.lockoutPending = (b.lockoutPending || decide (b.state = .lockedOut)))

theorem Bank.Withdrawn.resting (s : State) (b : Bank) : Resting (Bank.Withdrawn s b) where
  demand _ _ h := h
  heat _ _ h := h
  act x c h := by
    obtain ⟨hstate, -⟩ := id h
    simpa [actOnDemand, hstate, BankOut.only] using h

theorem State.commitBank_eng (s : State) (o : BankOut) : (s.commitBank o).eng = s.eng := by
  unfold State.commitBank
  dsimp only
  split
  · rw [State.eng_raiseAll]
  · rw [State.eng_formThrust, State.eng_raiseAll]

theorem State.bankLost_withdrawn {s : State} {n : Nat} {b : Bank} (hb : s.bank n = some b) (ha : b.state ≠ .unassigned)
    (hu : b.state ≠ .unreachable) : (s.bankLost n).bankHas n (Bank.Withdrawn s b) := by
  have hnumber : b.number = n := (State.bank_mem hb).2
  rw [State.bankLost_some hb, unreachable_lost ha hu]
  refine State.bankHas.engineTakesBanks (Bank.Withdrawn.resting s b) (fun hstart c hc => ?_) ?_
  · rw [State.commitBank_eng] at hstart
    obtain ⟨hstate, hcoast, hrun, -⟩ := hc
    exact ⟨hstate, hcoast, hrun, fun hne => absurd hstart hne⟩
  · exact ⟨_, State.bank_commitBank hb _ hnumber, rfl, rfl, rfl, fun _ => ⟨rfl, rfl⟩⟩

/-- Settles O39: a poll unanswered is a miss of its unit, which a drive's third turns into the loss of its bank. -/
theorem missCounted : Obligations.MissCounted := by
  intro s t a u hphase henum hu ht
  obtain rfl : t = s.exchanged a u.missedOne := by rw [FieldUnit.missedOne_eq]; exact ht
  have hrun (v : State) (h : (s.setPhase .idle).unitMissed a true = v) (hv : v.fl.enumeration = .idle) :
      exec .replyWindowExpiry s = .next v := by
    change Host.Outcome.next s.windowExpires = _
    rw [State.windowExpires_poll hphase, h, State.afterExchange_idle hv]
  refine ⟨fun hk => ⟨fun hmiss => ?counted, fun hmiss hreach b hb ha hun => ?lost⟩, fun hk => ⟨_, rfl, ?station⟩⟩
  case counted =>
    refine hrun _ ?_ henum
    rw [State.unitMissed_drive hu hk, if_neg]
    rw [FieldUnit.fell_iff]
    rintro ⟨htwo, hreach⟩
    rcases hmiss with h | h
    · omega
    · exact Bool.false_ne_true (h.symm.trans hreach)
  case lost =>
    have hexec : exec .replyWindowExpiry s = .next ((s.exchanged a u.missedOne).bankLost u.number) := by
      refine hrun _ ?_ ((Frame.bankLost _ _).enumeration.trans henum)
      rw [State.unitMissed_drive hu hk, if_pos (u.fell_iff.2 ⟨hmiss, hreach⟩)]
    refine ⟨hexec.trans ?_, ?_⟩
    · rw [State.bankLost_some (s := s.exchanged a u.missedOne) hb, unreachable_lost ha hun]
      rfl
    · obtain ⟨b', hb', hstate, hcoast, hstart, hrest⟩ :=
        State.bankLost_withdrawn (s := s.exchanged a u.missedOne) hb ha hun
      exact ⟨_, b', hexec, hb', hstate, hcoast, hstart, hrest⟩
  case station =>
    have hfell : (u.reachable && !u.missedOne.reachable) = decide (2 ≤ u.missed ∧ u.reachable = true) := by
      rw [Bool.eq_iff_iff, u.fell_iff, decide_eq_true_iff]
    refine hrun _ ?_ ?_
    · rw [State.unitMissed_station hu hk, hfell]
      simp only [decide_eq_true_eq]
      rfl
    · rw [(Frame.completeRound _).enumeration]
      split <;> exact henum

/-! ### Replies -/

section Replied
variable {s : State} {a hi lo : Byte} {u : FieldUnit}

/-- A reply to a poll that passes the test of its status ends the exchange. -/
theorem State.takeReply_poll (hphase : s.fl.phase = .window (.poll a.toNat)) (hok : s.statusOk a.toNat hi lo = true) :
    s.takeReply a hi lo = ((s.setPhase .idle).unitReplied a.toNat true hi lo).afterExchange := by
  simp only [State.takeReply, hphase, hok, and_self, if_true]

theorem State.statusOk_drive {r : Report} (hu : s.fl.unit a.toNat = some u) (hr : Report.ofStatus hi lo = some r) :
    s.statusOk a.toNat hi lo = true := by
  simp [State.statusOk, hu, hr]

theorem State.statusOk_station (hu : s.fl.unit a.toNat = some u) (hk : u.kind = .station) : s.statusOk a.toNat hi lo = true := by
  simp [State.statusOk, hu, hk]

theorem State.unitReplied_drive {r : Report} (hu : s.fl.unit a.toNat = some u) (hk : u.kind = .drive)
    (hr : Report.ofStatus hi lo = some r) (isPoll : Bool) :
    (s.setPhase .idle).unitReplied a.toNat isPoll hi lo =
      (s.exchanged a.toNat u.replied).bankReport u.number r (s.fl.commandWaits a.toNat) := by
  have hunit : (s.setPhase .idle).fl.unit a.toNat = some u := hu
  simp only [State.unitReplied, hunit, hk, hr]
  rfl

theorem State.unitReplied_station (hu : s.fl.unit a.toNat = some u) (hk : u.kind = .station) :
    (s.setPhase .idle).unitReplied a.toNat true hi lo =
      (s.exchanged a.toNat u.replied).stationPolled u.number
        (some { velocity := (readingOfStatus hi lo).1, quality := (readingOfStatus hi lo).2, at_ := s.uptime }) := by
  have hunit : (s.setPhase .idle).fl.unit a.toNat = some u := hu
  simp only [State.unitReplied, hunit, hk, if_true]
  rfl

end Replied

/-! ### The round (R112 to R116) -/

theorem State.completeRound_waits {s : State} (h : ∃ x ∈ s.vel.stations, x.polled = false ∧ s.stationReachable x.number = true) :
    s.completeRound = s := by
  obtain ⟨x, hx, hpolled, hreach⟩ := h
  refine if_neg fun hall => ?_
  have hdone := List.all_eq_true.1 hall x hx
  simp [hpolled, hreach] at hdone

theorem State.completeRound_done {s : State} (h : ∀ x ∈ s.vel.stations, x.polled = true ∨ s.stationReachable x.number = false) :
    s.completeRound = s.formEstimate.evaluateStaging.clearMarks := by
  refine if_pos (List.all_eq_true.2 fun x hx => ?_)
  rcases h x hx with h | h <;> simp [h]

theorem State.stationUsed_iff (s : State) (x : Station) :
    s.stationUsed x = true ↔
      (∃ r, x.reading = some r ∧ r.quality = .good) ∧ 0 < x.weight ∧ s.stationReachable x.number = true ∧
        inHeat s.eng.heat x.chainage = false := by
  simp [State.stationUsed, Option.any_eq_true, and_assoc]

theorem estimateOf_ite (used : List Station) :
    estimateOf used = if used = [] then none else some ((weightedSum used).tdiv (totalWeight used)) := by
  split
  · next h => rw [h]; rfl
  · next h => exact estimateOf_eq h

/-- The state with its estimate, used fields and P formed from the stations that `used` picks. -/
def State.withEstimate (s : State) (used : Station → Bool) (e : Option Int) : State :=
  { s with
    vel := { s.vel with
      rounds := s.vel.rounds + 1
      estimate := e
      stations := s.vel.stations.map (fun (x : Station) => { x with used := used x })
      projected := s.projectedFrom e } }

theorem State.formEstimate_eq {s : State} {e : Option Int} (h : e = estimateOf (s.vel.stations.filter s.stationUsed)) :
    s.formEstimate =
      if e.isSome = s.vel.estimate.isSome then s.withEstimate s.stationUsed e
      else (s.withEstimate s.stationUsed e).raise (.estimateInvalid e.isSome) := by
  subst h
  rfl

/-- Settles O38: a round completes when no reachable station is left unpolled, and a reply in the window is taken by the kind of its unit. -/
theorem repliesTaken : Obligations.RepliesTaken := by
  refine ⟨fun s => ⟨State.completeRound_waits, fun used e t v hdone hused he ht hv => ?round⟩,
    fun s a hi lo u hphase henum hu => ⟨fun r b hk hr hb => ⟨s.exchanged a.toNat u.replied, rfl, ?drive⟩, fun hk => ⟨_, rfl, ?station⟩⟩⟩
  case round =>
    obtain rfl : used = s.stationUsed := funext fun x => Bool.eq_iff_iff.2 ((hused x).trans (s.stationUsed_iff x).symm)
    have he' : e = estimateOf (s.vel.stations.filter s.stationUsed) := he.trans (estimateOf_ite _).symm
    obtain rfl : t = s.withEstimate s.stationUsed e := ht
    rw [State.completeRound_done hdone, State.formEstimate_eq he', ← hv]
    rfl
  case drive =>
    change Host.Outcome.next (s.takeReply a hi lo) = _
    rw [State.takeReply_poll hphase (State.statusOk_drive hu hr), State.unitReplied_drive hu hk hr, State.bankReport_some (by exact hb)]
    rfl
  case station =>
    change Host.Outcome.next (s.takeReply a hi lo) = _
    rw [State.takeReply_poll hphase (State.statusOk_station hu hk), State.unitReplied_station hu hk]
    rfl

end Sys2Proof.Machine
end

section
/-! The enumeration (R140 to R144). -/

namespace Sys2Proof.Machine

open Sys2Proof

theorem State.startEnumeration_eq (s : State) :
    s.startEnumeration =
      { s.clearMarks with
        fl := { s.fl with
          units := s.fl.units.map (fun (u : FieldUnit) => { u with assigned := false }), enumeration := .running 1
          phase := .sending .clearAddresses } } := rfl

/-- ENUMERATE accepted on an idle line. -/
theorem State.enumerateUnits_idle {s : State} (i : PortId) (hq : s.eng.state = .quiet) (ho : s.lib.inFlight = none)
    (hm : s.lib.mode = .service) (hb : s.banks.all (fun b => b.state.allowsEnumeration) = true) (hp : s.fl.phase = .idle) :
    s.enumerateUnits i =
      ({ s with
          lib := { s.lib with
            inFlight := some { kind := .enumerate, subjA := 0, subjB := 0, initiator := i, content := [], sealOutcome := none } } }
        |>.startEnumeration, accepted) := by
  rw [State.enumerateUnits, if_neg (by rw [hq]; exact nofun), if_neg (by rw [ho]; exact nofun), if_neg (by rw [hq]; exact not_not_intro rfl),
    if_neg (by rw [hm]; exact not_not_intro rfl), if_neg (by rw [hb]; exact nofun)]
  exact congrArg (·, accepted) (if_pos hp)

/-! ### Its exchanges -/

section Exchanges
variable {s : State} {hi lo n : Byte} {u : FieldUnit}

theorem State.takeReply_identify (he : s.fl.enumeration = .running n.toNat) (hp : s.fl.phase = .window .identify)
    (hu : s.fl.unit n.toNat = some u) (hk : UnitKind.ofCode hi.toNat = some u.kind) :
    s.takeReply 0 hi lo = { s with fl := { s.fl with phase := .sending (.assign n.toNat) } } := by
  have hpos : s.fl.enumeration.position = n.toNat := by rw [he]; rfl
  simp only [State.takeReply, hp, hk, hpos, State.identified, hu, if_true]
  rfl

theorem State.takeReply_assign (hp : s.fl.phase = .window (.assign n.toNat)) (hu : s.fl.unit n.toNat = some u)
    (hk : UnitKind.ofCode hi.toNat = some u.kind) :
    s.takeReply n hi lo =
      { s with fl := { s.fl with
        units := s.fl.units.set (n.toNat - 1) { u with assigned := true }, enumeration := .running (n.toNat + 1)
        phase := .sending .identify } } := by
  simp only [State.takeReply, hp, hk, State.assignedTo, hu, Option.isSome_some, and_self, if_true]
  rfl

theorem State.windowExpires_identify (he : s.fl.enumeration = .running n.toNat) (hp : s.fl.phase = .window .identify)
    (hu : s.fl.unit n.toNat = none) : s.windowExpires = s.endEnumeration .done 0 := by
  simp only [State.windowExpires, hp, State.identifyMissed, he, Enumeration.position, hu, Option.isSome_none, Bool.false_eq_true, if_false]

theorem State.silenceOver_silent (hp : s.fl.phase = .silence) :
    s.silenceOver = { s with fl := { s.fl with daisyOut := true, phase := .sending .identify } } := by
  rw [State.silenceOver, if_pos hp]
  rfl

end Exchanges

/-! ### Its end (R144) -/

/-- The line's units and queue at the end of an enumeration. -/
def FieldLine.enumerated (f : FieldLine) : FieldLine :=
  let units := f.units.map FieldUnit.afterEnumeration
  let g : FieldLine := { f with daisyOut := false, units := units }
  { g with queue := g.queue.filter (fun c => (g.unit c.address).any FieldUnit.assigned) }

/-- The banks after an enumeration, and the engine told of them. -/
def State.enumerated (s : State) : State :=
  ((s.banks.map Bank.number).foldl State.bankAfterEnumeration { s with fl := s.fl.enumerated }).engineTakesBanks

theorem Frame.enumerated (s : State) : Frame { s with fl := s.fl.enumerated } s.enumerated :=
  (Frame.banksAfterEnumeration _ _).trans (Frame.engineTakesBanks _)

/-- The readings and the marks of all stations cleared. -/
def State.forgetReadings (s : State) : State :=
  { s with vel := { s.vel with stations := s.vel.stations.map (fun (x : Station) => { x with reading := none }) } }.clearMarks

theorem State.forgetReadings_stations (s : State) : ∀ x ∈ s.forgetReadings.vel.stations, x.reading = none ∧ x.polled = false := by
  intro x hx
  obtain ⟨y, hy, rfl⟩ := List.mem_map.1 hx
  obtain ⟨z, -, rfl⟩ := List.mem_map.1 hy
  exact ⟨rfl, rfl⟩

/-- The line given back after an enumeration. -/
def FieldLine.givenBack (f : FieldLine) : FieldLine := { f with enumeration := .idle, rota := none, phase := .idle }

/-- The positions assigned by an enumeration. -/
def FieldLine.assignedCount (f : FieldLine) : Nat := (f.units.filter FieldUnit.assigned).length

theorem FieldLine.assignedCount_enumerated (f : FieldLine) : f.enumerated.assignedCount = f.assignedCount := by
  simp only [FieldLine.assignedCount, FieldLine.enumerated, List.filter_map, List.length_map]
  rfl

/-- The state after an enumeration that `o` began, with its operation recorded. -/
def State.enumerationRecorded (s : State) (o : InFlight) (r : OperationResult) (d : Nat) : State :=
  s.enumerated.forgetReadings.recordOperation .enumerate 0 s.fl.enumerated.assignedCount r 0 d o.initiator

theorem State.endEnumeration_recorded {s : State} {o : InFlight} (ho : s.inFlightOf .enumerate = some o) (r : OperationResult) (d : Nat) :
    s.endEnumeration r d = { s.enumerationRecorded o r d with fl := (s.enumerationRecorded o r d).fl.givenBack } := by
  rw [State.endEnumeration, ho]
  rfl

/-- Settles O40: each phase of an enumeration takes the one command that ends it. -/
theorem enumerationRuns : Obligations.EnumerationRuns := by
  refine ⟨fun s i tag hready htoken hquiet hflight hmode hbanks hphase => ?taken, fun s hi lo n hrun => ⟨fun hp => ?silence,
    fun u hp hu hk => ?identify, fun u hp hu hk => ?assign, fun o hp hu ho => ?done⟩⟩
  case taken =>
    refine ⟨_, exec_request_holder rfl hready htoken (State.enumerateUnits_idle (s := s.taking i) i hquiet hflight hmode hbanks hphase),
      rfl, rfl, rfl, rfl, rfl, rfl, State.respond_response ..⟩
  case silence => exact congrArg Host.Outcome.next (State.silenceOver_silent hp)
  case identify => exact congrArg Host.Outcome.next (State.takeReply_identify hrun hp hu hk)
  case assign => exact congrArg Host.Outcome.next (State.takeReply_assign hp hu hk)
  case done =>
    have hframe := Frame.enumerated s
    have hend := (State.windowExpires_identify hrun hp hu).trans (State.endEnumeration_recorded ho .done 0)
    have hline : s.enumerated.fl = { s.fl.enumerated with queue := s.enumerated.fl.queue } := hframe.line
    refine ⟨_, congrArg Host.Outcome.next hend, rfl, rfl, rfl, ?_, ?_, s.enumerated.forgetReadings_stations, ?_⟩
    · exact congrArg FieldLine.daisyOut hline
    · exact congrArg FieldLine.units hline
    · have hlib : s.enumerated.lib = s.lib := hframe.lib
      have hup : s.enumerated.uptime = s.uptime := hframe.uptime
      have hcount : (s.fl.units.filter FieldUnit.assigned).length = _ := s.fl.assignedCount_enumerated.symm
      rw [hcount, ← hup, ← hlib]
      rfl

end Sys2Proof.Machine
end

section
/-! What the requests and the events leave alone: the frame of the response, with the registers that each owns. -/

namespace Sys2Proof.Machine

open Sys2Proof

/-! ### Frames over registers that the response leaves alone -/

theorem Frame.withDet {s t : State} (h : Frame s t) (d : Detection) : Frame { s with det := d } { t with det := d } :=
  { h with det := rfl }

theorem Frame.withInc {s t : State} (h : Frame s t) (i : IncidentRegister) : Frame { s with inc := i } { t with inc := i } :=
  { h with inc := rfl }

theorem Frame.withPlans {s t : State} (h : Frame s t) (p : PlanSelector) : Frame { s with plans := p } { t with plans := p } :=
  { h with plans := rfl }

/-- The later state responds, and writes its own incident table. -/
def IncFrame (s t : State) : Prop := Frame { s with inc := t.inc } t

theorem Frame.toInc {s t : State} {i : IncidentRegister} (h : Frame { s with inc := i } t) : IncFrame s t := by
  have hi : t.inc = i := h.inc
  rwa [IncFrame, hi]

theorem Frame.incFrame {s t : State} (h : Frame s t) : IncFrame s t := Frame.toInc (i := s.inc) h

theorem IncFrame.refl (s : State) : IncFrame s s := Frame.refl s

theorem IncFrame.trans {s t u : State} (h : IncFrame s t) (k : IncFrame t u) : IncFrame s u :=
  (Frame.withInc h u.inc).trans k

theorem IncFrame.setIncident (s : State) (n : Nat) (o : Option Incident) : IncFrame s (s.setIncident n o) := Frame.refl _

theorem IncFrame.amend (s : State) (n : Nat) (o : Option Incident) (c : Option UpdateCause) : IncFrame s (s.amend n o c) :=
  (Frame.amend s n o c).toInc

theorem IncFrame.recomputeGoverning (s : State) : IncFrame s s.recomputeGoverning := (Frame.recomputeGoverning s).toInc

theorem Frame.moveLatch (s : State) (l h : Nat) : Frame s (s.moveLatch l h) := by
  unfold State.moveLatch
  split
  · split
    · exact Frame.eng s _ rfl
    · exact .refl s
  · exact .refl s

theorem IncFrame.mergeOnce (s : State) (l h temp : Nat) : IncFrame s (s.mergeOnce l h temp) := by
  unfold State.mergeOnce
  split
  · exact (((IncFrame.setIncident s _ _).trans (IncFrame.setIncident _ _ _)).trans (Frame.raise _ _).incFrame).trans
      (Frame.moveLatch _ _ _).incFrame
  · exact .refl s

theorem IncFrame.mergeAll : ∀ (fuel temp k : Nat) (s : State), IncFrame s (State.mergeAll fuel temp k s).1
  | 0, _, _, s => .refl s
  | fuel + 1, temp, k, s => by
    unfold State.mergeAll
    split
    · exact (IncFrame.mergeOnce s _ _ _).trans (IncFrame.mergeAll fuel temp _ _)
    · exact .refl s

/-! ### Placing a report (R4 to R8) -/

/-- An entry whose record lies within the merge distance of a report. -/
def State.near (s : State) (f : FireReport) (j : Nat) : Bool :=
  (s.incident j).any (fun r => decide (r.zone.gap f.zone ≤ siteM s.site))

/-- The record `r` of entry `k` updated by a report, and the notice of its cause. -/
def State.updated (s : State) (f : FireReport) (k : Nat) (r : Incident) : State :=
  let t := s.setIncident k (some (r.update f s.uptime))
  match updateCause r (r.update f s.uptime) with
  | some c => t.raise (.incidentUpdated k c f.temp)
  | none => t

/-- The table after an update that may have grown a zone: merged when it has. -/
def State.grown (s : State) (f : FireReport) (k : Nat) (r : Incident) : State × Nat :=
  if (r.update f s.uptime).zone ≠ r.zone then State.mergeAll 3 f.temp k (s.updated f k r) else (s.updated f k r, k)

/-- A report added in the free entry `k`. -/
def State.added (s : State) (f : FireReport) (k : Nat) : State :=
  (s.setIncident k (some (f.record s.uptime))).raise (.incidentAdded k f.source f.temp)

section Place
variable {s : State} {f : FireReport} {k : Nat} {r : Incident}

theorem State.place_near (hn : [0, 1, 2, 3].find? (s.near f) = some k) (hr : s.incident k = some r) :
    s.place f =
      ((s.grown f k r).1.recomputeGoverning.handOff s.inc.table s.inc.governing, some ((s.grown f k r).2, false)) := by
  unfold State.near at hn
  simp only [State.place, hn, hr]
  rfl

theorem State.place_free (hn : [0, 1, 2, 3].find? (s.near f) = none)
    (hk : [0, 1, 2, 3].find? (fun j => (s.incident j).isNone) = some k) :
    s.place f = ((s.added f k).recomputeGoverning.handOff s.inc.table s.inc.governing, some (k, true)) := by
  unfold State.near at hn
  simp only [State.place, hn, hk]
  rfl

theorem State.place_full (hn : [0, 1, 2, 3].find? (s.near f) = none)
    (hk : [0, 1, 2, 3].find? (fun j => (s.incident j).isNone) = none) :
    s.place f = (s.raise (.incidentRefused f.source), none) := by
  unfold State.near at hn
  simp only [State.place, hn, hk]

theorem State.near_some (h : s.near f k = true) : ∃ r, s.incident k = some r ∧ r.zone.gap f.zone ≤ siteM s.site := by
  obtain ⟨r, hr, hgap⟩ := (Option.any_eq_true _ _).1 h
  exact ⟨r, hr, of_decide_eq_true hgap⟩

end Place

theorem IncFrame.updated (s : State) (f : FireReport) (k : Nat) (r : Incident) : IncFrame s (s.updated f k r) := by
  unfold State.updated
  dsimp only
  split
  · exact (IncFrame.setIncident s _ _).trans (Frame.raise _ _).incFrame
  · exact IncFrame.setIncident s _ _

theorem IncFrame.grown (s : State) (f : FireReport) (k : Nat) (r : Incident) : IncFrame s (s.grown f k r).1 := by
  unfold State.grown
  split
  · exact (IncFrame.updated s f k r).trans (IncFrame.mergeAll _ _ _ _)
  · exact IncFrame.updated s f k r

theorem IncFrame.handedOff {s t : State} (h : IncFrame s t) (before : List (Option Incident)) (g : Option Nat) :
    IncFrame s (t.recomputeGoverning.handOff before g) :=
  (h.trans (IncFrame.recomputeGoverning t)).trans (Frame.handOff _ _ _).incFrame

theorem IncFrame.place (s : State) (f : FireReport) : IncFrame s (s.place f).1 := by
  cases hn : [0, 1, 2, 3].find? (s.near f) with
  | some k =>
    obtain ⟨r, hr, -⟩ := State.near_some (List.find?_some hn)
    rw [State.place_near hn hr]
    exact (IncFrame.grown s f k r).handedOff _ _
  | none =>
    cases hk : [0, 1, 2, 3].find? (fun j => (s.incident j).isNone) with
    | some k =>
      rw [State.place_free hn hk]
      exact ((IncFrame.setIncident s _ _).trans (Frame.raise _ _).incFrame).handedOff _ _
    | none =>
      rw [State.place_full hn hk]
      exact (Frame.raise s _).incFrame

/-- Outside EDIT a report is placed, and nothing is aborted. -/
theorem State.takeReport_eq {s : State} (h : s.lib.mode ≠ .edit) (f : FireReport) : s.takeReport f = s.place f := by
  rw [State.takeReport, State.abortEdit, if_neg h]

theorem IncFrame.responseOnly {s t : State} (h : IncFrame s t) : State.ResponseOnly { s with inc := t.inc } t := Frame.responseOnly h

/-! ### Requests -/

theorem exec_request_cases {c : Instr} {s : State} {i : PortId} {tag : Byte} {level : Level} {ok : Bool}
    {body : State → State × Answer} {Q : State → Prop} (hc : exec c s = .next (s.request i tag level ok body)) (hready : s.Ready i)
    (hrefused : Q (s.taking i)) (hbody : Q (body (s.taking i)).1) : ∃ u a, exec c s = .next (u.respond i tag a) ∧ Q u := by
  refine ⟨_, _, hc.trans (congrArg Host.Outcome.next (State.request_ready hready tag level ok body)), ?_⟩
  unfold State.taken
  split
  · exact hrefused
  · split
    · exact hrefused
    · exact hbody

section Bodies
variable (s : State)

theorem IncFrame.confirmIncident (i : PortId) (n : Nat) : IncFrame s (State.confirmIncident i n s).1 := by
  unfold State.confirmIncident
  split
  · exact .refl s
  · split
    · exact .refl s
    · dsimp only
      exact IncFrame.amend s _ _ _

theorem IncFrame.setEvacuation (n c : Nat) : IncFrame s (State.setEvacuation n c s).1 := by
  unfold State.setEvacuation
  split
  · exact .refl s
  · split
    · exact .refl s
    · split
      · exact .refl s
      · split
        · exact .refl s
        · dsimp only
          exact IncFrame.amend s _ _ _

theorem IncFrame.linkTrain (n c : Nat) : IncFrame s (State.linkTrain n c s).1 := by
  unfold State.linkTrain
  split
  · exact .refl s
  · split
    · exact .refl s
    · split
      · exact .refl s
      · split
        · exact .refl s
        · dsimp only
          exact IncFrame.amend s _ _ _

theorem IncFrame.clearIncident (n : Nat) : IncFrame s (State.clearIncident n s).1 := by
  unfold State.clearIncident
  split
  · exact .refl s
  · split
    · exact .refl s
    · dsimp only
      exact IncFrame.amend s _ _ _

theorem IncFrame.lodge {s : State} (h : s.lib.mode ≠ .edit) (i : PortId) (ops : List Byte) : IncFrame s (State.lodge i ops s).1 := by
  unfold State.lodge
  split
  · exact .refl s
  · split
    · exact .refl s
    · next f _ =>
      dsimp only
      rw [State.takeReport_eq h]
      split <;> exact .place s f

/-- The later state responds, and writes its own plan references. -/
def PlansFrame (s t : State) : Prop := Frame { s with plans := t.plans } t

theorem PlansFrame.setActive (p : PlanSelector) (n : Option Nat) : PlansFrame s (State.setActive { s with plans := p } n) := by
  have h := Frame.setActive { s with plans := p } n
  have hplans : (State.setActive { s with plans := p } n).plans = { p with active := n } := h.plans
  rw [PlansFrame, hplans]
  exact h

theorem PlansFrame.revertPlan : PlansFrame s (State.revertPlan s).1 := by
  unfold State.revertPlan
  split
  · exact .refl s
  · exact .setActive s _ _

theorem PlansFrame.swapPlan : PlansFrame s (State.swapPlan s).1 := by
  unfold State.swapPlan
  split
  · exact .setActive s _ _
  · exact .refl s

theorem PlansFrame.pushActive : PlansFrame s s.pushActive := by
  unfold State.pushActive
  split
  · exact .refl s
  · dsimp only
    split
    · exact Frame.raise _ _
    · exact .refl _

theorem PlansFrame.selectPlan (n : Nat) : PlansFrame s (State.selectPlan n s).1 := by
  unfold State.selectPlan
  split
  · exact .refl s
  · split
    · exact .refl s
    · split
      · exact .refl s
      · split
        · exact .refl s
        · exact (Frame.withPlans (PlansFrame.pushActive s) _).trans (PlansFrame.setActive s.pushActive s.pushActive.plans (some n))

/-- The later state responds, and writes its own occupancy list. -/
def TrainsFrame (s t : State) : Prop := Frame (s.setTrains t.eng.trains) t

theorem TrainsFrame.occupancy (l : List (Option Train)) : TrainsFrame s (s.setTrains l).engineTakesOccupancy := by
  have h : Frame (s.setTrains l) (s.setTrains l).engineTakesOccupancy :=
    ((Frame.advise _).trans (Frame.rerunBlocked _)).trans (Frame.finish _)
  have htrains : (s.setTrains l).engineTakesOccupancy.eng.trains = l := h.trains
  rwa [TrainsFrame, htrains]

theorem TrainsFrame.setTrain (ops : List Byte) : TrainsFrame s (State.setTrain ops s).1 := by
  unfold State.setTrain
  split
  · exact .refl s
  · split
    · exact .refl s
    · split
      · exact .refl s
      · split
        · exact .refl s
        · unfold State.recordTrain
          dsimp only
          split
          · split
            · exact Frame.refl _
            · exact .occupancy s _
          · split
            · exact .occupancy s _
            · exact Frame.refl s

theorem TrainsFrame.removeTrain (n : Nat) : TrainsFrame s (State.removeTrain n s).1 := by
  unfold State.removeTrain
  split
  · exact Frame.refl s
  · split
    · exact Frame.refl s
    · exact .occupancy s _

theorem Frame.imposeDirection (d : Dir) (k : Option Nat) : Frame s (s.imposeDirection d k).1 := by
  unfold State.imposeDirection
  split
  · exact ((Frame.latchDirection s _ _ _).trans (Frame.advise _)).trans (Frame.finish _)
  · exact .refl s

theorem Frame.setDirection (c : Nat) : Frame s (State.setDirection c s).1 := by
  unfold State.setDirection
  split
  · exact .refl s
  · split
    · dsimp only
      split
      · exact ((Frame.freshMatch s).trans (Frame.handRow _)).trans (Frame.imposeDirection _ _ _)
      · exact .refl s
    · split
      · exact .refl s
      · exact Frame.imposeDirection s _ _
    · exact .refl s

theorem Frame.resumeQuiet : Frame s (State.resumeQuiet s).1 := by
  unfold State.resumeQuiet
  split
  · exact (Frame.enterQuiet s).trans (Frame.finish _)
  · exact .refl s

theorem Frame.releaseBank (n : Nat) : Frame s (State.releaseBank n s).1 := by
  unfold State.releaseBank
  split
  · exact .refl s
  · split
    · exact .refl s
    · next b hb =>
      split
      · next hlocked => exact Frame.bankWork s _ hb (fixed_released _ b) (agrees_released _ b _ hlocked)
      · exact .refl s

theorem Frame.setTarget (v : Int) : Frame s (State.setTarget v s).1 := by
  unfold State.setTarget
  split
  · exact .refl s
  · split
    · exact .refl s
    · exact (Frame.vel s { s.vel with held := some v.toNat } rfl).trans (Frame.formTarget _)

/-- The later state responds, with its own token and key levels. -/
def TokenFrame (s t : State) : Prop := Frame { s with token := t.token, keys := t.keys } t

/-- Outside EDIT a change of token holder raises its notice alone. -/
theorem State.changeToken_eq {s : State} (h : s.lib.mode ≠ .edit) (o : Option PortId) (c : TokenCause) :
    s.changeToken o c = State.raise { s with token := o } (.tokenChanged o c) := if_neg (fun hm => h hm.1)

theorem TokenFrame.changeToken {s : State} (h : s.lib.mode ≠ .edit) (k : Keys) (o : Option PortId) (c : TokenCause) :
    TokenFrame s (State.changeToken { s with keys := k } o c) := by
  rw [State.changeToken_eq (s := { s with keys := k }) h]
  exact Frame.raise _ _

theorem TokenFrame.claim {s : State} (h : s.lib.mode ≠ .edit) (i : PortId) (key : Bool) : TokenFrame s (State.claim i key s).1 := by
  unfold State.claim
  dsimp only
  split
  · exact .changeToken h _ _ _
  · split
    · exact Frame.refl _
    · split
      · exact .changeToken h _ _ _
      · exact Frame.refl _

theorem TokenFrame.yieldTo {s : State} (h : s.lib.mode ≠ .edit) (i : PortId) (x : Option Nat) : TokenFrame s (State.yieldTo i x s).1 := by
  unfold State.yieldTo
  split
  · split
    · exact .changeToken h s.keys _ _
    · exact Frame.refl s
  · split
    · exact Frame.refl s
    · split
      · exact Frame.refl s
      · split
        · exact Frame.refl s
        · split
          · exact Frame.refl s
          · exact .changeToken h s.keys _ _

/-- The later state responds, with its own plan references and library. -/
def EditFrame (s t : State) : Prop := Frame { s with plans := t.plans, lib := t.lib } t

theorem EditFrame.openEdit (i : PortId) : EditFrame s (State.openEdit i s).1 := by
  unfold State.openEdit
  split
  · exact .refl s
  · split
    · exact .refl s
    · split
      · exact .refl s
      · dsimp only
        have h (l : Library) (p : PlanSelector) : EditFrame s (State.setActive { s with lib := l, plans := p } none) := by
          have hset := Frame.setActive { s with lib := l, plans := p } none
          have hlib : (State.setActive { s with lib := l, plans := p } none).lib = l := hset.lib
          have hplans : (State.setActive { s with lib := l, plans := p } none).plans = { p with active := none } := hset.plans
          rw [EditFrame, hlib, hplans]
          exact hset
        exact h _ _

end Bodies

/-- Settles O52: a request refused leaves the state it was taken in; otherwise its owning block's frame is the one named. -/
theorem requestFrames : Obligations.RequestFrames := by
  intro s i tag ops key hready
  refine ⟨fun c hc => ?incident, fun hmode => ?lodge, fun c hc => ?plans, fun c hc => ?trains, fun c hc => ?engine,
    fun hmode c hc => ?token, ?edit⟩
  case incident =>
    have h (l : Level) (ok : Bool) (body : State → State × Answer) (hb : ∀ t, IncFrame t (body t).1)
        (hx : exec c s = .next (s.request i tag l ok body)) :=
      exec_request_cases (Q := fun u => State.ResponseOnly { s.taking i with inc := u.inc } u) hx hready
        (IncFrame.refl _).responseOnly (hb _).responseOnly
    simp only [List.mem_cons, List.not_mem_nil, or_false] at hc
    rcases hc with rfl | rfl | rfl | rfl
    · exact h _ _ _ (fun t => IncFrame.confirmIncident t i _) rfl
    · exact h _ _ _ (fun t => IncFrame.setEvacuation t _ _) rfl
    · exact h _ _ _ (fun t => IncFrame.linkTrain t _ _) rfl
    · exact h _ _ _ (fun t => IncFrame.clearIncident t _) rfl
  case lodge =>
    exact exec_request_cases (Q := fun u => State.ResponseOnly { s.taking i with inc := u.inc } u) rfl hready
      (IncFrame.refl _).responseOnly (IncFrame.lodge (s := s.taking i) hmode i ops).responseOnly
  case plans =>
    have h (l : Level) (ok : Bool) (body : State → State × Answer) (hb : ∀ t, PlansFrame t (body t).1)
        (hx : exec c s = .next (s.request i tag l ok body)) :=
      exec_request_cases (Q := fun u => State.ResponseOnly { s.taking i with plans := u.plans } u) hx hready
        (Frame.refl _).responseOnly (Frame.responseOnly (hb _))
    simp only [List.mem_cons, List.not_mem_nil, or_false] at hc
    rcases hc with rfl | rfl | rfl
    · exact h _ _ _ (fun t => PlansFrame.selectPlan t _) rfl
    · exact h _ _ _ PlansFrame.revertPlan rfl
    · exact h _ _ _ PlansFrame.swapPlan rfl
  case trains =>
    have h (l : Level) (ok : Bool) (body : State → State × Answer) (hb : ∀ t, TrainsFrame t (body t).1)
        (hx : exec c s = .next (s.request i tag l ok body)) :=
      exec_request_cases
        (Q := fun u => State.ResponseOnly { s.taking i with eng := { s.eng with trains := u.eng.trains } } u) hx hready
        (Frame.refl _).responseOnly (Frame.responseOnly (hb _))
    simp only [List.mem_cons, List.not_mem_nil, or_false] at hc
    rcases hc with rfl | rfl
    · exact h _ _ _ (fun t => TrainsFrame.setTrain t _) rfl
    · exact h _ _ _ (fun t => TrainsFrame.removeTrain t _) rfl
  case engine =>
    have h (l : Level) (ok : Bool) (body : State → State × Answer) (hb : ∀ t, Frame t (body t).1)
        (hx : exec c s = .next (s.request i tag l ok body)) :=
      exec_request_cases (Q := fun u => (s.taking i).ResponseOnly u) hx hready (Frame.refl _).responseOnly (hb _).responseOnly
    simp only [List.mem_cons, List.not_mem_nil, or_false] at hc
    rcases hc with rfl | rfl | rfl | rfl
    · exact h _ _ _ (fun t => Frame.setDirection t _) rfl
    · exact h _ _ _ Frame.resumeQuiet rfl
    · exact h _ _ _ (fun t => Frame.releaseBank t _) rfl
    · exact h _ _ _ (fun t => Frame.setTarget t _) rfl
  case token =>
    have h (l : Level) (ok : Bool) (body : State → State × Answer) (hb : TokenFrame (s.taking i) (body (s.taking i)).1)
        (hx : exec c s = .next (s.request i tag l ok body)) :=
      exec_request_cases (Q := fun u => State.ResponseOnly { s.taking i with token := u.token, keys := u.keys } u) hx hready
        (Frame.refl _).responseOnly (Frame.responseOnly hb)
    simp only [List.mem_cons, List.not_mem_nil, or_false] at hc
    rcases hc with rfl | rfl
    · exact h _ _ _ (TokenFrame.claim (s := s.taking i) hmode i key) rfl
    · exact h _ _ _ (TokenFrame.yieldTo (s := s.taking i) hmode i _) rfl
  case edit =>
    exact exec_request_cases (Q := fun u => State.ResponseOnly { s.taking i with plans := u.plans, lib := u.lib } u) rfl hready
      (Frame.refl _).responseOnly (Frame.responseOnly (EditFrame.openEdit _ i))

end Sys2Proof.Machine
end

section
/-! What the events leave alone. -/

namespace Sys2Proof.Machine

open Sys2Proof

/-! ### The detection line -/

/-- The later state responds in the matcher alone, with its own line registers. -/
structure LineFrame (s t : State) : Prop where
  frame : Frame { s with det := t.det } t
  eng : t.eng = s.eng
  banks : t.banks = s.banks

theorem LineFrame.refl (s : State) : LineFrame s s := ⟨.refl s, rfl, rfl⟩

theorem LineFrame.setCondition (s : State) (c : LineCondition) (brk : Option Nat) : LineFrame s (s.setCondition c brk) := by
  obtain ⟨heng, hbanks⟩ := State.setCondition_rest s c brk
  exact ⟨Frame.setCondition s c brk, heng, hbanks⟩

theorem LineFrame.withDet {s t : State} {d : Detection} (h : LineFrame { s with det := d } t) : LineFrame s t := ⟨h.frame, h.eng, h.banks⟩

theorem LineFrame.lineAlive (s : State) : LineFrame s s.lineAlive := by
  unfold State.lineAlive
  split
  · exact .setCondition s _ _
  · exact .refl s

theorem LineFrame.responds {c : Instr} {s t : State} (h : LineFrame s t) (hc : exec c s = .next t) :
    ∃ t, exec c s = .next t ∧ State.ResponseOnly { s with det := t.det } t ∧ t.eng = s.eng ∧ t.banks = s.banks :=
  ⟨t, hc, h.frame.responseOnly, h.eng, h.banks⟩

theorem LineFrame.silenceExpiry (s : State) :
    LineFrame s (if s.det.silence.isRunning then
      State.setCondition { s with det := { s.det with silence := .stopped } } .silent s.det.breakAt else s) := by
  split
  · exact (LineFrame.setCondition { s with det := { s.det with silence := .stopped } } _ _).withDet
  · exact .refl s

/-! ### A hot spot -/

/-- The later state responds, and writes its own line registers and incident table. -/
def SpotFrame (s t : State) : Prop := Frame { s with det := t.det, inc := t.inc } t

theorem SpotFrame.refl (s : State) : SpotFrame s s := Frame.refl s

theorem SpotFrame.trans {s t u : State} (h : SpotFrame s t) (k : SpotFrame t u) : SpotFrame s u :=
  ((Frame.withDet h u.det).withInc u.inc).trans k

theorem LineFrame.spot {s t : State} (h : LineFrame s t) : SpotFrame s t := by
  have hinc : t.inc = s.inc := h.frame.inc
  rw [SpotFrame, hinc]
  exact h.frame

theorem IncFrame.spot {s t : State} (h : IncFrame s t) : SpotFrame s t := by
  have hdet : t.det = s.det := h.det
  rw [SpotFrame, hdet]
  exact h

/-- A change of the line's registers alone. -/
theorem SpotFrame.det (s : State) (d : Detection) : SpotFrame s { s with det := d } := Frame.refl _

theorem SpotFrame.passHotspot {s : State} (h : s.lib.mode ≠ .edit) (a b temp : Nat) : SpotFrame s (s.passHotspot a b temp) := by
  have hreport (f : FireReport) : SpotFrame s (State.takeReport { s with det := { s.det with refix := false } } f).1 := by
    rw [State.takeReport_eq (s := { s with det := { s.det with refix := false } }) h]
    exact (SpotFrame.det s _).trans (IncFrame.place _ f).spot
  unfold State.passHotspot
  split
  · exact .refl s
  · dsimp only
    split
    · exact (hreport _).trans (Frame.takeRefix _).incFrame.spot
    · exact hreport _

theorem SpotFrame.hotspot {s : State} (h : s.lib.mode ≠ .edit) (w x : Word16) (a : Byte) :
    ∃ t, exec (.hotspot w x a) s = .next t ∧ SpotFrame s t := by
  have halive : SpotFrame s s.detectionHeard.lineAlive := (SpotFrame.det s _).trans (LineFrame.lineAlive _).spot
  refine ⟨_, rfl, ?_⟩
  split
  · exact halive.trans (SpotFrame.passHotspot (fun hm => h (halive.lib ▸ hm)) _ _ _)
  · exact .refl s

/-! ### The bank timers and the grant -/

theorem State.ResponseOnly.refl (s : State) : s.ResponseOnly s := (Frame.refl s).responseOnly

theorem State.ResponseOnly.trans {s t u : State} (h : s.ResponseOnly t) (k : t.ResponseOnly u) : s.ResponseOnly u := by
  obtain ⟨ht, hports, hslots, hstations, hbanks⟩ := h
  obtain ⟨hu, kports, kslots, kstations, kbanks⟩ := k
  refine ⟨?_, fun i => ?_, kslots.trans hslots, kstations.trans hstations, fun d => ?_⟩
  · rw [ht] at hu
    exact hu
  · rw [kports i, hports i]
  · have dt : t.BanksDistinct := by
      unfold State.BanksDistinct
      rw [numbers_of_fixed (hbanks d)]
      exact d
    exact (kbanks dt).trans (hbanks d)

/-- A change of the start slots and queue that keeps the number of slots. -/
theorem State.ResponseOnly.arb (s : State) (a : Arbiter) (h : a.slots.length = s.arb.slots.length) : s.ResponseOnly { s with arb := a } :=
  ⟨rfl, fun _ => rfl, h, rfl, fun _ => rfl⟩

theorem State.ResponseOnly.commitBank {s : State} {n : Nat} {b : Bank} (o : BankOut) (hb : s.bank n = some b)
    (ho : o.bank.fixed = b.fixed) : s.ResponseOnly (s.commitBank o) := by
  have hwritten (f : FieldLine) (hf : f = { s.fl with queue := f.queue }) :
      s.ResponseOnly { s with banks := setBank o.bank s.banks, fl := f, arb := o.words.foldl (Arbiter.tell o.bank) s.arb } :=
    ⟨by rw [← hf], fun _ => rfl, Arbiter.slots_words o.bank o.words s.arb, rfl, fixed_setBank hb ho⟩
  have hnotices (f : FieldLine) (hf : f = { s.fl with queue := f.queue }) := (hwritten f hf).trans (Frame.raiseAll _ o.notices).responseOnly
  unfold State.commitBank
  dsimp only
  split
  · refine hnotices _ ?_
    split <;> rfl
  · refine (hnotices _ ?_).trans (Frame.formThrust _).responseOnly
    split <;> rfl

theorem Frame.coastExpiry (s : State) (n : Nat) : Frame s (s.coastExpiry n) := by
  unfold State.coastExpiry
  split
  · next b hb =>
    split
    · exact Frame.bankWork s _ hb (fixed_coastExpires _ b) (agrees_coastExpires _ b _ rfl)
    · exact .refl s
  · exact .refl s

theorem Frame.startExpiry (s : State) (n : Nat) : Frame s (s.startExpiry n) := by
  unfold State.startExpiry
  split
  · next b hb =>
    split
    · exact Frame.bankWork s _ hb (fixed_startTimeout _ b) (agrees_startTimeout _ b _)
    · exact .refl s
  · exact .refl s

theorem State.ResponseOnly.grant (s : State) : s.ResponseOnly s.grant := by
  unfold State.grant
  split
  · next q qs k hq hk =>
    split
    · next b hb =>
      have hfreed : s.ResponseOnly (s.granting q k) := .arb s _ (List.length_set ..)
      have hgranted := State.ResponseOnly.commitBank (s := s.granting q k) _ hb (fixed_granted (s.bankContext q.bank) b)
      exact (hfreed.trans hgranted).trans (Frame.engineTakesBanks _).responseOnly
    · exact .refl s
  · exact .refl s

/-! ### The line alone -/

/-- The later state differs in the line's queue, its count, its rota and its phase. -/
def OnlyLine (s t : State) : Prop :=
  ∃ f : FieldLine, t = { s with fl := f } ∧ f.units = s.fl.units ∧ f.enumeration = s.fl.enumeration ∧ f.daisyOut = s.fl.daisyOut

theorem OnlyLine.refl (s : State) : OnlyLine s s := ⟨s.fl, rfl, rfl, rfl, rfl⟩

theorem OnlyLine.setPhase (s : State) (p : LinePhase) : OnlyLine s (s.setPhase p) := ⟨_, rfl, rfl, rfl, rfl⟩

theorem OnlyLine.sendPoll (s : State) : OnlyLine s s.sendPoll := by
  cases h : s.fl.nextPoll with
  | none => rw [State.sendPoll, h]; exact .refl s
  | some a => rw [State.sendPoll_some h]; exact ⟨_, rfl, rfl, rfl, rfl⟩

theorem OnlyLine.sendCommand (s : State) : OnlyLine s s.sendCommand := by
  unfold State.sendCommand
  split
  · exact ⟨_, rfl, rfl, rfl, rfl⟩
  · obtain ⟨f, hf, hunits, henum, hdaisy⟩ := OnlyLine.sendPoll { s with fl := { s.fl with queue := [] } }
    exact ⟨f, hf, hunits, henum, hdaisy⟩

theorem OnlyLine.lineDecision (s : State) : OnlyLine s s.lineDecision := by
  unfold State.lineDecision
  split
  · exact .sendPoll s
  · split
    · exact .sendPoll s
    · exact .sendCommand s

theorem OnlyLine.requestSent (s : State) : OnlyLine s s.requestSent := by
  unfold State.requestSent
  split
  · exact .setPhase s _
  · exact .setPhase s _
  · exact .refl s

theorem OnlyLine.exec_eq {s t : State} {c : Instr} (h : OnlyLine s t) (hc : exec c s = .next t) :
    ∃ f : FieldLine, exec c s = .next { s with fl := f } ∧ f.units = s.fl.units ∧ f.enumeration = s.fl.enumeration ∧
      f.daisyOut = s.fl.daisyOut := by
  obtain ⟨f, rfl, hrest⟩ := h
  exact ⟨f, hc, hrest⟩

/-! ### An exchange -/

/-- The later state responds to an exchange with the position `y`: the line's phase and that position are written. -/
def ExchangeFrame (s : State) (y : Nat) (t : State) : Prop :=
  Frame { s with fl := { s.fl with phase := t.fl.phase, units := t.fl.units } } t ∧ t.fl.units.length = s.fl.units.length ∧
    ∀ z, z ≠ y → t.fl.unit z = s.fl.unit z

theorem ExchangeFrame.refl (s : State) (y : Nat) : ExchangeFrame s y s := ⟨.refl s, rfl, fun _ _ => rfl⟩

theorem ExchangeFrame.setPhase (s : State) (y : Nat) (p : LinePhase) : ExchangeFrame s y (s.setPhase p) := ⟨.refl _, rfl, fun _ _ => rfl⟩

theorem ExchangeFrame.exchanged {s : State} {y : Nat} {u : FieldUnit} (h : s.fl.unit y = some u) (v : FieldUnit) :
    ExchangeFrame s y (s.exchanged y v) := by
  have hy : y ≠ 0 := fun h0 => by rw [FieldLine.unit, if_pos h0] at h; exact nomatch h
  refine ⟨.refl _, List.length_set .., fun z hz => ?_⟩
  unfold FieldLine.unit
  split
  · rfl
  · exact List.getElem?_set_ne (by omega)

theorem ExchangeFrame.responds {s t u : State} {y : Nat} (h : ExchangeFrame s y t) (k : Frame t u) : ExchangeFrame s y u := by
  obtain ⟨hframe, hlength, hunit⟩ := h
  have hphase : u.fl.phase = t.fl.phase := by rw [k.line]
  have hunits : u.fl.units = t.fl.units := by rw [k.line]
  refine ⟨?_, hunits ▸ hlength, fun z hz => ?_⟩
  · rw [hphase, hunits]
    exact hframe.trans k
  · rw [FieldLine.unit, hunits]
    exact hunit z hz

theorem ExchangeFrame.unitReplied (s : State) (y : Nat) (isPoll : Bool) (hi lo : Byte) :
    ExchangeFrame s y ((s.setPhase .idle).unitReplied y isPoll hi lo) := by
  unfold State.unitReplied
  split
  · exact .setPhase s y _
  · next u hu =>
    have h : ExchangeFrame s y (s.exchanged y u.replied) := .exchanged hu _
    dsimp only
    split
    · split
      · exact h.responds (Frame.bankReport _ _ _ _)
      · exact h
    · split
      · exact h.responds (Frame.stationPolled _ _ _)
      · exact h

theorem ExchangeFrame.unitMissed (s : State) (y : Nat) (isPoll : Bool) :
    ExchangeFrame s y ((s.setPhase .idle).unitMissed y isPoll) := by
  unfold State.unitMissed
  split
  · exact .setPhase s y _
  · next u hu =>
    have h : ExchangeFrame s y (s.exchanged y u.missedOne) := .exchanged hu _
    dsimp only
    split
    · split
      · exact h.responds (Frame.bankLost _ _)
      · exact h
    · have hraised (c : Prop) [Decidable c] (n : Notice) :
          ExchangeFrame s y (if c then (s.exchanged y u.missedOne).raise n else s.exchanged y u.missedOne) := by
        split
        · exact h.responds (Frame.raise _ _)
        · exact h
      split
      · exact (hraised _ _).responds (Frame.stationPolled _ _ _)
      · exact hraised _ _

/-- With no enumeration in progress nothing follows the end of an exchange. -/
theorem ExchangeFrame.afterExchange {s t : State} {y : Nat} (h : ExchangeFrame s y t) (he : s.fl.enumeration = .idle) :
    ExchangeFrame s y t.afterExchange := by
  have henum : t.fl.enumeration = s.fl.enumeration := by rw [h.1.line]
  rwa [State.afterExchange_idle (henum.trans he)]

theorem ExchangeFrame.takeReply {s : State} {y : Nat} (he : s.fl.enumeration = .idle)
    (hp : s.fl.phase = .window (.poll y) ∨ ∃ d, s.fl.phase = .window (.command y d)) (a hi lo : Byte) :
    ExchangeFrame s y (s.takeReply a hi lo) := by
  rcases hp with hp | ⟨d, hp⟩ <;>
  · unfold State.takeReply
    rw [hp]
    dsimp only
    split
    · exact (ExchangeFrame.unitReplied s y _ hi lo).afterExchange he
    · exact .refl s y

theorem ExchangeFrame.windowExpires {s : State} {y : Nat} (he : s.fl.enumeration = .idle)
    (hp : s.fl.phase = .window (.poll y) ∨ ∃ d, s.fl.phase = .window (.command y d)) : ExchangeFrame s y s.windowExpires := by
  rcases hp with hp | ⟨d, hp⟩ <;>
  · unfold State.windowExpires
    rw [hp]
    exact (ExchangeFrame.unitMissed s y _).afterExchange he

theorem ExchangeFrame.exec_responds {s t : State} {y : Nat} {c : Instr} (h : ExchangeFrame s y t) (hc : exec c s = .next t) :
    ∃ t, exec c s = .next t ∧ State.ResponseOnly { s with fl := { s.fl with phase := t.fl.phase, units := t.fl.units } } t ∧
      t.fl.units.length = s.fl.units.length ∧ ∀ z, z ≠ y → t.fl.unit z = s.fl.unit z := by
  obtain ⟨hframe, hrest⟩ := h
  exact ⟨t, hc, hframe.responseOnly, hrest⟩

/-- Settles O53: each command is composed of works whose frames are known, and their composition is the frame stated. -/
theorem eventFrames : Obligations.EventFrames := by
  intro s n w x a hi lo
  refine ⟨fun c hc => ?line, fun hmode => ?spot, fun c hc => ?bank, fun c hc => ?only, fun y he hp c hc => ?exchange⟩
  case line =>
    simp only [List.mem_cons, List.not_mem_nil, or_false] at hc
    rcases hc with rfl | rfl | rfl | rfl
    · exact (LineFrame.lineAlive s.detectionHeard).withDet.responds rfl
    · exact (LineFrame.setCondition s.detectionHeard _ _).withDet.responds rfl
    · exact (LineFrame.setCondition s.detectionHeard _ _).withDet.responds rfl
    · exact (LineFrame.silenceExpiry s).responds rfl
  case spot =>
    obtain ⟨t, ht, hframe⟩ := SpotFrame.hotspot hmode w x a
    exact ⟨t, ht, Frame.responseOnly hframe⟩
  case bank =>
    simp only [List.mem_cons, List.not_mem_nil, or_false] at hc
    rcases hc with rfl | rfl | rfl
    · exact ⟨_, rfl, (Frame.coastExpiry s n).responseOnly⟩
    · exact ⟨_, rfl, (Frame.startExpiry s n).responseOnly⟩
    · exact ⟨_, rfl, .grant s⟩
  case only =>
    simp only [List.mem_cons, List.not_mem_nil, or_false] at hc
    rcases hc with rfl | rfl
    · have hdecision : OnlyLine s (if s.lineFree then s.lineDecision else s) := by
        split
        · exact .lineDecision s
        · exact .refl s
      exact hdecision.exec_eq rfl
    · exact (OnlyLine.requestSent s).exec_eq rfl
  case exchange =>
    simp only [List.mem_cons, List.not_mem_nil, or_false] at hc
    rcases hc with rfl | rfl | rfl
    · exact (ExchangeFrame.takeReply he hp a hi lo).exec_responds rfl
    · exact (ExchangeFrame.takeReply he hp a hi lo).exec_responds rfl
    · exact (ExchangeFrame.windowExpires he hp).exec_responds rfl

end Sys2Proof.Machine
end

section
/-! The bank requests, and a demand acted on (R75 to R78, R90, R91). -/

namespace Sys2Proof.Machine

open Sys2Proof

/-! ### SET_FORCING -/

theorem Forcing.ofCode_code (m : Forcing) : Forcing.ofCode (byteOf m.code).toNat = some m := by cases m <;> rfl

theorem Forcing.ofCode_none {x : Nat} (h : 3 < x) : Forcing.ofCode x = none := by
  unfold Forcing.ofCode
  split
  case h_5 => rfl
  all_goals omega

/-- The bank `b` with a new forcing, and the arbiter told. -/
def State.forced (s : State) (b : Bank) (m : Forcing) : State :=
  { s with banks := setBank { b with forcing := m } s.banks, arb := s.arb.forced b.number m }

section Forcing
variable {s : State} {n code : Nat} {b : Bank} {m : Forcing}

theorem State.setForcing_unconfigured (h : s.eng.state = .unconfigured) : State.setForcing n code s = (s, refuse .refusedState) :=
  if_pos h

theorem State.setForcing_unlisted (h : s.eng.state ≠ .unconfigured) (hb : s.bank n = none) :
    State.setForcing n code s = (s, refuse .refusedRange) := by
  rw [State.setForcing, if_neg h, hb]

theorem State.setForcing_noMode (h : s.eng.state ≠ .unconfigured) (hb : s.bank n = some b) (hm : Forcing.ofCode code = none) :
    State.setForcing n code s = (s, refuse .refusedRange) := by
  rw [State.setForcing, if_neg h, hb]
  simp only [hm]

theorem State.setForcing_unassigned (h : s.eng.state ≠ .unconfigured) (hb : s.bank n = some b) (hm : Forcing.ofCode code = some m)
    (hs : b.state = .unassigned) : State.setForcing n code s = (s, refuse .refusedState) := by
  rw [State.setForcing, if_neg h, hb]
  simp only [hm, hs, if_true]

theorem State.setForcing_same (h : s.eng.state ≠ .unconfigured) (hb : s.bank n = some b) (hm : Forcing.ofCode code = some m)
    (hs : b.state ≠ .unassigned) (hf : b.forcing = m) :
    State.setForcing n code s = (s, done (u8 b.state.code ++ u8 b.demand.code)) := by
  rw [State.setForcing, if_neg h, hb]
  simp only [hm, hs, hf, State.forcingResult, hb, if_true, if_false]

theorem State.setForcing_changes (h : s.eng.state ≠ .unconfigured) (hb : s.bank n = some b) (hm : Forcing.ofCode code = some m)
    (hs : b.state ≠ .unassigned) (hf : b.forcing ≠ m) :
    State.setForcing n code s = ((s.forced b m).finish, done ((s.forced b m).finish.forcingResult n)) := by
  obtain rfl : b.number = n := (State.bank_mem hb).2
  rw [State.setForcing, if_neg h, hb]
  simp only [hm, hs, hf, if_false]
  rfl

theorem State.bank_forced (hb : s.bank n = some b) (m : Forcing) : (s.forced b m).bank n = some { b with forcing := m } :=
  find_setBank _ hb (State.bank_mem hb).2

theorem State.forced_distinct (b : Bank) (m : Forcing) (d : s.BanksDistinct) : (s.forced b m).BanksDistinct := by
  have hnumbers : (s.forced b m).banks.map Bank.number = s.banks.map Bank.number := numbers_setBank _ _
  unfold State.BanksDistinct
  rw [hnumbers]
  exact d

theorem Bank.fixed_forcing {b c : Bank} (h : c.fixed = b.fixed) : c.forcing = b.forcing := by
  simp only [Bank.fixed, Prod.mk.injEq] at h
  obtain ⟨-, -, -, -, -, -, hforcing⟩ := h
  exact hforcing

theorem Resting.forcing (m : Forcing) : Resting (fun b => b.forcing = m) where
  demand _ _ h := h
  heat _ _ h := h
  act x b h := (Bank.fixed_forcing (fixed_actOnDemand x b)).trans h

/-- The bank keeps its new forcing through the response. -/
theorem State.forced_finish (hb : s.bank n = some b) (m : Forcing) :
    ∃ c, (s.forced b m).finish.bank n = some c ∧ c.forcing = m :=
  State.bankHas.finish (Resting.forcing m) ⟨_, State.bank_forced hb m, rfl⟩

theorem State.forcingResult_some {c : Bank} (h : s.bank n = some c) : s.forcingResult n = u8 c.state.code ++ u8 c.demand.code := by
  rw [State.forcingResult, h]

theorem State.ResponseOnly.forced (s : State) (b : Bank) (m : Forcing) :
    State.ResponseOnly { s with banks := setBank { b with forcing := m } s.banks } (s.forced b m).finish :=
  (State.ResponseOnly.arb { s with banks := setBank { b with forcing := m } s.banks } (s.arb.forced b.number m)
    (congrArg List.length (Arbiter.forced_same s.arb b.number m).1)).trans (Frame.finish _).responseOnly

end Forcing

/-! ### RELEASE_BANK -/

section Release
variable {s : State} {n : Nat} {b : Bank}

theorem State.releaseBank_unconfigured (h : s.eng.state = .unconfigured) : State.releaseBank n s = (s, refuse .refusedState) := if_pos h

theorem State.releaseBank_unlisted (h : s.eng.state ≠ .unconfigured) (hb : s.bank n = none) :
    State.releaseBank n s = (s, refuse .refusedRange) := by
  rw [State.releaseBank, if_neg h, hb]

theorem State.releaseBank_notLocked (h : s.eng.state ≠ .unconfigured) (hb : s.bank n = some b) (hs : b.state ≠ .lockedOut) :
    State.releaseBank n s = (s, refuse .refusedState) := by
  rw [State.releaseBank, if_neg h, hb]
  simp only [hs, if_false]

theorem State.releaseBank_locked (h : s.eng.state ≠ .unconfigured) (hb : s.bank n = some b) (hs : b.state = .lockedOut) :
    State.releaseBank n s = ((s.commitBank (released (s.bankContext n) b)).engineTakesBanks, doneBare) := by
  rw [State.releaseBank, if_neg h, hb]
  simp only [hs, if_true]

end Release

theorem EngineState.live_iff (e : EngineState) : e.live = true ↔ e ≠ .unconfigured ∧ e ≠ .startup := by
  cases e <;> simp [EngineState.live]

/-- Settles O31: each request acts on its bank, and the engine then recomputes the demands. -/
theorem bankRequestsAct : Obligations.BankRequestsAct := by
  intro s i tag n x hready htoken
  have hforcing {ops : List Byte} {t : State} {a : Answer} (hlen : lengthIs ops 2 = true)
      (h : State.setForcing (getU8 ops 0) (getU8 ops 1) (s.taking i) = (t, a)) :
      exec (.setForcing i tag ops) s = .next (t.respond i tag a) := by
    refine exec_request_holder ?_ hready htoken h
    change Host.Outcome.next (s.request i tag .command (lengthIs ops 2) _) = _
    rw [hlen]
  have hrelease {t : State} {a : Answer} (h : State.releaseBank n.toNat (s.taking i) = (t, a)) :
      exec (.releaseBank i tag [n]) s = .next (t.respond i tag a) := exec_request_holder rfl hready htoken h
  refine ⟨fun hun => ⟨?_, ?_⟩, fun heng hb => ⟨?_, ?_⟩, fun b heng hb => ⟨fun hx => ?range, fun m hs => ?unassigned, fun hs => ?unlocked,
    fun m hs hf => ?changes, fun m hs hf => ?same, fun hs hd => ?released, fun d hs hd hup => ?queued⟩⟩
  · exact hforcing rfl (State.setForcing_unconfigured (s := s.taking i) hun)
  · exact hrelease (State.releaseBank_unconfigured (s := s.taking i) hun)
  · exact hforcing rfl (State.setForcing_unlisted (s := s.taking i) heng hb)
  · exact hrelease (State.releaseBank_unlisted (s := s.taking i) heng hb)
  case range => exact hforcing rfl (State.setForcing_noMode (s := s.taking i) heng hb (Forcing.ofCode_none hx))
  case unassigned => exact hforcing rfl (State.setForcing_unassigned (s := s.taking i) heng hb m.ofCode_code hs)
  case unlocked => exact hrelease (State.releaseBank_notLocked (s := s.taking i) heng hb hs)
  case changes =>
    obtain ⟨c, hc, hm⟩ := State.forced_finish (s := s.taking i) hb m
    refine ⟨_, c, ?_, hc, hm, State.ResponseOnly.forced (s.taking i) b m⟩
    rw [← State.forcingResult_some hc]
    exact hforcing rfl (State.setForcing_changes (s := s.taking i) heng hb m.ofCode_code hs hf)
  case same => exact hforcing rfl (State.setForcing_same (s := s.taking i) heng hb m.ofCode_code hs hf)
  case released =>
    have hrests : ((s.taking i).bankContext n.toNat).live = false ∨ b.demand = .off := by
      refine hd.symm.imp_left fun hup => ?_
      change s.eng.state.live = false
      rw [hup]
      rfl
    rw [hrelease (State.releaseBank_locked (s := s.taking i) heng hb hs), Machine.released,
      thenAct_off (b := { b with state := .off, failures := 0, lockoutPending := false }) hrests rfl]
  case queued =>
    have hlive : ((s.taking i).bankContext n.toNat).live = true := s.eng.state.live_iff.2 ⟨heng, hup⟩
    rw [hrelease (State.releaseBank_locked (s := s.taking i) heng hb hs), Machine.released,
      thenAct_off_run (b := { b with state := .off, failures := 0, lockoutPending := false }) hlive rfl hd]

/-! ### A demand acted on (R75 to R78) -/

section Acts
variable {s : State} {b c : Bank} {m : Demand} {o : Option DriveCommand} {ws : List ArbiterWord}

/-- What handing a demand leaves: the record, the start queue and slots, and the command queue. -/
def State.Acts (s : State) (b : Bank) (m : Demand) (c : Bank) (o : Option DriveCommand) (a : Arbiter) : Prop :=
  (s.handDemand b.number m).bank b.number = some { c with demand := m } ∧ (s.handDemand b.number m).arb = a ∧
    (s.handDemand b.number m).fl = (o.map (fun x => s.fl.enqueue { address := b.address, command := x })).getD s.fl

theorem State.acts_of_commit (hb : s.bank b.number = some b) (hc : c.number = b.number) (ha : c.address = b.address)
    (h : s.handDemand b.number m =
      s.commitBank { bank := { c with demand := m }, command := o, words := ws, notices := [] }) :
    s.Acts b m c o (ws.foldl (Arbiter.tell { c with demand := m }) s.arb) := by
  unfold State.Acts
  rw [h]
  refine ⟨State.bank_commitBank hb _ hc, State.arb_commitBank _ _, ?_⟩
  rw [State.fl_commitBank]
  cases o with
  | none => rfl
  | some x => rw [← ha]; rfl

/-- Where the engine does not let it act, a demand is held. -/
theorem State.acts_held (hb : s.bank b.number = some b) (hl : s.eng.state.live = false) : s.Acts b m b none s.arb :=
  State.acts_of_commit (ws := []) hb rfl rfl (by rw [State.handDemand, hb]; simp only [hl, Bool.false_eq_true, if_false]; rfl)

theorem State.acts_live (hb : s.bank b.number = some b) (hl : s.eng.state.live = true) (hc : c.number = b.number)
    (ha : c.address = b.address)
    (h : actOnDemand (s.bankContext b.number) { b with demand := m } =
      { bank := { c with demand := m }, command := o, words := ws, notices := [] }) :
    s.Acts b m c o (ws.foldl (Arbiter.tell { c with demand := m }) s.arb) :=
  State.acts_of_commit hb hc ha (by rw [State.handDemand, hb]; simp only [hl, if_true, h])

end Acts

section Demands
variable (x : BankContext) {b : Bank}

theorem actOnDemand_off_off (hs : b.state = .off) (hd : b.demand = .off) : actOnDemand x b = .only b := by
  simp only [actOnDemand, hs, hd]

theorem actOnDemand_off_run {d : Spin} (hs : b.state = .off) (hd : b.demand = .run d) :
    actOnDemand x b = { BankOut.only { b with state := .queued d } with words := [.join .start] } := by
  simp only [actOnDemand, hs, hd]

theorem actOnDemand_queued_off {y : Spin} (hs : b.state = .queued y) (hd : b.demand = .off) :
    actOnDemand x b = { BankOut.only { b with state := .off } with words := [.leave] } := by
  simp only [actOnDemand, hs, hd]

theorem actOnDemand_queued_run {y d : Spin} (hs : b.state = .queued y) (hd : b.demand = .run d) :
    actOnDemand x b = .only { b with state := .queued d } := by
  simp only [actOnDemand, hs, hd]

theorem actOnDemand_turning {y : Spin} (hs : b.state = .starting y ∨ b.state = .running y) (hd : b.demand = .run y) :
    actOnDemand x b = .only b := by
  rcases hs with hs | hs <;> simp only [actOnDemand, hs, hd, if_true]

theorem actOnDemand_starting_stops {y : Spin} (hs : b.state = .starting y) (hd : b.demand ≠ .run y) :
    actOnDemand x b =
      { BankOut.only (b.stopping y.turn .commanded x.coast) with command := some .stop, words := [.release] } := by
  simp only [actOnDemand, hs, hd, if_false]

theorem actOnDemand_running_stops {y : Spin} (hs : b.state = .running y) (hd : b.demand ≠ .run y) :
    actOnDemand x b = { BankOut.only (b.stopping y.turn .commanded x.coast) with command := some .stop } := by
  simp only [actOnDemand, hs, hd, if_false]

theorem actOnDemand_resumes {y : Spin} (hs : b.state = .stopping y.turn) (hd : b.demand = .run y) (hc : b.stopCause = some .commanded)
    (hp : b.lockoutPending = false) :
    actOnDemand x b = { BankOut.only b with words := if x.queued then [] else [.join .resume] } := by
  cases hq : x.queued <;> simp [actOnDemand, hs, hd, hc, hp, hq, BankOut.only]

theorem actOnDemand_noResume {y : Spin} (hs : b.state = .stopping y.turn) (hd : b.demand = .run y)
    (h : b.stopCause ≠ some .commanded ∨ b.lockoutPending = true) : actOnDemand x b = .only b := by
  have hfails : ¬ (b.stopCause = some .commanded ∧ b.lockoutPending = false ∧ x.queued = false) := by
    rintro ⟨hc, hp, -⟩
    rcases h with h | h
    · exact h hc
    · exact Bool.false_ne_true (hp.symm.trans h)
  simp only [actOnDemand, hs, hd, if_true, hfails, if_false]

theorem Spin.spin_turn (d : Spin) : d.turn.spin = some d := by cases d <;> rfl

theorem Spin.turn_inj {y d : Spin} (h : y.turn = d.turn) : y = d :=
  Option.some.inj (by rw [← y.spin_turn, h, d.spin_turn])

theorem Spin.turn_ne_unknown (d : Spin) : d.turn ≠ .unknown := by cases d <;> exact nofun

/-- A bank in STOPPING that is not demanded in its own direction leaves the queue. -/
theorem actOnDemand_leaves {y : Turn} (hs : b.state = .stopping y) (hd : ∀ d, b.demand = .run d → d.turn ≠ y) :
    actOnDemand x b = { BankOut.only b with words := [.leave] } := by
  cases hm : b.demand with
  | off => simp only [actOnDemand, hs, hm]
  | run d => simp only [actOnDemand, hs, hm, (hd d hm).symm, if_false]

theorem actOnDemand_holds
    (hs : b.state = .unassigned ∨ b.state = .verify ∨ b.state = .lockedOut ∨ b.state = .unreachable ∨ b.state = .atLocal) :
    actOnDemand x b = .only b := by
  rcases hs with hs | hs | hs | hs | hs <;> simp only [actOnDemand, hs]

end Demands

/-! ### By command -/

/-- The demand of a bank forced OFF, and of one forced FWD outside the heat zone. -/
theorem State.demandOf_forcedOff (s : State) (ns : List Nat) {b : Bank} (h : b.forcing = .off) : s.demandOf ns b = .off := by
  rw [State.demandOf, if_pos (by rw [h]; exact nofun), Bank.forcedDemand, h]
  exact ite_self _

theorem State.demandOf_forcedFwd (s : State) (ns : List Nat) {b : Bank} (h : b.forcing = .fwd) (hz : b.heatInhibited = false) :
    s.demandOf ns b = .run .fwd := by
  rw [State.demandOf, if_pos (by rw [h]; exact nofun), Bank.forcedDemand, if_neg (by simp [hz]), h]

/-- SET_FORCING of a new mode, as the bank stands after the response: handed its forced demand when that is new. -/
theorem State.bank_setForcing {s : State} {b : Bank} {m : Forcing} {x : Demand} (hl : s.eng.state.live = true) (hd : s.BanksDistinct)
    (hb : s.bank b.number = some b) (hx : b.demand ≠ x)
    (hdemand : ∀ z : State, ∀ ns, z.demandOf ns { b with
      forcing := m, heatInhibited := inHeat (heatZone s.site s.eng s.inc.table) b.chainage } = x) :
    (s.forced b m).finish.bank b.number =
      some (actOnDemand ((s.forced b m).bankContext b.number) { b with
        forcing := m, heatInhibited := inHeat (heatZone s.site s.eng s.inc.table) b.chainage, demand := x }).bank := by
  obtain ⟨-, hfinish⟩ := State.bank_finish (s := s.forced b m) hl (State.forced_distinct b m hd) (State.bank_forced hb m)
  have hz : inHeat (s.forced b m).refreshHeat.eng.heat b.chainage = inHeat (heatZone s.site s.eng s.inc.table) b.chainage := rfl
  rw [hfinish]
  simp only [hz, hdemand, hx, if_false]
  exact congrArg some (if_pos hl)

/-- Settles O33: a demand is acted on by the branch of R76 to R78 that the state names. -/
theorem demandsActedOn : Obligations.DemandsActedOn := by
  refine ⟨fun s n b m hb => ?_, fun s i tag n b d hready htoken heng hstart hdistinct hb => ⟨fun hs hf hd => ?stopped,
    fun hs hd hf hz => ?started⟩⟩
  · obtain rfl : b.number = n := (State.bank_mem hb).2
    refine ⟨fun hnot => ?held, fun heng hstart => ?live⟩
    case held =>
      have hl : s.eng.state.live = false := by
        rw [← Bool.not_eq_true, EngineState.live_iff]
        rintro ⟨heng, hstart⟩
        exact hnot.elim heng hstart
      exact State.acts_held hb hl
    case live =>
      have hl := s.eng.state.live_iff.2 ⟨heng, hstart⟩
      refine ⟨fun hs => ⟨?_, fun d => ?_⟩, fun y hs => ⟨?_, fun d => ?_⟩, fun y hs => ⟨?_, fun hm => ?_⟩, fun y hs => ⟨?_, fun hm => ?_⟩,
        fun y hs => ⟨fun hm hc hp => ?_, fun hm hno => ?_, fun hm => ?_⟩, fun hs => ?_, fun hs => ?_⟩
      · rintro rfl
        exact State.acts_live (ws := []) hb hl rfl rfl (actOnDemand_off_off _ (b := { b with demand := .off }) hs rfl)
      · rintro rfl
        exact State.acts_live (c := { b with state := .queued d }) hb hl rfl rfl
          (actOnDemand_off_run _ (b := { b with demand := .run d }) hs rfl)
      · rintro rfl
        exact State.acts_live (c := { b with state := .off }) hb hl rfl rfl
          (actOnDemand_queued_off _ (b := { b with demand := .off }) hs rfl)
      · rintro rfl
        exact State.acts_live (c := { b with state := .queued d }) (ws := []) hb hl rfl rfl
          (actOnDemand_queued_run _ (b := { b with demand := .run d }) hs rfl)
      · rintro rfl
        exact State.acts_live (ws := []) hb hl rfl rfl (actOnDemand_turning _ (b := { b with demand := .run y }) (.inl hs) rfl)
      · exact State.acts_live (c := b.stopping y.turn .commanded (siteCoast s.site)) hb hl rfl rfl
          (actOnDemand_starting_stops _ (b := { b with demand := m }) hs hm)
      · rintro rfl
        exact State.acts_live (ws := []) hb hl rfl rfl (actOnDemand_turning _ (b := { b with demand := .run y }) (.inr hs) rfl)
      · exact State.acts_live (c := b.stopping y.turn .commanded (siteCoast s.site)) (ws := []) hb hl rfl rfl
          (actOnDemand_running_stops _ (b := { b with demand := m }) hs hm)
      · subst hm
        have hacts := State.acts_live (c := b) hb hl rfl rfl
          (actOnDemand_resumes (s.bankContext b.number) (b := { b with demand := .run y }) hs rfl hc hp)
        have hqueued : (s.bankContext b.number).queued = s.arb.queued b.number := rfl
        rw [hqueued] at hacts
        cases hq : s.arb.queued b.number with
        | true => rw [hq] at hacts; exact hacts
        | false => rw [hq] at hacts; exact hacts
      · subst hm
        exact State.acts_live (ws := []) hb hl rfl rfl (actOnDemand_noResume _ (b := { b with demand := .run y }) hs rfl hno)
      · exact State.acts_live hb hl rfl rfl (actOnDemand_leaves _ (b := { b with demand := m }) hs
          fun d hd h => hm (hd.trans (congrArg _ (Spin.turn_inj h))))
      · exact State.acts_live hb hl rfl rfl (actOnDemand_leaves _ (b := { b with demand := m }) hs fun d _ => d.turn_ne_unknown)
      · exact State.acts_live (ws := []) hb hl rfl rfl (actOnDemand_holds _ (b := { b with demand := m }) hs)
  case stopped =>
    have hnumber : b.number = n.toNat := (State.bank_mem hb).2
    have hl := s.eng.state.live_iff.2 ⟨heng, hstart⟩
    have hnotUnassigned : b.state ≠ .unassigned := by rcases hs with hs | hs <;> rw [hs] <;> exact nofun
    have hbank := State.bank_setForcing (s := s.taking i) (m := .off) (x := .off) hl hdistinct (hnumber ▸ hb) (by rw [hd]; exact nofun)
      (fun z ns => z.demandOf_forcedOff ns rfl)
    rw [hnumber] at hbank
    refine ⟨_, _, exec_request_holder rfl hready htoken
      (State.setForcing_changes (s := s.taking i) (m := .off) heng hb rfl hnotUnassigned hf), hbank, ?_⟩
    rcases hs with hs | hs
    · rw [actOnDemand_running_stops _ (y := d) (by exact hs) (by exact nofun)]
      exact ⟨rfl, rfl, rfl, rfl, rfl, rfl⟩
    · rw [actOnDemand_starting_stops _ (y := d) (by exact hs) (by exact nofun)]
      exact ⟨rfl, rfl, rfl, rfl, rfl, rfl⟩
  case started =>
    have hnumber : b.number = n.toNat := (State.bank_mem hb).2
    have hl := s.eng.state.live_iff.2 ⟨heng, hstart⟩
    have hbank := State.bank_setForcing (s := s.taking i) (m := .fwd) (x := .run .fwd) hl hdistinct (hnumber ▸ hb) (by rw [hd]; exact nofun)
      (fun z ns => z.demandOf_forcedFwd ns rfl hz)
    rw [hnumber] at hbank
    refine ⟨_, _, exec_request_holder rfl hready htoken
      (State.setForcing_changes (s := s.taking i) (m := .fwd) heng hb rfl (by rw [hs]; exact nofun) hf), hbank, ?_⟩
    rw [actOnDemand_off_run _ (d := .fwd) (by exact hs) rfl]
    exact ⟨rfl, rfl, rfl⟩

end Sys2Proof.Machine
end

section
/-! The incident table: reports placed, merged and amended (R3 to R13), and the line condition (R18). -/

namespace Sys2Proof.Machine

open Sys2Proof

/-! ### Reports placed -/

theorem State.site_congr {s t : State} (h : t.lib.inUse = s.lib.inUse) : t.site = s.site := by
  unfold State.site
  rw [h]

/-- A state whose placement of a report is that of an earlier state. -/
structure PlacesAs (s w : State) : Prop where
  inc : w.inc = s.inc
  site : w.site = s.site
  uptime : w.uptime = s.uptime

theorem PlacesAs.incident {s w : State} (h : PlacesAs s w) (j : Nat) : w.incident j = s.incident j := by
  rw [State.incident, h.inc]
  rfl

theorem PlacesAs.trans {s t u : State} (h : PlacesAs s t) (k : PlacesAs t u) : PlacesAs s u :=
  ⟨k.inc.trans h.inc, k.site.trans h.site, k.uptime.trans h.uptime⟩

theorem PlacesAs.abortEdit (s : State) (c : AbortCause) : PlacesAs s (s.abortEdit c) :=
  ⟨(LibFrame.abortEdit s c).inc, State.site_congr (State.abortEdit_inUse s c), (LibFrame.abortEdit s c).uptime⟩

theorem PlacesAs.taking (s : State) (i : PortId) : PlacesAs s (s.taking i) := ⟨rfl, rfl, rfl⟩

/-- The answer to a LODGE, by the outcome of the placement. -/
def lodgeAnswer (now : Nat) : Placement → Answer
  | some (k, added) => done (u8 k ++ u8 (if added then 1 else 2) ++ u32 now)
  | none => refuse .refusedFull

/-- The state in which a LODGE of port `i` is placed. -/
def State.lodging (s : State) (i : PortId) : State := (s.taking i).abortEdit .incident

theorem PlacesAs.lodging (s : State) (i : PortId) : PlacesAs s (s.lodging i) := (PlacesAs.taking s i).trans (.abortEdit _ _)

theorem exec_lodge {s : State} {i : PortId} {ops : List Byte} {f : FireReport} (hready : s.Ready i) (hlen : ops.length = 8)
    (heng : s.eng.state ≠ .unconfigured) (hf : lodgeReport i (siteL s.site) ops = some f) (tag : Byte) :
    exec (.lodge i tag ops) s =
      .next (((s.lodging i).place f).1.respond i tag (lodgeAnswer s.uptime ((s.lodging i).place f).2)) := by
  have hwork : State.lodge i ops (s.taking i) =
      (((s.lodging i).place f).1, lodgeAnswer s.uptime ((s.lodging i).place f).2) := by
    have hreport : lodgeReport i (siteL (s.taking i).site) ops = some f := hf
    rw [State.lodge, if_neg (by exact heng), hreport]
    dsimp only [State.takeReport]
    change (match ((s.lodging i).place f).2 with | some (k, added) => _ | none => _) = _
    cases ((s.lodging i).place f).2 <;> rfl
  refine exec_request_free (level := .operate) ?_ hready (by decide) hwork
  change Host.Outcome.next (s.request i tag .operate (lengthIs ops 8) _) = _
  rw [lengthIs, hlen]
  rfl

theorem lodgeReport_source {i : PortId} {len : Nat} {ops : List Byte} {f : FireReport} (h : lodgeReport i len ops = some f) :
    f.source = .port i := by
  unfold lodgeReport at h
  split at h
  · split at h
    · rw [← Option.some.inj h]
      rfl
    · exact nomatch h
  · exact nomatch h

/-! ### The table after a placement -/

theorem State.handedOff_table (t : State) (before : List (Option Incident)) (g : Option Nat) :
    (t.recomputeGoverning.handOff before g).inc.table = t.inc.table := by
  rw [(Frame.handOff _ _ _).inc, (Frame.recomputeGoverning t).inc]

section Place
variable {s : State} {f : FireReport} {k : Nat} {r : Incident}

theorem State.near_false (h : ∀ r, s.incident k = some r → siteM s.site < r.zone.gap f.zone) : s.near f k = false := by
  rw [← Bool.not_eq_true]
  intro hn
  obtain ⟨r, hr, hgap⟩ := State.near_some hn
  exact absurd hgap (Nat.not_le.2 (h r hr))

theorem State.near_none (h : ∀ j r, j < 4 → s.incident j = some r → siteM s.site < r.zone.gap f.zone) :
    [0, 1, 2, 3].find? (s.near f) = none := by
  refine List.find?_eq_none.2 fun j hj => ?_
  have hj4 : j < 4 := by simp only [List.mem_cons, List.not_mem_nil, or_false] at hj; omega
  rw [State.near_false fun r => h j r hj4]
  exact Bool.false_ne_true

theorem State.near_first (hk : k < 4) (hr : s.incident k = some r) (hgap : r.zone.gap f.zone ≤ siteM s.site)
    (hbefore : ∀ j x, j < k → s.incident j = some x → siteM s.site < x.zone.gap f.zone) :
    [0, 1, 2, 3].find? (s.near f) = some k := by
  refine find_index hk ?_ fun j hj => State.near_false fun x => hbefore j x hj
  rw [State.near, hr]
  exact decide_eq_true hgap

theorem State.free_first (hk : k < 4) (hfree : s.incident k = none) (hbefore : ∀ j, j < k → s.incident j ≠ none) :
    [0, 1, 2, 3].find? (fun j => (s.incident j).isNone) = some k :=
  find_index hk (by rw [hfree]; rfl) fun j hj => Option.isNone_eq_false_iff.2 (Option.isSome_iff_ne_none.2 (hbefore j hj))

theorem State.free_none (h : ∀ j, j < 4 → s.incident j ≠ none) : [0, 1, 2, 3].find? (fun j => (s.incident j).isNone) = none := by
  refine List.find?_eq_none.2 fun j hj => ?_
  have hj4 : j < 4 := by simp only [List.mem_cons, List.not_mem_nil, or_false] at hj; omega
  rw [Option.isNone_iff_eq_none]
  exact h j hj4

theorem State.place_added (hn : [0, 1, 2, 3].find? (s.near f) = none)
    (hk : [0, 1, 2, 3].find? (fun j => (s.incident j).isNone) = some k) :
    (s.place f).1.inc.table = s.inc.table.set k (some (f.record s.uptime)) ∧ (s.place f).2 = some (k, true) := by
  rw [State.place_free hn hk]
  exact ⟨State.handedOff_table _ _ _, rfl⟩

theorem State.updated_rest (s : State) (f : FireReport) (k : Nat) (r : Incident) :
    (s.updated f k r).inc.table = s.inc.table.set k (some (r.update f s.uptime)) ∧ (s.updated f k r).site = s.site := by
  unfold State.updated
  dsimp only
  split <;> exact ⟨rfl, rfl⟩

theorem State.place_updated (hn : [0, 1, 2, 3].find? (s.near f) = some k) (hr : s.incident k = some r)
    (hz : (r.update f s.uptime).zone = r.zone) :
    (s.place f).1.inc.table = s.inc.table.set k (some (r.update f s.uptime)) ∧ (s.place f).2 = some (k, false) := by
  have hgrown : s.grown f k r = (s.updated f k r, k) := if_neg (not_not_intro hz)
  rw [State.place_near hn hr, hgrown]
  exact ⟨(State.handedOff_table _ _ _).trans (s.updated_rest f k r).1, rfl⟩

/-- A grown zone is merged until no two records lie within the merge distance. -/
theorem State.place_grown (hn : [0, 1, 2, 3].find? (s.near f) = some k) (hr : s.incident k = some r) (h4 : s.inc.table.length = 4)
    (hz : (r.update f s.uptime).zone ≠ r.zone) :
    apart (siteM s.site) (s.place f).1.inc.table ∧
      (apart (siteM s.site) (s.inc.table.set k (some (r.update f s.uptime))) →
        (s.place f).1.inc.table = s.inc.table.set k (some (r.update f s.uptime))) := by
  have hgrown : s.grown f k r = State.mergeAll 3 f.temp k (s.updated f k r) := if_pos hz
  obtain ⟨htable, hsite⟩ := s.updated_rest f k r
  have hlength : (s.updated f k r).inc.table.length = 4 := by rw [htable, List.length_set, h4]
  have hplaced : (s.place f).1.inc.table = (State.mergeAll 3 f.temp k (s.updated f k r)).1.inc.table := by
    rw [State.place_near hn hr, hgrown]
    exact State.handedOff_table _ _ _
  have hapart := State.mergeAll_apart 3 f.temp k (s.updated f k r) hlength (Nat.le_trans (occupied_le _) (Nat.le_of_eq hlength))
  rw [hplaced]
  refine ⟨hsite ▸ hapart.1, fun hfinal => ?_⟩
  rw [State.mergeAll_none (by rw [htable, hsite]; exact hfinal)]
  exact htable

end Place

/-! ### The records written -/

theorem IncidentClass.higher_eq (x y : IncidentClass) : x.higher y = if x = .confirmed then .confirmed else y := by
  cases x <;> rfl

theorem joinSources_one (l : List Source) (x : Source) : joinSources l [x] = if l.contains x then l else l ++ [x] := by
  rw [joinSources, List.filter_cons, List.filter_nil]
  cases l.contains x with
  | true => rw [Bool.not_true, if_neg Bool.false_ne_true, if_pos rfl, List.append_nil]
  | false => rw [Bool.not_false, if_pos rfl, if_neg Bool.false_ne_true]

/-- A record updated, with its zone as it comes out. -/
theorem Incident.update_eq (r : Incident) (f : FireReport) (now : Nat) {z : Zone} (hz : r.zone.union f.zone = z) :
    r.update f now =
      { cls := if r.cls = .confirmed then .confirmed else f.cls, zone := z
        sources := if r.sources.contains f.source then r.sources else r.sources ++ [f.source]
        firstReport := r.firstReport, lastUpdate := now, train := f.train.or r.train, evacuation := f.evacuation.or r.evacuation } := by
  rw [Incident.update, hz, joinSources_one, IncidentClass.higher_eq]

theorem Zone.union_of_within {x y : Zone} (hlo : x.lo ≤ y.lo) (hhi : y.hi ≤ x.hi) : x.union y = x := by
  rw [Zone.union, Nat.min_eq_left hlo, Nat.max_eq_left hhi]

theorem Zone.union_grows {x y : Zone} (h : y.lo < x.lo ∨ x.hi < y.hi) : x.union y ≠ x := by
  intro he
  have hlo : min x.lo y.lo = x.lo := congrArg Zone.lo he
  have hhi : max x.hi y.hi = x.hi := congrArg Zone.hi he
  omega

/-- Settles O13: the placement finds a near record, a free entry, or neither. -/
theorem lodgePlacesReport : Obligations.LodgePlacesReport := by
  intro s i tag ops f hready hlen heng hf
  have hw := PlacesAs.lodging s i
  have hexec := exec_lodge hready hlen heng hf tag
  have hsource := lodgeReport_source hf
  have hresponse := State.respond_response ((s.lodging i).place f).1 i tag (lodgeAnswer s.uptime ((s.lodging i).place f).2)
  refine ⟨fun hfar => ?new, fun k r hlength hk hr hgap hbefore hlo hhi => ?again⟩
  case new =>
    have hnear : [0, 1, 2, 3].find? ((s.lodging i).near f) = none :=
      State.near_none fun j r hj hr => hw.site ▸ hfar j r hj (hw.incident j ▸ hr)
    refine ⟨fun k hlength hk hfree hbefore => ?added, fun hfull => ?full⟩
    case added =>
      obtain ⟨htable, hplaced⟩ := State.place_added hnear
        (State.free_first hk (hw.incident k ▸ hfree) fun j hj => hw.incident j ▸ hbefore j hj)
      refine ⟨_, hexec, ?_, ?_⟩
      · refine htable.trans ?_
        rw [hw.inc, hw.uptime, FireReport.record, hsource]
      · rw [hresponse, hplaced]
        rfl
    case full =>
      have hrefused := State.place_full hnear (State.free_none fun j hj => hw.incident j ▸ hfull j hj)
      refine ⟨_, hexec, ?_, ?_⟩
      · rw [hrefused]
        exact hw.inc
      · rw [hresponse, hrefused]
        rfl
  case again =>
    have hnear : [0, 1, 2, 3].find? ((s.lodging i).near f) = some k :=
      State.near_first hk ((hw.incident k).trans hr) (hw.site ▸ hgap) fun j x hj hx => hw.site ▸ hbefore j x hj (hw.incident j ▸ hx)
    have hzone : r.zone.union f.zone = r.zone := Zone.union_of_within hlo hhi
    obtain ⟨htable, hplaced⟩ := State.place_updated hnear ((hw.incident k).trans hr) hzone
    refine ⟨_, hexec, ?_, ?_⟩
    · refine htable.trans ?_
      rw [hw.inc, hw.uptime, Incident.update_eq r f s.uptime hzone, hsource]
    · rw [hresponse, hplaced]
      rfl

/-! ### Hot spots -/

theorem State.lineAlive_det (s : State) :
    s.lineAlive.det.silence = s.det.silence ∧ s.lineAlive.det.condition ≠ .silent := by
  unfold State.lineAlive
  split
  · next h =>
    rw [State.setCondition_det, h, if_neg (by exact nofun)]
    exact ⟨rfl, nofun⟩
  · next h => exact ⟨rfl, h⟩

/-- The report of a hot spot, reduced to the tunnel. -/
def State.spotReport (s : State) (a b temp : Nat) : FireReport where
  zone := { lo := min (min a b) (siteL s.site), hi := min (max a b) (siteL s.site) }
  cls := .confirmed
  source := .detection
  evacuation := none
  train := none
  temp := temp

/-- The state in which a hot spot is placed. -/
def State.spotting (s : State) : State :=
  State.abortEdit { s.detectionHeard.lineAlive with det := { s.detectionHeard.lineAlive.det with refix := false } } .incident

theorem PlacesAs.lineAlive (s : State) : PlacesAs s s.lineAlive := by
  have h := Frame.lineAlive s
  exact ⟨h.inc, State.site_congr (congrArg Library.inUse h.lib), h.uptime⟩

theorem PlacesAs.spotting (s : State) : PlacesAs s s.spotting := by
  have halive : PlacesAs s s.detectionHeard.lineAlive :=
    PlacesAs.trans (t := s.detectionHeard) ⟨rfl, rfl, rfl⟩ (.lineAlive _)
  have hcleared : PlacesAs s { s.detectionHeard.lineAlive with det := { s.detectionHeard.lineAlive.det with refix := false } } :=
    ⟨halive.inc, halive.site, halive.uptime⟩
  exact hcleared.trans (.abortEdit _ _)

theorem State.spotting_det (s : State) :
    s.spotting.det = { s.detectionHeard.lineAlive.det with refix := false } := (LibFrame.abortEdit _ _).det

/-- A HOTSPOT that is taken: placed, and the re-fix taken when the mark was set. -/
theorem exec_hotspot {s : State} {temp : Byte} (h1 : 1 ≤ temp.toNat) (h3 : temp.toNat ≤ 3) (heng : s.eng.state ≠ .unconfigured)
    (a b : Word16) :
    exec (.hotspot a b temp) s =
      .next (if s.detectionHeard.lineAlive.det.refix then (s.spotting.place (s.spotReport a.toNat b.toNat temp.toNat)).1.takeRefix
        else (s.spotting.place (s.spotReport a.toNat b.toNat temp.toNat)).1) := by
  have halive := LineFrame.lineAlive s.detectionHeard
  have hsite : s.detectionHeard.lineAlive.site = s.site := (PlacesAs.lineAlive s.detectionHeard).site
  have hengine : ¬ s.detectionHeard.lineAlive.eng.state = .unconfigured := by rw [halive.eng]; exact heng
  change Host.Outcome.next (if _ then _ else _) = _
  rw [if_pos ⟨h1, h3⟩, State.passHotspot, if_neg hengine]
  dsimp only [State.takeReport, Zone.normal]
  rw [hsite]
  rfl

/-- What a hot spot leaves beside its placement: the incident table and the line's registers stand through the re-fix. -/
theorem exec_hotspot_rest {s : State} {temp : Byte} (h1 : 1 ≤ temp.toNat) (h3 : temp.toNat ≤ 3) (heng : s.eng.state ≠ .unconfigured)
    (a b : Word16) :
    ∃ t, exec (.hotspot a b temp) s = .next t ∧ t.inc = (s.spotting.place (s.spotReport a.toNat b.toNat temp.toNat)).1.inc ∧
      t.det = { s.detectionHeard.lineAlive.det with refix := false } ∧
      Frame (s.spotting.place (s.spotReport a.toNat b.toNat temp.toNat)).1 t := by
  have hplaced : Frame (s.spotting.place (s.spotReport a.toNat b.toNat temp.toNat)).1
      (if s.detectionHeard.lineAlive.det.refix then (s.spotting.place (s.spotReport a.toNat b.toNat temp.toNat)).1.takeRefix
        else (s.spotting.place (s.spotReport a.toNat b.toNat temp.toNat)).1) := by
    split
    · exact Frame.takeRefix _
    · exact .refl _
  exact ⟨_, exec_hotspot h1 h3 heng a b, hplaced.inc, hplaced.det.trans ((IncFrame.place _ _).det.trans s.spotting_det), hplaced⟩

/-- Settles O14: a hot spot far from every record is placed in the free entry. -/
theorem hotspotAddsRecord : Obligations.HotspotAddsRecord := by
  intro s a b temp k h1 h3 heng hfar hlength hk hfree hbefore
  have hw := PlacesAs.spotting s
  obtain ⟨hsilence, hcondition⟩ := State.lineAlive_det s.detectionHeard
  obtain ⟨t, hexec, hinc, hdet, -⟩ := exec_hotspot_rest h1 h3 heng a b
  have hnear : [0, 1, 2, 3].find? (s.spotting.near (s.spotReport a.toNat b.toNat temp.toNat)) = none :=
    State.near_none fun j r hj hr => hw.site ▸ hfar j r hj (hw.incident j ▸ hr)
  obtain ⟨htable, -⟩ := State.place_added hnear
    (State.free_first hk (hw.incident k ▸ hfree) fun j hj => hw.incident j ▸ hbefore j hj)
  refine ⟨t, hexec, by rw [hdet]; exact hsilence, by rw [hdet], by rw [hdet]; exact hcondition, ?_⟩
  rw [hinc, htable, hw.inc, hw.uptime]
  rfl

/-! ### Growth and merges (R8, R9) -/

/-- A report, by a LODGE or a HOTSPOT, leaves the table of its placement. -/
theorem exec_report {s : State} {i : PortId} {tag temp : Byte} {ops : List Byte} {a b : Word16} {f : FireReport} {c : Instr}
    (heng : s.eng.state ≠ .unconfigured)
    (hc : (c = .lodge i tag ops ∧ s.Ready i ∧ ops.length = 8 ∧ lodgeReport i (siteL s.site) ops = some f) ∨
      (c = .hotspot a b temp ∧ 1 ≤ temp.toNat ∧ temp.toNat ≤ 3 ∧ f = s.spotReport a.toNat b.toNat temp.toNat)) :
    ∃ w t, PlacesAs s w ∧ exec c s = .next t ∧ t.inc.table = (w.place f).1.inc.table := by
  rcases hc with ⟨rfl, hready, hlen, hf⟩ | ⟨rfl, h1, h3, rfl⟩
  · exact ⟨_, _, .lodging s i, exec_lodge hready hlen heng hf tag, rfl⟩
  · obtain ⟨t, hexec, hinc, -⟩ := exec_hotspot_rest h1 h3 heng a b
    exact ⟨_, t, .spotting s, hexec, congrArg IncidentRegister.table hinc⟩

theorem State.mergeOnce_latch {s : State} {l h : Nat} {x y : Incident} (hx : s.incident l = some x) (hy : s.incident h = some y)
    (temp : Nat) :
    (s.mergeOnce l h temp).eng.latch = s.eng.latch.map (fun c => { c with index := if c.index = h then l else c.index }) := by
  simp only [State.mergeOnce, hx, hy]
  exact State.moveLatch_latch _ l h

/-- Settles O15: a grown zone is merged until no two records lie within the merge distance. -/
theorem growthMerges : Obligations.GrowthMerges := by
  refine ⟨fun s i tag temp ops a b f c k r r2 heng hc h4 hr hgap hbefore hgrows hr2 => ?_, fun s l h temp x y hx hy hlt => ⟨?_, ?_⟩⟩
  · obtain ⟨w, t, hw, hexec, htable⟩ := exec_report heng hc
    have hk : k < 4 := by
      refine Classical.byContradiction fun hk => ?_
      have hnone : s.incident k = none := by
        rw [State.incident, List.getD_eq_getElem?_getD, List.getElem?_eq_none (by omega)]
        rfl
      exact nomatch hnone.symm.trans hr
    have hnear : [0, 1, 2, 3].find? (w.near f) = some k :=
      State.near_first hk ((hw.incident k).trans hr) (hw.site ▸ hgap) fun j x hj hx => hw.site ▸ hbefore j x hj (hw.incident j ▸ hx)
    have hupdate : r.update f w.uptime = r2 := by
      rw [Incident.update_eq r f w.uptime rfl, hr2, hw.uptime]
      rfl
    obtain ⟨hapart, hfinal⟩ := State.place_grown hnear ((hw.incident k).trans hr) (hw.inc ▸ h4) (Zone.union_grows hgrows)
    rw [hw.site, hupdate, hw.inc] at hfinal
    rw [hw.site] at hapart
    exact ⟨t, hexec, htable ▸ hapart, htable ▸ hfinal⟩
  · rw [State.mergeOnce_table hx hy, Incident.absorb, IncidentClass.higher_eq]
    rfl
  · exact State.mergeOnce_latch hx hy temp

/-! ### Amendments (R10 to R13) -/

theorem State.amend_table (s : State) (n : Nat) (o : Option Incident) (c : Option UpdateCause) :
    (s.amend n o c).inc.table = s.inc.table.set n o := by rw [(Frame.amend s n o c).inc]

section Amend
variable {s : State} {n : Nat} {r : Incident}

/-- A record confirmed by a port. -/
def Incident.confirmedBy (r : Incident) (i : PortId) (now : Nat) : Incident :=
  { r with cls := .confirmed, sources := joinSources r.sources [.port i], lastUpdate := now }

theorem State.confirmIncident_some (hn : n ≤ 3) (hr : s.incident n = some r) (i : PortId) :
    State.confirmIncident i n s =
      (s.amend n (some (r.confirmedBy i s.uptime)) (updateCause r (r.confirmedBy i s.uptime)), doneBare) := by
  rw [State.confirmIncident, if_neg (Nat.not_lt.2 hn), hr]
  rfl

theorem State.setEvacuation_changes {code : Nat} {e : Option Dir} (hc : evacuationOfCode code = some e) (hn : n ≤ 3)
    (hr : s.incident n = some r) (he : r.evacuation ≠ e) :
    State.setEvacuation n code s = (s.amend n (some { r with evacuation := e, lastUpdate := s.uptime }) (some .details), doneBare) := by
  simp only [State.setEvacuation, hc, hr, Nat.not_lt.2 hn, he, if_false]

theorem State.linkTrain_changes {code : Nat} {t : Option Nat} (hc : optionalTrain code = some t) (hn : n ≤ 3)
    (hr : s.incident n = some r) (ht : r.train ≠ t) :
    State.linkTrain n code s = (s.amend n (some { r with train := t, lastUpdate := s.uptime }) (some .details), doneBare) := by
  simp only [State.linkTrain, hc, hr, Nat.not_lt.2 hn, ht, if_false]

theorem State.clearIncident_some (hn : n ≤ 3) (hr : s.incident n = some r) :
    State.clearIncident n s = (s.amend n none (some .cleared), doneBare) := by
  rw [State.clearIncident, if_neg (Nat.not_lt.2 hn), hr]

end Amend

theorem evacuationOfCode_code (d : Dir) : evacuationOfCode (byteOf d.code).toNat = some (some d) := by cases d <;> rfl

theorem optionalTrain_of_range {n : Nat} (h1 : 1 ≤ n) (h9999 : n ≤ 9999) : optionalTrain n = some (some n) := by
  rw [optionalTrain, if_neg (by omega), if_pos (trainOk_of_range h1 h9999)]

/-- Settles O16: each request amends its entry and nothing else of the table. -/
theorem amendmentsWriteEntry : Obligations.AmendmentsWriteEntry := by
  intro s i tag n r hready hn hlength hr
  have hanswered (u : State) : ((u.respond i tag doneBare).port i).response = some { tag := tag, completion := .done, result := none } :=
    State.respond_response ..
  have htable (o : Option Incident) (c : Option UpdateCause) :
      (((s.taking i).amend n.toNat o c).respond i tag doneBare).inc.table = s.inc.table.set n.toNat o := by
    rw [State.respond_inc]
    exact State.amend_table (s.taking i) n.toNat o c
  refine ⟨?confirm, fun d hd => ?evacuation, fun hi lo h1 h9999 hd => ?link, fun htoken => ?clear⟩
  case confirm =>
    exact ⟨_, exec_request_free rfl hready (by decide) (State.confirmIncident_some (s := s.taking i) hn hr i),
      htable _ _, hanswered _⟩
  case evacuation =>
    exact ⟨_, exec_request_free rfl hready (by decide)
      (State.setEvacuation_changes (s := s.taking i) (evacuationOfCode_code d) hn hr hd), htable _ _, hanswered _⟩
  case link =>
    exact ⟨_, exec_request_free rfl hready (by decide)
      (State.linkTrain_changes (s := s.taking i) (optionalTrain_of_range h1 h9999) hn hr hd), htable _ _, hanswered _⟩
  case clear =>
    exact ⟨_, exec_request_holder rfl hready htoken (State.clearIncident_some (s := s.taking i) hn hr), htable _ _,
      hanswered _⟩

/-! ### The line condition (R18) -/

theorem State.lineAlive_cases (s : State) :
    s.lineAlive.det =
      if s.det.condition = .silent then { s.det with condition := .ok, breakAt := none, refix := true } else s.det := by
  unfold State.lineAlive
  split
  · next h =>
    rw [State.setCondition_det, h, if_neg (by exact nofun), decide_eq_true rfl, Bool.or_true]
  · rfl

/-- Settles O18: by the condition before, frame by frame. -/
theorem lineConditionTable : Obligations.LineConditionTable := by
  intro s c
  refine ⟨⟨_, rfl, ?_⟩, ⟨_, rfl, ?_⟩, ⟨_, rfl, ?_⟩, fun n hn => ⟨_, congrArg Host.Outcome.next (if_pos (by rw [hn]; rfl)), ?_⟩⟩
  · rw [State.lineAlive_cases]
    by_cases h : s.det.condition = .silent <;> simp [State.detectionHeard, detectionSilence, h]
  · rw [State.setCondition_det]
    by_cases h : s.det.condition = .fault <;> simp [State.detectionHeard, detectionSilence, h]
  · rw [State.setCondition_det]
    by_cases h : s.det.condition = .ok <;> simp [State.detectionHeard, detectionSilence, h]
  · rw [State.setCondition_det]
    by_cases h : s.det.condition = .silent <;> simp [h]

end Sys2Proof.Machine
end

section
/-! Commits and SET_DIRECTION (R48 to R52). -/

namespace Sys2Proof.Machine

open Sys2Proof

/-! ### The fresh match before a commit -/

/-- The state in which a direction is chosen: a fresh match made, and its row handed on. -/
def State.matchedAnew (s : State) : State := s.freshMatch.handRow

theorem Frame.matchedAnew (s : State) : Frame s s.matchedAnew := (Frame.freshMatch s).trans (Frame.handRow _)

theorem State.eng_matchedAnew (s : State) : s.matchedAnew.eng = s.eng := State.eng_freshMatch s

theorem State.slot_congr {s t : State} (h : t.lib = s.lib) (n : Nat) : t.slot n = s.slot n := by
  rw [State.slot, h]
  rfl

theorem State.row_of {s : State} {n k : Nat} (hp : s.plans.active = some n) (hm : s.mat.matched = some k) :
    s.row = some ((s.slot n).row k) := by
  simp only [State.row, State.rowId, hp, hm, Option.map_some]

section Matched
variable {s : State} {n g f : Nat}

theorem State.matchedAnew_matched (hp : s.plans.active = some n) (hg : s.mat.governing = some g) (hf : s.mat.workF = some f) :
    s.matchedAnew.mat.matched = some ((rawFlags (s.slot n) f).headD 0) := by
  obtain ⟨-, -, -, -, hmatch⟩ := s.freshMatch_mat
  exact (hmatch n g f hp hg hf).2

theorem State.matchedAnew_row (hp : s.plans.active = some n) (hg : s.mat.governing = some g) (hf : s.mat.workF = some f) :
    s.matchedAnew.row = some ((s.slot n).row ((rawFlags (s.slot n) f).headD 0)) := by
  have hplans : s.matchedAnew.plans = s.plans := (Frame.matchedAnew s).plans
  rw [State.row_of (hplans ▸ hp) (State.matchedAnew_matched hp hg hf), State.slot_congr (Frame.matchedAnew s).lib]

end Matched

theorem State.commitDir_congr {s t : State} (ht : t.eng.trains = s.eng.trains) (hl : t.lib = s.lib) (r : Incident) (row : Row) :
    t.commitDir r row = s.commitDir r row := by
  have hblocked (d : Dir) : t.blocked r d = s.blocked r d := by
    rw [State.blocked, ht, State.site_congr (congrArg Library.inUse hl)]
    rfl
  simp only [State.commitDir, hblocked]

/-! ### The commit attempt -/

section Commit
variable {s : State} {n g f k : Nat} {r : Incident} {row : Row}

/-- What a commit attempt reads, when one entry is CONFIRMED, a plan is active and the matcher holds the governing record. -/
structure State.Commits (s : State) (g : Nat) (r : Incident) (row : Row) : Prop where
  one : s.confirmedCount ≤ 1
  plan : s.plans.active ≠ none
  governing : s.inc.governing = some g
  record : s.incident g = some r
  row : s.matchedAnew.row = some row

/-- The choice of a direction, with both outcomes still open. -/
theorem State.commitAttempt_reads (h : s.Commits g r row) :
    (∀ d, s.commitDir r row = some d → s.commitAttempt = s.matchedAnew.latchDirection d g row) ∧
      (s.commitDir r row = none → s.commitAttempt = s.matchedAnew.enterHold .directionBlocked) := by
  obtain ⟨hone, hplan, hgoverning, hincident, hrow⟩ := h
  have hframe := Frame.matchedAnew s
  have hgov : s.freshMatch.handRow.inc.governing = some g := hframe.inc ▸ hgoverning
  have hrecord : s.freshMatch.handRow.governingRecord = some r := by
    have hsame : s.freshMatch.handRow.incident g = s.incident g := congrArg (fun x => x.table.getD g none) hframe.inc
    rw [State.governingRecord, hgov]
    exact hsame.trans hincident
  have hdir : s.freshMatch.handRow.commitDir r row = s.commitDir r row := State.commitDir_congr hframe.trains hframe.lib r row
  have hfew : ¬ 2 ≤ s.confirmedCount := by omega
  have hrow' : s.freshMatch.handRow.row = some row := hrow
  refine ⟨fun d hd => ?_, fun hd => ?_⟩
  · rw [State.commitAttempt, if_neg hfew, if_neg hplan]
    simp only [hgov, hrecord, hrow', hdir, hd]
    rfl
  · rw [State.commitAttempt, if_neg hfew, if_neg hplan]
    simp only [hgov, hrecord, hrow', hdir, hd]
    rfl

theorem State.commits_of (hone : s.confirmedCount ≤ 1) (hp : s.plans.active = some n) (hg : s.inc.governing = some g)
    (hm : s.mat.governing = some g) (hf : s.mat.workF = some f) (hr : s.incident g = some r) :
    s.Commits g r ((s.slot n).row ((rawFlags (s.slot n) f).headD 0)) :=
  ⟨hone, by rw [hp]; exact nofun, hg, hr, State.matchedAnew_row hp hm hf⟩

end Commit

theorem State.commitDir_evacuating (s : State) {r : Incident} {side : Dir} (row : Row) (h : r.evacuation = some side) :
    s.commitDir r row = if s.blocked r side.opposite then none else some side.opposite := by
  rw [State.commitDir, h]

theorem State.commitDir_preferred (s : State) {r : Incident} (row : Row) (h : r.evacuation = none) :
    s.commitDir r row =
      if !s.blocked r row.preferred then some row.preferred
      else if row.alternate && !s.blocked r row.preferred.opposite then some row.preferred.opposite else none := by
  rw [State.commitDir, h]

/-- Settles O21: the attempt takes its branches in the order of R48. -/
theorem commitAttemptOutcomes : Obligations.CommitAttemptOutcomes := by
  intro s
  refine ⟨fun hmany => if_pos hmany, fun hone hp => ?noPlan, fun n g f r k row hone hp hg hm hf hr hk hrow => ?tries,
    fun r row => ⟨fun side hside => s.commitDir_evacuating row hside, fun hnone => ⟨fun hb => ?usable, fun hb => ?barred⟩⟩⟩
  case noPlan => exact (if_neg (by omega)).trans (if_pos hp)
  case tries =>
    have hcommits := State.commits_of hone hp hg hm hf hr
    rw [hk, hrow] at hcommits
    obtain ⟨hlatches, hblocked⟩ := State.commitAttempt_reads hcommits
    refine ⟨fun d hd => ?_, fun hd => ?_⟩
    · obtain ⟨hstate, hlatch, hstage, hdwell, hheld, hmat⟩ := s.matchedAnew.latchDirection_registers d g row
      have hsite : s.matchedAnew.site = s.site := State.site_congr (congrArg Library.inUse (Frame.matchedAnew s).lib)
      rw [hlatches d hd]
      exact ⟨hstate, hlatch, hstage, hsite ▸ hdwell, hheld, by rw [hmat, State.matchedAnew_matched hp hm hf, hk]⟩
    · rw [hblocked hd]
      exact State.enterHold_state _ _
  case usable =>
    rw [s.commitDir_preferred row hnone, hb]
    rfl
  case barred =>
    rw [s.commitDir_preferred row hnone, hb]
    rfl

/-! ### SET_DIRECTION (R51) -/

theorem DemandFrame.advise (s : State) : DemandFrame s s.advise := by
  unfold State.advise
  split
  · split
    · dsimp only
      split
      · split
        · exact (DemandFrame.raise s _).trans (.raise _ _)
        · exact .raise s _
      · split
        · exact .raise s _
        · exact .refl s
    · exact .refl s
  · exact .refl s

/-- The engine's registers after a latch. -/
theorem State.eng_latchDirection (s : State) (d : Dir) (g : Nat) (row : Row) :
    (s.latchDirection d g row).eng =
      { s.eng with state := .active, latch := some { dir := d, index := g }, stage := some row.base, kept := none, snapshot := none } := by
  unfold State.latchDirection
  dsimp only
  rw [State.eng_formThrust, (State.formTarget_rest _).1, State.startDwell_eng, State.raise_eng, State.setEngine_eng]

/-- A direction imposed: the latch, then the advisories and the demands. -/
def State.imposed (s : State) (d : Dir) (g : Nat) (row : Row) : State := (s.latchDirection d g row).advise.finish

theorem DemandFrame.imposed (s : State) (d : Dir) (g : Nat) (row : Row) : DemandFrame (s.latchDirection d g row) (s.imposed d g row) :=
  (DemandFrame.advise _).trans (.finish _)

theorem Frame.imposed (s : State) (d : Dir) (g : Nat) (row : Row) : Frame s (s.imposed d g row) :=
  ((Frame.latchDirection s d g row).trans (Frame.advise _)).trans (Frame.finish _)

/-- What SET_DIRECTION leaves in the registers. -/
theorem State.imposed_registers (s : State) (d : Dir) (g : Nat) (row : Row) :
    (s.imposed d g row).eng.state = .active ∧ (s.imposed d g row).eng.latch = some { dir := d, index := g } ∧
      (s.imposed d g row).eng.stage = some row.base ∧ (s.imposed d g row).eng.snapshot = none ∧
      (s.imposed d g row).mat = s.mat ∧ (s.imposed d g row).vel.dwell = .running (siteDwell s.site) ∧
      (s.imposed d g row).vel.held = none := by
  obtain ⟨-, -, -, hdwell, hheld, hmat⟩ := s.latchDirection_registers d g row
  obtain ⟨hmats, heng, hvel⟩ := DemandFrame.imposed s d g row
  rw [hmats, heng, hvel, State.eng_latchDirection]
  exact ⟨rfl, rfl, rfl, rfl, hmat, hdwell, hheld⟩

section SetDirection
variable {s : State} {d : Dir} {code : Nat}

theorem State.imposeDirection_some {g : Nat} {row : Row} (hr : s.row = some row) :
    s.imposeDirection d (some g) = (s.imposed d g row, doneBare) := by
  simp only [State.imposeDirection, hr]
  rfl

theorem State.setDirection_other {c : Latch} {row : Row} (hc : Dir.ofCode code = some d) (hs : s.eng.state = .active)
    (hl : s.eng.latch = some c) (hne : c.dir ≠ d) (hr : s.row = some row) :
    State.setDirection code s = (s.imposed d c.index row, doneBare) := by
  simp only [State.setDirection, hc, hs, hl, Option.any_some, decide_eq_false hne, Bool.false_eq_true, if_false, Option.map_some]
  exact State.imposeDirection_some hr

theorem State.setDirection_same {c : Latch} (hc : Dir.ofCode code = some d) (hs : s.eng.state = .active)
    (hl : s.eng.latch = some c) (he : c.dir = d) : State.setDirection code s = (s, doneBare) := by
  simp only [State.setDirection, hc, hs, hl, Option.any_some, decide_eq_true he, if_true]

theorem State.setDirection_held {h : HoldReason} {n g : Nat} {row : Row} (hc : Dir.ofCode code = some d) (hs : s.eng.state = .hold h)
    (hp : s.plans.active = some n) (hg : s.inc.governing = some g) (hr : s.matchedAnew.row = some row) :
    State.setDirection code s = (s.matchedAnew.imposed d g row, doneBare) := by
  have hrow : s.freshMatch.handRow.row = some row := hr
  simp only [State.setDirection, hc, hs, hp, hg, hrow, Option.isSome_some, Bool.and_self, if_true]
  exact State.imposeDirection_some hr

theorem State.setDirection_noPlan {h : HoldReason} (hc : Dir.ofCode code = some d) (hs : s.eng.state = .hold h)
    (hp : s.plans.active = none) : State.setDirection code s = (s, refuse .refusedState) := by
  simp only [State.setDirection, hc, hs, hp, Option.isSome_none, Bool.false_and, Bool.false_eq_true, if_false]

theorem State.setDirection_elsewhere (hc : Dir.ofCode code = some d) (ha : s.eng.state ≠ .active) (hh : ∀ h, s.eng.state ≠ .hold h) :
    State.setDirection code s = (s, refuse .refusedState) := by
  rw [State.setDirection, hc]
  dsimp only
  split
  · next h hs => exact absurd hs (hh h)
  · next hs => exact absurd hs ha
  · rfl

theorem State.setDirection_noDirection (hc : Dir.ofCode code = none) : State.setDirection code s = (s, refuse .refusedRange) := by
  rw [State.setDirection, hc]

end SetDirection

theorem Dir.ofCode_code (d : Dir) : Dir.ofCode (byteOf d.code).toNat = some d := by cases d <;> rfl

theorem Dir.ofCode_none {x : Nat} (h1 : x ≠ 1) (h2 : x ≠ 2) : Dir.ofCode x = none := by
  unfold Dir.ofCode
  split
  · exact absurd rfl h1
  · exact absurd rfl h2
  · rfl

/-- Settles O22: by the engine's state and, in ACTIVE, the direction latched. -/
theorem setDirectionLatches : Obligations.SetDirectionLatches := by
  intro s i tag d hready htoken
  have hexec {x : Byte} {t : State} {a : Answer} (h : State.setDirection x.toNat (s.taking i) = (t, a)) :
      exec (.setDirection i tag [x]) s = .next (t.respond i tag a) := exec_request_holder rfl hready htoken h
  refine ⟨fun c r hs hl hne hr => ?other, fun c hs hl he => ?same, fun h n g f k r hs hp hg hm hf hk hr => ?held, fun hh hp => ?noPlan,
    fun ha hh => ?elsewhere, fun x h1 h2 => hexec (State.setDirection_noDirection (Dir.ofCode_none h1 h2))⟩
  case other =>
    obtain ⟨hstate, hlatch, hstage, -, -, hdwell, hheld⟩ := (s.taking i).imposed_registers d c.index r
    have hframe := Frame.imposed (s.taking i) d c.index r
    exact ⟨_, hexec (State.setDirection_other (s := s.taking i) d.ofCode_code hs hl hne hr), hstate, hlatch, hstage, hdwell, hheld,
      hframe.inc, hframe.plans, State.respond_response ..⟩
  case same => exact hexec (State.setDirection_same (s := s.taking i) d.ofCode_code hs hl he)
  case held =>
    have hrow : (s.taking i).matchedAnew.row = some r := by
      rw [State.matchedAnew_row (s := s.taking i) hp hm hf, hr, hk]
      rfl
    obtain ⟨hstate, hlatch, hstage, hsnapshot, hmat, hdwell, hheld⟩ := (s.taking i).matchedAnew.imposed_registers d g r
    have hmatched : (s.taking i).matchedAnew.mat.matched = some k := by
      rw [State.matchedAnew_matched (s := s.taking i) hp hm hf, hk]
      rfl
    have hanew := Frame.matchedAnew (s.taking i)
    have hsite : (s.taking i).matchedAnew.site = s.site := State.site_congr (congrArg Library.inUse hanew.lib)
    have hframe := hanew.trans (Frame.imposed (s.taking i).matchedAnew d g r)
    exact ⟨_, hexec (State.setDirection_held (s := s.taking i) d.ofCode_code hs hp hg hrow), hstate, hlatch, hstage, hsnapshot,
      (congrArg Matcher.matched hmat).trans hmatched, hsite ▸ hdwell, hheld, hframe.inc, hframe.plans, State.respond_response ..⟩
  case noPlan =>
    obtain ⟨h, hs⟩ := hh
    exact hexec (State.setDirection_noPlan (s := s.taking i) d.ofCode_code hs hp)
  case elsewhere => exact hexec (State.setDirection_elsewhere (s := s.taking i) d.ofCode_code ha hh)

end Sys2Proof.Machine
end

section
/-! The heat zone as a union of stretches (R61). -/

namespace Sys2Proof.Machine

open Sys2Proof

/-! ### Intervals in order -/

/-- A chainage lies in one interval, ends included. -/
def Zone.Holds (z : Zone) (c : Nat) : Prop := z.lo ≤ c ∧ c ≤ z.hi

theorem inHeat_iff (l : List Zone) (c : Nat) : inHeat l c = true ↔ ∃ z ∈ l, z.Holds c := by
  simp [inHeat, Zone.Holds]

theorem inHeat_cons (z : Zone) (l : List Zone) (c : Nat) : inHeat (z :: l) c = true ↔ z.Holds c ∨ inHeat l c = true := by
  simp [inHeat_iff]

theorem inHeat_congr {l m : List Zone} {c : Nat} (h : inHeat l c = true ↔ inHeat m c = true) : inHeat l c = inHeat m c :=
  Bool.eq_iff_iff.2 h

theorem mem_insertZone {z x : Zone} : ∀ {l : List Zone}, x ∈ insertZone z l ↔ x = z ∨ x ∈ l
  | [] => by simp [insertZone]
  | y :: l => by
    unfold insertZone
    split
    · exact List.mem_cons
    · rw [List.mem_cons, mem_insertZone (l := l), List.mem_cons]
      exact or_left_comm

/-- Intervals in the order of their lower bounds. -/
def InOrder (l : List Zone) : Prop := l.Pairwise (fun x y => x.lo ≤ y.lo)

theorem InOrder.insertZone {z : Zone} : ∀ {l : List Zone}, InOrder l → InOrder (insertZone z l)
  | [], _ => List.pairwise_singleton _ _
  | y :: l, h => by
    obtain ⟨hy, hl⟩ := List.pairwise_cons.1 h
    unfold Machine.insertZone
    split
    · next hle =>
      refine List.pairwise_cons.2 ⟨fun x hx => ?_, h⟩
      rcases List.mem_cons.1 hx with rfl | hx
      · exact hle
      · exact Nat.le_trans hle (hy x hx)
    · next hlt =>
      refine List.pairwise_cons.2 ⟨fun x hx => ?_, InOrder.insertZone hl⟩
      rcases mem_insertZone.1 hx with rfl | hx
      · exact Nat.le_of_lt (Nat.lt_of_not_le hlt)
      · exact hy x hx

theorem foldr_insertZone : ∀ l : List Zone,
    InOrder (l.foldr insertZone []) ∧ ∀ x, x ∈ l.foldr insertZone [] ↔ x ∈ l
  | [] => ⟨List.Pairwise.nil, fun _ => Iff.rfl⟩
  | z :: l => by
    obtain ⟨horder, hmem⟩ := foldr_insertZone l
    exact ⟨horder.insertZone, fun x => by rw [List.foldr_cons, mem_insertZone, hmem, List.mem_cons]⟩

/-! ### Joining -/

/-- Intervals in order, apart from one another. -/
structure Separate (l : List Zone) : Prop where
  order : InOrder l
  apart : l.Pairwise (fun x y => x.hi < y.lo)

/-- An interval joined with one that begins within it. -/
theorem Zone.holds_join {z y : Zone} (hlo : z.lo ≤ y.lo) (hhi : y.lo ≤ z.hi) (c : Nat) :
    Zone.Holds { lo := min z.lo y.lo, hi := max z.hi y.hi } c ↔ z.Holds c ∨ y.Holds c := by
  unfold Zone.Holds
  dsimp only
  omega

theorem mergeInto_separate : ∀ (l : List Zone) (z : Zone), Separate l → (∀ y ∈ l, z.lo ≤ y.lo) →
    Separate (mergeInto z l) ∧ (∀ x ∈ mergeInto z l, z.lo ≤ x.lo) ∧
      ∀ c, inHeat (mergeInto z l) c = true ↔ z.Holds c ∨ inHeat l c = true
  | [], z, _, _ =>
    ⟨⟨List.pairwise_singleton _ _, List.pairwise_singleton _ _⟩, fun x hx => (List.mem_singleton.1 hx).symm ▸ Nat.le_refl _,
      fun c => inHeat_cons z [] c⟩
  | y :: l, z, ⟨horder, hapart⟩, hz => by
    obtain ⟨hyl, hl⟩ := List.pairwise_cons.1 horder
    obtain ⟨hyl', hl'⟩ := List.pairwise_cons.1 hapart
    have hzy := hz y List.mem_cons_self
    unfold mergeInto
    split
    case isTrue hreach =>
      have hmin : min z.lo y.lo = z.lo := Nat.min_eq_left hzy
      obtain ⟨hsep, hlow, hheat⟩ := mergeInto_separate l { lo := min z.lo y.lo, hi := max z.hi y.hi } ⟨hl, hl'⟩
        (fun x hx => Nat.le_trans (Nat.le_of_eq hmin) (hz x (List.mem_cons_of_mem _ hx)))
      refine ⟨hsep, fun x hx => Nat.le_trans (Nat.le_of_eq hmin.symm) (hlow x hx), fun c => ?_⟩
      rw [hheat, Zone.holds_join hzy hreach, inHeat_cons, or_assoc]
    case isFalse hpast =>
      refine ⟨⟨List.pairwise_cons.2 ⟨hz, horder⟩, List.pairwise_cons.2 ⟨fun x hx => ?_, hapart⟩⟩, fun x hx => ?_, fun c => inHeat_cons ..⟩
      · rcases List.mem_cons.1 hx with rfl | hx
        · omega
        · have := hyl x hx
          omega
      · rcases List.mem_cons.1 hx with rfl | hx
        · exact Nat.le_refl _
        · exact hz x hx

theorem mergeZones_separate : ∀ l : List Zone, InOrder l →
    Separate (mergeZones l) ∧ (∀ b, (∀ x ∈ l, b ≤ x.lo) → ∀ x ∈ mergeZones l, b ≤ x.lo) ∧
      ∀ c, inHeat (mergeZones l) c = true ↔ inHeat l c = true
  | [], _ => ⟨⟨List.Pairwise.nil, List.Pairwise.nil⟩, fun _ h => h, fun _ => Iff.rfl⟩
  | z :: l, h => by
    obtain ⟨hz, hl⟩ := List.pairwise_cons.1 h
    obtain ⟨hsep, hlow, hheat⟩ := mergeZones_separate l hl
    obtain ⟨hsep', hlow', hheat'⟩ := mergeInto_separate (mergeZones l) z hsep (hlow z.lo hz)
    refine ⟨hsep', fun b hb x hx => Nat.le_trans (hb z List.mem_cons_self) (hlow' x hx), fun c => ?_⟩
    rw [mergeZones, hheat', hheat, inHeat_cons]

theorem heatZone_separate (site : List (List Byte)) (e : Engine) (table : List (Option Incident)) :
    Separate (heatZone site e table) ∧ ∀ c, inHeat (heatZone site e table) c = inHeat (heatStretches site e table) c := by
  obtain ⟨horder, hmem⟩ := foldr_insertZone (heatStretches site e table)
  obtain ⟨hsep, -, hheat⟩ := mergeZones_separate _ horder
  refine ⟨hsep, fun c => inHeat_congr ?_⟩
  rw [heatZone, hheat, inHeat_iff, inHeat_iff]
  simp only [hmem]

/-! ### The stretches -/

/-- A chainage lies in the stretch around a zone, clamped to the tunnel. -/
def Near (len : Nat) (z : Zone) (west east c : Nat) : Prop := min (z.lo - west) len ≤ c ∧ c ≤ min (z.hi + east) len

theorem mem_confirmedZones {table : List (Option Incident)} {j : Nat} {z : Zone} :
    (j, z) ∈ confirmedZones table ↔ ∃ x, table.getD j none = some x ∧ x.cls = .confirmed ∧ x.zone = z := by
  unfold confirmedZones
  rw [List.mem_filterMap]
  constructor
  · rintro ⟨⟨o, i⟩, hmem, hsome⟩
    cases o with
    | none => exact nomatch hsome
    | some r =>
      dsimp only at hsome
      split at hsome
      · next hcls =>
        obtain ⟨rfl, rfl⟩ := Prod.mk.inj (Option.some.inj hsome)
        exact ⟨r, mem_zipIdx_getD.1 hmem, hcls, rfl⟩
      · exact nomatch hsome
  · rintro ⟨x, hx, hcls, rfl⟩
    exact ⟨(some x, j), mem_zipIdx_getD.2 hx, if_pos hcls⟩

/-- A chainage lies near a CONFIRMED entry of the indices that `p` picks. -/
theorem inHeat_confirmed (table : List (Option Incident)) (p : Nat → Bool) (len west east c : Nat) :
    inHeat (((confirmedZones table).filter (fun iz => p iz.1)).map (fun iz => stretch len west east iz.2)) c = true ↔
      ∃ j x, p j = true ∧ table.getD j none = some x ∧ x.cls = .confirmed ∧ Near len x.zone west east c := by
  rw [inHeat_iff]
  constructor
  · rintro ⟨z, hz, hc⟩
    obtain ⟨⟨j, y⟩, hy, rfl⟩ := List.mem_map.1 hz
    obtain ⟨hmem, hp⟩ := List.mem_filter.1 hy
    obtain ⟨x, hx, hcls, rfl⟩ := mem_confirmedZones.1 hmem
    exact ⟨j, x, hp, hx, hcls, hc⟩
  · rintro ⟨j, x, hp, hx, hcls, hc⟩
    exact ⟨_, List.mem_map.2 ⟨(j, x.zone), List.mem_filter.2 ⟨mem_confirmedZones.2 ⟨x, hx, hcls, rfl⟩, hp⟩, rfl⟩, hc⟩

section Stretches
variable {site : List (List Byte)} {e : Engine} {table : List (Option Incident)}

/-- The stretch around the latched record, by the latched direction. -/
def ownStretch (site : List (List Byte)) (d : Dir) (z : Zone) : Zone :=
  if d = .east then stretch (siteL site) (siteU site) (siteD site) z else stretch (siteL site) (siteD site) (siteU site) z

theorem heatStretches_active {l : Latch} {r : Incident} (hs : e.state = .active) (hl : e.latch = some l)
    (hr : table.getD l.index none = some r) :
    heatStretches site e table =
      ownStretch site l.dir r.zone ::
        ((confirmedZones table).filter (fun iz => iz.1 != l.index)).map (fun iz => stretch (siteL site) (siteD site) (siteD site) iz.2) := by
  simp only [heatStretches, hs, hl, hr]
  rfl

theorem ownStretch_holds (site : List (List Byte)) (d : Dir) (z : Zone) (c : Nat) :
    (ownStretch site d z).Holds c ↔
      (d = .east ∧ Near (siteL site) z (siteU site) (siteD site) c) ∨ (d = .west ∧ Near (siteL site) z (siteD site) (siteU site) c) := by
  cases d <;> simp [ownStretch, Zone.Holds, Near, stretch]

theorem heatStretches_hold {h : HoldReason} (hs : e.state = .hold h) :
    heatStretches site e table =
      ((confirmedZones table).filter (fun _ => true)).map (fun iz => stretch (siteL site) (siteD site) (siteD site) iz.2) := by
  rw [List.filter_eq_self.mpr fun _ _ => rfl]
  simp only [heatStretches, hs]

theorem heatStretches_elsewhere (ha : e.state ≠ .active) (hh : ∀ h, e.state ≠ .hold h) : heatStretches site e table = [] := by
  unfold heatStretches
  dsimp only
  split
  · next hs _ => exact absurd hs ha
  · next h hs => exact absurd hs (hh h)
  · rfl

end Stretches

/-- Settles O25: inserting keeps the intervals and puts them in order, and joining keeps the chainages they hold. -/
theorem heatZoneIsUnion : Obligations.HeatZoneIsUnion := by
  intro site e table
  obtain ⟨hsep, hunion⟩ := heatZone_separate site e table
  refine ⟨hunion, hsep.apart, fun l r c hs hl hr => ?active, fun h c hs => ?hold, fun ha hh => ?elsewhere⟩
  case active =>
    rw [hunion, heatStretches_active hs hl hr, inHeat_cons, ownStretch_holds, inHeat_confirmed table (fun j => j != l.index), or_assoc]
    simp only [bne_iff_ne]
    rfl
  case hold =>
    rw [hunion, heatStretches_hold hs, inHeat_confirmed table (fun _ => true)]
    simp only [true_and]
    rfl
  case elsewhere =>
    rw [heatZone, heatStretches_elsewhere ha hh]
    rfl

end Sys2Proof.Machine
end

section
/-! The target and the committed thrust (R117 to R120, R125). -/

namespace Sys2Proof.Machine

open Sys2Proof

/-! ### SET_TARGET -/

theorem getI16_of_small {l : List Byte} {k : Nat} (h : getU16 l k < 32768) : getI16 l k = getU16 l k := by
  rw [getI16, if_pos h]

theorem State.setTarget_active {s : State} {u : Nat} (h100 : 100 ≤ u) (h800 : u ≤ 800) (ha : s.eng.state = .active) :
    State.setTarget (u : Int) s =
      (State.formTarget { s with vel := { s.vel with held := some u } },
        done (targetResult (State.formTarget { s with vel := { s.vel with held := some u } }).vel.target)) := by
  rw [State.setTarget, if_neg (by omega), if_neg (by rw [ha]; exact not_not_intro rfl), Int.toNat_natCast]

/-- What forming the target leaves beside the target and the limit record. -/
theorem State.formTarget_vel {s : State} {r : Row} (ha : s.eng.state = .active) (hr : s.row = some r) :
    s.formTarget.vel.target = some (s.targetOf (s.vel.held.getD r.target)) ∧ s.formTarget.vel.held = s.vel.held ∧
      s.formTarget.vel.thrust = s.vel.thrust ∧ s.formTarget.vel.dwell = s.vel.dwell := by
  rw [State.vel_formTarget ha hr]
  exact ⟨rfl, rfl, rfl, rfl⟩

/-! ### The thrust -/

theorem thrustSum_eq (l : List Bank) (d : Dir) : thrustSum l d = (l.map (fun b => b.signedThrust d)).sum := by
  rw [thrustSum, List.sum_eq_foldl]

theorem bounded_ne_iff (v : Int) : bounded v ≠ v ↔ v < -32767 ∨ 32767 < v := by
  unfold bounded
  omega

theorem Bank.signedThrust_eq (b : Bank) (d : Dir) (y : Spin) (h : b.state.driven = some y) :
    b.signedThrust d =
      if (if y = .fwd then b.forward else b.forward.opposite) = d then ((b.fans * b.thrustPerFan : Nat) : Int)
      else -((b.fans * b.thrustPerFan : Nat) : Int) := by
  have hair : b.air y = if y = .fwd then b.forward else b.forward.opposite := by cases y <;> rfl
  rw [Bank.signedThrust, h, ← hair]
  rfl

theorem Bank.signedThrust_rests (b : Bank) (d : Dir) (h : b.state.driven = none) : b.signedThrust d = 0 := by
  rw [Bank.signedThrust, h]

theorem State.formThrust_limits_none {s : State} (h : s.eng.latch = none) : s.formThrust.vel.limits = s.vel.limits := by
  rw [State.vel_formThrust, h]
  simp only [Option.any_none, Bool.or_false]

theorem State.formThrust_limits_some {s : State} {c : Latch} (h : s.eng.latch = some c) :
    s.formThrust.vel.limits =
      { s.vel.limits with
        saturated := s.vel.limits.saturated || decide (thrustSum s.banks c.dir < -32767 ∨ 32767 < thrustSum s.banks c.dir) } := by
  rw [State.vel_formThrust, h]
  simp only [Option.any_some, bounded_ne_iff]

theorem State.ThrustFormed.same {s t : State} (h : s.ThrustFormed) (hv : t.vel = s.vel) (he : t.eng = s.eng) (hb : t.banks = s.banks) :
    t.ThrustFormed := by
  unfold State.ThrustFormed
  rw [hv, he, hb]
  exact h

theorem State.ThrustFormed.advise {s : State} (h : s.ThrustFormed) : s.advise.ThrustFormed := by
  unfold State.advise
  split
  · split
    · dsimp only
      split <;> split <;> exact h
    · exact h
  · exact h

theorem State.ThrustFormed.imposed (s : State) (d : Dir) (g : Nat) {r : Row} (hr : s.row = some r) (hd : s.BanksDistinct) :
    (s.imposed d g r).ThrustFormed :=
  (s.latchDirection_forms d g hr).1.advise.finish (((Frame.latchDirection s d g r).trans (Frame.advise _)).distinct hd)

theorem State.imposed_target (s : State) (d : Dir) (g : Nat) {r : Row} (hr : s.row = some r) :
    (s.imposed d g r).vel.target = some { value := clampTarget s.site r.target, unclamped := r.target, fromHeld := false } := by
  rw [(DemandFrame.imposed s d g r).vel]
  exact (s.latchDirection_forms d g hr).2

theorem State.engineTakesBanks_running {s : State} (h : s.eng.state ≠ .startup) : s.engineTakesBanks = s.finish := by
  unfold State.engineTakesBanks
  split
  · next hs => exact absurd hs h
  · rfl

theorem State.ResponseOnly.distinct {s t : State} (h : s.ResponseOnly t) (d : s.BanksDistinct) : t.BanksDistinct := by
  obtain ⟨-, -, -, -, hbanks⟩ := h
  unfold State.BanksDistinct
  rw [numbers_of_fixed (hbanks d)]
  exact d

/-- A grant that starts a bank forms the thrust. -/
theorem State.ThrustFormed.granted {s : State} {q : QueueEntry} {k : Nat} {b : Bank} {o : BankOut} {d : Spin}
    (hb : s.bank q.bank = some b) (ho : o.bank.fixed = b.fixed) (hs : o.bank.state = .starting d) (hne : b.state ≠ .starting d)
    (he : s.eng.state ≠ .startup) (hd : s.BanksDistinct) : ((s.granting q k).commitBank o).engineTakesBanks.ThrustFormed := by
  have hnumber : o.bank.number = q.bank := (Bank.fixed_number ho).trans (State.bank_mem hb).2
  have hstate : ((s.granting q k).commitBank o).eng.state ≠ .startup := by rw [State.commitBank_eng]; exact he
  have hcommitted : ((s.granting q k).commitBank o).ThrustFormed :=
    State.ThrustFormed.commitBank_changed (b := b) (by rw [hnumber]; exact hb) (by rw [hs]; exact hne)
  rw [State.engineTakesBanks_running hstate]
  exact hcommitted.finish ((State.ResponseOnly.commitBank (s := s.granting q k) o hb ho).distinct hd)

/-- Settles O28: target and thrust are formed by their equations, and stay formed through what every step composes. -/
theorem targetAndThrustFormed : Obligations.TargetAndThrustFormed := by
  intro s signed sum formed target
  have hsigned (d : Dir) (b : Bank) : signed d b = b.signedThrust d := by
    cases hb : b.state with
    | starting x => simp only [signed, hb]; exact (b.signedThrust_eq d x (by rw [hb]; rfl)).symm
    | running x => simp only [signed, hb]; exact (b.signedThrust_eq d x (by rw [hb]; rfl)).symm
    | _ => simp only [signed, hb]; exact (b.signedThrust_rests d (by rw [hb]; rfl)).symm
  have hsum (l : List Bank) (d : Dir) : sum l d = thrustSum l d := by
    rw [thrustSum_eq]
    exact congrArg List.sum (List.map_congr_left fun b _ => hsigned d b)
  have hformed {t : State} (h : t.ThrustFormed) : formed t := by
    simp only [formed, hsum]
    exact h
  refine ⟨fun i tag x y r hready htoken ha hr h100 h800 => ?request, fun n hn => ?dwell, fun r u ha hr hu => ?forms,
    fun ha => ⟨State.formTarget_rests ha, s.rowChange_keeps.2.2 ha⟩, rfl,
    ⟨hformed (.formThrust s), s.banks_formThrust, s.eng_formThrust, State.formThrust_limits_none, fun c hc => ?saturates⟩,
    hformed (.dropLatch s), fun d g r hr => ?latch, fun r hr => ?returns, fun hd hf => ?stands,
    fun i tag d c r hready htoken ha hl hne hr hd => ?direction, fun q qs k b hq hk hb hs he hd => ?grant⟩
  case request =>
    have hvalue : getI16 [x, y] 0 = ((x.toNat * 256 + y.toNat : Nat) : Int) := getI16_of_small (by exact Nat.lt_of_le_of_lt h800 (by omega))
    have hwork := State.setTarget_active (s := s.taking i) h100 h800 ha
    rw [← hvalue] at hwork
    obtain ⟨htarget, hheld, hthrust, hdwell⟩ :=
      State.formTarget_vel (s := { s.taking i with vel := { s.vel with held := some (x.toNat * 256 + y.toNat) } }) ha hr
    obtain ⟨heng, -, hbanks, -⟩ := State.formTarget_rest { s.taking i with vel := { s.vel with held := some (x.toNat * 256 + y.toNat) } }
    exact ⟨_, exec_request_holder rfl hready htoken hwork, hheld, htarget, hthrust, hdwell, heng, hbanks⟩
  case dwell => exact congrArg Host.Outcome.next (if_pos (by rw [hn]; rfl))
  case forms =>
    subst hu
    refine ⟨(State.formTarget_vel ha hr).1, State.rowChange_target ha hr, ?_⟩
    rw [State.vel_formTarget ha hr]
    rfl
  case saturates =>
    rw [State.formThrust_limits_some hc, hsum]
  case latch => exact ⟨hformed (s.latchDirection_forms d g hr).1, (s.latchDirection_forms d g hr).2⟩
  case returns => exact ⟨hformed (s.returnActive_forms hr).1, (s.returnActive_forms hr).2⟩
  case stands =>
    have hs : s.ThrustFormed := by
      simp only [formed, hsum] at hf
      exact hf
    exact ⟨fun n m => hformed (hs.handDemand hd n m), hformed (hs.finish hd)⟩
  case direction =>
    have hwork := State.setDirection_other (s := s.taking i) d.ofCode_code ha hl hne hr
    refine ⟨_, exec_request_holder rfl hready htoken hwork, hformed ?_, State.imposed_target (s.taking i) d c.index hr⟩
    exact State.ThrustFormed.same (.imposed (s.taking i) d c.index hr hd) rfl rfl rfl
  case grant =>
    obtain ⟨d, hs | hs⟩ := hs
    · refine ⟨_, exec_startGrant hq hk hb, hformed ?_⟩
      exact .granted (d := d) hb (fixed_granted _ b) (by rw [granted_queued hs]; rfl) (by rw [hs]; exact nofun) he hd
    · refine ⟨_, exec_startGrant hq hk hb, hformed ?_⟩
      exact .granted (d := d) hb (fixed_granted _ b) (by rw [granted_stopping hs]; rfl) (by rw [hs]; exact nofun) he hd

end Sys2Proof.Machine
end

section
/-! The demands by engine state (R63 to R69). -/

namespace Sys2Proof.Machine

open Sys2Proof

/-! ### The demand of one bank (R64 to R68) -/

section Demand
variable {s : State} {b : Bank} (ns : List Nat)

theorem Bank.forcedDemand_inhibited (h : b.heatInhibited = true) : b.forcedDemand = .off := if_pos h

theorem State.demandOf_forced (h : b.forcing ≠ .auto) : s.demandOf ns b = b.forcedDemand := if_pos h

theorem State.demandOf_quiet (hf : b.forcing = .auto) (hs : s.eng.state = .quiet) : s.demandOf ns b = .off := by
  rw [State.demandOf, if_neg (not_not_intro hf), hs]

theorem State.demandOf_hold {r : HoldReason} (hf : b.forcing = .auto) (hs : s.eng.state = .hold r) :
    s.demandOf ns b = if b.heatInhibited || b.state.excluded then .off else snapshotDemand s.eng.snapshot b.number := by
  rw [State.demandOf, if_neg (not_not_intro hf), hs]

theorem State.demandOf_holding (hf : b.forcing = .auto) (hs : s.eng.state = .alert ∨ s.eng.state = .resetHold) :
    s.demandOf ns b = b.holdDemand (s.arb.queued b.number) := by
  rcases hs with hs | hs <;> rw [State.demandOf, if_neg (not_not_intro hf), hs]

theorem State.demandOf_active {c : Latch} (hf : b.forcing = .auto) (hs : s.eng.state = .active) (hl : s.eng.latch = some c) :
    s.demandOf ns b = if b.number ∈ ns then .run (b.spinFor c.dir) else .off := by
  rw [State.demandOf, if_neg (not_not_intro hf), hs, hl]
  simp only [List.contains_eq_mem, decide_eq_true_eq]

theorem State.demandOf_active_noLatch (hf : b.forcing = .auto) (hs : s.eng.state = .active) (hl : s.eng.latch = none) :
    s.demandOf ns b = .off := by
  rw [State.demandOf, if_neg (not_not_intro hf), hs, hl]

end Demand

theorem Turn.spin_eq_some (y : Turn) (d : Spin) : y.spin = some d ↔ y = d.turn := by
  cases y <;> cases d <;> simp [Turn.spin, Spin.turn]

theorem Arbiter.queued_iff (a : Arbiter) (n : Nat) : a.queued n = true ↔ ∃ q ∈ a.queue, q.bank = n := by
  simp [Arbiter.queued]

/-- The hold demand is the direction a bank runs, starts, is queued or resumes in (R65). -/
theorem Bank.holdDemand_run_iff (b : Bank) (queued : Bool) (d : Spin) :
    b.holdDemand queued = .run d ↔
      b.state = .running d ∨ b.state = .starting d ∨ b.state = .queued d ∨ (b.state = .stopping d.turn ∧ queued = true) := by
  unfold Bank.holdDemand
  cases hs : b.state with
  | stopping y =>
    have hspin := y.spin_eq_some
    cases hy : y.spin with
    | none =>
      have hne : y ≠ d.turn := fun h => nomatch hy.symm.trans ((hspin d).2 h)
      simp [hne, hy]
    | some e =>
      have hye := (hspin e).1 hy
      subst hye
      have hinj : (e.turn = d.turn) ↔ e = d := ⟨Spin.turn_inj, congrArg _⟩
      cases queued <;> simp [hinj, hy]
  | _ => simp

theorem BankState.excluded_iff (x : BankState) :
    x.excluded = true ↔ x = .lockedOut ∨ x = .unreachable ∨ x = .atLocal ∨ x = .unassigned := by
  cases x <;> simp [BankState.excluded]

theorem snapshotDemand_found {l : List (Nat × Demand)} {n : Nat} {m : Demand} (h : l.find? (fun p => p.1 == n) = some (n, m)) :
    snapshotDemand (some l) n = m := by
  rw [snapshotDemand, Option.getD_some, h]

/-! ### The taken list (R63, R67) -/

theorem Bank.eligible_iff (b : Bank) (r : Row) :
    b.eligible r = true ↔
      b.forcing = .auto ∧ b.heatInhibited = false ∧ b.number ∉ r.inhibit ∧ b.state ≠ .lockedOut ∧ b.state ≠ .unreachable ∧
        b.state ≠ .atLocal ∧ b.state ≠ .unassigned := by
  have hstate : b.state.excluded = false ↔
      b.state ≠ .lockedOut ∧ b.state ≠ .unreachable ∧ b.state ≠ .atLocal ∧ b.state ≠ .unassigned := by
    rw [← Bool.not_eq_true, b.state.excluded_iff]
    simp only [not_or]
  simp [Bank.eligible, hstate, and_assoc]

/-- The eligible banks of an order. -/
def State.eligibleIn (s : State) (r : Row) (order : List Nat) : List Bank := order.filterMap (fun n => (s.bank n).filter (fun b => b.eligible r))

theorem State.eligibleOrder_active {s : State} {c : Latch} {r : Row} (hs : s.eng.state = .active) (hl : s.eng.latch = some c)
    (hr : s.row = some r) : s.eligibleOrder = s.eligibleIn r (r.order c.dir) := by
  simp only [State.eligibleOrder, hs, hl, hr]
  rfl

theorem State.mem_eligibleIn {s : State} {r : Row} {order : List Nat} {b : Bank} :
    b ∈ s.eligibleIn r order ↔ b.number ∈ order ∧ s.bank b.number = some b ∧ b.eligible r = true := by
  unfold State.eligibleIn
  rw [List.mem_filterMap]
  constructor
  · rintro ⟨n, hn, hb⟩
    obtain ⟨hbank, heligible⟩ := Option.filter_eq_some_iff.1 hb
    obtain rfl : b.number = n := (State.bank_mem hbank).2
    exact ⟨hn, hbank, heligible⟩
  · rintro ⟨hn, hbank, heligible⟩
    exact ⟨b.number, hn, Option.filter_eq_some_iff.2 ⟨hbank, heligible⟩⟩

theorem State.eligibleIn_sublist (s : State) (r : Row) : ∀ order : List Nat, ((s.eligibleIn r order).map Bank.number).Sublist order
  | [] => List.Sublist.refl _
  | n :: order => by
    have ih := s.eligibleIn_sublist r order
    unfold State.eligibleIn at ih ⊢
    rw [List.filterMap_cons]
    split
    · exact ih.cons n
    · next b hb =>
      obtain rfl : b.number = n := (State.bank_mem (Option.filter_eq_some_iff.1 hb).1).2
      exact ih.cons_cons b.number

/-- A taken bank stands under its number, and is eligible. -/
theorem State.takenList_eligible {s : State} {b : Bank} (h : b ∈ s.takenList) : s.bank b.number = some b ∧ b.heatInhibited = false := by
  have hmem : b ∈ s.eligibleOrder := List.mem_of_mem_take h
  unfold State.eligibleOrder at hmem
  split at hmem
  · next c r _ _ _ =>
    obtain ⟨-, hbank, heligible⟩ := State.mem_eligibleIn.1 hmem
    obtain ⟨-, hheat, -⟩ := (b.eligible_iff r).1 heligible
    exact ⟨hbank, hheat⟩
  · exact absurd hmem List.not_mem_nil

theorem State.demandOf_inhibited_active {s : State} {b : Bank} (hi : b.heatInhibited = true) (hs : s.eng.state = .active)
    (hb : s.bank b.number = some b) : s.demandOf (s.takenList.map Bank.number) b = .off := by
  by_cases hf : b.forcing = .auto
  · cases hl : s.eng.latch with
    | none => exact State.demandOf_active_noLatch _ hf hs hl
    | some c =>
      rw [State.demandOf_active _ hf hs hl, if_neg]
      intro hmem
      obtain ⟨x, hx, hnumber⟩ := List.mem_map.1 hmem
      obtain ⟨hbank, hheat⟩ := State.takenList_eligible hx
      rw [hnumber, hb] at hbank
      obtain rfl := Option.some.inj hbank
      exact Bool.false_ne_true (hheat.symm.trans hi)
  · rw [State.demandOf_forced _ hf, Bank.forcedDemand_inhibited hi]

/-! ### The end of a hand-off (R62, R69) -/

theorem heat_actOnDemand (x : BankContext) (b : Bank) : (actOnDemand x b).bank.heatInhibited = b.heatInhibited := by
  unfold actOnDemand
  split
  case h_4 => split <;> rfl
  case h_5 => split <;> rfl
  case h_6 =>
    split
    · split <;> rfl
    · rfl
  all_goals rfl

theorem State.handed_demand (s : State) (b : Bank) (m : Demand) :
    (s.handed b m).demand = m ∧ (s.handed b m).heatInhibited = b.heatInhibited := by
  unfold State.handed
  split
  · exact ⟨demand_actOnDemand _ _, heat_actOnDemand _ _⟩
  · exact ⟨rfl, rfl⟩

/-- Settles O26: the demand of a bank is the first row of R68 that fits it, and a recomputation hands it. -/
theorem demandsFollowState : Obligations.DemandsFollowState := by
  refine ⟨fun s b hi => ⟨fun hf ns => ?forcedHeat, fun ⟨r, hs⟩ ns => ?holdHeat, fun hs hb => State.demandOf_inhibited_active hi hs hb⟩,
    fun s b ns => ⟨fun hf => s.demandOf_forcedOff ns hf, fun hi => ⟨fun hf => s.demandOf_forcedFwd ns hf hi, fun hf => ?rev⟩,
      fun hf => ⟨fun hs => State.demandOf_quiet ns hf hs, fun hs d => ?holding, fun h l hs hl => ?hold, fun c hs hl => ?active⟩⟩,
    fun s c r n hs hl hr hn => ?taken, fun s => ⟨fun hs => ?rests, fun heng hstart hd b hb => ?finish⟩⟩
  case forcedHeat => rw [State.demandOf_forced ns hf, Bank.forcedDemand_inhibited hi]
  case holdHeat =>
    by_cases hf : b.forcing = .auto
    · rw [State.demandOf_hold ns hf hs, hi, Bool.true_or, if_pos rfl]
    · rw [State.demandOf_forced ns hf, Bank.forcedDemand_inhibited hi]
  case rev =>
    rw [State.demandOf_forced ns (by rw [hf]; exact nofun), Bank.forcedDemand, if_neg (by simp [hi]), hf]
  case holding =>
    rw [State.demandOf_holding ns hf hs, Bank.holdDemand_run_iff, Arbiter.queued_iff]
  case hold =>
    rw [State.demandOf_hold ns hf hs]
    refine ⟨fun hx => ?_, fun m hi h1 h2 h3 h4 hm => ?_⟩
    · rw [b.state.excluded_iff.2 hx, Bool.or_true, if_pos rfl]
    · have hx : b.state.excluded = false := by
        rw [← Bool.not_eq_true, b.state.excluded_iff]
        simp [h1, h2, h3, h4]
      rw [hi, hx, Bool.or_false, if_neg Bool.false_ne_true, hl, snapshotDemand_found hm]
  case active => exact State.demandOf_active ns hf hs hl
  case taken =>
    have horder : s.eligibleOrder = s.eligibleIn r (r.order c.dir) := State.eligibleOrder_active hs hl hr
    refine ⟨s.eligibleIn r (r.order c.dir), ?_, s.eligibleIn_sublist r _, fun b hb => (State.mem_eligibleIn.1 hb).2.1, fun b hb => ?_⟩
    · rw [State.takenList, horder, hn]
      rfl
    · rw [State.mem_eligibleIn, Bank.eligible_iff]
      exact ⟨fun ⟨hmem, _, h⟩ => ⟨hmem, h⟩, fun ⟨hmem, h⟩ => ⟨hmem, hb, h⟩⟩
  case rests =>
    refine if_neg fun hlive => ?_
    obtain ⟨heng, hstart⟩ := s.eng.state.live_iff.1 hlive
    exact hs.elim heng hstart
  case finish =>
    obtain ⟨hz, hfinish⟩ := State.bank_finish (s.eng.state.live_iff.2 ⟨heng, hstart⟩) hd (State.bank_of_mem hd hb)
    refine ⟨_, _, _, rfl, rfl, rfl, hz, hfinish, ?_⟩
    split
    · next hm => exact ⟨hm, rfl⟩
    · exact s.handed_demand _ _

end Sys2Proof.Machine
end

section
/-! The abort of EDIT (R184), by a report, by the token and by the end of an operation in CLOSING. -/

namespace Sys2Proof.Machine

open Sys2Proof

/-! ### The abort -/

/-- The library after an abort of an open EDIT. -/
def Library.aborted (l : Library) (c : AbortCause) : Library :=
  { l with mode := if l.inFlight.isNone then .service else .closing, opener := none, staged := none, abortCause := c }

/-- The plan references after an abort of an open EDIT: the default installed, unless an operation in flight holds it back. -/
def State.abortedPlans (s : State) : PlanSelector := if s.lib.inFlight.isNone then { active := s.abortDefault, stack := [] } else s.plans

/-- A state in which an open EDIT of `s` has been aborted. -/
def Aborted (s : State) (c : AbortCause) (t : State) : Prop := t.lib = s.lib.aborted c ∧ t.plans = s.abortedPlans

section Abort
variable {s w : State} {o : PortId}

/-- An abort in a state with the same library and the same plan references. -/
theorem Aborted.abortEdit (hm : s.lib.mode = .edit) (hl : w.lib = s.lib) (hp : w.plans = s.plans) (c : AbortCause) :
    Aborted s c (w.abortEdit c) := by
  obtain ⟨hlib, hplans⟩ := State.abortEdit_open (s := w) (by rw [hl]; exact hm) c
  have hdefault : w.abortDefault = s.abortDefault :=
    State.abortDefault_congr (congrArg Library.nv hl) (congrArg Library.inUse hl) (congrArg Library.siteCut hl)
  rw [hl] at hlib
  rw [hl, hdefault, hp] at hplans
  exact ⟨hlib, hplans⟩

/-- The token leaves the opener of EDIT. -/
theorem Aborted.changeToken (hm : s.lib.mode = .edit) (ho : s.lib.opener = some o) (hl : w.lib = s.lib) (hp : w.plans = s.plans)
    {h : Option PortId} (hn : h ≠ some o) (c : TokenCause) : Aborted s .token (w.changeToken h c) := by
  obtain ⟨hlib, hplans⟩ := State.changeToken_open (s := w) (by rw [hl]; exact hm) (by rw [hl]; exact ho) hn c
  have hdefault : w.abortDefault = s.abortDefault :=
    State.abortDefault_congr (congrArg Library.nv hl) (congrArg Library.inUse hl) (congrArg Library.siteCut hl)
  rw [hl] at hlib
  rw [hl, hdefault, hp] at hplans
  exact ⟨hlib, hplans⟩

theorem Aborted.congr {c : AbortCause} {t u : State} (h : Aborted s c t) (hl : u.lib = t.lib) (hp : u.plans = t.plans) : Aborted s c u :=
  ⟨hl.trans h.1, hp.trans h.2⟩

theorem Aborted.place {c : AbortCause} {t : State} (h : Aborted s c t) (f : FireReport) : Aborted s c (t.place f).1 := by
  obtain ⟨hlib, hplans⟩ := t.place_rest f
  exact h.congr hlib hplans

theorem Aborted.spotting (hm : s.lib.mode = .edit) : Aborted s .incident s.spotting := by
  have halive := (LineFrame.lineAlive s.detectionHeard).frame
  exact Aborted.abortEdit
    (w := { s.detectionHeard.lineAlive with det := { s.detectionHeard.lineAlive.det with refix := false } }) hm halive.lib halive.plans .incident

end Abort

/-! ### The end of an operation in CLOSING -/

/-- The library and the plan references after an operation has ended in CLOSING. -/
def State.Closed (t : State) : Prop :=
  t.lib.mode = .service ∧ t.lib.inFlight = none ∧ t.plans = { active := t.abortDefault, stack := [] }

section Closing
variable {s : State} (o : InFlight)

theorem State.endErase_closed (h : s.lib.mode = .closing) (b : Bool) : (s.endErase o b).Closed := by
  unfold State.endErase
  split
  · exact State.endOperation_closing (by exact h) ..
  · exact State.endOperation_closing (by exact h) ..

theorem State.endWrite_closed (h : s.lib.mode = .closing) (b : Bool) : (s.endWrite o b).Closed := by
  unfold State.endWrite
  split
  · exact State.endOperation_closing (by exact h) ..
  · exact State.endOperation_closing (by exact h) ..

theorem State.endSeal_closed (h : s.lib.mode = .closing) (b : Bool) : (s.endSeal o b).Closed := by
  unfold State.endSeal
  split
  · exact State.endOperation_closing h ..
  · split
    · exact State.endOperation_closing (by exact h) ..
    · exact State.endOperation_closing (by exact h) ..

theorem State.endEraseLibrary_closed (h : s.lib.mode = .closing) (failed : Option Nat) : (s.endEraseLibrary o failed).Closed := by
  unfold State.endEraseLibrary
  dsimp only
  split
  · exact State.endOperation_closing (by exact h) ..
  · split
    · exact State.endOperation_closing (by exact h) ..
    · exact State.endOperation_closing (by exact h) ..

end Closing

/-! ### The default that an abort installs (R30, R184) -/

section Default
variable {s : State}

/-- The default of the record in use. -/
def State.defaultInUse (s : State) : Option Nat := s.lib.inUse.bind (fun u => s.sealedDefault u.parts)

theorem State.abortDefault_inUse (h : s.abortRecord = s.lib.inUse) : s.abortDefault = s.defaultInUse := by
  rw [State.abortDefault, h, NvLibrary.defaultOf_eq_bind (s := s) rfl]
  rfl

theorem State.abortDefault_checked (h : s.abortRecord = checkedSite s.lib.nv s.lib.siteCut) :
    s.abortDefault = (checkedSite s.lib.nv s.lib.siteCut).bind (fun u => s.sealedDefault u.parts) := by
  rw [State.abortDefault, h, NvLibrary.defaultOf_eq_bind (s := s) rfl]

theorem checkedSite_valid {v : NvLibrary} {cut : Bool} {r : SiteStore} (hv : v.site = .stored r) (hcrc : siteCrc r.parts = r.crc)
    (hok : siteViolation r.parts = none) (hcut : cut = false) : checkedSite v cut = some r := by
  simp [checkedSite, hv, hcrc, hok, hcut]

theorem checkedSite_invalid {v : NvLibrary} {cut : Bool} {r : SiteStore} (hv : v.site = .stored r)
    (h : siteCrc r.parts ≠ r.crc ∨ siteViolation r.parts ≠ none ∨ cut = true) : checkedSite v cut = none := by
  rw [checkedSite, hv]
  refine if_neg fun hall => ?_
  simp only [Bool.and_eq_true, Bool.not_eq_true', decide_eq_true_eq, Option.isNone_iff_eq_none] at hall
  obtain ⟨⟨hcut, hcrc⟩, hok⟩ := hall
  rcases h with h | h | h
  · exact h hcrc
  · exact h hok
  · exact Bool.false_ne_true (hcut.symm.trans h)

end Default

/-- Settles O47: every way out of EDIT runs the abort on the library and the plan references as they stood. -/
theorem editAborted : Obligations.EditAborted := by
  refine ⟨fun s o aborted plans hm ho haborted hplans => ?_, fun s o hm ho c b hc => ?_, fun s => ?_⟩
  · have hresult {c : AbortCause} {t : State} (h : Aborted s c t) : t.lib = aborted c ∧ t.plans = plans := by
      rw [haborted, hplans]
      exact h
    have hvacant : (none : Option PortId) ≠ some o := nofun
    refine ⟨fun i tag ops f hready hlen heng hf => ?lodge, fun a b temp heng h1 h3 => ?spot, fun ht =>
      ⟨fun n hn => ?silence, fun sending => ?break_, fun tag hready => ?yield, fun tag p hready hp hpresent => ?yieldTo,
        fun tag i hready hi hnot => ?claim⟩⟩
    case lodge =>
      have h : Aborted s .incident ((s.lodging i).place f).1 := (Aborted.abortEdit (w := s.taking i) hm rfl rfl .incident).place f
      exact ⟨_, exec_lodge hready hlen heng hf tag, hresult (h.congr rfl rfl)⟩
    case spot =>
      obtain ⟨t, hexec, -, -, hframe⟩ := exec_hotspot_rest h1 h3 heng a b
      exact ⟨t, hexec, hresult (((Aborted.spotting hm).place _).congr hframe.lib hframe.plans)⟩
    case silence =>
      have h : Aborted s .token ((s.setPort o { s.port o with present := false, silence := .stopped }).lapseToken o .lapsed) := by
        rw [State.lapseToken_holder (by exact ht)]
        exact Aborted.changeToken (w := s.setPort o { s.port o with present := false, silence := .stopped }) hm ho rfl rfl hvacant .lapsed
      obtain ⟨hl, hp⟩ := hresult h
      refine ⟨_, exec_portSilenceExpiry hn, hl, hp, ?_⟩
      rw [State.lapseToken_holder (by exact ht), State.changeToken_token]
    case break_ =>
      have h : Aborted s .token (s.lapseToken o .broken) := by
        rw [State.lapseToken_holder ht]
        exact Aborted.changeToken hm ho rfl rfl hvacant .broken
      obtain ⟨hl, hp⟩ := hresult h
      refine ⟨_, rfl, hl, hp, ?_⟩
      change (s.lapseToken o .broken).token = none
      rw [State.lapseToken_holder ht, State.changeToken_token]
    case yield =>
      have h : Aborted s .token ((s.taking o).changeToken none .yielded) :=
        Aborted.changeToken (w := s.taking o) hm ho rfl rfl hvacant .yielded
      obtain ⟨hl, hp⟩ := hresult h
      exact ⟨_, exec_yield hready rfl (State.yieldTo_none_holder (s := s.taking o) ht), hl, hp, State.changeToken_token ..⟩
    case yieldTo =>
      have hpresent' : ((s.taking o).port p).present = true := by rw [State.taking_port_other s hp]; exact hpresent
      have h : Aborted s .token ((s.taking o).changeToken (some p) .yielded) :=
        Aborted.changeToken (w := s.taking o) hm ho rfl rfl (fun he => hp (Option.some.inj he)) .yielded
      obtain ⟨hl, hpl⟩ := hresult h
      exact ⟨_, exec_yield_target hready (State.yieldTo_present (s := s.taking o) ht hp hpresent'), hl, hpl, State.changeToken_token ..⟩
    case claim =>
      have hne : o ≠ i := by rintro rfl; exact Bool.false_ne_true (hnot.symm.trans hi)
      have h : Aborted s .token (((s.taking i).sampled i true).changeToken (some i) .seized) :=
        Aborted.changeToken (w := (s.taking i).sampled i true) hm ho rfl rfl (fun he => hne (Option.some.inj he).symm) .seized
      obtain ⟨hl, hp⟩ := hresult h
      have hwork := State.claim_seizes (s := s.taking i) (key := true) ht hne (by rw [hi, hnot]; rfl)
      exact ⟨_, exec_request_free rfl hready (by decide) hwork, hl, hp, State.changeToken_token ..⟩
  · rcases hc with ⟨hk, rfl⟩ | ⟨hk, rfl⟩ | ⟨hk, rfl⟩ | ⟨hk, failed, rfl⟩
    · exact ⟨_, exec_endOf (f := fun t o => t.endErase o b) rfl ho hk, State.endErase_closed o hm b⟩
    · exact ⟨_, exec_endOf (f := fun t o => t.endWrite o b) rfl ho hk, State.endWrite_closed o hm b⟩
    · exact ⟨_, exec_endOf (f := fun t o => t.endSeal o b) rfl ho hk, State.endSeal_closed o hm b⟩
    · exact ⟨_, exec_endOf (f := fun t o => t.endEraseLibrary o failed) rfl ho hk, State.endEraseLibrary_closed o hm failed⟩
  · have hsame (h : s.abortRecord = s.lib.inUse) : s.abortDefault = s.defaultInUse := State.abortDefault_inUse h
    refine ⟨fun hnv => hsame (State.abortRecord_same (.inl hnv)), fun r hr => ⟨fun hcrc hok hcut => ?valid, fun hbad => ?invalid⟩⟩
    case valid =>
      have hchecked := checkedSite_valid hr hcrc hok hcut
      refine ⟨s.abortRecord_cases.imp (fun h => ?_) hsame, fun hu => ?_⟩
      · rw [State.abortDefault_checked h, hchecked]
        rfl
      · rw [hsame (State.abortRecord_same (.inr (hchecked.trans hu.symm))), State.defaultInUse, hu]
        rfl
    case invalid =>
      have hchecked := checkedSite_invalid hr hbad
      refine ⟨s.abortRecord_cases.imp (fun h => ?_) hsame, fun hu => ?_⟩
      · rw [State.abortDefault_checked h, hchecked]
        rfl
      · rw [hsame (State.abortRecord_same (.inr (hchecked.trans hu.symm))), State.defaultInUse, hu]
        rfl

end Sys2Proof.Machine
end


section
/-! SUPPORT. Frames written out and read back: the request a CODE names, the characters of a request frame, and those of a detection frame. -/

namespace Sys2Proof.Machine

open Sys2Proof

/-! ### PCP requests -/

/-- The request a CODE names is the unknown one exactly for the CODEs outside the table. -/
theorem requestOf_unknown_iff (i : PortId) (tag code : Byte) (ops : List Byte) (w e c : Bool) :
    requestCodes.contains code.toNat = false ↔ requestOf i tag code ops w e c = .unknownRequest i tag code ops := by
  unfold requestOf
  split
  case h_42 => simp_all [requestCodes]
  all_goals
    rename_i h
    rw [h]
    exact iff_of_false (by decide) (by nofun)

/-- A request frame carries the TAG, the CODE and the operands it was written with. -/
theorem requestIn_requestFrame (i : PortId) (tag code : Byte) {ops : List Byte} (w e c : Bool) (h : ops.length ≤ 248) :
    requestIn i w e c (requestFrame tag code ops) = requestOf i tag code ops w e c := by
  have hlen := (requestFrame_valid tag code ops h).1
  have hops : slice (requestFrame tag code ops) 3 (getU8 (requestFrame tag code ops) 0 - 2) = ops := by
    rw [hlen, Nat.add_sub_cancel]
    exact List.take_left
  unfold requestIn
  rw [hops]
  rfl

/-- A receiver takes a request frame after a SYNC whole, and hunts on after it. -/
theorem pcpHunt_requestFrame (tag code : Byte) {ops : List Byte} (h : ops.length ≤ 248) (m : List Byte) :
    pcpHunt 0 (0xA5 :: (requestFrame tag code ops ++ m)) = (requestFrame tag code ops :: (pcpHunt 0 m).1, (pcpHunt 0 m).2) := by
  obtain ⟨hlen, hwhole, hcrc⟩ := requestFrame_valid tag code ops h
  exact pcpHunt_frame hwhole (by omega) (by omega) hcrc m

/-! ### Detection frames -/

/-- A word written as two characters is read back as itself. -/
theorem word_of_bytes (a : Word16) : BitVec.ofNat 16 ((byteOf (a.toNat / 256)).toNat * 256 + (byteOf a.toNat).toNat) = a := by
  apply BitVec.eq_of_toNat_eq
  have := a.isLt
  simp only [byteOf, BitVec.toNat_ofNat]
  omega

/-- A detection frame written with a payload of its TYPE's length has a correct CRC. -/
theorem detectionCrcOk_detectionFrame {type : Byte} {payload : List Byte} (h : detectionPayload type.toNat = some payload.length) :
    detectionCrcOk (detectionFrame type payload) = true := by
  have htype : detectionPayload (getU8 (detectionFrame type payload) 0) = some payload.length := h
  have htake : (type :: payload ++ [crc8 (type :: payload)]).take (payload.length + 1) = type :: payload := by
    rw [← List.length_cons (a := type), List.take_left]
  have hdrop : (type :: payload ++ [crc8 (type :: payload)]).drop (payload.length + 1) = [crc8 (type :: payload)] := by
    rw [← List.length_cons (a := type), List.drop_left]
  unfold detectionCrcOk
  rw [htype]
  unfold detectionFrame
  simp only [htake, hdrop, List.length_append, List.length_cons, List.length_nil, beq_self_eq_true, Bool.and_true]

/-- Outside HOTSPOT a correct CRC is all a detection frame needs. -/
theorem detectionFrameOk_of_crc {f : List Byte} (hcrc : detectionCrcOk f = true)
    (hclass : getU8 f 0 ≠ 0x02 ∨ 1 ≤ getU8 f 5 ∧ getU8 f 5 ≤ 3) : detectionFrameOk f = true := by
  unfold detectionFrameOk
  rw [hcrc, Bool.true_and]
  rcases hclass with h | ⟨hlow, hhigh⟩
  · simp [h]
  · simp [hlow, hhigh]

/-- The receiver takes the one frame after a SYNC. -/
theorem detectionHunt_one {f : List Byte} {c : Instr} (h : detectionFrameOk f = true) (hc : detectionIn f = some c) :
    detectionHunt 0 (0x96 :: f) = [c] := by
  have found := detectionHunt_frame h hc []
  rwa [List.append_nil] at found

/-! ### The statement -/

/-- Settles O9: a request frame is read back operand by operand, a detection frame has the CRC and the payload length its TYPE asks for,
and a word written as two characters is read back as itself. -/
theorem framesReadBack : Obligations.FramesReadBack := by
  unfold Obligations.FramesReadBack
  refine ⟨fun i tag code ops w e c h => ⟨?_, requestIn_requestFrame i tag code w e c h, requestOf_unknown_iff i tag code ops w e c⟩,
    fun a b temp => ⟨?_, fun hlow hhigh => ?_, ?_, ?_⟩, fun r => ?_⟩
  case refine_1 =>
    have found := pcpHunt_requestFrame tag code h []
    rwa [List.append_nil] at found
  case refine_2 => exact detectionHunt_one (detectionFrameOk_of_crc (detectionCrcOk_detectionFrame rfl) (.inl (by decide))) rfl
  case refine_3 =>
    refine detectionHunt_one (detectionFrameOk_of_crc (detectionCrcOk_detectionFrame rfl) (.inr ⟨hlow, hhigh⟩)) ?_
    exact congrArg (fun f => some (f temp)) (congr (congrArg Instr.hotspot (word_of_bytes a)) (word_of_bytes b))
  case refine_4 =>
    refine detectionHunt_one (detectionFrameOk_of_crc (detectionCrcOk_detectionFrame rfl) (.inl (by change 3 ≠ 2; decide))) ?_
    exact congrArg (some ∘ Instr.lineFault) (word_of_bytes a)
  case refine_5 => exact detectionHunt_one (detectionFrameOk_of_crc (detectionCrcOk_detectionFrame rfl) (.inl (by decide))) rfl
  case refine_6 =>
    have found := replyHunt_frame r []
    rwa [List.append_nil] at found

end Sys2Proof.Machine
end


section
/-! SUPPORT. Discarded frames: what each receiver finds among the characters of one. -/

namespace Sys2Proof.Machine

open Sys2Proof

/-! ### PCP frames -/

/-- A port that discards a complete frame for its CRC hunts through its characters. -/
theorem exec_pcpFrameBadCrc {d : DamagedFrame} (hwhole : pcpComplete d.chars = true) (hcrc : pcpCrcOk d.chars = false) (s : State)
    (i : PortId) : exec (.pcpFrameBadCrc i d) s = .next (s.huntInside i d) := by
  change Host.Outcome.next (if pcpComplete d.chars && !pcpCrcOk d.chars then _ else _) = _
  rw [hwhole, hcrc]
  rfl

/-- A hunt that finds no frame moves the receiver only. -/
theorem State.huntInside_none {d : DamagedFrame} {r : ReceiveState} (h : pcpHunt 0 d.chars = ([], r)) (s : State) (i : PortId) :
    s.huntInside i d = s.setPort i { s.port i with receive := r } := by
  unfold State.huntInside
  rw [h]
  rfl

/-- A hunt that finds one request takes it and moves the receiver. -/
theorem State.huntInside_one {d : DamagedFrame} {r : ReceiveState} {f : List Byte} {s t : State} {i : PortId}
    (h : pcpHunt 0 d.chars = ([f], r)) (ht : execFrame (requestIn i d.keyW d.keyE d.compares f) s = .next t) :
    s.huntInside i d = t.setPort i { t.port i with receive := r } := by
  unfold State.huntInside
  rw [h]
  change (s.takeFrame _).setPort i { (s.takeFrame _).port i with receive := r } = _
  rw [State.takeFrame_eq ht]

/-- Characters without a SYNC hold no frame. -/
theorem pcpHunt_nothing {l : List Byte} (h : 0xA5 ∉ l) : pcpHunt 0 l = ([], .hunting) := by
  have found := pcpHunt_noSync l h []
  rwa [List.append_nil] at found

/-- A SYNC with a LEN that can begin a frame, or without one, and too few characters after it leaves the receiver waiting for the rest. -/
theorem pcpHunt_incomplete {pre rest : List Byte} (hpre : 0xA5 ∉ pre)
    (h : rest = [] ∨ 2 ≤ getU8 rest 0 ∧ getU8 rest 0 ≤ 250 ∧ rest.length < getU8 rest 0 + 3) :
    pcpHunt 0 (pre ++ 0xA5 :: rest) = ([], .receiving) := by
  rw [pcpHunt_noSync pre hpre]
  rcases h with rfl | ⟨hlow, hhigh, hshort⟩
  · rfl
  · have hne : rest ≠ [] := fun e => by subst e; exact absurd hlow (by decide)
    rw [pcpHunt, if_neg (by decide), if_neg (by simp [hne]), if_neg (by omega), if_pos hshort]

/-- One request frame among characters that hold no other SYNC is the one frame found. -/
theorem pcpHunt_inside {pre post ops : List Byte} (tag code : Byte) (hpre : 0xA5 ∉ pre) (hpost : 0xA5 ∉ post) (h : ops.length ≤ 248) :
    pcpHunt 0 (pre ++ 0xA5 :: (requestFrame tag code ops ++ post)) = ([requestFrame tag code ops], .hunting) := by
  rw [pcpHunt_noSync pre hpre, pcpHunt_requestFrame tag code h, pcpHunt_nothing hpost]

/-! ### Detection frames -/

/-- A detection frame with a correct CRC that is discarded for a field has no effect. -/
theorem exec_detectionFrameDiscarded_field {chars : List Byte} (h : detectionCrcOk chars = true) (s : State) :
    exec (.detectionFrameDiscarded chars) s = .next s :=
  congrArg Host.Outcome.next (if_pos h)

/-- A detection frame discarded for its TYPE or its CRC is hunted through. -/
theorem exec_detectionFrameDiscarded_hunt {chars : List Byte} (h : detectionCrcOk chars = false) (s : State) :
    exec (.detectionFrameDiscarded chars) s = .next (s.takeFrames (detectionHunt 0 chars)) :=
  congrArg Host.Outcome.next (if_neg (by rw [h]; nofun))

/-- Characters without a SYNC hold no detection frame. -/
theorem detectionHunt_nothing {l : List Byte} (h : 0x96 ∉ l) : detectionHunt 0 l = [] := by
  have found := detectionHunt_noSync l h []
  rwa [List.append_nil] at found

/-- One valid detection frame among characters that hold no other SYNC is the one frame found. -/
theorem detectionHunt_inside {pre f post : List Byte} {c : Instr} (h : detectionFrameOk f = true) (hc : detectionIn f = some c)
    (hpre : 0x96 ∉ pre) (hpost : 0x96 ∉ post) : detectionHunt 0 (pre ++ 0x96 :: (f ++ post)) = [c] := by
  rw [detectionHunt_noSync pre hpre, detectionHunt_frame h hc, detectionHunt_nothing hpost]

/-! ### PFP replies -/

/-- The one frame of a reply is the one reply found. -/
theorem replyHunt_one (r : FieldReply) : replyHunt 0 r.frame = [r] := by
  have found := replyHunt_frame r []
  rwa [List.append_nil] at found

/-- A reply with another address than the one polled leaves the window as it is. -/
theorem State.takeReply_otherAddress {s : State} {a : Nat} (hphase : s.fl.phase = .window (.poll a)) {addr : Byte} (h : addr.toNat ≠ a)
    (hi lo : Byte) : s.takeReply addr hi lo = s := by
  unfold State.takeReply
  simp only [hphase]
  exact if_neg (fun k => h k.1)

/-- After a SYNC whose reply fails its CRC the hunt goes on from the next character, to the reply behind it. -/
theorem replyHunt_behind (r : FieldReply) {pre : List Byte} (hpre : 0x3C ∉ pre) (h : replyCrcOk ((pre ++ r.frame).take 4) = false) :
    replyHunt 0 (0x3C :: (pre ++ r.frame)) = [r] := by
  have hlen : ¬(pre ++ r.frame).length < 4 := by
    have : r.frame.length = 5 := rfl
    rw [List.length_append]
    omega
  rw [replyHunt, if_neg (by decide), if_neg hlen, if_neg (by rw [h]; nofun), replyHunt_noSync pre hpre, replyHunt_one]

/-! ### The statement -/

/-- Settles O7: each receiver's hunt passes over characters that are not SYNC, takes a valid frame whole, and is left where the characters
end; what it finds takes the effect of its own command. -/
theorem badFramesDiscarded : Obligations.BadFramesDiscarded := by
  unfold Obligations.BadFramesDiscarded
  intro s i len
  refine ⟨fun d hwhole hcrc => ?_, rfl, fun chars _ h => ?_, fun pre f post c hcrc hok hc hpre hpost => ?_, fun r a hphase haddr => ?_,
    fun r pre hpre hcrc => ?_⟩
  case refine_1 =>
    rw [exec_pcpFrameBadCrc hwhole hcrc]
    refine ⟨fun h => ?_, fun pre post ops tag code hchars hpre hpost hops => ?_, fun pre rest hchars hpre h => ?_⟩
    · rw [State.huntInside_none (pcpHunt_nothing h)]
    · obtain ⟨t, ht, -⟩ := execFrame_keeps (requestOf i tag code ops d.keyW d.keyE d.compares) s
      refine ⟨t, (execFrame_requestOf ..).symm.trans ht, congrArg Host.Outcome.next (State.huntInside_one (f := requestFrame tag code ops) ?_ ?_)⟩
      · rw [hchars]; exact pcpHunt_inside tag code hpre hpost hops
      · rw [requestIn_requestFrame i tag code _ _ _ hops]; exact ht
    · rw [State.huntInside_none (hchars ▸ pcpHunt_incomplete hpre h)]
  case refine_2 =>
    cases hcrc : detectionCrcOk chars with
    | true => exact exec_detectionFrameDiscarded_field hcrc s
    | false =>
      have hnone : 0x96 ∉ chars := h.resolve_right (by rw [hcrc]; nofun)
      rw [exec_detectionFrameDiscarded_hunt hcrc, detectionHunt_nothing hnone]
      rfl
  case refine_3 =>
    obtain ⟨t, ht, -⟩ := execFrame_keeps c s
    refine ⟨t, (execFrame_detectionIn hc s).symm.trans ht, ?_⟩
    rw [exec_detectionFrameDiscarded_hunt hcrc, detectionHunt_inside hok hc hpre hpost]
    exact congrArg Host.Outcome.next (State.takeFrame_eq ht)
  case refine_4 =>
    change Host.Outcome.next ((replyHunt 0 r.frame).foldl _ s) = _
    rw [replyHunt_one]
    exact congrArg Host.Outcome.next (State.takeReply_otherAddress hphase haddr r.hi r.lo)
  case refine_5 =>
    refine ⟨_, rfl, ?_⟩
    change Host.Outcome.next ((replyHunt 0 (0x3C :: (pre ++ r.frame))).foldl _ s) = _
    rw [replyHunt_behind r hpre hcrc]
    rfl

end Sys2Proof.Machine
end


section
/-! SUPPORT. Cold start and warm reset (R185): what the start-up check makes of the NV library, and the registers after it. -/

namespace Sys2Proof.Machine

open Sys2Proof

/-! ### The NV library after the start-up check -/

theorem PlanSlot.checkSeal_blank : PlanSlot.blank.checkSeal = .blank := rfl

/-- A slot that is INVALID has no seal to check. -/
theorem PlanSlot.checkSeal_invalid {p : PlanSlot} (h : p.state = .invalid) : p.checkSeal = p := by
  unfold PlanSlot.checkSeal
  rw [h]
  exact if_neg (fun k => nomatch k.1)

/-- A slot of a library whose seals have been checked. -/
theorem getD_checkSeal (l : List PlanSlot) (n : Nat) : (l.map PlanSlot.checkSeal).getD n .blank = (l.getD n .blank).checkSeal := by
  rw [List.getD_eq_getElem?_getD, List.getD_eq_getElem?_getD, List.getElem?_map]
  cases l[n]? <;> rfl

/-- The NV library after steps 1 and 2 of the start-up check. -/
def State.checkedNv (s : State) : NvLibrary :=
  { (cutOperation s.lib.nv s.freeIx).1 with slots := (cutOperation s.lib.nv s.freeIx).1.slots.map PlanSlot.checkSeal }

/-- The site record that the start-up check takes in use. -/
def State.recordFound (s : State) : Option SiteStore := checkedSite s.checkedNv s.lib.nv.closeCut

theorem NvLibrary.closeCut_some {v : NvLibrary} {m : Marker} (h : v.marker = some m) : v.closeCut = decide (m.kind = .closeEdit) := by
  rw [NvLibrary.closeCut, h]
  rfl

theorem NvLibrary.closeCut_none {v : NvLibrary} (h : v.marker = none) : v.closeCut = false := by
  rw [NvLibrary.closeCut, h]
  rfl

theorem State.checkedNv_whole {s : State} (h : s.lib.nv.marker = none) :
    s.checkedNv = { s.lib.nv with slots := s.lib.nv.slots.map PlanSlot.checkSeal } := by
  simp only [State.checkedNv, cutOperation, h]

theorem State.checkedNv_closeEdit {s : State} {m : Marker} (h : s.lib.nv.marker = some m) (hk : m.kind = .closeEdit) :
    s.checkedNv.marker = none ∧ s.checkedNv.slots = s.lib.nv.slots.map PlanSlot.checkSeal ∧ s.checkedNv.lock = s.lib.nv.lock := by
  simp [State.checkedNv, cutOperation, h, hk]

/-- A marker of a slot operation damages its slot and clears the marker. -/
theorem cutOperation_slot {v : NvLibrary} {m : Marker} (h : v.marker = some m)
    (hk : m.kind = .eraseSlot ∨ m.kind = .writePart ∨ m.kind = .sealSlot) (ix : Nat) :
    (cutOperation v ix).1 =
      { v with marker := none, slots := v.slots.set (m.slot - 1) ((v.slots.getD (m.slot - 1) .blank).damaged m.kind m.part ix) } := by
  rcases hk with hk | hk | hk <;> simp only [cutOperation, h, hk, NvLibrary.setSlot]

/-- A marker of ERASE_LIBRARY erases the slots below the one it had come to, and damages that one. -/
theorem cutOperation_library {v : NvLibrary} {m : Marker} (h : v.marker = some m) (hk : m.kind = .eraseLibrary) (ix : Nat) :
    ∃ n p, 1 ≤ n ∧ n ≤ 16 ∧ p.state = .invalid ∧
      (cutOperation v ix).1 = { v with marker := none, slots := (eraseFirst (n - 1) v.slots).set (n - 1) p } := by
  let n := Config.cutEraseSlot ix % 16 + 1
  refine ⟨n, ((eraseFirst (n - 1) v.slots).getD (n - 1) .blank).damaged .eraseLibrary 0 (ix + 1), Nat.le_add_left _ _,
    Nat.mod_lt _ (by decide), PlanSlot.damaged_state _ _ _ _, ?_⟩
  simp only [cutOperation, h, hk, NvLibrary.setSlot, n]

/-! ### The registers after a reset -/

/-- The state after a reset that takes no site record. -/
def State.blankBoot (s : State) (strap : LineRate) : State :=
  { State.reset with
    strap := strap, keys := s.keys, freeIx := (cutOperation s.lib.nv s.freeIx).2, pending := s.pending
    lib := { State.reset.lib with nv := s.checkedNv, inUse := s.recordFound, siteCut := s.lib.nv.closeCut } }

/-- The state after a reset that takes a site record, before the engine is told of its banks. -/
def State.tableBoot (s : State) (strap : LineRate) (r : SiteStore) : State :=
  { s.blankBoot strap with
    eng := { State.reset.eng with state := .startup }
    plans := { active := s.checkedNv.defaultOf (some r), stack := [] }
    banks := buildBanks r.parts
    arb := { slots := buildSlots r.parts, queue := [] }
    vel := { State.reset.vel with stations := buildStations r.parts }
    fl := { State.reset.fl with units := buildUnits r.parts } }

section Boot
variable {s : State} {r : SiteStore}

theorem State.boot_none (h : s.recordFound = none) (strap : LineRate) : s.boot strap = s.blankBoot strap := by
  change (match s.recordFound with | none => s.blankBoot strap | some r => (s.tableBoot strap r).engineTakesBanks) = _
  rw [h]

theorem State.boot_some (h : s.recordFound = some r) (strap : LineRate) : s.boot strap = (s.tableBoot strap r).engineTakesBanks := by
  change (match s.recordFound with | none => s.blankBoot strap | some r => (s.tableBoot strap r).engineTakesBanks) = _
  rw [h]

/-- Over a record that lists a bank the engine stays in STARTUP: every bank is in VERIFY. -/
theorem State.boot_banks (h : s.recordFound = some r) (hb : buildBanks r.parts ≠ []) (strap : LineRate) :
    s.boot strap = s.tableBoot strap r := by
  rw [State.boot_some h]
  obtain ⟨b, hmem⟩ := List.exists_mem_of_ne_nil _ hb
  obtain ⟨e, he⟩ := buildBanks_fresh hmem
  exact State.engineTakesBanks_verify rfl ⟨b, hmem, by rw [he]; rfl⟩

/-- Over a record that lists no bank STARTUP ends at once, in QUIET. -/
theorem State.boot_noBanks (h : s.recordFound = some r) (hb : buildBanks r.parts = []) (strap : LineRate) :
    s.boot strap = (s.tableBoot strap r).leaveStartup ∧ (s.boot strap).eng = { State.reset.eng with state := .quiet } := by
  have hleaves : (s.tableBoot strap r).engineTakesBanks = (s.tableBoot strap r).leaveStartup := by
    refine State.engineTakesBanks_leaves rfl (fun b hmem => ?_)
    rw [show (s.tableBoot strap r).banks = [] from hb] at hmem
    cases hmem
  refine ⟨(State.boot_some h strap).trans hleaves, ?_⟩
  rw [State.boot_some h, hleaves]
  unfold State.tableBoot
  rw [hb]
  rfl

/-- What stands after a reset whatever record it finds. -/
structure State.Booted (s t : State) : Prop where
  mat : t.mat = State.reset.mat
  lib : t.lib = { State.reset.lib with nv := s.checkedNv, inUse := s.recordFound, siteCut := s.lib.nv.closeCut }
  inc : t.inc = State.reset.inc
  det : t.det = State.reset.det
  token : t.token = none
  uptime : t.uptime = 0

theorem State.leaveStartup_mat {t : State} (h : t.tableEmpty = true) : t.leaveStartup.mat = t.mat := by
  obtain ⟨-, hinc, -, hmat, -⟩ := t.startupLeft_registers
  have hempty : t.startupLeft.tableEmpty = true := by
    unfold State.tableEmpty
    rw [hinc]
    exact h
  rw [State.leaveStartup_eq, if_pos hempty, (DemandFrame.finishAll _).mat, hmat]

theorem State.boot_booted (s : State) (strap : LineRate) : s.Booted (s.boot strap) := by
  cases h : s.recordFound with
  | none => rw [State.boot_none h]; exact ⟨rfl, rfl, rfl, rfl, rfl, rfl⟩
  | some r =>
    by_cases hb : buildBanks r.parts = []
    · rw [(State.boot_noBanks h hb strap).1]
      have hf := Frame.leaveStartup (s.tableBoot strap r)
      exact ⟨State.leaveStartup_mat rfl, hf.lib, hf.inc, hf.det, hf.token, hf.uptime⟩
    · rw [State.boot_banks h hb]; exact ⟨rfl, rfl, rfl, rfl, rfl, rfl⟩

/-- The two commands that start the 480. -/
theorem exec_reset {strap : LineRate} {c : Instr} (h : c ∈ [Instr.coldStart strap, .warmReset]) (s : State) :
    ∃ st, exec c s = .next (s.boot st) := by
  rcases mem_pair.mp h with rfl | rfl
  · exact ⟨strap, rfl⟩
  · exact ⟨s.strap, rfl⟩

/-! ### Site records and slots found -/

theorem State.recordFound_valid (hm : s.lib.nv.marker = none) (hr : s.lib.nv.site = .stored r) (hcrc : siteCrc r.parts = r.crc)
    (hv : siteViolation r.parts = none) : s.recordFound = some r := by
  rw [State.recordFound, State.checkedNv_whole hm]
  exact checkedSite_valid hr hcrc hv (NvLibrary.closeCut_none hm)

theorem State.recordFound_invalid (hm : s.lib.nv.marker = none) (hr : s.lib.nv.site = .stored r)
    (h : siteCrc r.parts ≠ r.crc ∨ siteViolation r.parts ≠ none) : s.recordFound = none := by
  rw [State.recordFound, State.checkedNv_whole hm]
  exact checkedSite_invalid hr (h.imp_right .inl)

theorem State.recordFound_unusable (hm : s.lib.nv.marker = none) (hr : s.lib.nv.site = .unusable) : s.recordFound = none := by
  rw [State.recordFound, State.checkedNv_whole hm, checkedSite, hr]

theorem State.recordFound_cut {m : Marker} (h : s.lib.nv.marker = some m) (hk : m.kind = .closeEdit) : s.recordFound = none := by
  rw [State.recordFound, NvLibrary.closeCut_some h, hk]
  unfold checkedSite
  split <;> rfl

/-- A slot after a reset is the one of the checked NV library. -/
theorem State.Booted.slot {t : State} (h : s.Booted t) (n : Nat) :
    t.slot n = ((cutOperation s.lib.nv s.freeIx).1.slots.getD (n - 1) .blank).checkSeal := by
  unfold State.slot
  rw [h.lib]
  exact getD_checkSeal _ _

/-- The library after a reset with a marker other than one of CLOSE_EDIT. -/
theorem State.Booted.uncut {t : State} (h : s.Booted t) (hcut : s.lib.nv.closeCut = false) :
    t.lib = { State.reset.lib with nv := t.lib.nv, inUse := t.lib.inUse } := by
  rw [h.lib, hcut]
  rfl

/-- The library after a reset that finds nothing cut. -/
theorem State.Booted.whole {t : State} (h : s.Booted t) (hm : s.lib.nv.marker = none) :
    t.lib = { State.reset.lib with
      nv := { s.lib.nv with slots := s.lib.nv.slots.map PlanSlot.checkSeal }, inUse := s.recordFound } := by
  rw [h.lib, State.checkedNv_whole hm, NvLibrary.closeCut_none hm]
  rfl

/-- After a cut erase, write or seal its slot is INVALID, and the other slots stand but for their seals. -/
theorem State.Booted.slotCut {t : State} {m : Marker} (h : s.Booted t) (hm : s.lib.nv.marker = some m)
    (hk : m.kind = .eraseSlot ∨ m.kind = .writePart ∨ m.kind = .sealSlot) (h1 : 1 ≤ m.slot) (hn : m.slot ≤ s.lib.nv.slots.length) :
    (t.slot m.slot).state = .invalid ∧ ∀ n, n ≠ m.slot → 1 ≤ n → t.slot n = (s.slot n).checkSeal := by
  refine ⟨?_, fun n hne hn1 => ?_⟩
  · rw [h.slot, cutOperation_slot hm hk, List.getD_eq_getElem?_getD, List.getElem?_set_self (by omega), Option.getD_some,
      PlanSlot.checkSeal_invalid (PlanSlot.damaged_state _ _ _ _), PlanSlot.damaged_state]
  · rw [h.slot, cutOperation_slot hm hk, List.getD_eq_getElem?_getD, List.getElem?_set_ne (by omega), ← List.getD_eq_getElem?_getD]
    rfl

/-- After a cut ERASE_LIBRARY one slot is INVALID, those below it are ERASED, and those above it stand but for their seals. -/
theorem State.Booted.libraryCut {t : State} {m : Marker} (h : s.Booted t) (hm : s.lib.nv.marker = some m) (hk : m.kind = .eraseLibrary)
    (hlen : s.lib.nv.slots.length = 16) :
    ∃ n, 1 ≤ n ∧ n ≤ 16 ∧ (t.slot n).state = .invalid ∧ (∀ k, 1 ≤ k → k < n → t.slot k = .blank) ∧
      ∀ k, n < k → t.slot k = (s.slot k).checkSeal := by
  obtain ⟨n, p, h1, h16, hp, hcut⟩ := cutOperation_library hm hk s.freeIx
  obtain ⟨hat, hbelow, habove⟩ := eraseFirst_set s.lib.nv.slots p h1 (hlen ▸ h16)
  refine ⟨n, h1, h16, ?_, fun k hk1 hkn => ?_, fun k hkn => ?_⟩
  · rw [h.slot, hcut, hat, PlanSlot.checkSeal_invalid hp, hp]
  · rw [h.slot, hcut, hbelow k hk1 hkn, PlanSlot.checkSeal_blank]
  · rw [h.slot, hcut, habove k hkn]; rfl

/-- What a cut slot operation or ERASE_LIBRARY leaves of the NV library besides its slots. -/
theorem State.Booted.kept {t : State} {v : NvLibrary} {slots : List PlanSlot} (h : s.Booted t)
    (hcut : (cutOperation s.lib.nv s.freeIx).1 = { v with marker := none, slots := slots }) :
    t.lib.nv.marker = none ∧ t.lib.nv.lock = v.lock ∧ t.lib.nv.site = v.site := by
  rw [h.lib]
  unfold State.checkedNv
  rw [hcut]
  exact ⟨rfl, rfl, rfl⟩

end Boot

/-! ### The statement -/

/-- Settles O4: every bank of a fresh table is in VERIFY, so a record that lists one holds the engine in STARTUP, and without a bank STARTUP
ends at once over the empty incident table; the NV library is what the start-up check leaves of it. -/
theorem resetsRebuild : Obligations.ResetsRebuild := by
  unfold Obligations.ResetsRebuild
  refine ⟨fun s strap r hm hr hlists => ?found, fun s strap c hc => ?_⟩
  case found =>
    by_cases hvalid : siteCrc r.parts = r.crc ∧ siteViolation r.parts = none
    case pos =>
      have hrec := State.recordFound_valid hm hr hvalid.1 hvalid.2
      have hboot := State.boot_banks hrec (hlists hvalid.1 hvalid.2)
      have hlib := (s.boot_booted strap).whole hm
      rw [hboot strap, hrec] at hlib
      refine ⟨s.tableBoot strap r, congrArg Host.Outcome.next (hboot strap), congrArg Host.Outcome.next (hboot s.strap), rfl, rfl, rfl,
        fun i => by cases i <;> rfl, rfl, rfl, rfl, by rw [hlib], fun _ _ => ⟨by rw [hlib], rfl, rfl, rfl, rfl, rfl, rfl⟩, fun h => ?_⟩
      exact absurd h (by rw [hvalid.1, hvalid.2]; nofun)
    case neg =>
      have hbad : siteCrc r.parts ≠ r.crc ∨ siteViolation r.parts ≠ none := Decidable.not_and_iff_not_or_not.mp hvalid
      have hrec := State.recordFound_invalid hm hr hbad
      have hboot := State.boot_none hrec
      have hlib := (s.boot_booted strap).whole hm
      rw [hboot strap, hrec] at hlib
      exact ⟨s.blankBoot strap, congrArg Host.Outcome.next (hboot strap), congrArg Host.Outcome.next (hboot s.strap), rfl, rfl, rfl,
        fun i => by cases i <;> rfl, rfl, rfl, rfl, by rw [hlib], fun hcrc hv => absurd ⟨hcrc, hv⟩ hvalid,
        fun _ => ⟨by rw [hlib], rfl, rfl, rfl, rfl, rfl, rfl⟩⟩
  obtain ⟨st, hexec⟩ := exec_reset hc s
  have hbooted := s.boot_booted st
  rw [hexec]
  refine ⟨fun r hm hr hcrc hv hnone => ⟨_, rfl, ?noBanks⟩, fun hm hr => ⟨_, rfl, ?unusable⟩, fun m hm hk => ⟨_, rfl, ?close⟩,
    fun m hm hk h1 hn => ⟨_, rfl, ?slot⟩, fun m hm hk hlen => ?library⟩
  case noBanks =>
    have hrec := State.recordFound_valid hm hr hcrc hv
    obtain ⟨hleaves, heng⟩ := State.boot_noBanks hrec hnone st
    have hlib := hbooted.whole hm
    rw [hrec] at hlib
    refine ⟨heng, hlib, ?_, hbooted.mat, hbooted.inc, hbooted.det, hbooted.token, hbooted.uptime⟩
    rw [hlib, hleaves, (Frame.leaveStartup _).plans, State.tableBoot, State.checkedNv_whole hm]
  case unusable =>
    have hrec := State.recordFound_unusable hm hr
    have hlib := hbooted.whole hm
    rw [hrec] at hlib
    exact ⟨by rw [State.boot_none hrec]; rfl, hbooted.mat, hlib⟩
  case close =>
    have hrec := State.recordFound_cut hm hk
    obtain ⟨hmarker, hslots, hlock⟩ := State.checkedNv_closeEdit hm hk
    have hcut : s.lib.nv.closeCut = true := by rw [NvLibrary.closeCut_some hm, hk]; rfl
    rw [hbooted.lib, hrec, hcut]
    exact ⟨by rw [State.boot_none hrec]; rfl, hbooted.mat, rfl, hmarker, hslots, hlock⟩
  case slot =>
    have hcut : s.lib.nv.closeCut = false := by
      rw [NvLibrary.closeCut_some hm]
      rcases hk with hk | hk | hk <;> rw [hk] <;> rfl
    obtain ⟨hmarker, hlock, hsite⟩ := hbooted.kept (cutOperation_slot hm hk s.freeIx)
    obtain ⟨hat, hothers⟩ := hbooted.slotCut hm hk h1 hn
    exact ⟨hbooted.mat, hbooted.uncut hcut, hmarker, hat, hlock, hsite, fun n hne hn1 _ => hothers n hne hn1⟩
  case library =>
    have hcut : s.lib.nv.closeCut = false := by rw [NvLibrary.closeCut_some hm, hk]; rfl
    obtain ⟨_, _, -, -, -, hleft⟩ := cutOperation_library hm hk s.freeIx
    obtain ⟨hmarker, hlock, hsite⟩ := hbooted.kept hleft
    obtain ⟨n, h1, h16, hat, hbelow, habove⟩ := hbooted.libraryCut hm hk hlen
    exact ⟨_, n, rfl, hbooted.mat, hbooted.uncut hcut, hmarker, hlock, hsite, h1, h16, hat, hbelow, fun k hkn _ => habove k hkn⟩

end Sys2Proof.Machine
end


section
/-! SUPPORT. The Segment Matcher (R33 to R41): what each hand-off makes of its registers. -/

namespace Sys2Proof.Machine

open Sys2Proof

/-! ### Raw flags and the match -/

theorem mem_rawFlags (p : PlanSlot) (f k : Nat) :
    k ∈ rawFlags p f ↔ 1 ≤ k ∧ k ≤ p.segmentCount ∧ (p.row k).start ≤ f ∧ f ≤ (p.row k).stop := by
  rw [rawFlags, List.mem_filter, List.mem_range'_1, Bool.and_eq_true, decide_eq_true_iff, decide_eq_true_iff, Nat.lt_one_add_iff, and_assoc]

theorem rawFlags_sorted (p : PlanSlot) (f : Nat) : (rawFlags p f).Pairwise (· < ·) :=
  List.Pairwise.filter _ List.pairwise_lt_range'

theorem insideWidened_iff (r : Row) (h f : Nat) : insideWidened r h f = true ↔ r.start ≤ f + h ∧ f ≤ r.stop + h := by
  rw [insideWidened, Bool.and_eq_true, decide_eq_true_iff, decide_eq_true_iff]

section Matcher
variable {s : State} {r : Incident} {g n k : Nat}

/-- A fresh match with a plan and a governing index. -/
theorem State.freshMatch_eq {f : Nat} (hn : s.plans.active = some n) (hg : s.mat.governing = some g) (hf : s.mat.workF = some f) :
    s.freshMatch =
      (let t : State := { s with mat := { s.mat with flags := rawFlags (s.slot n) f, matched := some ((rawFlags (s.slot n) f).headD 0) } }
      if (s.slot n).anyChange then t.raise (.segmentEntered ((rawFlags (s.slot n) f).headD 0)) else t) := by
  simp only [State.freshMatch, hn, hg, hf]

/-- The segment an ordinary evaluation matches from segment `k`. -/
def State.segmentHeld (s : State) (p : PlanSlot) (k f : Nat) : Nat :=
  if k ≠ 0 ∧ (p.row k).start ≤ f + siteSegmentHysteresis s.site ∧ f ≤ (p.row k).stop + siteSegmentHysteresis s.site then k
  else (rawFlags p f).headD 0

theorem State.evaluatedMatch_some (h : s.mat.matched = some k) (p : PlanSlot) (f : Nat) :
    s.evaluatedMatch p f = some (s.segmentHeld p k f) := by
  simp only [State.evaluatedMatch, h, State.segmentHeld, insideWidened_iff]
  split <;> rfl

/-- An ordinary evaluation under a plan: SEGMENT_ENTERED on a changed segment. -/
theorem State.ordinaryEvaluation_eq (hn : s.plans.active = some n) (hk : s.mat.matched = some k) (f : Nat) :
    s.ordinaryEvaluation f =
      (let m := s.segmentHeld (s.slot n) k f
      let t : State := { s with mat := { s.mat with workF := some f, flags := rawFlags (s.slot n) f, matched := some m } }
      if m = k then t else t.raise (.segmentEntered m)) := by
  simp only [State.ordinaryEvaluation, hn, State.evaluatedMatch_some hk, hk, Option.some.injEq, Option.getD_some]

theorem State.ordinaryEvaluation_mat (hn : s.plans.active = some n) (hk : s.mat.matched = some k) (f : Nat) :
    (s.ordinaryEvaluation f).mat =
      { s.mat with workF := some f, flags := rawFlags (s.slot n) f, matched := some (s.segmentHeld (s.slot n) k f) } := by
  rw [State.ordinaryEvaluation_eq hn hk]
  dsimp only
  split <;> rfl

/-! ### The freeze -/

theorem State.governingDetected_of (h : s.governingRecord = some r) : s.governingDetected = r.sources.contains .detection := by
  rw [State.governingDetected, h]
  rfl

/-- The freeze holds what it held, and is entered over a detected record on a line that is not OK. -/
theorem State.settleFreeze_eq (s : State) :
    s.settleFreeze =
      { s with mat := { s.mat with frozen := s.mat.frozen || (s.governingDetected && decide (s.mat.condition ≠ .ok)) } } := by
  unfold State.settleFreeze
  split
  · next h => rw [h.1, decide_eq_true h.2, Bool.and_self, Bool.or_true]
  · next h =>
    have hfalse : (s.governingDetected && decide (s.mat.condition ≠ .ok)) = false := by
      rw [← Bool.not_eq_true, Bool.and_eq_true, decide_eq_true_iff]
      exact h
    rw [hfalse, Bool.or_false]

/-- The matcher's registers after a change of the line's condition. -/
theorem State.matcherTakesCondition_mat (s : State) (c : LineCondition) :
    (s.matcherTakesCondition c).mat =
      { s.mat with
        condition := c
        frozen := s.mat.frozen || (decide (s.mat.condition = .ok) && (s.governingDetected && decide (c ≠ .ok))) } := by
  unfold State.matcherTakesCondition
  dsimp only
  split
  · next h => rw [State.settleFreeze_eq, decide_eq_true h, Bool.true_and]; rfl
  · next h => rw [decide_eq_false h, Bool.false_and, Bool.or_false]

theorem State.setCondition_mat {c : LineCondition} (h : s.det.condition ≠ c) (brk : Option Nat) :
    (s.setCondition c brk).mat =
      { s.mat with
        condition := c
        frozen := s.mat.frozen || (decide (s.mat.condition = .ok) && (s.governingDetected && decide (c ≠ .ok))) } := by
  rw [State.setCondition, if_neg h, State.matcherTakesCondition_mat]
  rfl

/-- The line leaves OK, or goes from one fault to another. -/
theorem State.setCondition_mat_broken {c : LineCondition} (h : s.det.condition ≠ c) (hc : c ≠ .ok) (brk : Option Nat) :
    (s.setCondition c brk).mat =
      { s.mat with condition := c, frozen := s.mat.frozen || (decide (s.mat.condition = .ok) && s.governingDetected) } := by
  rw [State.setCondition_mat h, decide_eq_true hc, Bool.and_true]

/-- The line returns to OK: a freeze is held. -/
theorem State.setCondition_mat_ok (h : s.det.condition ≠ .ok) (brk : Option Nat) :
    (s.setCondition .ok brk).mat = { s.mat with condition := .ok } := by
  have hok : decide (LineCondition.ok ≠ .ok) = false := rfl
  rw [State.setCondition_mat h, hok, Bool.and_false, Bool.and_false, Bool.or_false]

/-! ### The governing record taken -/

theorem State.governingDetected_congr {t : State} (h : t.inc = s.inc) : t.governingDetected = s.governingDetected := by
  unfold State.governingDetected State.governingRecord State.incident
  rw [h]

/-- A fresh match that is not frozen, and the freeze entered anew. -/
theorem State.freshMatch_settled (hr : s.governingRecord = some r) (hfrozen : s.mat.frozen = false) :
    s.freshMatch.settleFreeze =
      { s.freshMatch with mat := { s.freshMatch.mat with
        frozen := r.sources.contains .detection && decide (s.mat.condition ≠ .ok) } } := by
  obtain ⟨hcondition, hheld, -⟩ := s.freshMatch_mat
  rw [State.settleFreeze_eq, hheld, hfrozen, hcondition, State.governingDetected_congr (Frame.freshMatch s).inc,
    State.governingDetected_of hr, Bool.false_or]

/-- A change of the governing index. -/
theorem State.matcherTakesIncident_moved (hg : s.inc.governing = some g) (hr : s.governingRecord = some r) (hm : s.mat.governing ≠ some g)
    (d z : Bool) :
    s.matcherTakesIncident d z =
      ({ s with mat := { s.mat with governing := some g, workF := some r.zone.fire, frozen := false } } : State).freshMatch.settleFreeze := by
  simp only [State.matcherTakesIncident, hg, hr, if_pos hm]

/-- The governing index as before. -/
theorem State.matcherTakesIncident_same (hg : s.inc.governing = some g) (hr : s.governingRecord = some r) (hm : s.mat.governing = some g)
    (d z : Bool) :
    s.matcherTakesIncident d z =
      if s.mat.frozen then s
      else if d ∧ s.mat.condition ≠ .ok then { s with mat := { s.mat with frozen := true } }
      else if z then s.ordinaryEvaluation r.zone.fire
      else s := by
  simp only [State.matcherTakesIncident, hg, hr]
  rw [if_neg (not_not_intro hm)]

end Matcher

/-! ### A report that widens the one SUSPECTED record -/

theorem joinSources_port_detection (l : List Source) (i : PortId) :
    (joinSources l [.port i]).contains .detection = l.contains .detection := by
  rw [joinSources_one]
  split
  · rfl
  · rw [List.contains_append]
    exact Bool.or_false _

/-- The registers that an updated record leaves alone. -/
theorem State.updated_registers (w : State) (f : FireReport) (k : Nat) (r : Incident) :
    (w.updated f k r).mat = w.mat ∧ (w.updated f k r).plans = w.plans ∧ (w.updated f k r).lib = w.lib ∧
      (w.updated f k r).eng = w.eng ∧ (w.updated f k r).inc.governing = w.inc.governing := by
  unfold State.updated
  dsimp only
  split <;> exact ⟨rfl, rfl, rfl, rfl, rfl⟩

/-- A report near the only record, which it widens: the record updated, and the table handed on as it then is. -/
theorem State.place_widened {w : State} {f : FireReport} {g : Nat} {r : Incident} (hg : g < 4) (hr : w.incident g = some r)
    (halone : ∀ j, j ≠ g → w.incident j = none) (hgap : r.zone.gap f.zone ≤ siteM w.site)
    (hwider : f.zone.lo < r.zone.lo ∨ r.zone.hi < f.zone.hi) (hgov : w.inc.governing = some g)
    (hnew : (w.updated f g r).incident g = some (r.update f w.uptime)) :
    (w.place f).1 = (w.updated f g r).handOff w.inc.table (some g) := by
  have hnear : [0, 1, 2, 3].find? (w.near f) = some g :=
    State.near_first hg hr hgap fun j x hj hx => by rw [halone j (by omega)] at hx; exact nomatch hx
  have hothers : ∀ j, j ≠ g → (w.updated f g r).inc.table.getD j none = none := by
    rw [(w.updated_rest f g r).1]
    exact others_set halone _
  have hgrown : w.grown f g r = (w.updated f g r, g) := by
    rw [State.grown, if_pos (by exact Zone.union_grows hwider), State.mergeAll, mergePair_alone _ hothers]
  have hkept : (w.updated f g r).recomputeGoverning = w.updated f g r := by
    unfold State.recomputeGoverning
    rw [governingOf_alone hnew hothers, (w.updated_registers f g r).2.2.2.2, hgov]
    exact if_pos rfl
  rw [State.place_near hnear hr, hgrown, hgov]
  exact congrArg (State.handOff · w.inc.table (some g)) hkept

/-- The hand-off of a record that has grown and is no more detected than before. -/
theorem State.handOff_widened {u : State} {before : List (Option Incident)} {g : Nat} {r x : Incident}
    (hold : before.getD g none = some r) (hgov : u.inc.governing = some g) (hx : u.governingRecord = some x) (hzone : x.zone ≠ r.zone)
    (hdet : x.sources.contains .detection = r.sources.contains .detection) :
    u.handOff before (some g) =
      (let t := u.matcherTakesIncident false true
      (t.handRow.engineTakesIncident true t.rowChanged).handDetails before) := by
  have hmoved : decide (some r.zone ≠ some x.zone) = true := decide_eq_true fun e => hzone (Option.some.inj e).symm
  unfold State.handOff
  rw [hgov, hx]
  simp only [Option.bind_some, hold, Option.map_some, hmoved, Option.any_some, hdet, Bool.and_not_self, Bool.or_true]

theorem State.handDetails_alert {t : State} (h : t.eng.state = .alert) (before : List (Option Incident)) :
    (t.handDetails before).mat = t.mat := State.details_alert _ t h

/-- What a record that the matcher holds, not frozen, leaves there when its zone has grown in ALERT. -/
theorem State.handOff_widened_mat {u : State} {before : List (Option Incident)} {g n k : Nat} {r x : Incident}
    (hold : before.getD g none = some r) (hgov : u.inc.governing = some g) (hx : u.incident g = some x) (hzone : x.zone ≠ r.zone)
    (hdet : x.sources.contains .detection = r.sources.contains .detection) (hcls : x.cls = .suspected)
    (halone : ∀ j, j ≠ g → u.incident j = none) (halert : u.eng.state = .alert) (hm : u.mat.governing = some g)
    (hfrozen : u.mat.frozen = false) (hn : u.plans.active = some n) (hk : u.mat.matched = some k) :
    ∃ h, (u.handOff before (some g)).mat =
      { u.mat with
        workF := some x.zone.fire, flags := rawFlags (u.slot n) x.zone.fire
        matched := some (u.segmentHeld (u.slot n) k x.zone.fire), handed := h } := by
  have hrecord : u.governingRecord = some x := by rw [State.governingRecord, hgov]; exact hx
  have htaken : u.matcherTakesIncident false true = u.ordinaryEvaluation x.zone.fire := by
    rw [State.matcherTakesIncident_same hgov hrecord hm, hfrozen, if_neg (by nofun), if_neg (by exact fun h => nomatch h.1), if_pos rfl]
  have hinc := (Frame.matcherTakesIncident u false true).inc
  have heng := u.matcherTakesIncident_eng false true
  rw [State.handOff_widened hold hgov hrecord hzone hdet]
  dsimp only
  rw [htaken] at hinc heng ⊢
  generalize ht : u.ordinaryEvaluation x.zone.fire = t at hinc heng ⊢
  have hincident (j : Nat) : t.handRow.incident j = u.incident j := by
    change t.inc.table.getD j none = _
    rw [hinc]
    rfl
  obtain ⟨hcount, hempty⟩ := State.alone_suspected (s := t.handRow) ((hincident g).trans hx) hcls fun j hj => (hincident j).trans (halone j hj)
  have hengine := State.engineTakesIncident_alert (s := t.handRow) ((congrArg Engine.state heng).trans halert) hcount hempty true t.rowChanged
  refine ⟨t.rowId, ?_⟩
  rw [State.handDetails_alert hengine.2, hengine.1]
  change { t.mat with handed := t.rowId } = _
  rw [← ht, State.ordinaryEvaluation_mat hn hk]

/-! ### Hot spots -/

/-- A hot spot on a line that is silent, or that is OK and awaits a re-fix, is taken with the line OK and the re-fix mark set. -/
theorem State.spot_refixes {s : State} (h : s.det.condition = .silent ∨ (s.det.refix = true ∧ s.mat.condition = .ok)) :
    s.detectionHeard.lineAlive.det.refix = true ∧ s.spotting.mat.condition = .ok := by
  have hspotting : s.spotting.mat.condition = s.detectionHeard.lineAlive.mat.condition := State.condition_abortEdit _ _
  rw [hspotting, State.lineAlive]
  by_cases hsilent : s.det.condition = .silent
  · have hchange : s.detectionHeard.det.condition ≠ .ok := by rw [show s.detectionHeard.det.condition = .silent from hsilent]; nofun
    rw [if_pos (by exact hsilent), State.setCondition_det, State.setCondition_mat hchange, if_neg hchange]
    exact ⟨Bool.or_true _, rfl⟩
  · rw [if_neg (by exact hsilent)]
    exact h.resolve_left hsilent

/-! ### The statement -/

/-- Settles O19: each hand-off to the matcher takes one of its cases, the engine leaves what the matcher holds in ALERT and after a re-fix, and
a report from a port brings no DETECTION into the record it widens. -/
theorem matchFollowsFire : Obligations.MatchFollowsFire := by
  unfold Obligations.MatchFollowsFire
  refine ⟨fun s c => ⟨fun h => ?fault, fun n hn h => ?silent, fun h => ?ok, fun d z g hg hr hm hf => ?frozen⟩,
    fun p f => ⟨rawFlags_sorted p f, mem_rawFlags p f⟩, fun s n g f hn hg hf => ⟨_, rfl, State.freshMatch_eq hn hg hf⟩,
    fun s d z g r hg hr => ⟨fun hm => ?moved, fun hm => ?refix, fun hm hf => ⟨fun hd hc => ?enters, fun hd => ⟨fun hz => ?stands, ?widened⟩⟩⟩,
    ?lodge, ?hotspot⟩
  case fault =>
    obtain ⟨heng, hbanks⟩ := s.detectionHeard.setCondition_rest .fault (some c.toNat)
    exact ⟨_, rfl, heng, hbanks, State.setCondition_mat_broken (s := s.detectionHeard) h (by nofun) _⟩
  case silent =>
    let w : State := { s with det := { s.det with silence := .stopped } }
    obtain ⟨heng, hbanks⟩ := w.setCondition_rest .silent s.det.breakAt
    have hexec : exec .detectionSilenceExpiry s = .next (w.setCondition .silent s.det.breakAt) :=
      congrArg Host.Outcome.next (if_pos (by rw [hn]; rfl))
    exact ⟨_, hexec, heng, hbanks, State.setCondition_mat_broken (s := w) h (by nofun) _⟩
  case ok =>
    obtain ⟨heng, hbanks⟩ := s.detectionHeard.setCondition_rest .ok none
    exact ⟨_, rfl, heng, hbanks, State.setCondition_mat_ok (s := s.detectionHeard) h _⟩
  case frozen =>
    obtain ⟨r, hr⟩ := Option.isSome_iff_exists.mp hr
    rw [State.matcherTakesIncident_same hg hr hm, hf, if_pos rfl]
  case moved =>
    rw [State.matcherTakesIncident_moved hg hr hm]
    exact State.freshMatch_settled hr rfl
  case refix =>
    rw [← hm]
    simp only [State.matcherTakesRefix, hr]
    exact State.freshMatch_settled hr rfl
  case enters => rw [State.matcherTakesIncident_same hg hr hm, hf, if_neg (by nofun), if_pos ⟨hd, hc⟩]
  case stands =>
    rw [State.matcherTakesIncident_same hg hr hm, hf, if_neg (by nofun), if_neg, hz, if_neg (by nofun)]
    exact fun k => hd.elim (fun h => by rw [h] at k; exact nomatch k.1) k.2
  case widened =>
    intro n k hz hn hk
    have htaken : s.matcherTakesIncident d z = s.ordinaryEvaluation r.zone.fire := by
      rw [State.matcherTakesIncident_same hg hr hm, hf, if_neg (by nofun), if_neg, if_pos hz]
      exact fun k => hd.elim (fun h => by rw [h] at k; exact nomatch k.1) k.2
    dsimp only
    rw [htaken, State.ordinaryEvaluation_eq hn hk]
    refine ⟨fun hk0 hlow hhigh => ?_, fun hout => ?_⟩
    · have hheld : s.segmentHeld (s.slot n) k r.zone.fire = k := if_pos ⟨hk0, hlow, hhigh⟩
      rw [hheld, if_pos rfl, ← hk]
    · have hlow : s.segmentHeld (s.slot n) k r.zone.fire = (rawFlags (s.slot n) r.zone.fire).headD 0 := if_neg (by omega)
      rw [hlow]
  case lodge =>
    intro s i tag ops f g n k r hready hlen hf hmode halert hclass hlt hg hr hcls halone hgap hwider hgov hm hfrozen hn hk
    have hlodging : s.lodging i = s.taking i := if_neg (by exact hmode)
    let w := s.taking i
    let x := r.update f s.uptime
    obtain ⟨hmat, hplans, hlib, heng, hugov⟩ := w.updated_registers f g r
    have htable : (w.updated f g r).inc.table = s.inc.table.set g (some x) := (w.updated_rest f g r).1
    have hnew : (w.updated f g r).incident g = some x := by
      rw [State.incident, htable, List.getD_eq_getElem?_getD, List.getElem?_set_self hlt, Option.getD_some]
    have hothers : ∀ j, j ≠ g → (w.updated f g r).incident j = none := by
      unfold State.incident
      rw [htable]
      exact others_set halone _
    have hdet : x.sources.contains .detection = r.sources.contains .detection := by
      change (joinSources r.sources [f.source]).contains .detection = _
      rw [lodgeReport_source hf]
      exact joinSources_port_detection _ i
    have hsuspected : x.cls = .suspected := by
      change r.cls.higher f.cls = _
      rw [hcls, hclass]
      rfl
    obtain ⟨h, hhanded⟩ := State.handOff_widened_mat (u := w.updated f g r) (before := s.inc.table) hr (hugov.trans hgov) hnew
      (Zone.union_grows hwider) hdet hsuspected hothers (by rw [heng]; exact halert) (by rw [hmat]; exact hm) (by rw [hmat]; exact hfrozen)
      (by rw [hplans]; exact hn) (by rw [hmat]; exact hk)
    have hslot : (w.updated f g r).slot n = s.slot n := by
      unfold State.slot
      rw [hlib]
      rfl
    have hplaced : ((s.lodging i).place f).1 = (w.updated f g r).handOff s.inc.table (some g) := by
      rw [hlodging]
      exact State.place_widened (w := w) hg hr halone hgap hwider hgov hnew
    refine ⟨_, _, exec_lodge hready hlen (by rw [halert]; nofun) hf tag, rfl, ?_⟩
    change ((s.lodging i).place f).1.mat.workF = _ ∧ ((s.lodging i).place f).1.mat.flags = _ ∧
      ((s.lodging i).place f).1.mat.frozen = _ ∧ ((s.lodging i).place f).1.mat.matched = _
    rw [hplaced, hhanded, hmat, hslot, State.segmentHeld, (w.updated_rest f g r).2]
    exact ⟨rfl, rfl, hfrozen, rfl⟩
  case hotspot =>
    intro s a b temp heng h1 h3 hline
    obtain ⟨hrefix, hok⟩ := State.spot_refixes hline
    have hexec := exec_hotspot h1 h3 heng a b
    rw [hrefix, if_pos rfl] at hexec
    generalize hu : (s.spotting.place (s.spotReport a.toNat b.toNat temp.toNat)).1 = u at hexec
    have hcondition : u.mat.condition = .ok := by rw [← hu, State.condition_place]; exact hok
    have hdet : u.det.refix = false := by rw [← hu, (IncFrame.place _ _).det, State.spotting_det]
    have hframe := Frame.takeRefix u
    refine ⟨_, hexec, by rw [hframe.det]; exact hdet, fun r n hr hn hsame => ?_⟩
    obtain ⟨g, hg⟩ : ∃ g, u.inc.governing = some g := by
      rw [State.governingRecord, hframe.inc] at hr
      cases hg : u.inc.governing with
      | none => rw [hg] at hr; exact nomatch hr
      | some g => exact ⟨g, rfl⟩
    have hrecord : u.governingRecord = some r := by
      rw [← hr]
      unfold State.governingRecord State.incident
      rw [hframe.inc]
    have hheld : u.mat.governing = some g := by rw [← State.takeRefix_governing, hsame, hframe.inc, hg]
    have hslot : u.takeRefix.slot n = u.slot n := by
      unfold State.slot
      rw [hframe.lib]
    rw [hslot]
    exact (State.takeRefix_mat hrecord hcondition (hframe.plans ▸ hn) hheld).2

end Sys2Proof.Machine
end


section
/-! SUPPORT. The engine's states: what entering each leaves in the registers, and the evaluation of the table, state by state (R46, R47,
R53 to R57). -/

namespace Sys2Proof.Machine

open Sys2Proof

/-! ### Entering a state -/

theorem State.enterQuiet_eng (s : State) :
    s.enterQuiet.eng = { s.eng with state := .quiet, latch := none, kept := none, stage := none, snapshot := none, heat := [] } := by
  unfold State.enterQuiet
  rw [State.setEngine_eng]
  rfl

/-- Entry to QUIET clears the limits, the held value and every bank's failures (R57). -/
theorem State.enterQuiet_clears (s : State) :
    s.enterQuiet.vel.limits = .allClear ∧ s.enterQuiet.vel.held = none ∧
      ∀ b ∈ s.enterQuiet.banks, b.failures = 0 ∧ b.lockoutPending = false := by
  unfold State.enterQuiet
  rw [State.setEngine_vel, State.setEngine_banks]
  refine ⟨rfl, rfl, fun b hb => ?_⟩
  obtain ⟨c, -, rfl⟩ := List.mem_map.mp hb
  exact ⟨rfl, rfl⟩

/-- Entry to ALERT. -/
theorem State.enterAlert_registers (s : State) :
    s.enterAlert.eng = { s.eng with state := .alert, latch := none, kept := none, stage := none, snapshot := none } ∧
      s.enterAlert.vel.limits = s.vel.limits ∧ s.enterAlert.vel.held = none := by
  unfold State.enterAlert
  rw [State.setEngine_eng, State.setEngine_vel]
  exact ⟨rfl, rfl, rfl⟩

/-- Entry to HOLD from another state takes the snapshot of the demands and ends ACTIVE. -/
theorem State.enterHold_fresh {s : State} (h : s.eng.state.isHold = false) (r : HoldReason) :
    (s.enterHold r).eng =
      { s.eng with
        state := .hold r, stage := none, snapshot := some (s.banks.map (fun (b : Bank) => (b.number, b.demand))) } := by
  unfold State.enterHold
  rw [State.setEngine_eng, if_neg (by rw [h]; nofun)]
  rfl

/-- A change of reason inside HOLD. -/
theorem State.enterHold_again {s : State} (h : s.eng.state.isHold = true) (r : HoldReason) :
    (s.enterHold r).eng = { s.eng with state := .hold r } := by
  unfold State.enterHold
  rw [State.setEngine_eng, if_pos h]

/-- The return from HOLD with the latch kept (R54). -/
theorem State.returnActive_registers (s : State) :
    s.returnActive.eng =
        { s.eng with
          state := .active, kept := none, snapshot := none
          stage := some (min 24 (max (s.eng.kept.getD 0) ((s.row.map Row.base).getD 1))) } ∧
      s.returnActive.vel.dwell = .running (siteDwell s.site) := by
  unfold State.returnActive
  dsimp only
  generalize ht : ({ s with eng := { s.eng with kept := none, snapshot := none, stage := _ } } : State) = t
  have hsite : (t.setEngine .active).site = s.site := by
    rw [State.site_congr (congrArg Library.inUse (Frame.setEngine t .active).lib), ← ht]
    rfl
  obtain ⟨heng, -, -, hvel⟩ := (t.setEngine .active).startDwell.formTarget_rest
  have hframe := DemandFrame.formThrust (t.setEngine .active).startDwell.formTarget
  refine ⟨?_, ?_⟩
  · rw [State.eng_formThrust, heng]
    change (t.setEngine .active).eng = _
    rw [State.setEngine_eng, ← ht]
  · rw [hframe.vel, hvel, ← hsite]
    rfl

/-! ### The table evaluated -/

/-- The count of CONFIRMED entries noted, as each evaluation of a live engine does first. -/
def State.counted (s : State) : State := { s with eng := { s.eng with confirmed := s.confirmedCount } }

section Evaluate
variable {s : State} {c : Latch}

/-- UNCONFIGURED and STARTUP evaluate nothing (R44, R45). -/
theorem State.evaluate_dead (h : s.eng.state = .unconfigured ∨ s.eng.state = .startup) (rerun : Bool) : s.evaluate rerun = s := by
  have hdead : s.eng.state.live = false := by rcases h with h | h <;> rw [h] <;> rfl
  exact if_neg (by rw [hdead]; nofun)

/-- An empty table. -/
theorem State.evaluate_empty (hlive : s.eng.state.live = true) (hempty : s.tableEmpty = true) (rerun : Bool) :
    s.evaluate rerun = if s.eng.state = .quiet ∨ s.eng.state = .resetHold then s.counted else s.counted.enterQuiet := by
  rw [State.evaluate, if_pos hlive]
  exact if_pos hempty

/-- A table with an entry. -/
theorem State.evaluate_entries (hlive : s.eng.state.live = true) (hempty : s.tableEmpty = false) (rerun : Bool) :
    s.evaluate rerun = s.counted.evaluateFull s.confirmedCount rerun (decide (s.eng.confirmed < s.confirmedCount)) := by
  rw [State.evaluate, if_pos hlive]
  exact if_neg (by rw [hempty]; nofun)

theorem State.latchedCleared_of (h : s.eng.latch = some c) : s.latchedCleared = (s.incident c.index).isNone := by
  rw [State.latchedCleared, h]
  rfl

theorem State.latchGoverns_of (h : s.eng.latch = some c) : s.latchGoverns = decide (s.inc.governing = some c.index) := by
  rw [State.latchGoverns, h]
  rfl

/-- An empty table takes ALERT, ACTIVE and HOLD to QUIET (R47). -/
theorem State.evaluate_toQuiet (hempty : s.tableEmpty = true)
    (h : s.eng.state = .alert ∨ s.eng.state = .active ∨ ∃ r, s.eng.state = .hold r) (rerun : Bool) :
    s.evaluate rerun = s.counted.enterQuiet := by
  rcases h with h | h | ⟨r, h⟩ <;> rw [State.evaluate_empty (by rw [h]; rfl) hempty, if_neg (by rw [h]; nofun)]

/-- SUSPECTED entries alone give ALERT from every state but ACTIVE with its incident still there (R46, R53 to R56). -/
theorem State.evaluate_toAlert (hempty : s.tableEmpty = false) (hnone : s.confirmedCount = 0)
    (h : s.eng.state = .quiet ∨ s.eng.state = .resetHold ∨ (∃ r, s.eng.state = .hold r) ∨
      (s.eng.state = .active ∧ s.latchedCleared = true)) (rerun : Bool) : s.evaluate rerun = s.counted.enterAlert := by
  rcases h with h | h | ⟨r, h⟩ | ⟨h, hcleared⟩
  case inr.inr.inr =>
    rw [State.evaluate_entries (by rw [h]; rfl) hempty, hnone, State.evaluateFull, show s.counted.eng.state = _ from h]
    exact if_pos hcleared
  case inr.inr.inl =>
    rw [State.evaluate_entries (by rw [h]; rfl) hempty, hnone, State.evaluateFull, show s.counted.eng.state = _ from h]
    cases r <;> rfl
  all_goals
    rw [State.evaluate_entries (by rw [h]; rfl) hempty, hnone, State.evaluateFull, show s.counted.eng.state = _ from h]
    rfl

theorem State.evaluate_inAlert (hempty : s.tableEmpty = false) (hnone : s.confirmedCount = 0) (h : s.eng.state = .alert) (rerun : Bool) :
    s.evaluate rerun = s.counted := by
  rw [State.evaluate_entries (by rw [h]; rfl) hempty, hnone, State.evaluateFull, show s.counted.eng.state = _ from h]
  rfl

/-- A CONFIRMED entry makes the commit attempt from QUIET, ALERT and RESET_HOLD (R46). -/
theorem State.evaluate_commits (hempty : s.tableEmpty = false) (hsome : 1 ≤ s.confirmedCount)
    (h : s.eng.state = .quiet ∨ s.eng.state = .alert ∨ s.eng.state = .resetHold) (rerun : Bool) :
    s.evaluate rerun = s.counted.commitAttempt := by
  have hcount : ¬ s.confirmedCount = 0 := by omega
  rcases h with h | h | h <;>
    rw [State.evaluate_entries (by rw [h]; rfl) hempty, State.evaluateFull, show s.counted.eng.state = _ from h] <;> exact if_neg hcount

/-- The evaluation in ACTIVE. -/
theorem State.evaluate_active (hempty : s.tableEmpty = false) (h : s.eng.state = .active) (hc : s.eng.latch = some c) (rerun : Bool) :
    s.evaluate rerun =
      if s.incident c.index = none then (if s.confirmedCount = 0 then s.counted.enterAlert else s.counted.dropLatch.commitAttempt)
      else if s.eng.confirmed < s.confirmedCount ∧ 2 ≤ s.confirmedCount then
        State.enterHold { s.counted with eng := { s.counted.eng with kept := s.eng.stage } } .multiFire
      else s.counted := by
  rw [State.evaluate_entries (by rw [h]; rfl) hempty, State.evaluateFull, show s.counted.eng.state = _ from h]
  dsimp only
  rw [State.latchedCleared_of (s := s.counted) hc]
  simp only [Option.isNone_iff_eq_none, decide_eq_true_iff]
  rfl

/-- The evaluation in HOLD(MULTI_FIRE). -/
theorem State.evaluate_multiFire (hempty : s.tableEmpty = false) (h : s.eng.state = .hold .multiFire) (hsome : 1 ≤ s.confirmedCount)
    (rerun : Bool) :
    s.evaluate rerun =
      if s.confirmedCount = 1 then (if s.latchGoverns then s.counted.returnActive else s.counted.dropLatch.commitAttempt)
      else if s.latchedCleared then s.counted.dropLatch
      else s.counted := by
  rw [State.evaluate_entries (by rw [h]; rfl) hempty, State.evaluateFull, show s.counted.eng.state = _ from h]
  exact if_neg (by omega)

/-- The evaluation in HOLD(DIRECTION_BLOCKED). -/
theorem State.evaluate_blocked (hempty : s.tableEmpty = false) (h : s.eng.state = .hold .directionBlocked) (hsome : 1 ≤ s.confirmedCount)
    (rerun : Bool) :
    s.evaluate rerun = if rerun ∨ 2 ≤ s.confirmedCount then s.counted.commitAttempt else s.counted := by
  rw [State.evaluate_entries (by rw [h]; rfl) hempty, State.evaluateFull, show s.counted.eng.state = _ from h]
  exact if_neg (by omega)

/-- The evaluation in HOLD(NO_PLAN). -/
theorem State.evaluate_noPlan (hempty : s.tableEmpty = false) (h : s.eng.state = .hold .noPlan) (hsome : 1 ≤ s.confirmedCount)
    (rerun : Bool) : s.evaluate rerun = if 2 ≤ s.confirmedCount then s.counted.enterHold .multiFire else s.counted := by
  rw [State.evaluate_entries (by rw [h]; rfl) hempty, State.evaluateFull, show s.counted.eng.state = _ from h]
  exact if_neg (by omega)

end Evaluate
end Sys2Proof.Machine
end


section
/-! The engine's states as commands move them (R45 to R47, R53 to R56). -/

namespace Sys2Proof.Machine

open Sys2Proof

/-! ### Tables with one record written -/

theorem State.tableEmpty_iff (s : State) : s.tableEmpty = true ↔ ∀ j, s.incident j = none := by
  unfold State.tableEmpty State.incident
  simp only [List.all_eq_true, Option.isNone_iff_eq_none, List.getD_eq_getElem?_getD]
  refine ⟨fun h j => ?_, fun h o ho => ?_⟩
  · cases hj : s.inc.table[j]? with
    | none => rfl
    | some o => exact h o (List.mem_of_getElem? hj)
  · obtain ⟨j, hj⟩ := List.getElem?_of_mem ho
    simpa [hj] using h j

theorem State.tableEmpty_false {s : State} {j : Nat} {r : Incident} (h : s.incident j = some r) : s.tableEmpty = false := by
  rw [← Bool.not_eq_true, State.tableEmpty_iff]
  intro hnone
  rw [hnone j] at h
  exact nomatch h

/-- The CONFIRMED entries of a table. -/
def confirmedEntry (o : Option Incident) : Bool := o.any (fun r => decide (r.cls = .confirmed))

theorem State.confirmedCount_eq (s : State) : s.confirmedCount = s.inc.table.countP confirmedEntry := List.countP_eq_length_filter.symm

theorem State.confirmedCount_suspected {s : State} (h : ∀ j r, s.incident j = some r → r.cls = .suspected) : s.confirmedCount = 0 := by
  rw [State.confirmedCount_eq, List.countP_eq_zero]
  intro o ho
  obtain ⟨j, hj⟩ := List.getElem?_of_mem ho
  cases o with
  | none => exact Bool.false_ne_true
  | some r =>
    have hr : r.cls = .suspected := h j r (by rw [State.incident, List.getD_eq_getElem?_getD, hj]; rfl)
    simp [confirmedEntry, hr]

section Written
variable {s v : State} {k : Nat} {r : Incident}

theorem State.incident_written (hv : v.inc.table = s.inc.table.set k (some r)) (hk : k < s.inc.table.length) : v.incident k = some r := by
  rw [State.incident, hv, List.getD_eq_getElem?_getD, List.getElem?_set_self hk, Option.getD_some]

theorem State.incident_unwritten {o : Option Incident} (hv : v.inc.table = s.inc.table.set k o) {j : Nat} (hj : j ≠ k) :
    v.incident j = s.incident j := by
  rw [State.incident, hv, List.getD_eq_getElem?_getD, List.getElem?_set_ne hj.symm, ← List.getD_eq_getElem?_getD]
  rfl

/-- A CONFIRMED record written where there was none raises the count by one. -/
theorem State.confirmedCount_raised (hv : v.inc.table = s.inc.table.set k (some r)) (hk : k < s.inc.table.length)
    (hr : r.cls = .confirmed) (hold : ∀ x, s.incident k = some x → x.cls = .suspected) : v.confirmedCount = s.confirmedCount + 1 := by
  have hnew : confirmedEntry (some r) = true := decide_eq_true hr
  have hwas : confirmedEntry s.inc.table[k] = false := by
    cases hx : s.inc.table[k] with
    | none => rfl
    | some x =>
      have hsuspected := hold x (by rw [State.incident, List.getD_eq_getElem?_getD, List.getElem?_eq_getElem hk, hx]; rfl)
      simp [confirmedEntry, hsuspected]
  rw [State.confirmedCount_eq, State.confirmedCount_eq, hv, List.countP_set hk, hnew, hwas]
  rfl

end Written

/-! ### A LODGE into a table of SUSPECTED records -/

/-- The state that the engine evaluates after a report has been written into the free entry `k` of a table. -/
structure State.Lodged (s : State) (f : FireReport) (k : Nat) (v : State) : Prop where
  eng : v.eng = s.eng
  table : v.inc.table = s.inc.table.set k (some (f.record s.uptime))
  plans : v.plans = s.plans
  lib : v.lib = s.lib
  governing : f.cls = .confirmed → v.inc.governing = some k
  matched : f.cls = .confirmed → s.mat.governing ≠ some k → v.mat.governing = some k ∧ v.mat.workF = some f.zone.fire

/-- What the matcher holds after a change of the governing index. -/
theorem State.matcherTakesIncident_holds {s : State} {g : Nat} {r : Incident} (hg : s.inc.governing = some g)
    (hr : s.governingRecord = some r) (hm : s.mat.governing ≠ some g) (d z : Bool) :
    (s.matcherTakesIncident d z).mat.governing = some g ∧ (s.matcherTakesIncident d z).mat.workF = some r.zone.fire := by
  rw [State.matcherTakesIncident_moved hg hr hm, State.settleFreeze_eq]
  obtain ⟨-, -, hfire, hgov, -⟩ := State.freshMatch_mat
    { s with mat := { s.mat with governing := some g, workF := some r.zone.fire, frozen := false } }
  exact ⟨hgov, hfire⟩

theorem State.lodged {s : State} {f : FireReport} {k : Nat} (hk : k < s.inc.table.length) (hfree : s.incident k = none)
    (hsuspected : ∀ j r, s.incident j = some r → r.cls = .suspected) :
    ∃ (v : State) (rerun : Bool), s.Lodged f k v ∧
      ((s.added f k).recomputeGoverning.handOff s.inc.table s.inc.governing).eng.Follows (v.evaluate rerun).eng := by
  let o := f.record s.uptime
  obtain ⟨d, z, rerun, v, hv, heng, hinc, hfollows⟩ := State.handOff_written s (s.added f k) k (some o) (Frame.raise _ _) rfl
    fun x _ hx => by rw [hfree] at hx; exact nomatch hx
  let u := (s.added f k).recomputeGoverning
  have hframe : Frame (s.setIncident k (some o)) (s.added f k) := Frame.raise _ _
  have hrecomputed := Frame.recomputeGoverning (s.added f k)
  have htaken := (Frame.matcherTakesIncident u d z).trans (Frame.handRow _)
  have huinc : u.inc = v.inc := by rw [hv, htaken.inc]
  have hgoverns : f.cls = .confirmed → v.inc.governing = some k := fun hc => by
    rw [hinc]
    exact governingOf_confirmed s.inc.table k o hk hc hsuspected
  refine ⟨v, rerun, ⟨heng, by rw [hinc], ?_, ?_, hgoverns, fun hc hm => ?_⟩, hfollows⟩
  · rw [hv, htaken.plans, hrecomputed.plans, hframe.plans]; rfl
  · rw [hv, htaken.lib, hrecomputed.lib, hframe.lib]; rfl
  · have hgov : u.inc.governing = some k := by rw [huinc]; exact hgoverns hc
    have hrecord : u.governingRecord = some o := by
      rw [State.governingRecord, hgov]
      exact State.incident_written (by rw [huinc, hinc]) hk
    have hheld : u.mat.governing ≠ some k := by rw [State.mat_recomputeGoverning]; exact hm
    rw [hv]
    exact State.matcherTakesIncident_holds hgov hrecord hheld d z

section Lodged
variable {s v : State} {f : FireReport} {k : Nat}

/-- A SUSPECTED record beside SUSPECTED ones gives ALERT. -/
theorem State.Lodged.suspected (h : s.Lodged f k v) (hk : k < s.inc.table.length) (hf : f.cls = .suspected)
    (hsuspected : ∀ j r, s.incident j = some r → r.cls = .suspected)
    (hstate : s.eng.state = .quiet ∨ s.eng.state = .alert ∨ s.eng.state = .resetHold) (rerun : Bool) :
    (v.evaluate rerun).eng.state = .alert := by
  have hentries := State.tableEmpty_false (State.incident_written h.table hk)
  have hnone : v.confirmedCount = 0 := by
    refine State.confirmedCount_suspected fun j r hr => ?_
    by_cases hj : j = k
    · rw [hj, State.incident_written h.table hk] at hr
      rw [← Option.some.inj hr]
      exact hf
    · exact hsuspected j r (by rw [← State.incident_unwritten h.table hj]; exact hr)
  rw [← h.eng] at hstate
  rcases hstate with hs | hs | hs
  case inr.inl => rw [State.evaluate_inAlert hentries hnone hs]; exact hs
  case inl => rw [State.evaluate_toAlert hentries hnone (.inl hs), (State.enterAlert_registers _).1]
  case inr.inr => rw [State.evaluate_toAlert hentries hnone (.inr (.inl hs)), (State.enterAlert_registers _).1]

/-- A CONFIRMED record beside SUSPECTED ones makes the commit attempt. -/
theorem State.Lodged.confirmed (h : s.Lodged f k v) (hk : k < s.inc.table.length) (hf : f.cls = .confirmed)
    (hsuspected : ∀ j r, s.incident j = some r → r.cls = .suspected)
    (hstate : s.eng.state = .quiet ∨ s.eng.state = .alert ∨ s.eng.state = .resetHold) (rerun : Bool) :
    v.confirmedCount = 1 ∧ v.evaluate rerun = v.counted.commitAttempt := by
  have hone : v.confirmedCount = 1 := by
    rw [State.confirmedCount_raised h.table hk hf (hsuspected k), State.confirmedCount_suspected hsuspected]
  exact ⟨hone, State.evaluate_commits (State.tableEmpty_false (State.incident_written h.table hk)) (Nat.le_of_eq hone.symm) (by rw [h.eng]; exact hstate) rerun⟩

/-- What the commit attempt after a first CONFIRMED record reads. -/
theorem State.Lodged.commits (h : s.Lodged f k v) (hk : k < s.inc.table.length) (hf : f.cls = .confirmed) (hm : s.mat.governing ≠ some k)
    (hone : v.confirmedCount = 1) {p : Nat} (hp : s.plans.active = some p) :
    v.counted.Commits k (f.record s.uptime) ((s.slot p).row ((rawFlags (s.slot p) f.zone.fire).headD 0)) := by
  obtain ⟨hgov, hfire⟩ := h.matched hf hm
  have hreads := State.commits_of (s := v.counted) (n := p) (Nat.le_of_eq hone) (by exact h.plans ▸ hp) (h.governing hf) hgov hfire
    (State.incident_written (v := v) h.table hk)
  have hslot : v.counted.slot p = s.slot p := State.slot_congr (by exact h.lib) p
  rwa [hslot] at hreads

end Lodged

/-! ### The end of STARTUP -/

theorem mem_setBank {b c : Bank} {l : List Bank} (h : c ∈ setBank b l) : c = b ∨ c ∈ l ∧ c.number ≠ b.number := by
  obtain ⟨x, hx, rfl⟩ := List.mem_map.mp h
  split
  · exact .inl rfl
  · next hne => exact .inr ⟨hx, hne⟩

section Startup
variable {s : State} {b : Bank} {n : Nat} {o : BankOut}

/-- An outcome that takes the last bank out of VERIFY ends STARTUP over an empty table: RESET_HOLD with a bank turning, QUIET without. -/
theorem State.lastVerified (hstate : s.eng.state = .startup) (hempty : s.tableEmpty = true) (hb : s.bank n = some b)
    (ho : o.bank.fixed = b.fixed) (ha : b.state.placed (s.arb.queued n) → o.agrees b.state (s.arb.queued n)) (hv : o.bank.state ≠ .verify)
    (hothers : ∀ c ∈ s.banks, c.number ≠ o.bank.number → c.state ≠ .verify) :
    (s.commitBank o).engineTakesBanks.eng.state =
      if (setBank o.bank s.banks).any (fun b => b.state.foundTurning) then .resetHold else .quiet := by
  have heng : (s.commitBank o).eng.state = .startup := by rw [State.commitBank_eng]; exact hstate
  have hverified : ∀ c ∈ (s.commitBank o).banks, c.state ≠ .verify := by
    rw [State.banks_commitBank]
    intro c hc
    rcases mem_setBank hc with rfl | ⟨hmem, hne⟩
    · exact hv
    · exact hothers c hmem hne
  have htable : (s.commitBank o).tableEmpty = true := by
    unfold State.tableEmpty
    rw [(Frame.commitBank s o hb ho ha).inc]
    exact hempty
  rw [State.engineTakesBanks_leaves heng hverified, State.leaveStartup_empty htable, (State.startupLeft_registers _).1,
    State.banks_commitBank]

/-- A drive found turning leaves VERIFY for a state in which its bank turns. -/
theorem takeReport_found_turning {x : BankContext} {r : Report} (hb : b.state = .verify) (hlive : x.live = false)
    (hr : (∃ d, r = .run d) ∨ r = .decel) : (takeReport x b r false).bank.state.foundTurning = true := by
  rcases hr with ⟨d, rfl⟩ | rfl
  · rw [takeReport_verify hb (by nofun), reconcileVerify_run _ d (.inl rfl)]
    cases hpending : b.lockoutPending with
    | true => rw [verifyRuns_pending (by exact hpending)]; rfl
    | false => rw [verifyRuns_free (by exact hpending), thenAct_running (.inl hlive) rfl]; rfl
  · rw [takeReport_verify hb (by nofun)]
    rfl

/-- A drive found at rest leaves VERIFY for LOCKED_OUT or OFF. -/
theorem takeReport_found_stopped {x : BankContext} (hb : b.state = .verify) (hlive : x.live = false) :
    (takeReport x b .stopped false).bank.state = .lockedOut ∨ (takeReport x b .stopped false).bank.state = .off := by
  rw [takeReport_verify hb (by nofun), reconcileVerify]
  split
  · exact .inl rfl
  · rw [thenAct_off (.inl hlive) rfl]
    exact .inr rfl

end Startup
end Sys2Proof.Machine
end


section
/-! The engine's states as commands move them: the statement. -/

namespace Sys2Proof.Machine

open Sys2Proof

section Commands
variable {s : State} {i : PortId} {n : Nat} {r : Incident} {c : Latch}

/-- A SUSPECTED record confirmed in ACTIVE, beside a latched one, raises the count to two or more: HOLD(MULTI_FIRE), the latch kept. -/
theorem State.confirmed_multiFire (hlt : n < s.inc.table.length) (hr : s.incident n = some r) (hsuspected : r.cls = .suspected)
    (hstate : s.eng.state = .active) (hlatch : s.eng.latch = some c) (hthere : s.incident c.index ≠ none)
    (hcount : s.eng.confirmed = s.confirmedCount) (hsome : 1 ≤ s.confirmedCount) (cause : Option UpdateCause) :
    (s.amend n (some (r.confirmedBy i s.uptime)) cause).eng.state = .hold .multiFire ∧
      (s.amend n (some (r.confirmedBy i s.uptime)) cause).eng.latch = some c := by
  obtain ⟨v, rerun, heng, hinc, hfollows⟩ := s.amend_follows n (some (r.confirmedBy i s.uptime)) cause (fun x y hx hy => by
    rw [hr] at hx
    rw [← Option.some.inj hx, ← Option.some.inj hy]
    exact ⟨rfl, rfl⟩)
  have htable : v.inc.table = s.inc.table.set n (some (r.confirmedBy i s.uptime)) := congrArg IncidentRegister.table hinc
  have hnew := State.incident_written htable hlt
  have hraised : v.confirmedCount = s.confirmedCount + 1 :=
    State.confirmedCount_raised htable hlt rfl fun x hx => by rw [hr] at hx; rw [← Option.some.inj hx]; exact hsuspected
  have hkept : v.incident c.index ≠ none := by
    by_cases hc : c.index = n
    · rw [hc, hnew]; nofun
    · rw [State.incident_unwritten htable hc]; exact hthere
  have hrose : v.eng.confirmed < v.confirmedCount ∧ 2 ≤ v.confirmedCount := by rw [heng, hcount]; omega
  have hheld : (v.evaluate rerun).eng.state = .hold .multiFire ∧ (v.evaluate rerun).eng.latch = some c := by
    rw [State.evaluate_active (State.tableEmpty_false hnew) (by rw [heng]; exact hstate) (c := c) (by rw [heng]; exact hlatch), if_neg hkept,
      if_pos hrose, State.enterHold_fresh (by change v.eng.state.isHold = false; rw [heng, hstate]; rfl)]
    exact ⟨rfl, by change v.eng.latch = _; rw [heng, hlatch]⟩
  exact ⟨hfollows.state.trans hheld.1, hfollows.latch.trans hheld.2⟩

/-- The only record cleared: QUIET. -/
theorem State.cleared_quiet (hlast : ∀ j, j ≠ n → s.incident j = none)
    (hstate : s.eng.state = .alert ∨ s.eng.state = .active ∨ ∃ h, s.eng.state = .hold h) (cause : Option UpdateCause) :
    (s.amend n none cause).eng.state = .quiet ∧ (s.amend n none cause).eng.latch = none ∧ (s.amend n none cause).eng.stage = none := by
  obtain ⟨v, rerun, heng, hinc, hfollows⟩ := s.amend_follows n none cause (fun x y _ hy => nomatch hy)
  have htable : v.inc.table = s.inc.table.set n none := congrArg IncidentRegister.table hinc
  have hempty : v.tableEmpty = true := by
    rw [State.tableEmpty_iff]
    intro j
    by_cases hj : j = n
    · rw [hj, State.incident, htable, List.getD_eq_getElem?_getD]
      by_cases hlt : n < s.inc.table.length
      · rw [List.getElem?_set_self hlt, Option.getD_some]
      · rw [List.getElem?_eq_none (by rw [List.length_set]; omega), Option.getD_none]
    · rw [State.incident_unwritten htable hj, hlast j hj]
  have hquiet := State.evaluate_toQuiet hempty (by rw [heng]; exact hstate) rerun
  have hregisters : (v.evaluate rerun).eng.state = .quiet ∧ (v.evaluate rerun).eng.latch = none ∧ (v.evaluate rerun).eng.stage = none := by
    rw [hquiet, State.enterQuiet_eng]
    exact ⟨rfl, rfl, rfl⟩
  obtain ⟨hq, hl, hs⟩ := hregisters
  exact ⟨hfollows.state.trans hq, hfollows.latch.trans hl, (hfollows.stage (by rw [hq]; nofun)).trans hs⟩

/-- Without a latch no outcome of a bank forms a thrust, so none sets a limit (R119). -/
theorem State.commitBank_limits (hlatch : s.eng.latch = none) (o : BankOut) : (s.commitBank o).vel.limits = s.vel.limits := by
  unfold State.commitBank
  dsimp only
  split
  · rw [State.vel_raiseAll]
  · rw [State.formThrust_limits_none (by rw [State.eng_raiseAll]; exact hlatch), State.vel_raiseAll]

theorem State.handDemand_limits (hlatch : s.eng.latch = none) (m : Nat) (d : Demand) : (s.handDemand m d).vel.limits = s.vel.limits := by
  unfold State.handDemand
  split
  · rfl
  · exact State.commitBank_limits hlatch _

theorem State.handOnes_limits (every : Bool) : ∀ (l : List (Nat × Demand)) (s : State), s.eng.latch = none →
    (l.foldl (State.handOne every) s).vel.limits = s.vel.limits
  | [], _, _ => rfl
  | p :: l, s, hlatch => by
    have hone : (State.handOne every s p).eng.latch = none ∧ (State.handOne every s p).vel.limits = s.vel.limits := by
      unfold State.handOne
      split
      · rw [(DemandFrame.handDemand s p.1 p.2).eng]
        exact ⟨hlatch, State.handDemand_limits hlatch p.1 p.2⟩
      · exact ⟨hlatch, rfl⟩
    exact (State.handOnes_limits every l _ hone.1).trans hone.2

theorem State.finish_limits (hlatch : s.eng.latch = none) : s.finish.vel.limits = s.vel.limits := by
  unfold State.finish
  split
  · exact State.handOnes_limits false _ s.refreshHeat hlatch
  · rfl

/-- RESUME leaves RESET_HOLD. -/
theorem State.resumed (s : State) :
    s.enterQuiet.finish.eng.state = .quiet ∧ s.enterQuiet.finish.eng.latch = none ∧ s.enterQuiet.finish.eng.stage = none ∧
      s.enterQuiet.finish.vel.limits = .allClear := by
  rw [State.finish_limits (by rw [State.enterQuiet_eng]), (DemandFrame.finish s.enterQuiet).eng, State.enterQuiet_eng]
  exact ⟨rfl, rfl, rfl, s.enterQuiet_clears.1⟩

end Commands

/-! ### A LODGE that brings the first CONFIRMED record, or a SUSPECTED one -/

section Lodge
variable {s v t : State} {f : FireReport} {i : PortId} {k : Nat}

/-- What a LODGE shows that takes the free entry `k`: the evaluation of the table with its record. -/
theorem State.lodge_shows (hmode : s.lib.mode ≠ .edit)
    (hfar : ∀ j r, s.incident j = some r → r.cls = .suspected ∧ siteM s.site < r.zone.gap f.zone) (hk : k < s.inc.table.length)
    (hk4 : k < 4) (hfree : s.incident k = none) (hbefore : ∀ j, j < k → s.incident j ≠ none) :
    ∃ v rerun, (s.taking i).Lodged f k v ∧ ((s.lodging i).place f).1.eng.Follows (v.evaluate rerun).eng := by
  have hlodging : s.lodging i = s.taking i := if_neg (by exact hmode)
  have hnear : [0, 1, 2, 3].find? ((s.taking i).near f) = none := State.near_none fun j r _ hr => (hfar j r hr).2
  have hplace := State.place_free hnear (State.free_first (s := s.taking i) hk4 hfree hbefore)
  obtain ⟨v, rerun, hlodged, hfollows⟩ := State.lodged (s := s.taking i) (f := f) hk hfree fun j r hr => (hfar j r hr).1
  refine ⟨v, rerun, hlodged, ?_⟩
  rw [hlodging, hplace]
  exact hfollows

/-- The commit attempt without a plan. -/
theorem State.commitAttempt_noPlan (hone : s.confirmedCount ≤ 1) (hplan : s.plans.active = none) :
    s.commitAttempt = s.enterHold .noPlan := by
  rw [State.commitAttempt, if_neg (by omega), if_pos hplan]

theorem State.commitAttempt_multiFire (htwo : 2 ≤ s.confirmedCount) : s.commitAttempt = s.enterHold .multiFire := if_pos htwo

/-- The commit attempt after a first CONFIRMED record, with a plan: the direction latched, or HOLD(DIRECTION_BLOCKED). -/
theorem State.Lodged.outcome (h : s.Lodged f k v) (hk : k < s.inc.table.length) (hf : f.cls = .confirmed) (hm : s.mat.governing ≠ some k)
    (hone : v.confirmedCount = 1) {p : Nat} (hp : s.plans.active = some p) {row : Row}
    (hrow : row = (s.slot p).row ((rawFlags (s.slot p) f.zone.fire).headD 0)) :
    (∀ d, s.commitDir (f.record s.uptime) row = some d →
      v.counted.commitAttempt.eng.state = .active ∧ v.counted.commitAttempt.eng.latch = some { dir := d, index := k }) ∧
      (s.commitDir (f.record s.uptime) row = none → v.counted.commitAttempt.eng.state = .hold .directionBlocked) := by
  subst hrow
  have hreads := h.commits hk hf hm hone hp
  have htrains : v.eng.trains = s.eng.trains := congrArg Engine.trains h.eng
  have hdir := State.commitDir_congr (s := s) (t := v.counted) htrains h.lib
  obtain ⟨hactive, hblocked⟩ := State.commitAttempt_reads hreads
  refine ⟨fun d hd => ?_, fun hd => ?_⟩
  · rw [hactive d ((hdir _ _).trans hd)]
    obtain ⟨hstate, hlatch, -⟩ := State.latchDirection_registers v.counted.matchedAnew d k
      ((s.slot p).row ((rawFlags (s.slot p) f.zone.fire).headD 0))
    exact ⟨hstate, hlatch⟩
  · rw [hblocked ((hdir _ _).trans hd), State.enterHold_state]

end Lodge

/-! ### The end of STARTUP, and the drive report that brings it -/

section Startup
variable {s : State}

/-- The state that STARTUP ends in over the banks found. -/
theorem State.startupLeft_state {e : EngineState}
    (hturning : (∃ b ∈ s.banks, (∃ x, b.state = .running x) ∨ ∃ x, b.state = .stopping x) → e = .resetHold)
    (hrest : (∀ b ∈ s.banks, (∀ x, b.state ≠ .running x) ∧ ∀ x, b.state ≠ .stopping x) → e = .quiet) :
    s.startupLeft.eng.state = e := by
  rw [s.startupLeft_registers.1]
  split
  · next h =>
    obtain ⟨b, hb, ht⟩ := List.any_eq_true.mp h
    exact (hturning ⟨b, hb, (BankState.foundTurning_iff _).mp ht⟩).symm
  · next h =>
    refine (hrest fun b hb => ?_).symm
    have hnot : ¬ b.state.foundTurning = true := fun ht => h (List.any_eq_true.mpr ⟨b, hb, ht⟩)
    rw [BankState.foundTurning_iff] at hnot
    exact ⟨fun x hx => hnot (.inl ⟨x, hx⟩), fun x hx => hnot (.inr ⟨x, hx⟩)⟩

/-- The state whose table the end of STARTUP evaluates. -/
def State.startupCounted (s : State) : State :=
  { s.startupLeft with eng := { s.startupLeft.eng with confirmed := s.confirmedCount } }

theorem State.leaveStartup_entries (h : s.tableEmpty = false) :
    s.leaveStartup.eng.state = (if s.confirmedCount = 0 then s.startupCounted.enterAlert else s.startupCounted.commitAttempt).eng.state := by
  rw [State.leaveStartup_evaluates h, State.startupLeft_evaluate h]
  rfl

theorem State.startupCounted_count (s : State) : s.startupCounted.confirmedCount = s.confirmedCount := by
  unfold State.confirmedCount
  rw [show s.startupCounted.inc = s.inc from s.startupLeft_registers.2.1]

theorem mem_setBank_self {b c : Bank} {l : List Bank} (hb : b ∈ l) (hn : b.number = c.number) : c ∈ setBank c l :=
  List.mem_map.mpr ⟨b, hb, if_pos hn⟩

/-- A poll answered by the drive of the last bank in VERIFY ends STARTUP over an empty table. -/
theorem exec_driveReport_startup {a hi lo : Byte} {u : FieldUnit} {r : Report} {b : Bank} (hstate : s.eng.state = .startup)
    (hphase : s.fl.phase = .window (.poll a.toNat)) (henum : s.fl.enumeration = .idle) (hu : s.fl.unit a.toNat = some u)
    (hkind : u.kind = .drive) (hwaits : s.fl.commandWaits a.toNat = false) (hr : Report.ofStatus hi lo = some r)
    (hb : s.bank u.number = some b) (hothers : ∀ c ∈ s.banks, c.number ≠ b.number → c.state ≠ .verify) (hempty : s.tableEmpty = true)
    {x : Bank} (hx : x = (takeReport (s.bankContext u.number) b r false).bank) (hv : x.state ≠ .verify) :
    ∃ t, exec (.driveReport a hi lo) s = .next t ∧
      t.eng.state = if (setBank x s.banks).any (fun b => b.state.foundTurning) then .resetHold else .quiet := by
  subst hx
  let w := s.exchanged a.toNat u.replied
  have hfixed := fixed_takeReport (s.bankContext u.number) b r false
  have hnumber : (takeReport (s.bankContext u.number) b r false).bank.number = b.number := Bank.fixed_number hfixed
  have hagrees := agrees_takeReport (s.bankContext u.number) b r false
  have hidle : (w.bankReport u.number r (s.fl.commandWaits a.toNat)).fl.enumeration = .idle := by
    rw [(Frame.bankReport w u.number r _).line]
    exact henum
  have hexec : exec (.driveReport a hi lo) s = .next (w.commitBank (takeReport (s.bankContext u.number) b r false)).engineTakesBanks := by
    change Host.Outcome.next (s.takeReply a hi lo) = _
    rw [State.takeReply_poll hphase (State.statusOk_drive hu hr), State.unitReplied_drive hu hkind hr, State.afterExchange_idle hidle,
      State.bankReport_some (by exact hb), hwaits]
    rfl
  exact ⟨_, hexec, State.lastVerified (s := w) hstate hempty hb hfixed (hagrees _ rfl) hv fun c hc hne => hothers c hc (hnumber ▸ hne)⟩

end Startup

/-- Settles O23: the evaluation is one branch per state; a command that writes the table shows the state and the latch of that evaluation. -/
theorem engineStatesMove : Obligations.EngineStatesMove := by
  unfold Obligations.EngineStatesMove
  refine ⟨?evaluation, ?lodge, ?requests, ?startup, ?report⟩
  case evaluation =>
    rintro s t rerun n rfl rfl
    refine ⟨fun h => State.evaluate_dead h rerun, fun hempty => ⟨fun h => ?stays, fun h => ?quiet⟩,
      fun hempty hnone => ⟨fun h => ?alert, fun h => State.evaluate_inAlert hempty hnone h rerun⟩,
      fun hempty hsome => ⟨fun h => State.evaluate_commits hempty hsome h rerun, fun c h hc => ?active, fun h => ?multiFire,
        fun h => ?blocked, fun h => ?noPlan⟩⟩
    case stays =>
      have hlive : s.eng.state.live = true := by rcases h with h | h <;> rw [h] <;> rfl
      exact (State.evaluate_empty hlive hempty rerun).trans (if_pos h)
    case quiet =>
      rw [State.evaluate_toQuiet hempty h]
      exact ⟨s.counted.enterQuiet_eng, s.counted.enterQuiet_clears⟩
    case alert =>
      rw [State.evaluate_toAlert hempty hnone h]
      exact s.counted.enterAlert_registers
    case active =>
      rw [State.evaluate_active hempty h hc]
      refine ⟨fun hgone => ?_, fun hthere hrose htwo => ?_, fun hthere hlow => ?_⟩
      · rw [if_pos hgone, if_neg (by omega)]
        rfl
      · rw [if_neg hthere, if_pos ⟨hrose, htwo⟩, State.enterHold_fresh (by change s.eng.state.isHold = false; rw [h]; rfl)]
        rfl
      · rw [if_neg hthere, if_neg (by omega)]
        rfl
    case multiFire =>
      rw [State.evaluate_multiFire hempty h hsome]
      refine ⟨fun c hone hc hgov => ?_, fun hone hgov => ?_, fun c htwo hc hgone => ?_, fun htwo hthere => ?_⟩
      · rw [if_pos hone, State.latchGoverns_of hc, if_pos (decide_eq_true hgov)]
        exact s.counted.returnActive_registers
      · rw [if_pos hone, if_neg]
        · rfl
        · rw [State.latchGoverns, Option.any_eq_true]
          rintro ⟨c, hc, hg⟩
          exact hgov c hc (of_decide_eq_true hg)
      · rw [if_neg (by omega), State.latchedCleared_of hc, hgone]
        rfl
      · rw [if_neg (by omega), if_neg]
        · rfl
        · rw [State.latchedCleared, Option.any_eq_true]
          rintro ⟨c, hc, hgone⟩
          exact hthere c hc (Option.isNone_iff_eq_none.mp hgone)
    case blocked =>
      rw [State.evaluate_blocked hempty h hsome]
      refine ⟨fun hagain => if_pos hagain, fun hrerun hone => if_neg ?_⟩
      rw [hrerun, hone]
      exact not_or.mpr ⟨Bool.false_ne_true, by omega⟩
    case noPlan =>
      rw [State.evaluate_noPlan hempty h hsome]
      refine ⟨fun htwo => ?_, fun hone => if_neg (by omega)⟩
      rw [if_pos htwo, State.enterHold_again (by change s.eng.state.isHold = true; rw [h]; rfl)]
      rfl
  case lodge =>
    intro s i tag ops f k hready hlen hf hmode hstate hfar hk hk4 hfree hbefore hm
    have hsuspected : ∀ j r, s.incident j = some r → r.cls = .suspected := fun j r hr => (hfar j r hr).1
    have hconfigured : s.eng.state ≠ .unconfigured := by rcases hstate with h | h | h <;> rw [h] <;> nofun
    have hexec := exec_lodge hready hlen hconfigured hf tag
    obtain ⟨v, rerun, hlodged, hshows⟩ := State.lodge_shows (i := i) hmode hfar hk hk4 hfree hbefore
    refine ⟨fun hclass => ⟨_, hexec, ?_⟩, fun hclass hplan => ⟨_, hexec, ?_⟩, fun p row hclass hp hrow => ?_⟩
    · exact hshows.state.trans (hlodged.suspected hk hclass hsuspected hstate rerun)
    · obtain ⟨hone, hcommits⟩ := hlodged.confirmed hk hclass hsuspected hstate rerun
      have hnone : v.counted.plans.active = none := (congrArg PlanSelector.active hlodged.plans).trans hplan
      refine hshows.state.trans ?_
      rw [hcommits, State.commitAttempt_noPlan (s := v.counted) (Nat.le_of_eq hone) hnone, State.enterHold_state]
    · obtain ⟨hone, hcommits⟩ := hlodged.confirmed hk hclass hsuspected hstate rerun
      obtain ⟨hactive, hblocked⟩ := hlodged.outcome hk hclass hm hone hp hrow
      rw [hcommits] at hshows
      exact ⟨fun d hd => ⟨_, hexec, hshows.state.trans (hactive d hd).1, hshows.latch.trans (hactive d hd).2⟩,
        fun hd => ⟨_, hexec, hshows.state.trans (hblocked hd)⟩⟩
  case requests =>
    intro s i tag n hready
    refine ⟨fun r c hn hlt hr hsuspected hstate hlatch hthere hcount hsome => ?confirm, fun r htoken hn hr hlast hstate => ?clear,
      fun htoken hstate hempty => ?resume, fun htoken hstate => ?refused⟩
    case confirm =>
      exact ⟨_, exec_request_free rfl hready (by decide) (State.confirmIncident_some (s := s.taking i) hn hr i),
        State.confirmed_multiFire (s := s.taking i) hlt hr hsuspected hstate hlatch hthere hcount hsome _⟩
    case clear =>
      have hexec : exec (.clear i tag [n]) s = _ :=
        exec_request_holder rfl hready htoken (State.clearIncident_some (s := s.taking i) hn hr)
      refine ⟨_, hexec, ?_⟩
      rw [State.respond_eng]
      exact State.cleared_quiet (s := s.taking i) hlast hstate (some .cleared)
    case resume =>
      have hwork : State.resumeQuiet (s.taking i) = ((s.taking i).enterQuiet.finish, doneBare) := if_pos ⟨hstate, hempty⟩
      obtain ⟨hquiet, hlatch, hstage, hlimits⟩ := (s.taking i).resumed
      exact ⟨_, exec_request_holder rfl hready htoken hwork, hquiet, hlatch, hstage, hlimits, State.respond_response ..⟩
    case refused =>
      have hwork : State.resumeQuiet (s.taking i) = (s.taking i, refuse .refusedState) := if_neg fun h => hstate h.1
      exact exec_request_holder rfl hready htoken hwork
  case startup =>
    intro s hstate
    refine ⟨fun hv => State.engineTakesBanks_verify hstate hv, fun e hverified hturning hrest => ?_⟩
    obtain ⟨-, hinc, hplans, hmat, hlib, htrains⟩ := s.startupLeft_registers
    have he := State.startupLeft_state hturning hrest
    have hcount := s.startupCounted_count
    rw [State.engineTakesBanks_leaves hstate hverified]
    refine ⟨fun hempty => (State.leaveStartup_empty hempty).trans he, fun hentries => ?_⟩
    rw [State.leaveStartup_entries hentries]
    refine ⟨fun hnone => ?_, fun htwo => ?_, fun hone hplan => ?_,
      fun hone => ⟨s.startupCounted, he, hinc, hplans, hmat, hlib, htrains, ?_⟩⟩
    · rw [if_pos hnone, (State.enterAlert_registers _).1]
    · rw [if_neg (by omega), State.commitAttempt_multiFire (hcount.symm ▸ htwo), State.enterHold_state]
    · have hnone : s.startupCounted.plans.active = none := (congrArg PlanSelector.active hplans).trans hplan
      rw [if_neg (by omega), State.commitAttempt_noPlan (by omega) hnone, State.enterHold_state]
    · rw [if_neg (by omega)]
  case report =>
    intro s a hi lo u r b hstate hphase henum hu hkind hwaits hr _ hb hv hothers hempty
    obtain ⟨hmem, hunit⟩ := State.bank_mem hb
    have hends := exec_driveReport_startup hstate hphase henum hu hkind hwaits hr hb hothers hempty rfl
    have hdead : (s.bankContext u.number).live = false := by change s.eng.state.live = false; rw [hstate]; rfl
    refine ⟨fun hfound => ?_, fun hstopped hrest => ?_⟩
    · have hturning := takeReport_found_turning hv hdead hfound
      obtain ⟨t, hexec, ht⟩ := hends fun h => by rw [h] at hturning; exact nomatch hturning
      have hnumber := Bank.fixed_number (fixed_takeReport (s.bankContext u.number) b r false)
      refine ⟨t, hexec, ht.trans (if_pos (List.any_eq_true.mpr ⟨_, mem_setBank_self hmem ?_, hturning⟩))⟩
      exact hnumber.symm
    · subst hstopped
      have hatRest := takeReport_found_stopped (b := b) hv hdead
      obtain ⟨t, hexec, ht⟩ := hends (by rcases hatRest with h | h <;> rw [h] <;> nofun)
      refine ⟨t, hexec, ht.trans (if_neg fun hany => ?_)⟩
      obtain ⟨c, hc, hturning⟩ := List.any_eq_true.mp hany
      rcases mem_setBank hc with rfl | ⟨hmemc, -⟩
      · rcases hatRest with h | h <;> rw [h] at hturning <;> exact nomatch hturning
      · rcases (BankState.foundTurning_iff _).mp hturning with ⟨x, hx⟩ | ⟨x, hx⟩
        · exact (hrest c hmemc).1 x hx
        · exact (hrest c hmemc).2 x hx

end Sys2Proof.Machine
end
